-- ==== Sys2Proof/Word.lean ====
section
/-! DEFINITION. The word types of the ZE-1536 (R5): a byte is 8 bits, a half 16, a word 32, a double 64; and the
identifiers by which the parts of the package are named. -/

namespace Sys2Proof

/-- A byte, the smallest addressable unit (R5). -/
abbrev Byte := BitVec 8
/-- A half (R5). -/
abbrev Half := BitVec 16
/-- A word: one general register (R13). -/
abbrev Word := BitVec 32
/-- A double: a `.d` pair, a residue register, a program counter (R5, R13). -/
abbrev Dword := BitVec 64
/-- A register index field (R63). -/
abbrev Reg := BitVec 8

end Sys2Proof
end

