-- ==== Sys2Proof/Syntax.lean ====
section
/-! DEFINITION. The syntax: ONE inductive `Instr` with one constructor for every row of spec/opcode_table.json. The
instruction rows carry the fields of R63–R69, R109, R147 and R183, with register numbers, immediates and sub-codes
already taken apart; the event rows carry what names the event (a core, a line, a command) and what the outside world
contributes to it. -/

namespace Sys2Proof

/-- TYPE suffixes (R67), in the order of their codes 0x00–0x1C. -/
inductive Ty where
  | none | s8 | s16 | s32 | s64 | z8 | z16 | z32 | z64 | b32 | b64 | f64 | f32 | f16 | bf16 | f8a | f8b
  | s4 | z4 | x2bf16 | x2f16 | x2s16 | x2z16 | x4s8 | x4z8 | x8s4 | x8z4 | x4f8a | x4f8b
  deriving DecidableEq, Repr

/-- Rounding modes (R68). -/
inductive Rnd where
  | rn | rz | rp | rm
  deriving DecidableEq, Repr

/-- Scopes (R69), narrowest first. -/
inductive Scope where
  | fib | shf | cls | die | pkg | sys
  deriving DecidableEq, Repr

/-- ORDER field (R69). -/
inductive Order where
  | plain | acq | rel | ar
  deriving DecidableEq, Repr

/-- Fence kinds (R69, R164). -/
inductive FenceKind where
  | sc | acq | rel | ar
  deriving DecidableEq, Repr

/-- Cache hints (R148). -/
inductive Hint where
  | none | last | first
  deriving DecidableEq, Repr

/-- Levels of `pref` (R161). -/
inductive PrefLevel where
  | l1 | l2 | llc
  deriving DecidableEq, Repr

/-- Conditions of `icmp` (R72). -/
inductive ICond where
  | eq | ne | lt | le | gt | ge
  deriving DecidableEq, Repr

/-- Conditions of `fcmp` (R72). -/
inductive FCond where
  | eq | ne | lt | le | gt | ge | un | or
  deriving DecidableEq, Repr

/-- Modes of `sshfl` (R72). -/
inductive ShflMode where
  | rank | rot | rev | grp
  deriving DecidableEq, Repr

/-- Modes of `svote` (R72). -/
inductive VoteMode where
  | count | mask | first | same
  deriving DecidableEq, Repr

/-- Operations of `sred` and `sscan` (R72). -/
inductive RedOp where
  | add | min | max | and | or | xor
  deriving DecidableEq, Repr

/-- Operations of `atom` and `red` (R71, R166). -/
inductive AtomOp where
  | add | min | max | and | or | xor | xchg | inc | dec | fadd | fmin | fmax
  deriving DecidableEq, Repr

/-- An enabled guard (R70). -/
structure Guard where
  inv : Bool
  reg : Reg
  bit : BitVec 5
  deriving DecidableEq, Repr

/-- The fields every instruction carries beside its operands: the guard (`none` when GEN is 0) and FSEL (R63). -/
structure Hdr where
  guard : Option Guard
  fsel : BitVec 2
  deriving DecidableEq, Repr

/-- The fields the `mma` forms share (R183). -/
structure MmaOps where
  ty : Ty
  acc : Reg
  a : Reg
  b : Reg
  shp : Reg
  str : Reg
  acs : BitVec 16
  asp : Bool
  bsp : Bool
  deriving DecidableEq, Repr

/-- What the root of trust finds in a chiplet's SPDM responses (R406). -/
structure SpdmVerdict where
  serial : BitVec 64
  chain : Bool
  ed25519 : Bool
  mldsa : Bool
  measurement : Bool
  revoked : Bool
  deriving DecidableEq, Repr

/-- Where the distributor finds a launch record (R332). -/
inductive LaunchSrc where
  /-- the body of the oldest entry on a context's mailbox pair 1 -/
  | mailbox (ctx : Nat)
  /-- a `qpush` on a queue register bound to the distributor, named by its outstanding operation -/
  | queue (op : Nat)
  deriving DecidableEq, Repr

/-- The array an uncorrectable error strikes (R324), or a unit whose next work an upset spoils (R105, R309–R311). -/
inductive ErrSite where
  /-- an L1, read-only cache or instruction cache line of a core -/
  | cleanCache (core line : Nat)
  /-- a register read by the fibre `fid` of sheaf `sheaf` -/
  | registerFile (sheaf fid : Nat)
  /-- a die L2, an LLC slice, a directory or HBM, where it holds the given line -/
  | other (line : Nat)
  /-- a core's scratchpad, at an address of the core scratchpad address space -/
  | scratchpad (core addr : Nat)
  /-- a swap store or a saved image, at a byte of a bank of a sheaf -/
  | swapStore (sheaf : Nat) (bank : Bool) (off : Nat)
  /-- a die's weight store -/
  | weightStore (die addr : Nat)
  /-- the commit-log entry of an operation -/
  | commitLog (op : Nat)
  /-- the fill of a line into an L1, read-only cache or instruction cache of a core, once or on the refetch too (R311) -/
  | fill (core line : Nat) (twice : Bool)
  /-- the two atomic units of a slice, over its next atomic (R309) -/
  | atomicUnits (slice : Nat)
  /-- the next results of a set, in the lane of a member, once or on the replay too (R105, R318) -/
  | setResult (sheaf set fid : Nat) (twice : Bool)
  /-- the next landing of an engine command, once or on the second forming too (R310) -/
  | landing (cmd : Nat) (twice : Bool)
  /-- a chiplet that its own monitor takes out of service (R330; log 79) -/
  | service (chiplet : Nat)
  deriving DecidableEq, Repr

/-- A chunk step's checks (R199, R321): which comparison failed and how often. -/
inductive StepCheck where
  | pass
  /-- one mismatch, recomputed and passed -/
  | once (row : Nat) (source : Nat)
  /-- a second mismatch, on the leader (`false`) or the follower (`true`) array; `source` as in R318; `chunks` of the
  current row had been added -/
  | twice (follower : Bool) (source : Nat) (chunks : Nat)
  deriving DecidableEq, Repr

/-- What a loss notice names (R384, R385). -/
inductive Loss where
  | package (fn : Nat)
  | node (fn : Nat)
  | range (fn lo hi : Nat)
  deriving DecidableEq, Repr

/-- A PCIe AtomicOp (R387). -/
inductive PcieAtomic where
  | fetchAdd | swap | cas
  deriving DecidableEq, Repr

/-- TDISP requests that move a TDI between states (R387, R388). -/
inductive TdispReq where
  | lock | start | stop
  deriving DecidableEq, Repr

/-- How a PCIe request arrives (R388): the port, the function it addresses, and the IDE stream with its T bit. -/
structure ReqId where
  port : Nat
  fn : Nat
  stream : Option Nat
  tbit : Bool
  deriving DecidableEq, Repr

/-- A translation the host returns (R293). -/
structure AtsGrant where
  base : Nat
  size : Nat
  host : Nat
  read : Bool
  write : Bool
  deriving DecidableEq, Repr

/-- One constructor for every row of the opcode table. -/
inductive Instr where
  -- timers of bring-up (R407, R413), of the fabric and of the mailboxes (R380, R393)
  | bootStageTimeout (chiplet : Nat)
  | challengeTimeout (chiplet : Nat)
  | retransmitTimeout (fn cls : Nat)
  | contextTeardown (fn cls : Nat)
  | mailboxRingWrite (ctx pair : Nat)
  -- bring-up, attestation and link keys (R406–R415)
  | powerOn
  | packageReset
  | kindlingStage
  | chipletAttestationStage
  | linkTrainingStage
  | firmwareStage
  | ready
  -- issue, completion, traps (R19–R58, R165, R231, R237, R394, R447)
  /-- `upset`: the lane a twin-issue mismatch strikes and whether the replay mismatches too (R318) -/
  | issueCycle (core quad : Nat) (upset : Option (Nat × Bool))
  | warpDissolution (core quad : Nat)
  | longLatencyComplete (op : Nat)
  | releaseComplete (sheaf fid : Nat)
  | userInterruptEntry (sheaf fid : Nat)
  | pendingMatrixTrap (sheaf fid : Nat)
  | serviceQueueAdmit (die : Nat)
  | batchRecord (batch : Nat)
  | sideLogReplay (core : Nat)
  | faultingLoadRetry (obj ext : Nat)
  | translationLineWrite (op : Nat)
  -- integer (R110–R120)
  | iadd (h : Hdr) (ty : Ty) (sat : Bool) (d a b : Reg)
  | iaddImm32 (h : Hdr) (ty : Ty) (sat : Bool) (d a : Reg) (imm : Word)
  | iaddImm64 (h : Hdr) (ty : Ty) (d a : Reg) (imm : Dword)
  | isub (h : Hdr) (ty : Ty) (sat : Bool) (d a b : Reg)
  | isubImm32 (h : Hdr) (ty : Ty) (sat : Bool) (d a : Reg) (imm : Word)
  | isubImm64 (h : Hdr) (ty : Ty) (d a : Reg) (imm : Dword)
  | imul (h : Hdr) (ty : Ty) (d a b : Reg)
  | imulImm32 (h : Hdr) (ty : Ty) (d a : Reg) (imm : Word)
  | imulh (h : Hdr) (ty : Ty) (d a b : Reg)
  | imad (h : Hdr) (ty : Ty) (d a b c : Reg)
  | iaddc (h : Hdr) (borrow : Bool) (d a b c : Reg)
  | imin (h : Hdr) (ty : Ty) (d a b : Reg)
  | iminImm32 (h : Hdr) (ty : Ty) (d a : Reg) (imm : Word)
  | imax (h : Hdr) (ty : Ty) (d a b : Reg)
  | imaxImm32 (h : Hdr) (ty : Ty) (d a : Reg) (imm : Word)
  | iabs (h : Hdr) (ty : Ty) (d a : Reg)
  | ineg (h : Hdr) (ty : Ty) (d a : Reg)
  | bAnd (h : Hdr) (ty : Ty) (d a b : Reg)
  | bAndImm32 (h : Hdr) (ty : Ty) (d a : Reg) (imm : Word)
  | bAndImm64 (h : Hdr) (ty : Ty) (d a : Reg) (imm : Dword)
  | bOr (h : Hdr) (ty : Ty) (d a b : Reg)
  | bOrImm32 (h : Hdr) (ty : Ty) (d a : Reg) (imm : Word)
  | bOrImm64 (h : Hdr) (ty : Ty) (d a : Reg) (imm : Dword)
  | bXor (h : Hdr) (ty : Ty) (d a b : Reg)
  | bXorImm32 (h : Hdr) (ty : Ty) (d a : Reg) (imm : Word)
  | bXorImm64 (h : Hdr) (ty : Ty) (d a : Reg) (imm : Dword)
  | bAndn (h : Hdr) (ty : Ty) (d a b : Reg)
  | bAndnImm32 (h : Hdr) (ty : Ty) (d a : Reg) (imm : Word)
  | bAndnImm64 (h : Hdr) (ty : Ty) (d a : Reg) (imm : Dword)
  | bNot (h : Hdr) (ty : Ty) (d a : Reg)
  | shl (h : Hdr) (ty : Ty) (d a b : Reg)
  | shlImm32 (h : Hdr) (ty : Ty) (d a : Reg) (n : BitVec 8)
  | shr (h : Hdr) (ty : Ty) (d a b : Reg)
  | shrImm32 (h : Hdr) (ty : Ty) (d a : Reg) (n : BitVec 8)
  | sra (h : Hdr) (ty : Ty) (d a b : Reg)
  | sraImm32 (h : Hdr) (ty : Ty) (d a : Reg) (n : BitVec 8)
  | rot (h : Hdr) (ty : Ty) (d a b : Reg)
  | rotImm32 (h : Hdr) (ty : Ty) (d a : Reg) (n : BitVec 8)
  | bfx (h : Hdr) (ty : Ty) (d a : Reg) (pos : BitVec 6) (len : BitVec 7)
  | bfi (h : Hdr) (ty : Ty) (d a b : Reg) (pos : BitVec 6) (len : BitVec 7)
  | popc (h : Hdr) (ty : Ty) (d a : Reg)
  | clz (h : Hdr) (ty : Ty) (d a : Reg)
  | ctz (h : Hdr) (ty : Ty) (d a : Reg)
  | brev (h : Hdr) (ty : Ty) (d a : Reg)
  | icmp (h : Hdr) (cc : ICond) (ty : Ty) (d a b : Reg)
  | icmpImm32 (h : Hdr) (cc : ICond) (ty : Ty) (d a : Reg) (imm : Word)
  | sel (h : Hdr) (ty : Ty) (d a b c : Reg) (bit : BitVec 5)
  -- floating point (R121–R126)
  | fadd (h : Hdr) (md : Rnd) (ty : Ty) (d a b : Reg)
  | faddImm32 (h : Hdr) (md : Rnd) (ty : Ty) (d a : Reg) (imm : Word)
  | faddImm64 (h : Hdr) (md : Rnd) (d a : Reg) (imm : Dword)
  | fsub (h : Hdr) (md : Rnd) (ty : Ty) (d a b : Reg)
  | fsubImm32 (h : Hdr) (md : Rnd) (ty : Ty) (d a : Reg) (imm : Word)
  | fsubImm64 (h : Hdr) (md : Rnd) (d a : Reg) (imm : Dword)
  | fmul (h : Hdr) (md : Rnd) (ty : Ty) (d a b : Reg)
  | fmulImm32 (h : Hdr) (md : Rnd) (ty : Ty) (d a : Reg) (imm : Word)
  | fmulImm64 (h : Hdr) (md : Rnd) (d a : Reg) (imm : Dword)
  | ffma (h : Hdr) (md : Rnd) (ty : Ty) (d a b c : Reg)
  | fmin (h : Hdr) (ty : Ty) (d a b : Reg)
  | fmax (h : Hdr) (ty : Ty) (d a b : Reg)
  | fcmp (h : Hdr) (cc : FCond) (ty : Ty) (d a b : Reg)
  | fclass (h : Hdr) (ty : Ty) (d a : Reg)
  | frnd (h : Hdr) (md : Rnd) (ty : Ty) (d a : Reg)
  | frcp (h : Hdr) (ty : Ty) (d a : Reg)
  | frsq (h : Hdr) (ty : Ty) (d a : Reg)
  | fsqrt (h : Hdr) (md : Rnd) (ty : Ty) (d a : Reg)
  | fexp2 (h : Hdr) (ty : Ty) (d a : Reg)
  | flog2 (h : Hdr) (ty : Ty) (d a : Reg)
  | fsin (h : Hdr) (ty : Ty) (d a : Reg)
  | fcos (h : Hdr) (ty : Ty) (d a : Reg)
  -- conversion, packing, residues, dot products (R127–R131, R201)
  | cvt (h : Hdr) (md : Rnd) (dt src : Ty) (d a : Reg)
  | cvtEf (h : Hdr) (md : Rnd) (dt : Ty) (d a : Reg) (e : BitVec 3) (j : BitVec 2)
  | eclr (h : Hdr) (e : BitVec 3)
  | pack (h : Hdr) (ty : Ty) (d a b c : Reg) (idx : BitVec 3)
  | unpack (h : Hdr) (ty : Ty) (d a : Reg) (idx : BitVec 3)
  | dot2 (h : Hdr) (md : Rnd) (ty : Ty) (d a b c : Reg)
  | dot4 (h : Hdr) (md : Rnd) (ty : Ty) (d a b c : Reg)
  | dot8 (h : Hdr) (ty : Ty) (d a b c : Reg)
  -- sets (R132–R137, R215–R217)
  | sshfl (h : Hdr) (mode : ShflMode) (ty : Ty) (d a b c : Reg) (set : BitVec 6)
  | svote (h : Hdr) (mode : VoteMode) (d a : Reg) (bit : BitVec 5) (word : BitVec 6) (set : BitVec 6)
  | sred (h : Hdr) (op : RedOp) (ty : Ty) (d a : Reg) (set : BitVec 6)
  | sscan (h : Hdr) (op : RedOp) (excl : Bool) (ty : Ty) (d a : Reg) (set : BitVec 6)
  | setCollectiveComplete (sheaf set : Nat)
  | sjoin (h : Hdr) (lock : Bool) (d : Reg) (set : BitVec 6)
  | sleave (h : Hdr) (set : BitVec 6)
  | sbar (h : Hdr) (set : BitVec 6)
  -- control (R138–R142)
  | bra (h : Hdr) (disp : Word)
  | brx (h : Hdr) (a : Reg)
  | brxL (h : Hdr) (d a : Reg)
  | call (h : Hdr) (d : Reg) (disp : Word)
  | ret (h : Hdr) (a : Reg)
  | fspawn (h : Hdr) (d a : Reg) (disp : BitVec 24) (p : Reg)
  | fend (h : Hdr)
  -- memory (R151–R164)
  | ld (h : Hdr) (ord : Order) (sc : Scope) (hint : Hint) (direct : Bool) (ty : Ty) (d a : Reg) (disp : Word)
  | st (h : Hdr) (ord : Order) (sc : Scope) (hint : Hint) (ty : Ty) (v a : Reg) (disp : Word)
  | ldRo (h : Hdr) (hint : Hint) (ty : Ty) (d a : Reg) (disp : Word)
  | lds (h : Hdr) (ty : Ty) (d a : Reg) (disp : Word)
  | sts (h : Hdr) (ty : Ty) (v a : Reg) (disp : Word)
  | ldw (h : Hdr) (ty : Ty) (d a : Reg) (disp : Word)
  | ldwNb (h : Hdr) (ty : Ty) (d a : Reg) (disp : BitVec 24) (st : Reg)
  | stx (h : Hdr) (ty : Ty) (v a : Reg) (disp : BitVec 24) (k : Reg)
  | pref (h : Hdr) (lvl : PrefLevel) (a : Reg) (disp : Word)
  | cwb (h : Hdr) (a : Reg) (disp : Word)
  | cinv (h : Hdr) (a : Reg) (disp : Word)
  | cflush (h : Hdr) (a : Reg) (disp : Word)
  | hoffImm32 (h : Hdr) (d a : Reg) (imm : Word)
  | hoffUnsigned (h : Hdr) (d a b : Reg)
  | hoffSigned (h : Hdr) (d a b : Reg)
  | hoffPair (h : Hdr) (d a b : Reg)
  | hoffImm64 (h : Hdr) (d a : Reg) (imm : Dword)
  | hnarrow (h : Hdr) (d a b c : Reg) (mask : BitVec 5)
  | hinfo (h : Hdr) (d a : Reg)
  | fence (h : Hdr) (kind : FenceKind) (sc : Scope)
  | atom (h : Hdr) (op : AtomOp) (ord : Order) (sc : Scope) (ty : Ty) (d a : Reg) (disp : BitVec 24) (b : Reg)
  | atomDecFloat (h : Hdr) (op : AtomOp) (ord : Order) (sc : Scope) (ty : Ty) (d a : Reg) (disp : BitVec 24) (b : Reg)
  | atomc (h : Hdr) (ord : Order) (sc : Scope) (ty : Ty) (d a b c : Reg) (disp : BitVec 24)
  | red (h : Hdr) (op : AtomOp) (ord : Order) (sc : Scope) (ty : Ty) (b a : Reg) (disp : Word)
  | redFloat (h : Hdr) (op : AtomOp) (ord : Order) (sc : Scope) (ty : Ty) (b a : Reg) (disp : Word)
  -- matrix (R178–R200)
  | mma (fsel : BitVec 2) (pair : Bool) (o : MmaOps)
  | mmaW4 (fsel : BitVec 2) (pair : Bool) (o : MmaOps) (prm : Reg)
  | mmaBp (fsel : BitVec 2) (o : MmaOps)
  | scacc (fsel : BitVec 2) (clr : Bool) (ty : Ty) (acc p sa sb shp : Reg) (acs pst : BitVec 16)
  | aclr (fsel : BitVec 2) (d : Reg) (m n : BitVec 8) (stride : BitVec 16)
  | mprog (d : Reg)
  | matrixOpStart (core : Nat)
  | followerClaim (core : Nat)
  | matrixRowComplete (core : Nat) (chk : StepCheck)
  | matrixOpComplete (core : Nat)
  -- barriers, monitor, queues (R206–R229)
  | binit (h : Hdr) (bar : BitVec 4) (expect : BitVec 16) (sc : BitVec 3)
  | barr (h : Hdr) (bar : BitVec 4) (d : Reg)
  | barx (h : Hdr) (bar : BitVec 4) (d b : Reg)
  | bwait (h : Hdr) (bar : BitVec 4) (p : Reg)
  | bphase (h : Hdr) (d : Reg) (bar : BitVec 4)
  | bphaseCnt (h : Hdr) (d : Reg) (bar : BitVec 4)
  | clswap (h : Hdr) (bar : BitVec 4) (d : Reg)
  | marm (h : Hdr) (acq : Bool) (ty : Ty) (d a : Reg) (disp : Word)
  | marmQ (h : Hdr) (q : BitVec 4)
  | mwait
  | qpush (h : Hdr) (decl : Bool) (q : BitVec 4) (a s : Reg)
  | qpop (h : Hdr) (d : Reg) (q : BitVec 4) (s : Reg)
  | qstat (h : Hdr) (d : Reg) (q : BitVec 4)
  | tnext (h : Hdr) (d : Reg)
  | step (h : Hdr)
  -- system (R230–R239)
  | nop
  | yield
  | bkpt (h : Hdr) (code : BitVec 16)
  | halt
  | svc (h : Hdr) (a : Reg) (num : BitVec 16)
  | trap (h : Hdr) (code : BitVec 15)
  | ttrap (h : Hdr) (code : BitVec 15)
  | eret (h : Hdr) (c : Reg)
  | eretEnd (h : Hdr) (c : Reg)
  | srd (h : Hdr) (d : Reg) (idx : BitVec 8)
  | swr (h : Hdr) (idx : BitVec 8) (a : Reg)
  | srFaultClear (h : Hdr) (a : Reg)
  | ksFrozenWrite (h : Hdr) (a : Reg)
  | ksKillWrite (h : Hdr) (a : Reg)
  | ksHtbaseWrite (h : Hdr) (len : Bool) (a : Reg)
  | uien (h : Hdr) (l a : Reg)
  | uidis
  -- launches, placement, pre-emption (R24, R319, R333–R354)
  | launchRecordAccept (src : LaunchSrc)
  | sheafPlacement (part : Nat)
  | sheafRetire (sheaf : Nat)
  | timeSliceExpiry (part : Nat)
  | waitingBudgetExhausted (part : Nat)
  | partitionHalted (part : Nat)
  | exchangeComplete (core : Nat)
  | spillComplete (core : Nat)
  | fillComplete (core : Nat)
  | spareRemap (core : Nat)
  -- checkers and reliability (R284, R303–R328)
  | intervalRecord (line : Nat)
  | clearanceTimeout (sheaf fid : Nat)
  | reorderCheck (core : Nat)
  | correctedError (mon : Nat) (key : Dword) (dom : Option Nat)
  | filterAgeing (mon : Nat)
  | marginTrialWindow (mon dom : Nat)
  | marginKeyExpiry (mon : Nat) (key : Dword)
  | uncorrectableError (site : ErrSite)
  | weightStoreRefresh (die : Nat)
  -- engines (R356–R375)
  | linearCopy (cmd : Nat)
  | stridedCopy (cmd : Nat)
  | csrGather (cmd : Nat)
  | multicast (cmd : Nat)
  | reduceCopy (cmd : Nat)
  | decryptCopyIn (cmd : Nat)
  | publish (cmd : Nat)
  | weightStoreLoad (cmd : Nat)
  | engineChunkLanded (cmd : Nat) (mismatches : Nat)
  | postReceive (cmd : Nat)
  | send (cmd : Nat)
  | cancelReceives (cmd : Nat)
  | messageArrival (ctx : Nat)
  | messageLanding (msg : Nat)
  | pullRequest (cmd : Nat)
  | placementReport (cmd : Nat)
  -- Falby links (R377)
  | flitReceive (port : Nat) (flit : List Byte)
  | retryRequest (port : Nat) (fseq : BitVec 12)
  | linkDown (port : Nat)
  -- coherence (R276–R280)
  | read (die line : Nat)
  | readForOwnership (die line : Nat)
  | upgrade (die line : Nat)
  | writeBack (die line : Nat)
  | invalidate (die line : Nat)
  | recall (die line : Nat)
  | acknowledgement (die line : Nat)
  | dataResponse (die line : Nat) (damage : List (Nat × Byte))
  | homeAtomic (op : Nat) (agree : Bool)
  | hbmFillComplete (line : Nat)
  -- fabric delivery, loss, revocation (R380–R386)
  | deliveryAcknowledgement (fn cls : Nat) (dctx : BitVec 12) (dseq : BitVec 16)
  | lossNotice (l : Loss)
  | revocationNotice (fn lo hi : Nat)
  -- ATS and PRI (R293–R295)
  | atsTranslationCompletion (pasid iova : Nat) (grant : Option AtsGrant)
  | pageRequestResponse (pasid iova : Nat) (success : Bool)
  | atsInvalidationRequest (pasid iova size : Nat)
  | invalidationCompletion
  -- hosts (R266, R387–R404)
  | hostWrite (r : ReqId) (dpa : BitVec 42) (data : List Byte)
  | hostRead (r : ReqId) (dpa : BitVec 42) (size : Nat)
  | hostAtomicop (r : ReqId) (op : PcieAtomic) (dpa : BitVec 42) (size : Nat) (x y : Dword)
  | ideIntegrityFailure (port stream : Nat)
  | rejectedRequestLimit (port fn : Nat)
  | mailboxSend (r : ReqId) (slot pair : Nat) (data : List Byte)
  | consumerIndexWrite (r : ReqId) (slot pair : Nat) (v : Word)
  | renew (port : Nat)
  | claim (port : Nat)
  | leaseExpiry
  | registerWrite (port : Nat) (off : BitVec 16) (v : Dword)
  | managementQueueWrite (port : Nat) (data : List Byte)
  | managementCompletion
  | notice
  | createPartition
  | destroyPartition
  | createContext
  | killContext
  | releaseFrozenMaster
  | requestPreemption
  | setContextRegisters
  | setSaveFaultReceiveAreas
  | setMailboxRings
  | writeReplacementClass
  | writeKeySlot
  | setEndpoint
  | writeRouteEntry
  | writeMonitorRegister
  | clearPoisonedLine
  | clearOrphanedPackage
  | setNoticeRing
  | resetComputeDie
  | restartServiceCore
  | stageFirmwareImage
  | commitStagedFirmware
  | setWithholdMask
  | tdispRequest (port fn : Nat) (req : TdispReq)
  | lockedConfigurationChange (port fn : Nat)
  | ideKmRequest (port stream : Nat) (tdi : Option Nat)
  | functionLevelReset (port fn : Nat)
  | powerCapThrottle (die : Nat)
  -- what the chiplets, stacks, ports and links answer during bring-up and after it (R405–R415)
  | hbmTrainingStage (up : BitVec 12)
  | pcieTrainingStage (up0 up1 : Bool) (first : Nat)
  | falbyTrainingStage (up : BitVec 16)
  | sidebandAnswer (chiplet : Nat)
  | attestationBegin (chiplet : Nat)
  | spdmResponse (chiplet : Nat) (v : SpdmVerdict)
  | keyExchangeComplete (chiplet : Nat)
  | linkTrained (chiplet : Nat)
  | chipletReset (chiplet : Nat)
  | linkAuthFailure (tx rx : Nat)
  | keyRollover (tx rx : Nat)
  | rolloverReceiverAck (tx rx : Nat)
  | switchFlit (tx rx : Nat)
  | switchAcknowledge (tx rx : Nat)
  | keyErase (tx rx : Nat)
  | overTemperature (chiplet : Nat) (tenths : BitVec 16)
  deriving DecidableEq, Repr

end Sys2Proof
end

