-- ==== Sys2Proof/Config.lean ====
section
/-! DEFINITION. What one ZE-1536 fixes and its manual does not state. Every constant here is opaque: no proof can see a
value of it, so a claim that mentions one holds whatever the value is. -/

namespace Sys2Proof.Config

/-- A value the manual leaves open, one for each number of the counter `State.free` (R8, log 17). -/
opaque freeBits : Nat → BitVec 64

/-- Which member of a stated set an unpredictable result takes (R8), one for each number of `State.free` (log 17). -/
opaque choice : Nat → Nat

/-- The approximating instructions (R96). -/
inductive ApproxOp where
  | rcp | rsq | exp2 | log2 | sin | cos
  deriving DecidableEq, Repr

/-- The result an approximating instruction is built to give for an operand (R84: fixed for each input and type). The
model uses it only where it lies within the bound of R96 (log 10). -/
opaque approx (op : ApproxOp) (ty : Ty) (bits : BitVec 64) : BitVec 64

/-- Whether an Ed25519 signature over the given bytes verifies under Limrek's root keys (R405, R411; log 12). -/
opaque ed25519Verifies (signed sig : List Byte) : Bool

/-- Whether an ML-DSA-65 signature over the given bytes verifies under Limrek's root keys (R405, R411; log 12). -/
opaque mldsaVerifies (signed sig : List Byte) : Bool

/-- The CRC-64 of R377, whose polynomial the manual does not give (log 14). -/
opaque crc64 (bytes : List Byte) : BitVec 64

/-- The four parity symbols of a Reed-Solomon codeword with these 124 data symbols, whose polynomials the manual does not give (R377;
log 14). -/
opaque rsParity (data : List Byte) : BitVec 32

/-- The array kind under which a port's corrections are reported, and the lane of a port that carries a byte of a flit: the manual gives
no numbers (R325, R377; log 14). -/
opaque flitArray : BitVec 8
opaque flitLane (byte : Nat) : Nat

/-- Which of the values written through the windows a read of a byte mapped through several returns (R269), by the event and
the byte (log 8). -/
opaque windowChoice (event byte : Nat) : Nat

/-- An index from which the set of a die L2 is taken, modulo its 32,768 sets; R276 gives size and ways but no index function
(log 15). -/
opaque l2Index (line : Nat) : Nat

/-- An index from which the set of an LLC slice is taken, modulo its 3,072 sets (R280, log 15). -/
opaque llcIndex (line : Nat) : Nat

/-- An index from which the set of an L1 is taken, modulo its 128 sets, by root object and line within it (R274, log 15). -/
opaque l1Index (obj : BitVec 64) (off : Nat) : Nat

/-- An index from which the set of a read-only or instruction cache is taken (R275, log 15). -/
opaque coreIndex (line : Nat) : Nat

/-- The binary logarithm, modulo 10, of the ways of a read-only or instruction cache: 512 lines in sets of as many ways; R275
gives the size and the replacement only (log 15). -/
opaque coreWays : Nat

/-- The serial number in a chiplet's fuses (R1, R405). -/
opaque fusedSerial (chiplet : Nat) : BitVec 64

/-- The device secret in a chiplet's fuses (R405); nothing outside the chiplet reads it. -/
opaque deviceSecret (chiplet : Nat) : BitVec 256

/-- Sets of a die L2: 64 MiB in 16 ways of 128-byte lines (R276). -/
def l2Set (line : Nat) : Nat := l2Index line % 32768

/-- Sets of an LLC slice: 6 MiB in 16 ways of 128-byte lines (R280). -/
def llcSet (line : Nat) : Nat := llcIndex line % 3072

/-- Sets of an L1: 128 sets of 8 ways (R274). -/
def l1Set (obj : BitVec 64) (off : Nat) : Nat := l1Index obj off % 128

/-- Ways of a read-only or instruction cache of 512 lines (R275). -/
def roWays : Nat := 2 ^ (coreWays % 10)

/-- Sets of a read-only or instruction cache (R275). -/
def roSet (line : Nat) : Nat := coreIndex line % (512 / roWays)

/-- Telemetry words of rails and chiplets (R415): measured values, by word index and time (log 18). -/
opaque telemetry (word time : Nat) : BitVec 32

/-- How many spare rows an array has, by the array's kind and instance (bits 63:40 of a row key); the manual gives no number
(R326, log 33). -/
opaque spareRows (array : Nat) : Nat

/-- Whether the host completes an untranslated read of the device with an error, by port, address and time (R448, log 80). -/
opaque hostReadFails (port addr time : Nat) : Bool

/-- How many Page Requests the host's PRI allocation lets the device keep outstanding (R293, log 28). -/
opaque priAllocation : Nat

/-- Where in a firmware image the descriptor of the service kernel lies; R411 gives the code after the manifest no layout
(log 34). -/
opaque serviceKernel (image : List Byte) : Nat

/-- Which device addresses are a partition's, beside the tables and areas that management commands name: software lays them out (R388; log 38). -/
opaque partitionMem : Nat → Nat → Bool

end Sys2Proof.Config
end

