-- ==== Sys2Proof/Machine/State.lean ====
section
/-! DEFINITION. The state of the package as plain data: every piece of state spec/ gives the ZE-1536, the model's own
fields (agenda, issue, counters), the reset state, and the reasons a step can stop. INVENTORY.md, heading "State", lists
each piece with its rule and reset value. -/

namespace Sys2Proof.Machine

/-- A fibre is named by its sheaf (a number the model gives each placed sheaf) and its identifier in it (R13). -/
structure FKey where
  sheaf : Nat
  fid : Nat
  deriving DecidableEq, Repr

/-- Where a byte lies once an access has been translated (R243, R286). -/
inductive Loc where
  /-- device memory, by device physical address in window 0, 1 or 2 (R268) -/
  | dev (dpa : Nat)
  /-- the register window, window 3 (R296) -/
  | regs (off : Nat)
  /-- an address that no DRAM backs (R268) -/
  | unbacked
  /-- host memory before the I/O die has translated it, by PASID and I/O virtual address (R293) -/
  | host (pasid iova : Nat)
  /-- host memory, by the address a translation completion gave (R293) -/
  | hostPa (addr : Nat)
  /-- the device's own structures in host memory, by port and untranslated address (R448; log 9) -/
  | hostUn (port addr : Nat)
  /-- a peer package's device memory (R286) -/
  | peer (pkg addr : Nat)
  /-- pool memory at a memory node (R286) -/
  | pool (node addr : Nat)
  /-- a die's weight store (R284) -/
  | weight (die addr : Nat)
  /-- a scratchpad byte of a sheaf; `shadow` names the bank that is the shadow bank at the access (R160) -/
  | scratch (sheaf : Nat) (shadow : Bool) (off : Nat)
  deriving DecidableEq, Repr

/-- What a waiting translation waits for (R291, R293). -/
inductive XWait where
  /-- an extent by object and index, and the address of its entry -/
  | extent (obj : BitVec 64) (ext entry : Nat)
  /-- a page of a PASID (R293, R294) -/
  | page (pasid page : Nat)
  deriving DecidableEq, Repr

/-- What a held release does once its conditions hold (R165, R205, R219, R230, R217, R141). -/
inductive RelAct where
  | fence (kind : FenceKind)
  /-- the releasing store, atomic or reduction with this operation number may now take effect -/
  | access (op : Nat)
  | arrive (bar bytes : Nat) (swap : Bool) (dst : Reg)
  /-- the `qpush` with this operation number is offered to its endpoint -/
  | push (op : Nat)
  | svc (batch : Nat)
  | sbar (set : Nat)
  /-- the new fibre of this identifier may be issued -/
  | spawn (fid : Nat)
  deriving DecidableEq, Repr

/-- Why a fibre is held (R27). -/
inductive Hold where
  | trap
  | set (set : Nat)
  | join (set : Nat)
  | svc (batch : Nat)
  | release (sc : Scope) (act : RelAct) (since : Nat)
  /-- a new fibre before its creator's release has completed (R141) -/
  | spawn
  deriving DecidableEq, Repr

/-- What a waiting fibre waits for (R27, R46). -/
inductive Wait where
  | bwait (bar : Nat) (phase : Word)
  | mwait
  /-- a faulting access, and its effective capability -/
  | fault (on : XWait) (cap : Dword)
  deriving DecidableEq, Repr

/-- The condition of a live fibre (R27), and the fibre that has executed `fend` and whose flags are not yet clear (R142). -/
inductive Cond where
  | batched (slot : Nat)
  | unbatched
  | waiting (w : Wait)
  | held (h : Hold)
  | ended
  deriving DecidableEq, Repr

/-- The clause a fibre stands in: its header's address and fields, how many of its instructions are left, and the bytes
the instruction it stands at occupies (R51, R57). -/
structure Clause where
  hdr : Nat
  left : Nat
  size : Nat
  flagA : Nat
  flagB : Nat
  yield : Bool
  deriving DecidableEq, Repr

/-- What a monitor is armed on (R213). -/
inductive Armed where
  | line (line : Nat) (cap : Dword)
  | queue (q : Nat)
  deriving DecidableEq, Repr

/-- A fibre's monitor; `fired` records an event since the arming (R214). -/
structure Monitor where
  on : Armed
  fired : Bool
  deriving DecidableEq, Repr

/-- A trap waiting for the fibre's next clause boundary (R447). -/
structure PendTrap where
  code : BitVec 16
  info : Dword
  /-- the address of the instruction that issued the operation, and the object and extent concerned (R402) -/
  pc : Dword
  obj : BitVec 64 := 0
  ext : Nat := 0
  deriving DecidableEq, Repr

/-- A fibre (R13, R27, R40, R57, R213, R235–R236, R42). -/
structure Fibre where
  key : FKey
  core : Nat
  depth : Nat
  pc : Dword
  predReg : Reg
  winBase : Nat
  regs : List Word
  residues : List Dword
  flags : List Nat
  cond : Cond
  clause : Option Clause
  /-- ks.ctxflags, ks.htbase and ks.htlen of the context as they stood at the fibre's last clause boundary (R42) -/
  inFlags : Word
  inHtbase : Dword
  inHtlen : Nat
  faultCode : BitVec 16
  faultOpnd : BitVec 8
  faultValid : Bool
  monitor : Option Monitor
  uiEn : Bool
  uiPend : Bool
  uiHandler : Dword
  uiLink : Reg
  pendTraps : List PendTrap
  ksCtx : BitVec 24
  ksTrapvec : Dword
  ksEpc : Dword
  ksEcause : Word
  epcWritten : Bool
  /-- the model's number for it: an identifier may name another fibre once it has ended (R142) -/
  inc : Nat := 0
  deriving DecidableEq, Repr

/-- A formed warp (R27–R30, R343): members in ascending lane order. -/
structure Warp where
  core : Nat
  quad : Nat
  slot : Nat
  members : List FKey
  launch : Nat
  age : Nat
  passed : Nat
  skip : Bool
  dissolve : Bool
  deriving DecidableEq, Repr

/-- A quadrant's count of formation opportunities without a free slot (R30). -/
structure QuadSt where
  core : Nat
  quad : Nat
  starved : Nat
  deriving DecidableEq, Repr

/-- A barrier object (R22) with the swap request and readiness of a cluster share (R203, R211). -/
structure Barrier where
  phase : BitVec 32
  expect : BitVec 16
  arrived : BitVec 16
  scope : BitVec 3
  init : Bool
  pending : BitVec 40
  swap : Bool
  ready : Bool
  deriving DecidableEq, Repr

/-- Which set instruction a member executed: matched instructions must agree in it, that is in major opcode, MINOR, MOD and
TYPE (R133). -/
inductive SetKind where
  | shfl (mode : ShflMode) (ty : Ty)
  | vote (mode : VoteMode)
  | red (op : RedOp) (ty : Ty)
  | scan (op : RedOp) (excl : Bool) (ty : Ty)
  | bar
  deriving DecidableEq, Repr

/-- One execution of a set instruction by one member: its contribution (R133). -/
structure SetAct where
  kind : SetKind
  contributes : Bool
  dst : Reg
  a : Dword
  b : Word
  c : Dword
  bit : Nat
  word : Nat
  deriving DecidableEq, Repr

/-- A member of a set and its set instructions not yet completed, oldest first (R133). -/
structure SetMember where
  fid : Nat
  acts : List SetAct
  deriving DecidableEq, Repr

/-- A live set (R31–R33, R215): members in ascending fibre identifier. -/
structure JoinSet where
  id : Nat
  lock : Bool
  members : List SetMember
  /-- a member in whose lane the two halves will differ over the set's next results, and whether on the replay too (R105, R318) -/
  upset : Option (Nat × Bool) := none
  deriving DecidableEq, Repr

/-- A queue register's two sides (R218): outbound commands are kept with the engines, by number; inbound entries here,
and the entries an endpoint holds while the inbound side is full (R221). -/
structure QueueReg where
  bind : Nat
  inb : List (BitVec 512)
  inHeld : List (BitVec 512)
  /-- the event at which an engine last started a command of it (R355) -/
  served : Nat
  /-- objects whose shadow writes by this register met a violated interval, each with the line (R290, R314, R364) -/
  stained : List (BitVec 64 × Nat)
  deriving DecidableEq, Repr

/-- A scratchpad bank whose bytes are unpredictable but for those written since (R211, R264): from the free values at `seed`. -/
structure BankFree where
  seed : Nat
  written : List Nat
  deriving DecidableEq, Repr

/-- A run of device memory whose bytes the device has written in a layout that is not architectural, but for those written since:
an image in a save area, a receive area (R352, R372; log 78). -/
structure AreaImage where
  base : Nat
  size : Nat
  seed : Nat
  written : List Nat
  deriving DecidableEq, Repr

/-- A placed sheaf (R20, R25, R35, R160, R272, R336). -/
structure Sheaf where
  uid : Nat
  launch : Nat
  index : Nat
  core : Nat
  slot : Nat
  ctx : Nat
  quota : Nat
  regs : Nat
  granules : Nat
  baseLive : Nat
  baseShadow : Nat
  /-- false: bank 0 of the sheaf's storage is live; true: bank 1 is -/
  bank : Bool
  /-- banks 0 and 1 where an exchange has left their bytes unpredictable (R211) -/
  free0 : Option BankFree
  free1 : Option BankFree
  stook : Nat
  priv : Bool
  saved : Bool
  /-- when it was saved (R316) -/
  savedAt : Nat
  bars : List Barrier
  sets : List JoinSet
  queues : List QueueReg
  uiPending : Bool
  /-- the depth and the register window reserved for each identifier below the quota (R25, R336) -/
  depths : List Nat
  windows : List Nat
  deriving DecidableEq, Repr

/-- A kernel descriptor's fields (R331). -/
structure Desc where
  qbind : List Nat
  pers : Bool
  stook : Nat
  granules : Nat
  regs : Nat
  quota : Nat
  fibres : Nat
  entry : Nat
  deriving DecidableEq, Repr

/-- Where a launch's completion goes (R334): the issuing queue register, or mailbox pair 1. -/
inductive LaunchBack where
  | queue (sheaf q : Nat)
  | mailbox
  | none
  deriving DecidableEq, Repr

/-- The phase of a launch: waiting to start a step, or running one (R37, R342). -/
inductive LaunchPhase where
  | starting
  | running
  deriving DecidableEq, Repr

/-- A schedule table of one core (R38): the rank of the core's die and the core's index on it, the package-wide index once a
step holds its die, the tile indices as they were when the launch was accepted, where each lies, and the cursor. -/
structure Sched where
  rank : Nat
  idx : Nat
  core : Nat
  tiles : List (Word × Loc)
  cursor : Nat
  deriving DecidableEq, Repr

/-- An accepted launch (R37, R50, R229, R332–R334). -/
structure Launch where
  uid : Nat
  ctx : Nat
  part : Nat
  id : Word
  prio : Nat
  minDies : Nat
  maxDies : Nat
  sheafs : Nat
  desc : Desc
  args : Dword
  table : Dword
  codeCap : Dword
  codeLen : Nat
  /-- the code object as it stood when the launch began, by offset (R50) -/
  code : List Host.Cell
  /-- where the code object's extents lie now: object offset, length and place -/
  codeMap : List (Nat × Nat × Loc)
  back : LaunchBack
  phase : LaunchPhase
  step : Nat
  /-- where the fibres of the present step start (R229, R331) -/
  start : Nat
  held : List Nat
  next : Nat
  cont : Option Nat
  stray : Nat
  scheds : List Sched
  deriving DecidableEq, Repr

/-- A key slot (R365). -/
structure KeySlot where
  slot : Nat
  key : BitVec 256
  fixed : BitVec 32
  last : Dword
  deriving DecidableEq, Repr

/-- A mailbox pair (R391–R393): entries waiting for the device, entries accepted for the host and not yet written to its
ring, and the counts. -/
structure Mailbox where
  h2d : List (BitVec 512)
  h2dCount : Nat
  d2h : List (BitVec 512)
  d2hAccepted : Nat
  produced : Nat
  consumed : Nat
  ring : Option Nat
  status : Nat
  deriving DecidableEq, Repr

/-- A context (R41–R45, R344–R347, R365, R391, R398, R402). -/
structure Ctx where
  id : Nat
  gen : Nat
  part : Nat
  slot : Nat
  fn : Nat
  prioCeil : Nat
  htbase : Dword
  htlen : Nat
  tslice : Word
  wbudget : Word
  flags : Word
  frozen : Bool
  faulted : Bool
  /-- the base of the save area (R352) -/
  saveBase : Nat
  recvBase : Nat
  keys : List KeySlot
  sliceStart : Nat
  /-- the slice length and budget in force since the slice began or the restore (R42) -/
  sliceLen : Nat
  budget : Nat
  /-- nanoseconds charged, by core (R346) -/
  charge : List (Nat × Nat)
  snapSeq : Nat
  faultPos : Nat
  mail0 : Mailbox
  mail1 : Mailbox
  runnableAt : Nat
  /-- fibres whose side-log entries were discarded, with the faulting capability (R174) -/
  discarded : List (FKey × Dword)
  deriving DecidableEq, Repr

/-- A partition (R344, R398, R400). -/
structure Part where
  num : Nat
  cores : List Nat
  /-- the cores it was created with, which fix the layout of its contexts' save areas (R352) -/
  made : List Nat
  objTable : Nat
  withhold : BitVec 8
  resident : Option Nat
  incoming : Option Nat
  halting : Bool
  /-- dies on which a weight-store load holds placement (R367), by command -/
  wsHold : List (Nat × Nat)
  deriving DecidableEq, Repr

/-- States of a swap store (R353). -/
inductive Swap where
  | empty | staging | staged | exchanging | spilling
  deriving DecidableEq, Repr

/-- A core's standing (R239, R319, R353). -/
structure CoreSt where
  core : Nat
  fenced : Bool
  lost : Bool
  halted : Bool
  swap : Swap
  swapCtx : Option Nat
  outgoing : Option Nat
  deriving DecidableEq, Repr

/-- Kinds of outstanding operation (R61, R152, R213). -/
inductive OpKind where
  | ld | ldRo | lds | ldw | ldwNb | st | sts | stx | atom (op : AtomOp) | atomc | red (op : AtomOp)
  | pref (lvl : PrefLevel) | cwb | cinv | cflush | marm | hnarrow | qpush | qpop
  deriving DecidableEq, Repr

/-- How far an operation has come (R301). -/
inductive Stage where
  | issued | atDie | atPkg | atSys
  deriving DecidableEq, Repr

/-- An outstanding operation of one fibre (R19, R62, R155) (DEDUCED; log 7). -/
structure MemOp where
  id : Nat
  key : FKey
  core : Nat
  pc : Dword
  kind : OpKind
  ty : Ty
  ord : Order
  sc : Scope
  hint : Hint
  cls : Nat
  loc : Loc
  /-- the object and extent through which it was translated, the translation lines read for it (R288, R289), and the PASID
  and I/O virtual address of a host access (R295) -/
  obj : BitVec 64
  ext : Nat
  xl : List Nat
  iova : Option (Nat × Nat)
  /-- the offset within the root object -/
  roff : Nat
  /-- the step in which it was issued: the operations of one warp instruction share it (R170) -/
  grp : Nat
  size : Nat
  val : Dword
  val2 : Dword
  cap : Dword
  dst : Option Reg
  dst2 : Option Reg
  flags : List Nat
  /-- a releasing operation may take effect only once its release conditions hold (R165) -/
  released : Bool
  /-- an atomic at the home slice, a peer's home or a memory node has been executed there (R169, R279) -/
  homeDone : Bool
  /-- its home slice is recalling every copy of the line before it executes it (R279) -/
  recalling : Bool
  /-- a load that allocates no L1 line (R148) -/
  direct : Bool
  /-- where its fibre stood in its clause, so that a trap at completion resumes there (R57, R175) -/
  clause : Option Clause
  unit : BitVec 512
  queue : Nat
  decl : Bool
  /-- its fibre's number, and whether that fibre has ended: its identifier may name another by now (R142) -/
  inc : Nat := 0
  gone : Bool
  /-- its place among the entries that have left the side log, 0 for an operation that was never in it (R173) -/
  replay : Nat
  deriving DecidableEq, Repr

/-- A side-log entry (R173). -/
structure SideEntry where
  core : Nat
  ctx : Nat
  obj : BitVec 64
  ext : Nat
  /-- SPACE and HOME of the root, with which the entry is translated again (R287) -/
  space : Nat
  home : Nat
  on : XWait
  op : MemOp
  deriving DecidableEq, Repr

/-- What a commit-log entry records (R300): kind of access; `loose` is a read of `ld.ro` or `ldw`, which stands outside the memory
model (R242). -/
inductive AccKind where
  | read | loose | write | rmw | fence (k : FenceKind) | arrive | sbar | push | pop | svc
  deriving DecidableEq, Repr

/-- A commit-log entry (R300, R301): event numbers at which it returned and was performed at each scope; for a read, at which
the write that it returned was so performed (R252, item 2). -/
structure Access where
  seq : Nat
  op : Nat
  key : FKey
  core : Nat
  pc : Dword
  kind : AccKind
  ord : Order
  sc : Scope
  /-- the line; other places have numbers above 2^60, and 2^100 stands for none -/
  line : Nat
  /-- the bytes of it that are accessed: offset and number (R243) -/
  off : Nat
  size : Nat
  returned : Option Nat
  atDie : Option Nat
  atPkg : Option Nat
  atSys : Option Nat
  /-- the interval in which it was performed or served, and when (R312, R313) -/
  interval : Option (BitVec 32)
  since : Nat := 0
  checked : Bool
  deriving DecidableEq, Repr

/-- An interval in which an access was performed or served that has no entry in the commit log, or none any more, and which is not
yet cleared; and when it was (R300, R312, R313). -/
structure Owed where
  key : FKey
  line : Nat
  interval : BitVec 32
  since : Nat := 0
  deriving DecidableEq, Repr

/-- A line of a core's read-only cache (R156, R275), the event of its last use, and the interval of the die L2's copy. -/
structure RoLine where
  core : Nat
  line : Nat
  data : List Byte
  iv : BitVec 32
  used : Nat
  deriving DecidableEq, Repr

/-- A line of a core's instruction cache (R275), and the event of its last use. -/
structure IcLine where
  core : Nat
  line : Nat
  used : Nat
  deriving DecidableEq, Repr

/-- A resolved extent in a core's cache, or (core none) in its die's, or a handle-table entry in a core's, tagged with its
translation lines (R288). The extent or entry that it holds is what those lines hold: the snoop keeps it so (R289; log 71). -/
structure XEntry where
  die : Nat
  core : Option Nat
  ctx : Nat
  handle : Bool
  /-- the object identifier, or the handle -/
  obj : BitVec 64
  ext : Nat
  shadow : Bool
  lines : List Nat
  deriving DecidableEq, Repr

/-- The four operations of the matrix queue beside their parameters (R183–R191). -/
inductive MatKind where
  | mma | mmaW4 | mmaBp | scacc (clr : Bool) | aclr
  deriving DecidableEq, Repr

/-- A tile operand: the root and root offset that its capability resolved to at issue, with the capability itself, or a
scratchpad offset (R183, R186). -/
inductive TileRef where
  | mem (obj : BitVec 64) (space home cls off : Nat) (cap : Dword)
  | scratch (off : Nat)
  deriving DecidableEq, Repr

/-- An entry of a core's matrix queue (R178–R181, R197, R200). For `scacc`, `a` is the tile P, `sa` and `sb` the offsets of
the row and column scales; `stopped` says that it is saved with its context. -/
structure MatOp where
  id : Nat
  core : Nat
  sheaf : Nat
  ctx : Nat
  pc : Dword
  elected : FKey
  /-- the elected fibre's number, and whether it has ended: its identifier may name another by now (R198) -/
  inc : Nat := 0
  gone : Bool
  /-- each member's counted flags (R178) -/
  counted : List (FKey × List Nat)
  kind : MatKind
  ty : Ty
  pair : Bool
  m : Nat
  n : Nat
  k : Nat
  a : TileRef
  b : TileRef
  prm : TileRef
  acc : Nat
  sa : Nat
  sb : Nat
  acs : Nat
  pst : Nat
  row : Nat
  started : Bool
  claimed : Bool
  held : Option XWait
  stopped : Bool
  /-- the operand buffer: B's footprint and the parameter records, once loaded (R187, R197) -/
  bbuf : Option (List Byte)
  pbuf : List Byte
  /-- offsets of accumulator or P words to which a fibre has stored meanwhile (R195) -/
  taint : List Nat
  deriving DecidableEq, Repr

/-- A warp's `svc` batch before it is queued (R230, R395). -/
structure Batch where
  id : Nat
  num : BitVec 16
  pc : Dword
  /-- executing fibres in lane order, their four registers, and whether each has released -/
  lanes : List (FKey × BitVec 128 × Bool)
  deriving DecidableEq, Repr

/-- A service-queue entry (R394): its 32 bytes, and how many body entries follow a batch header. -/
structure SvcEntry where
  bits : BitVec 256
  /-- the batch a body entry belongs to -/
  body : Bool
  deriving DecidableEq, Repr

/-- A die's service queue (R394): entries, groups waiting for room, and batch bodies owed to a fibre that popped the
header (R395). -/
structure SvcQueue where
  die : Nat
  entries : List SvcEntry
  waiting : List (List SvcEntry)
  owed : List (FKey × List SvcEntry)
  deriving DecidableEq, Repr

/-- States of a die L2 line (R276); absence is I. -/
inductive LineSt where
  | m | o | e | s
  deriving DecidableEq, Repr

/-- A copy of a line in an L1, as the die L2 records it (R274): the core, the object tag (root object and line within it), the
set and way, and the event of its last use. -/
structure L1Copy where
  core : Nat
  obj : BitVec 64
  off : Nat
  set : Nat
  way : Nat
  used : Nat
  deriving DecidableEq, Repr

/-- A line of a die L2 (R276, R278, R283): its data, the dies whose acknowledgement is outstanding, and its copies in L1s. -/
structure L2Line where
  die : Nat
  line : Nat
  st : LineSt
  data : List Byte
  acks : List Nat
  way : Nat
  age : Nat
  cls : Nat
  l1 : List L1Copy
  /-- the interval in which the copy was granted (R304) -/
  iv : BitVec 32
  deriving DecidableEq, Repr

/-- Directory states (R277). -/
inductive DirSt where
  | uncached | shared | exclusive | owned
  deriving DecidableEq, Repr

/-- A directory entry (R277, R288, R291, R304). -/
structure DirEntry where
  line : Nat
  st : DirSt
  owner : Nat
  sharers : List Nat
  xlat : Bool
  interval : BitVec 32
  /-- the interval's writer holder, or none for a reader interval (R304) -/
  writer : Option Nat
  /-- a write-back has closed the interval: the next grant opens another (R304) -/
  shut : Bool
  deriving DecidableEq, Repr

/-- A way of an LLC slice (R277, R280, R283): a line's data, or a tag alone that holds its directory entry. -/
structure LlcLine where
  line : Nat
  full : Bool
  data : List Byte
  dirty : Bool
  way : Nat
  age : Nat
  cls : Nat
  deriving DecidableEq, Repr

/-- Requests of a die L2 to a home slice (R277), and a fill of the slice alone, for a prefetch or an engine (R161, R283). -/
inductive ReqKind where
  | read | rfo | upgrade | fill
  deriving DecidableEq, Repr

/-- A request in a slice's ingress queue, in arrival order (R280). -/
structure CohReq where
  die : Nat
  line : Nat
  kind : ReqKind
  cls : Nat
  hint : Hint
  deriving DecidableEq, Repr

/-- Messages between homes and L2s (R277–R279). -/
inductive CohMsg where
  /-- line data on their way to a requester, with the state granted, the interval, the dies that must acknowledge, and the
  die that supplies them (none: the slice) -/
  | data (die line : Nat) (st : LineSt) (bytes : List Byte) (interval : BitVec 32) (acks : List Nat) (cls : Nat)
      (hint : Hint) (src : Option Nat)
  /-- an invalidation to `die` whose acknowledgement goes to `back` (none: to the home) -/
  | inval (die line : Nat) (back : Option Nat)
  /-- a recall to `die` -/
  | recall (die line : Nat)
  /-- an acknowledgement from `src` to the writer `dst` -/
  | ack (src dst line : Nat)
  deriving DecidableEq, Repr

/-- A replacement class (R282). -/
structure ClassEntry where
  waymask : BitVec 16
  wpol : BitVec 2
  prot : BitVec 2
  ins : BitVec 2
  deriving DecidableEq, Repr

/-- What a host asks of device memory (R266, R279), where a CAS carries its compare value in `x` and its new value in `y`; or what it
posts to a mailbox of a context or to MQ, which goes behind its earlier writes (R246, R266). -/
inductive HostKind where
  | write (data : List Byte)
  | read (n : Nat)
  | atomic (op : PcieAtomic) (size : Nat) (x y : Dword)
  | mail (ctx pair : Nat) (entry : BitVec 512)
  | mop (unit : BitVec 256)
  deriving DecidableEq, Repr

/-- A request to the home of a peer or pool line, until it has been answered, used and matched by its home's record (R308,
R381, R383): its OP, its tag, the atomic operation it is for; the answer, data or (empty) an acknowledgement; the hash, the
home's interval and the role of the home's record; and the local interval and the hash of the data where it was used. -/
structure Fetch where
  line : Nat
  op : BitVec 8
  mtag : BitVec 16
  memOp : Option Nat
  answer : Option (List Byte)
  fill : Option (Dword × BitVec 32 × Bool)
  used : Option (BitVec 32 × Dword)
  deriving DecidableEq, Repr

/-- A line of a peer package that this package holds (R381): alone, or to read, and the home's interval of the grant, once its
record has told it. -/
structure PeerLine where
  line : Nat
  excl : Bool
  iv : Option (BitVec 32)
  deriving DecidableEq, Repr

/-- An extent entry watched by a die after a page-fault record (R291). -/
structure Watch where
  die : Nat
  obj : BitVec 64
  ext : Nat
  /-- the device physical address of the entry -/
  entry : Nat
  deriving DecidableEq, Repr

/-- A host's access to device memory, by port and device physical address, or what it posts elsewhere (`dpa` 0). -/
structure HostAcc where
  port : Nat
  dpa : Nat
  kind : HostKind
  deriving DecidableEq, Repr

/-- A packet's header fields and payload (R378). -/
structure Packet where
  addr : BitVec 40
  op : BitVec 8
  dseq : BitVec 16
  dctx : BitVec 12
  cls : BitVec 2
  src : BitVec 12
  dst : BitVec 12
  mtag : BitVec 16
  payload : List Byte
  deriving DecidableEq, Repr

/-- The coherent memory system beyond the cores (R268–R298, R314, R384–R386). -/
structure Coh where
  l2 : List L2Line
  dir : List DirEntry
  llc : List LlcLine
  reqs : List CohReq
  /-- lines with a live miss-status register, and the requests linked to each (R280) -/
  mshr : List (Nat × List CohReq)
  msgs : List CohMsg
  /-- poisoned lines (R314, R384–R386), and above 2^200 poisoned 8-byte units of other arrays, by memory key (R324; log 75) -/
  poison : List Nat
  orphans : List Nat
  /-- local lines whose newest data another package holds: its fabric number, and whether it has been asked for them
  (R382) -/
  remote : List (Nat × Nat × Bool)
  /-- local lines of which another package holds a copy to read: its fabric number, and whether its acknowledgement of an
  invalidation is outstanding (R381, R382) -/
  remSh : List (Nat × Nat × Bool)
  lostNodes : List Nat
  lostRanges : List (Nat × Nat × Nat)
  revoked : List (Nat × Nat × Nat)
  classes : List ClassEntry
  /-- traffic counters of R297: (die, offset / 8, count) -/
  traffic : List (Nat × Nat × Nat)
  pridisc : Nat
  atsreq : Nat
  prireq : Nat
  /-- host accesses that wait, oldest first, and those behind them at their ports (R246, R266, R279, R289, R381) -/
  pend : List HostAcc
  watched : List Watch
  fetches : List Fetch
  peers : List PeerLine
  /-- slices whose two atomic units will disagree over the next atomic that no event of its own runs (R309) -/
  atomUpset : List Nat
  /-- atomics of other packages whose group has not yet arrived whole, with the sender (R170, R381) -/
  parts : List (Nat × Packet)
  deriving DecidableEq, Repr

/-- Kinds of interval record (R306). -/
inductive RecKind where
  | open | close | supply | atomic | overwrite | memfill | memwrite
  deriving DecidableEq, Repr

/-- An interval record on the sideband (R306). -/
structure IRec where
  hash : Dword
  interval : BitVec 32
  line : Nat
  kind : RecKind
  writer : Bool
  holder : BitVec 16
  hashb : Dword
  /-- the line's interval at its home as the record was sent (R308, item 5) -/
  now : BitVec 32 := 0
  deriving DecidableEq, Repr

/-- What a violation reports (R315). -/
structure Violation where
  line : Nat
  n : BitVec 32
  cause : Nat
  holder : BitVec 16
  supplier : BitVec 16
  exp : Dword
  got : Dword
  deriving DecidableEq, Repr

/-- An interval the home checker has not finished with (R308). -/
structure Ival where
  line : Nat
  n : BitVec 32
  writer : Option Nat
  readers : List Nat
  expect : Option Dword
  supplier : BitVec 16
  /-- holders whose OPEN or OVERWRITE has not arrived -/
  due : List Nat
  /-- the hash with which it was handed on, once a CLOSE or SUPPLY came -/
  closed : Option Dword
  closer : BitVec 16
  violated : Option Violation
  /-- contexts for which the violation's record has been written (R316) -/
  recorded : List Nat
  deriving DecidableEq, Repr

/-- A record of a die's error log (R176, R314, R325). -/
inductive ErrRec where
  | lostStore (die : Nat) (key : FKey) (addr : Dword) (code : BitVec 16)
  | lostLine (line : Nat)
  | containment (die : Nat) (rec : BitVec 512)
  | first (mon : Nat) (key : Dword)
  deriving DecidableEq, Repr

/-- The checkers (R299–R316). -/
structure Chk where
  recs : List IRec
  ivals : List Ival
  errlog : List ErrRec
  deriving DecidableEq, Repr

/-- A rail domain of a compute die's monitor (R327). -/
structure Domain where
  notches : Nat
  trial : Option Nat
  errs : List (Nat × Nat)
  /-- when it was last frozen (R328) -/
  frozeAt : Option Nat
  deriving DecidableEq, Repr

/-- A reliability monitor (R325–R329). -/
structure Monitor13 where
  chiplet : Nat
  cfg : Word
  filterA : List Nat
  filterB : List Nat
  current : Bool
  repeats : List (Dword × Nat)
  /-- margin keys, when each last erred, and its domain (R327, R328) -/
  margin : List (Dword × Nat × Nat)
  domains : List Domain
  /-- rows remapped, by key (R326), and the arrays that have been found without a spare row (R330) -/
  remapped : List Dword
  spent : List Nat
  lastAge : Nat
  deriving DecidableEq, Repr

/-- Reliability of the package (R325–R330). -/
structure Rel where
  mons : List Monitor13
  replreq : Bool
  qmask : BitVec 8
  lostCount : Nat
  spares : List Nat
  deriving DecidableEq, Repr

/-- Standing of an engine command (R355–R356). -/
inductive CmdSt where
  | queued | running | landing | waiting (on : XWait) | stopped
  deriving DecidableEq, Repr

/-- An accepted engine command (R219, R223–R226, R349, R355–R356). -/
structure Cmd where
  id : Nat
  die : Nat
  recv : Bool
  sheaf : Nat
  q : Nat
  ctx : Nat
  unit : BitVec 256
  st : CmdSt
  /-- the places its capabilities resolved to at acceptance and the lengths of their windows: sources first, then the
  destination -/
  refs : List TileRef
  lens : List Nat
  /-- bytes landed so far, and for a CSR gather the elements landed -/
  done : Nat
  /-- the chunk formed and not yet landed (R356): its pieces, and how far it takes `done`; a scratchpad place with bank
  `false` means the bank that is live when it lands -/
  chunk : List (Loc × List Byte)
  chunkLen : Nat
  /-- translation lines through which the chunk was translated (R289), the first source line of it, and where its source bytes lie -/
  xl : List Nat
  srcLine : Nat
  srcs : List (Loc × Nat) := []
  /-- the status with which the command ends when nothing of it is in flight -/
  last : Option (BitVec 16)
  /-- an arrival that waited on a violated interval is never counted (R314) -/
  noArrival : Bool
  /-- bytes of the declared count already decremented (R224) -/
  decremented : Nat
  aux : Dword
  /-- the lines it has written and the interval of each write, until the checkers have cleared them (R310, R312) -/
  ivs : List (Nat × BitVec 32)
  /-- a decrypt's hash over the ciphertext so far (R365), and what the destination bytes landed so far held before (R358, R366) -/
  ghash : BitVec 128
  /-- the same with the chunk that has been formed -/
  ghashNext : BitVec 128
  undo : List (Loc × List Byte)
  /-- of a send, the request tag of its message, once sent; of a posting, the number of the message that has matched it -/
  msg : Option Nat
  /-- since when its arrival or publish has waited for clearance (R313) -/
  since : Option Nat
  /-- for a publish, the commit-log entries of the cover set of the `qpush` that sent it (R262, R364) -/
  cover : List Nat
  /-- how often the hashes of its next landing will differ (R310) -/
  struck : Nat
  deriving DecidableEq, Repr

/-- A posting of a context's posted-receive list (R226, R369). -/
structure Posting where
  cmd : Nat
  ctx : Nat
  src : BitVec 24
  smask : BitVec 24
  tag : Word
  tmask : Word
  deriving DecidableEq, Repr

/-- A message at this package's matching unit or landing units (R370–R375). -/
structure Msg where
  id : Nat
  src : BitVec 24
  dst : BitVec 24
  tag : Word
  len : Nat
  eager : Bool
  payload : List Byte
  /-- where the bytes of a payload read in this package lay -/
  srcs : List (Loc × Nat) := []
  /-- where it came from: a local send command, or a package with the request tag -/
  sendCmd : Option Nat
  fromFn : Nat
  mtag : BitVec 16
  deriving DecidableEq, Repr

/-- The receive engine (R368–R375). -/
structure Recv where
  postings : List Posting
  /-- messages that have arrived and are not yet matched in the order, by context -/
  arriving : List (Nat × Msg)
  unexpected : List (Nat × Msg)
  /-- messages matched and landing: posting command, message, payload complete -/
  landing : List (Nat × Msg × Bool)
  endpoints : List (BitVec 24 × BitVec 12 × Nat)
  /-- send status reports under way to a send command (R374) -/
  reports : List (Nat × BitVec 16)
  /-- pull requests that have reached the sending side: send command, bytes wanted, asking package, tag, destination endpoint -/
  pulls : List (Nat × Nat × Nat × BitVec 16 × BitVec 24)
  /-- messages whose packets are still arriving, with the bytes still to come -/
  partials : List (Msg × Nat)
  deriving DecidableEq, Repr

/-- A Falby port (R377, R379). -/
structure Port where
  up : Bool
  txSeq : BitVec 12
  rxNext : BitVec 12
  facked : BitVec 12
  /-- the last flits sent, oldest first, at most 256 -/
  replay : List (BitVec 12 × List Byte)
  /-- the flit last asked for again, and how often in a row -/
  failSeq : BitVec 12
  fails : Nat
  retryAsked : Bool
  /-- payload bytes received in order and not yet whole packets -/
  stream : List Byte
  errors : Nat
  chaff : Nat
  /-- bytes queued for transmission when the last was queued, and when that was (R376) -/
  txBytes : Nat
  txSince : Nat
  deriving DecidableEq, Repr

/-- One side of a delivery context (R380): the sender's, or the receiver's. -/
structure DCtx where
  fn : Nat
  cls : Nat
  num : BitVec 12
  tx : Bool
  txNext : BitVec 16
  /-- unacknowledged packets: packet, when last sent, retransmissions, the ports by which it was last sent -/
  unacked : List (Packet × Nat × Nat × List Nat)
  /-- when a packet of it was last sent or received -/
  lastSent : Nat
  rxNext : BitVec 16
  /-- packets that arrived early, held for their turn -/
  early : List Packet
  /-- the ports that hold it: those by which its latest packet left (R380) -/
  ports : List Nat := []
  deriving DecidableEq, Repr

/-- The fabric side of the I/O die (R376–R386). -/
structure Fab where
  self : BitVec 12
  routes : List (BitVec 12 × BitVec 16)
  ports : List Port
  dctxs : List DCtx
  lostPkgs : List Nat
  unreachable : List Nat
  /-- packets of bursts that wait for a free delivery context -/
  waitq : List Packet
  deriving DecidableEq, Repr

/-- TDISP states (R387). -/
inductive Tdi where
  | unlocked | locked | run | error
  deriving DecidableEq, Repr

/-- A host function (R387, R388, R401): 0 is PF0, 1–16 the virtual functions of a port. -/
structure Fn where
  port : Nat
  fn : Nat
  tdi : Tdi
  frozen : Bool
  /-- instants of the requests rejected within the last millisecond -/
  rejected : List Nat
  deriving DecidableEq, Repr

/-- An IDE stream (R387): the link stream has no TDI. -/
structure Ide where
  port : Nat
  stream : Nat
  tdi : Option Nat
  deriving DecidableEq, Repr

/-- A cached translation of the I/O die (R293), most recently used last in the list. -/
structure Atc where
  pasid : Nat
  base : Nat
  size : Nat
  host : Nat
  read : Bool
  write : Bool
  deriving DecidableEq, Repr

/-- A Translation Request or a Page Request (R293, R294): PASID, page, write wanted, whether it has been sent, and the context
and generation of each access that waits on it. -/
structure PageReq where
  pasid : Nat
  page : Nat
  wr : Bool
  sent : Bool
  waiters : List (Nat × Nat)
  deriving DecidableEq, Repr

/-- An interrupt raised: a vector of PF0, or the vector of a mailbox pair (R393, R399, R404)
(DESIGN CHOICE; log 68). -/
inductive Irq where
  | pf (vector : Nat)
  | pair (ctx pair : Nat)
  deriving DecidableEq, Repr

/-- The completion of a host's non-posted request: data, data marked poisoned, Unsupported Request, or Completer Abort (R387,
R388, R390). -/
inductive HostReply where
  | data (bytes : List Byte)
  | poisoned
  | unsupported
  | aborted
  deriving DecidableEq, Repr

/-- A management command in the queue (R398): its unit, the issuing port, or the issuing sheaf and queue of a device command, and
the core map that an MOP 0x01 read at acceptance (R400; none where it could not be read). -/
structure MqEntry where
  unit : BitVec 256
  port : Nat
  back : Option (Nat × Nat)
  map : Option (List Byte)
  deriving DecidableEq, Repr

/-- The I/O die's host side (R293–R295, R389–R404). -/
structure HostSt where
  active : Nat
  expired : Bool
  /-- ports whose lease has expired and that have not claimed it since (R390) -/
  late : List Nat
  period : Nat
  renewed : Nat
  pwrcap : BitVec 16
  mcrbase : BitVec 64
  mcrprod : Word
  mcrcons : Word
  laterej0 : Nat
  laterej1 : Nat
  mbxbad : Nat
  nlost : Nat
  /-- commands waiting, in acceptance order -/
  mq : List MqEntry
  completions : List (BitVec 256)
  notices : List (BitVec 1024)
  noticeSeq : Nat
  noticeRing : Option Nat
  noticePos : Nat
  /-- MSI-X interrupts raised since reset: port and vector, newest last -/
  msix : List (Nat × Irq)
  fns : List Fn
  ides : List Ide
  atc : List Atc
  /-- ATS Translation Requests outstanding (R293) -/
  ats : List PageReq
  /-- Page Requests in request order (R293, R294) -/
  pri : List PageReq
  /-- invalidations whose completion is not yet sent: pasid, range, operations still using a removed translation -/
  invals : List (Nat × Nat × Nat × List Nat)
  invalDone : Nat
  /-- completions of host reads and AtomicOps, newest last -/
  replies : List HostReply
  deriving DecidableEq, Repr

/-- Attestation states (R407). -/
inductive Att where
  | off | unverified | challenging | verified | keyed | active | quarantined
  deriving DecidableEq, Repr

/-- A chiplet (R405–R407). -/
structure Chiplet where
  st : Att
  passes : BitVec 16
  keygen : BitVec 8
  reason : BitVec 4
  timedOut : Bool
  /-- it has been ACTIVE since the package reset, so that reaching ACTIVE anew is a re-attestation (R407) -/
  again : Bool
  serial : Option (BitVec 64)
  challengedAt : Nat
  deriving DecidableEq, Repr

/-- Steps of a key roll-over (R408). -/
inductive Roll where
  | idle | sentReceiver | sentTransmitter | switched | acknowledged
  deriving DecidableEq, Repr

/-- One direction of a die-to-die link whose state is not that of fresh generation-0 keys (R408; log 18). -/
structure Link where
  tx : Nat
  rx : Nat
  gen : Nat
  roll : Roll
  /-- instants of authentication failures -/
  fails : List Nat
  deriving DecidableEq, Repr

/-- A firmware image in flash (R411), as the bytes read from host memory. -/
structure Image where
  bytes : List Byte
  deriving DecidableEq, Repr

/-- A compute-die reset that MOP 0x12 has begun and that has not reached ACTIVE again (R410). -/
structure DieReset where
  die : Nat
  force : Bool
  deriving DecidableEq, Repr

/-- Bring-up, attestation, flash and power (R405–R415). -/
structure Boot where
  stage : Nat
  fail : Bool
  failChiplet : Nat
  chiplets : List Chiplet
  links : List Link
  stageSince : Nat
  pcieUp : List Bool
  current : Image
  staged : Image
  svn : Nat
  /-- the image that runs: the flash's own, or in recovery one staged by MOP 0x14, whether or not the flash changes after it (R411–R414) -/
  run : Image
  retrained : List Nat
  resets : List DieReset
  railsOff : Bool
  deriving DecidableEq, Repr

/-- The warp whose next instruction the next step fetches and runs, and an upset that strikes it (R318): the lane, and
whether the replay mismatches too. -/
structure Issue where
  core : Nat
  quad : Nat
  slot : Nat
  upset : Option (Nat × Bool)
  deriving DecidableEq, Repr

/-- One entry of the agenda: so many nanoseconds pass, then the event happens (log 1, log 2). -/
structure Item where
  dt : Nat
  ev : Instr
  deriving DecidableEq, Repr

/-- The state of the package. -/
structure State where
  /-- sr.time: nanoseconds since power-on (R39) -/
  time : Nat
  /-- the model's own counters: events so far, free values drawn, unique numbers given -/
  evno : Nat
  free : Nat
  uid : Nat
  agenda : List Item
  issue : Option Issue
  /-- every byte of memory that differs from 0, by the keys of `Loc` (R268–R272; log 3) -/
  mem : List Host.Cell
  areas : List AreaImage
  fibres : List Fibre
  warps : List Warp
  quads : List QuadSt
  sheafs : List Sheaf
  launches : List Launch
  ctxs : List Ctx
  lastCtx : Nat
  parts : List Part
  cores : List CoreSt
  /-- cores on which resources have been freed and that the distributor has not yet refilled (R339) -/
  refills : List Nat
  ops : List MemOp
  side : List SideEntry
  log : List Access
  owed : List Owed
  roc : List RoLine
  ic : List IcLine
  xc : List XEntry
  matq : List MatOp
  batches : List Batch
  svc : List SvcQueue
  coh : Coh
  chk : Chk
  rel : Rel
  cmds : List Cmd
  recv : Recv
  fab : Fab
  host : HostSt
  boot : Boot
  deriving DecidableEq, Repr

/-- Why the machine stops with a fault. The ZE-1536 has no such stop: every trap is taken (R231, R232), and an event that
cannot happen in a state leaves it unchanged. -/
inductive Fault where
  /-- raised by no instruction or event of this model; kept so that the type names a reason. Safe. -/
  | stopped
  deriving DecidableEq, Repr

/-- Why an instruction or event is refused. -/
inductive Refusal where
  /-- the row's meaning is not written yet; raised by an arm of `exec`. Safe. -/
  | notModelled (mnemonic : String)
  deriving DecidableEq, Repr

/-- A reset monitor: RMCFG is 3 << 24 | 8 << 16 | 5 << 8 | 3 (R329). -/
def Monitor13.reset (chiplet : Nat) : Monitor13 :=
  { chiplet, cfg := 0x03080503#32, filterA := [], filterB := [], current := false, repeats := [], margin := [],
    domains := List.replicate 4 { notches := 0, trial := none, errs := [], frozeAt := none }, remapped := [], spent := [], lastAge := 0 }

/-- A Falby port before training. -/
def Port.reset : Port :=
  { up := false, txSeq := 0, rxNext := 0, facked := 0, replay := [], failSeq := 0, fails := 0, retryAsked := false,
    stream := [], errors := 0, chaff := 0, txBytes := 0, txSince := 0 }

/-- A chiplet at power-on (R406, R407). -/
def Chiplet.reset : Chiplet :=
  { st := .off, passes := 0, keygen := 0, reason := 0, timedOut := false, again := false, serial := none, challengedAt := 0 }

/-- The package right after power-on: bring-up stage 1 (R413), every register at the value INVENTORY.md lists
(DESIGN CHOICE; log 4). -/
def State.reset : State :=
  { time := 0, evno := 0, free := 0, uid := 0, agenda := [], issue := none, mem := [], areas := [], fibres := [], warps := [],
    quads := [], sheafs := [], launches := [], ctxs := [], lastCtx := 0, parts := [], cores := [], refills := [], ops := [], side := [],
    log := [], owed := [], roc := [], ic := [], xc := [], matq := [], batches := [], svc := [],
    coh := { l2 := [], dir := [], llc := [], reqs := [], mshr := [], msgs := [], poison := [], orphans := [], remote := [], remSh := [],
             lostNodes := [], lostRanges := [], revoked := [],
             classes := List.replicate 8 { waymask := 0xFFFF#16, wpol := 0, prot := 0, ins := 2 },
             traffic := [], pridisc := 0, atsreq := 0, prireq := 0, pend := [], watched := [], fetches := [], peers := [], atomUpset := [], parts := [] },
    chk := { recs := [], ivals := [], errlog := [] },
    rel := { mons := ((List.range 12) ++ [32]).map Monitor13.reset, replreq := false, qmask := 0, lostCount := 0,
             spares := List.replicate 8 7 },
    cmds := [],
    recv := { postings := [], arriving := [], unexpected := [], landing := [], endpoints := [], reports := [], pulls := [], partials := [] },
    fab := { self := 0, routes := [], ports := List.replicate 16 Port.reset, dctxs := [], lostPkgs := [],
             unreachable := [], waitq := [] },
    host := { active := 0, expired := false, late := [], period := 50, renewed := 0, pwrcap := 3000, mcrbase := 0, mcrprod := 0,
              mcrcons := 0, laterej0 := 0, laterej1 := 0, mbxbad := 0, nlost := 0, mq := [], completions := [],
              notices := [], noticeSeq := 0, noticeRing := none, noticePos := 0, msix := [], fns := [], ides := [],
              atc := [], ats := [], pri := [], invals := [], invalDone := 0, replies := [] },
    boot := { stage := 1, fail := false, failChiplet := 0, chiplets := List.replicate 33 Chiplet.reset, links := [],
              stageSince := 0, pcieUp := [false, false], current := { bytes := [] }, staged := { bytes := [] }, svn := 0,
              run := { bytes := [] }, retrained := [], resets := [], railsOff := false } }

end Sys2Proof.Machine
end

