-- ==== Sys2Proof/Machine/Ops.lean ====
section
/-! DEFINITION. The named operations over the state: looking up and updating its parts, memory as a canonical list of
bytes (R5, R268–R272), registers (R13–R18), free values, the service queue (R394), wakes (R214), leaving a warp and a set
(R28, R31), taking a trap (R231, R232) and returning from one (R234). -/

namespace Sys2Proof.Machine

/-- The outcome type of every meaning. -/
abbrev Outc := Host.Outcome State Fault Refusal

/-! ## Lists as tables -/

/-- Apply `g` to the entries that satisfy `p`. -/
def updIf {α : Type} (p : α → Bool) (g : α → α) (l : List α) : List α := l.map fun x => if p x then g x else x

/-- Replace the entries that satisfy `p` by `x`, or append it where there is none. -/
def putIf {α : Type} (p : α → Bool) (x : α) (l : List α) : List α :=
  if l.any p then l.map fun y => if p y then x else y else l ++ [x]

/-- The entry of least measure, the first of equals. -/
def minBy? {α : Type} (m : α → Nat) : List α → Option α
  | [] => none
  | x :: l =>
    match minBy? m l with
    | none => some x
    | some y => if m x ≤ m y then some x else some y

/-- Insert into a list sorted by a measure, after equals. -/
def insBy {α : Type} (m : α → Nat) (x : α) : List α → List α
  | [] => [x]
  | y :: l => if m x < m y then x :: y :: l else y :: insBy m x l

/-- Insertion sort by a measure, stable. -/
def sortBy {α : Type} (m : α → Nat) : List α → List α
  | [] => []
  | x :: l =>
    let rec ins (x : α) : List α → List α
      | [] => [x]
      | y :: l => if m x ≤ m y then x :: y :: l else y :: ins x l
    ins x (sortBy m l)

/-- The entries without repeats, keeping the first of each. -/
def nub {α : Type} [BEq α] : List α → List α
  | [] => []
  | x :: l => x :: (nub l).filter (fun y => !(y == x))

/-- A record from its fields: (value, low bit). -/
def packBits (n : Nat) (fs : List (Nat × Nat)) : BitVec n :=
  BitVec.ofNat n (fs.foldl (fun acc f => acc + f.1 * 2 ^ f.2) 0)

/-- Bits hi:lo of a record, as a number. -/
def bitsOf {n : Nat} (b : BitVec n) (lo len : Nat) : Nat := b.toNat / 2 ^ lo % 2 ^ len

/-- Little-endian bytes of a number. -/
def leBytes (n v : Nat) : List Byte := (List.range n).map fun i => BitVec.ofNat 8 (v / 2 ^ (8 * i))

/-- The number of little-endian bytes. -/
def leNat : List Byte → Nat
  | [] => 0
  | b :: l => b.toNat + 256 * leNat l

/-! ## Cores (R3, R4, R25) -/

/-- The die of a core: cores 0–1,535 by package index, 1,536 + d the service core of die d (R4). -/
def coreDie (c : Nat) : Nat := if c < 1536 then c / 192 else c - 1536
/-- A core's index within its die, 8c + k; 255 names the service core (R307) (DEDUCED; log 41). -/
def coreInDie (c : Nat) : Nat := if c < 1536 then c % 192 else 255
/-- A core's package-wide cluster (R4). -/
def coreCluster (c : Nat) : Nat := c / 8
/-- The other core of a matrix pair: even leads, odd follows (R3, R180). -/
def isLeader (c : Nat) : Bool := c < 1536 && c % 2 == 0
/-- The core of a die whose index within the die is `i` (R231, R234). -/
def coreOfDie (d i : Nat) : Nat := if i == 255 then 1536 + d else 192 * d + i

/-- A fibre's quadrant (R25). -/
def FKey.quad (k : FKey) : Nat := k.fid % 4
/-- A fibre's lane (R25). -/
def FKey.lane (k : FKey) : Nat := k.fid / 4 % 32
/-- sr.slot: 512 × quadrant + 32 × depth + lane (R39). -/
def Fibre.slot (f : Fibre) : Nat := 512 * f.key.quad + 32 * f.depth + f.key.lane

/-! ## The parts of the state -/

namespace State

/-- A live or ended fibre. -/
def fib? (s : State) (k : FKey) : Option Fibre := s.fibres.find? (·.key == k)
/-- Update one fibre. -/
def modFib (s : State) (k : FKey) (g : Fibre → Fibre) : State := { s with fibres := updIf (·.key == k) g s.fibres }
/-- A placed sheaf. -/
def sheaf? (s : State) (u : Nat) : Option Sheaf := s.sheafs.find? (·.uid == u)
/-- Update one sheaf. -/
def modSheaf (s : State) (u : Nat) (g : Sheaf → Sheaf) : State := { s with sheafs := updIf (·.uid == u) g s.sheafs }
/-- An accepted launch. -/
def launch? (s : State) (u : Nat) : Option Launch := s.launches.find? (·.uid == u)
/-- Update one launch. -/
def modLaunch (s : State) (u : Nat) (g : Launch → Launch) : State :=
  { s with launches := updIf (·.uid == u) g s.launches }
/-- A context. -/
def ctx? (s : State) (c : Nat) : Option Ctx := s.ctxs.find? (·.id == c)
/-- Update one context. -/
def modCtx (s : State) (c : Nat) (g : Ctx → Ctx) : State := { s with ctxs := updIf (·.id == c) g s.ctxs }
/-- A partition. -/
def part? (s : State) (n : Nat) : Option Part := s.parts.find? (·.num == n)
/-- Update one partition. -/
def modPart (s : State) (n : Nat) (g : Part → Part) : State := { s with parts := updIf (·.num == n) g s.parts }
/-- An outstanding operation. -/
def op? (s : State) (i : Nat) : Option MemOp := s.ops.find? (·.id == i)
/-- Update one outstanding operation. -/
def modOp (s : State) (i : Nat) (g : MemOp → MemOp) : State := { s with ops := updIf (·.id == i) g s.ops }
/-- Remove one outstanding operation. -/
def dropOp (s : State) (i : Nat) : State := { s with ops := s.ops.filter (·.id != i) }
/-- An engine command. -/
def cmd? (s : State) (i : Nat) : Option Cmd := s.cmds.find? (·.id == i)
/-- Update one engine command. -/
def modCmd (s : State) (i : Nat) (g : Cmd → Cmd) : State := { s with cmds := updIf (·.id == i) g s.cmds }
/-- A warp by its place. -/
def warp? (s : State) (core quad slot : Nat) : Option Warp :=
  s.warps.find? fun w => w.core == core && w.quad == quad && w.slot == slot
/-- Update one warp. -/
def modWarp (s : State) (core quad slot : Nat) (g : Warp → Warp) : State :=
  { s with warps := updIf (fun w => w.core == core && w.quad == quad && w.slot == slot) g s.warps }
/-- A core's standing. -/
def core? (s : State) (c : Nat) : Option CoreSt := s.cores.find? (·.core == c)
/-- A core that has had no event is in service. -/
def coreSt (s : State) (c : Nat) : CoreSt :=
  (s.core? c).getD { core := c, fenced := false, lost := false, halted := false, swap := .empty, swapCtx := none,
                     outgoing := none }
/-- Set a core's standing. -/
def setCore (s : State) (c : CoreSt) : State := { s with cores := putIf (·.core == c.core) c s.cores }

/-- The context of a fibre. -/
def ctxOf (s : State) (k : FKey) : Nat := match s.sheaf? k.sheaf with | some h => h.ctx | none => 0
/-- The launch of a fibre. -/
def launchOf (s : State) (k : FKey) : Option Launch :=
  match s.sheaf? k.sheaf with | some h => s.launch? h.launch | none => none
/-- sr.launch of a fibre, 0 where there is none. -/
def launchId (s : State) (k : FKey) : Word := match s.launchOf k with | some l => l.id | none => 0
/-- Whether a fibre runs in the privileged view (R44). -/
def isPriv (s : State) (k : FKey) : Bool := match s.sheaf? k.sheaf with | some h => h.priv | none => false
/-- FTZ of a fibre's context, as it stood at the fibre's last clause boundary (R40, R42, R95). -/
def ftz (s : State) (k : FKey) : Bool := match s.fib? k with | some f => f.inFlags.getLsbD 0 | none => false

/-! ## Free values (R8) -/

/-- The next value the manual leaves open, and the state that has drawn it (log 17). -/
def freeBits (s : State) : BitVec 64 × State := (Config.freeBits s.free, { s with free := s.free + 1 })
/-- The next choice the manual leaves open (log 17). -/
def choose (s : State) : Nat × State := (Config.choice (2 ^ 64 * s.free), { s with free := s.free + 1 })
/-- A new unique number. -/
def fresh (s : State) : Nat × State := (s.uid, { s with uid := s.uid + 1 })

end State

/-! ## Memory -/

/-- Stack and stack address of an offset P in window 0, 1 or 2 (R268). -/
def windowMap (w p : Nat) : Option (Nat × Nat) :=
  if p ≥ 576 * 2 ^ 30 then none
  else
    match w with
    | 0 => let u := p / 4096; some (u % 12, u / 12 * 4096 + p % 4096)
    | 1 =>
      let b := p / (144 * 2 ^ 30)
      let q := p % (144 * 2 ^ 30)
      let u := q / 4096
      some (3 * b + u % 3, u / 3 * 4096 + q % 4096)
    | 2 => some (p / (48 * 2 ^ 30), p % (48 * 2 ^ 30))
    | _ => none

/-- The place of a device physical address (R268, R296). -/
def devLoc (dpa : Nat) : Loc :=
  let w := dpa / 2 ^ 40 % 4
  let p := dpa % 2 ^ 40
  if w == 3 then if p ≤ 0xFFFF then .regs p else .unbacked
  else if p < 576 * 2 ^ 30 then .dev (dpa % 2 ^ 42) else .unbacked

/-- The key of a byte of a core's scratchpad: 16-byte unit n of the core scratchpad address space lies in bank n mod 63, at row
n div 63 of its 512 (R272). -/
def scratchKey (core a : Nat) : Nat :=
  7 * 2 ^ 100 + core * 2 ^ 20 + (a / 16 % 63 * 512 + a / 16 / 63) * 16 + a % 16

/-- The key of a byte in the memory list; device bytes are keyed by stack and stack address, so that the windows reach the
same byte (R268, R269; log 8, log 9). A scratchpad byte has this key in the saved image of its sheaf. -/
def Loc.key : Loc → Option Nat
  | .dev dpa =>
    match windowMap (dpa / 2 ^ 40 % 4) (dpa % 2 ^ 40) with
    | some (st, a) => some (st * 2 ^ 36 + a)
    | none => none
  | .hostPa a => some (2 ^ 100 + a)
  | .hostUn port a => some (2 * 2 ^ 100 + port * 2 ^ 64 + a)
  | .peer pkg a => some (3 * 2 ^ 100 + pkg * 2 ^ 64 + a)
  | .pool node a => some (4 * 2 ^ 100 + node * 2 ^ 64 + a)
  | .weight die a => some (5 * 2 ^ 100 + die * 2 ^ 64 + a)
  | .scratch sh bank off => some (6 * 2 ^ 100 + sh * 2 ^ 20 + (if bank then 2 ^ 19 else 0) + off)
  | .regs _ => none
  | .host _ _ | .unbacked => none

/-- The location `i` bytes on. -/
def Loc.add (l : Loc) (i : Nat) : Loc :=
  match l with
  | .dev d => .dev (d + i)
  | .regs o => .regs (o + i)
  | .unbacked => .unbacked
  | .host p v => .host p (v + i)
  | .hostPa a => .hostPa (a + i)
  | .hostUn p a => .hostUn p (a + i)
  | .peer p a => .peer p (a + i)
  | .pool n a => .pool n (a + i)
  | .weight d a => .weight d (a + i)
  | .scratch sh b o => .scratch sh b (o + i)

/-- What a byte that nothing has written reads as (log 3). -/
def Memory.unlisted : Byte := 0

/-- One byte of the memory list. -/
def Memory.read : List Host.Cell → Nat → Byte
  | [], _ => Memory.unlisted
  | (b, v) :: l, a => if b == a then v else if a < b then Memory.unlisted else Memory.read l a

/-- Set one byte, keeping the canonical form. -/
def Memory.write : List Host.Cell → Nat → Byte → List Host.Cell
  | [], a, v => if v == Memory.unlisted then [] else [(a, v)]
  | (b, w) :: l, a, v =>
    if a < b then if v == Memory.unlisted then (b, w) :: l else (a, v) :: (b, w) :: l
    else if a == b then if v == Memory.unlisted then l else (a, v) :: l
    else (b, w) :: Memory.write l a v

/-- Addresses above a bound and strictly rising, and no entry equal to what an unlisted address reads as. -/
def Memory.wfFrom : List Host.Cell → Nat → Bool
  | [], _ => true
  | (b, v) :: l, n => n ≤ b && v != Memory.unlisted && Memory.wfFrom l (b + 1)

/-- The canonical form of the memory list. -/
def Memory.wf (m : List Host.Cell) : Bool := Memory.wfFrom m 0

/-- Consecutive bytes of the memory list. -/
def Memory.readN (m : List Host.Cell) (a : Nat) (n : Nat) : List Byte := (List.range n).map fun i => Memory.read m (a + i)

/-- Store consecutive bytes. -/
def Memory.writeN (m : List Host.Cell) (a : Nat) : List Byte → List Host.Cell
  | [] => m
  | b :: bs => Memory.writeN (Memory.write m a b) (a + 1) bs

/-- Where a bank of a placed sheaf starts in its core's scratchpad (R272). -/
def Sheaf.bankBase (h : Sheaf) (bank : Bool) : Nat := if bank == h.bank then h.baseLive else h.baseShadow

/-- The key of a byte as it is held now: a scratchpad byte lies on its sheaf's core, at the base of its bank, or in the saved
image (R272, R349). -/
def State.keyOf (s : State) (l : Loc) : Option Nat :=
  match l with
  | .scratch u bank off =>
    match s.sheaf? u with
    | some h => if h.saved then l.key else some (scratchKey h.core (h.bankBase bank + off))
    | none => none
  | l => l.key

/-- What an exchange has left open in a bank (R211). -/
def Sheaf.bankFree (h : Sheaf) (bank : Bool) : Option BankFree := if bank then h.free1 else h.free0

/-- An address lies in an area. -/
def AreaImage.has (a : AreaImage) (d : Nat) : Bool := a.base ≤ d && d < a.base + a.size

/-- The free value of a byte that an exchange, a spill or the receive engine has left open, if it has and nothing has been written
there since (R211, R264, R352, R372; log 17). -/
def State.openByte (s : State) (l : Loc) : Option Byte :=
  match l with
  | .scratch u bank off =>
    match (s.sheaf? u).bind (·.bankFree bank) with
    | some b => if b.written.contains off then none else some ((Config.freeBits (2 ^ 64 * (b.seed + 1) + off)).setWidth 8)
    | none => none
  | .dev d =>
    match s.areas.find? (·.has d) with
    | some a => if a.written.contains d then none else some ((Config.freeBits (2 ^ 64 * (a.seed + 1) + d)).setWidth 8)
    | none => none
  | _ => none

/-- A byte that was left open is written. -/
def State.noteByte (s : State) (l : Loc) : State :=
  match l with
  | .scratch u bank off =>
    let g (b : BankFree) : BankFree := { b with written := if b.written.contains off then b.written else off :: b.written }
    match (s.sheaf? u).bind (·.bankFree bank) with
    | some _ => s.modSheaf u fun h => if bank then { h with free1 := h.free1.map g } else { h with free0 := h.free0.map g }
    | none => s
  | .dev d =>
    if s.areas.any (·.has d) then
      { s with areas := updIf (·.has d) (fun a => { a with written := if a.written.contains d then a.written else d :: a.written }) s.areas }
    else s
  | _ => s

/-- One byte where it is held; 0 where nothing backs it. -/
def State.byteAt (s : State) (l : Loc) : Byte :=
  match s.openByte l with
  | some b => b
  | none => match s.keyOf l with | some k => Memory.read s.mem k | none => 0

/-- The bytes that DRAM, a host or a scratchpad holds at a place; 0 where nothing backs it. -/
def State.rawRead (s : State) (l : Loc) (n : Nat) : List Byte := (List.range n).map fun i => s.byteAt (l.add i)

/-- Store one byte where it is held. -/
def State.putByte (s : State) (l : Loc) (b : Byte) : State :=
  match s.keyOf l with
  | some k => { s.noteByte l with mem := Memory.write s.mem k b }
  | none => s

/-- Store bytes where they are held; nothing where nothing backs the place. -/
def State.rawWrite (s : State) (l : Loc) : List Byte → State
  | [] => s
  | b :: bs => (s.putByte l b).rawWrite (l.add 1) bs

/-- The device writes an area anew, in a layout that is not architectural: its bytes are open until something else is written there
(R352, R372; log 78). -/
def State.openArea (s : State) (base size : Nat) : State :=
  { s with free := s.free + 1, areas := s.areas.filter (·.base != base) ++ [{ base, size, seed := s.free, written := [] }] }

/-- Listed bytes move from one run of keys to another: `f` gives the new key of one in the run. -/
def Memory.rekey (m : List Host.Cell) (f : Nat → Option Nat) : List Host.Cell :=
  let moved := m.filter fun c => (f c.1).isSome
  let kept := m.foldl (fun acc c => if (f c.1).isSome then Memory.write acc c.1 Memory.unlisted else acc) m
  moved.foldl (fun acc c => match f c.1 with | some k => Memory.write acc k c.2 | none => acc) kept

/-- Where a byte of the core scratchpad address space lies within it, from its key (R272). -/
def scratchAddr (k : Nat) : Nat :=
  let u := k % 2 ^ 20 / 16
  (u % 512 * 63 + u / 512) * 16 + k % 16

/-- A run of the core scratchpad holds these keys. -/
def inScratch (core base n k : Nat) : Bool :=
  k / 2 ^ 20 == (7 * 2 ^ 100 + core * 2 ^ 20) / 2 ^ 20 && base ≤ scratchAddr k && scratchAddr k < base + n

/-- The number under which a poisoned unit of an array other than a memory line is known (R324; log 75). -/
def poisonUnit (key : Nat) : Nat := 2 ^ 200 + key / 8

/-- Bytes at a place outside the cacheable memory are poisoned (R175, R324). -/
def State.badBytes (s : State) (l : Loc) (n : Nat) : Bool :=
  (List.range n).any fun i => match s.keyOf (l.add i) with | some k => s.coh.poison.contains (poisonUnit k) | none => false

/-- Units that a store covers whole are written anew and hold no poison (log 75). -/
def State.healUnits (s : State) (l : Loc) (n : Nat) : State :=
  match s.keyOf l with
  | some k => { s with coh := { s.coh with poison := s.coh.poison.filter fun p =>
      !(2 ^ 200 ≤ p && k ≤ (p - 2 ^ 200) * 8 && (p - 2 ^ 200) * 8 + 8 ≤ k + n) } }
  | none => s

/-- Listed bytes, and the poison of their units, move from one run of keys to another. -/
def State.rekey (s : State) (f : Nat → Option Nat) : State :=
  { s with
    mem := Memory.rekey s.mem f
    coh := { s.coh with poison := s.coh.poison.map fun p =>
      if 2 ^ 200 ≤ p then match f ((p - 2 ^ 200) * 8) with | some k => poisonUnit k | none => p else p } }

/-- The bytes of a sheaf's banks move from its core's scratchpad to its saved image (R349). -/
def State.imageOut (s : State) (h : Sheaf) : State :=
  let n := 4096 * h.granules
  let f (k : Nat) : Option Nat :=
    if inScratch h.core h.baseLive n k then Loc.key (.scratch h.uid h.bank (scratchAddr k - h.baseLive))
    else if h.stook != 0 && inScratch h.core h.baseShadow n k then Loc.key (.scratch h.uid (!h.bank) (scratchAddr k - h.baseShadow))
    else none
  s.rekey f

/-- They move back, to the core and bases at which the sheaf has been restored (R349). -/
def State.imageIn (s : State) (h : Sheaf) : State :=
  let n := 4096 * h.granules
  let at0 (bank : Bool) : Nat := (Loc.key (.scratch h.uid bank 0)).getD 0
  let f (k : Nat) : Option Nat :=
    if at0 false ≤ k && k < at0 false + n then some (scratchKey h.core (h.bankBase false + (k - at0 false)))
    else if at0 true ≤ k && k < at0 true + n then some (scratchKey h.core (h.bankBase true + (k - at0 true)))
    else none
  s.rekey f

/-- A newly placed sheaf's banks hold 0 (log 5). -/
def State.clearScratch (s : State) (h : Sheaf) : State :=
  let n := 4096 * h.granules
  let mine (k : Nat) : Bool := inScratch h.core h.baseLive n k || (h.stook != 0 && inScratch h.core h.baseShadow n k)
  { s with mem := s.mem.foldl (fun acc c => if mine c.1 then Memory.write acc c.1 Memory.unlisted else acc) s.mem }

/-! ## Lines (R270, R306) -/

/-- The LINE of R306 of a cacheable place; host memory, scratchpad, weight store and registers have none. -/
def Loc.line? : Loc → Option Nat
  | .dev d => some (d / 128)
  | .peer p a => some (2 ^ 50 + p * 2 ^ 38 + a / 128)
  | .pool n a => some (2 * 2 ^ 50 + n * 2 ^ 38 + a / 128)
  | .host _ _ | .hostPa _ | .hostUn _ _ | .weight _ _ | .scratch _ _ _ | .regs _ | .unbacked => none

/-- The place of byte 0 of a line. -/
def lineLoc (line : Nat) : Loc :=
  let x := line % 2 ^ 50
  match line / 2 ^ 50 with
  | 0 => .dev (x * 128)
  | 1 => .peer (x / 2 ^ 38) (x % 2 ^ 38 * 128)
  | _ => .pool (x / 2 ^ 38) (x % 2 ^ 38 * 128)

/-- Where a place lies within its line. -/
def Loc.inLine : Loc → Nat
  | .dev d => d % 128
  | .peer _ a => a % 128
  | .pool _ a => a % 128
  | .host _ v => v % 128
  | .hostPa a => a % 128
  | .hostUn _ a => a % 128
  | .weight _ a => a % 128
  | .scratch _ _ o => o % 128
  | .regs o => o % 128
  | .unbacked => 0

/-! ## Registers -/

/-- A general register (R13). -/
def Fibre.reg (f : Fibre) (r : Reg) : Word := f.regs.getD r.toNat 0
/-- Write a general register (R13). -/
def Fibre.setReg (f : Fibre) (r : Reg) (v : Word) : Fibre := { f with regs := f.regs.set r.toNat v }
/-- A `.d` pair, low word in the lower register (R16). -/
def Fibre.pair (f : Fibre) (r : Reg) : Dword := f.reg (r + 1) ++ f.reg r
/-- Write a `.d` pair (R16). -/
def Fibre.setPair (f : Fibre) (r : Reg) (v : Dword) : Fibre :=
  (f.setReg r (v.setWidth 32)).setReg (r + 1) ((v >>> 32).setWidth 32)
/-- A block of n registers as one number, register i in byte 4i (R218). -/
def Fibre.block (f : Fibre) (r : Reg) (n : Nat) : Nat :=
  ((List.range n).map fun i => (f.regs.getD (r.toNat + i) 0).toNat * 2 ^ (32 * i)).foldl (· + ·) 0
/-- Write a block of n registers (R218). -/
def Fibre.setBlock (f : Fibre) (r : Reg) (n v : Nat) : Fibre :=
  { f with regs := (List.range n).foldl (fun rs i => rs.set (r.toNat + i) (BitVec.ofNat 32 (v / 2 ^ (32 * i)))) f.regs }

/-! ## Leaving a warp; waking -/

/-- A fibre leaves its warp; a warp without members frees its slot (R28). -/
def State.leaveWarp (s : State) (k : FKey) : State :=
  { s with warps := (s.warps.map fun w => { w with members := w.members.filter (· != k) }).filter (fun w => w.members != []) }

/-- A fibre takes a condition outside its warp. -/
def State.setCond (s : State) (k : FKey) (c : Cond) : State :=
  (s.modFib k fun f => { f with cond := c }).leaveWarp k

/-- The event a monitor waits for has happened: an `mwait` ends, an armed monitor records it (R214). -/
def Fibre.wake (f : Fibre) : Fibre :=
  if f.cond == .waiting .mwait then { f with cond := .unbatched, monitor := none }
  else
    match f.monitor with
    | some m => { f with monitor := some { m with fired := true } }
    | none => f

/-- Whether a fibre's monitor is armed on a line. -/
def Fibre.armedLine (f : Fibre) (line : Nat) : Bool :=
  match f.monitor with
  | some ⟨.line l _, _⟩ => l == line
  | _ => false

/-- Wake every fibre armed on a line (R214); a write by any master, a loss or an eviction. -/
def State.wakeLine (s : State) (line : Nat) : State :=
  { s with fibres := updIf (fun f => f.armedLine line) Fibre.wake s.fibres }

/-- What queue register q of a sheaf is bound to (R331): 0 for unbound. -/
def Sheaf.bind (h : Sheaf) (q : Nat) : Nat := match h.queues[q]? with | some r => r.bind | none => 0

/-- Wake the fibres armed on a queue register whose sheaf and binding satisfy `p` (R213, R214). -/
def State.wakeQueue (s : State) (p : Sheaf → Nat → Bool) : State :=
  { s with fibres := s.fibres.map fun f =>
      match f.monitor with
      | some ⟨.queue q, _⟩ =>
        match s.sheaf? f.key.sheaf with
        | some h => if p h q then f.wake else f
        | none => f
      | _ => f }

/-! ## The service queue (R394) -/

/-- A die's service queue. -/
def State.svcQ (s : State) (die : Nat) : SvcQueue :=
  (s.svc.find? (·.die == die)).getD { die, entries := [], waiting := [], owed := [] }
/-- Set a die's service queue. -/
def State.setSvcQ (s : State) (q : SvcQueue) : State := { s with svc := putIf (·.die == q.die) q s.svc }

/-- The places taken: entries queued, and bodies still owed to the fibre that took their header (R394, R395). -/
def SvcQueue.taken (q : SvcQueue) : Nat := q.entries.length + (q.owed.map (·.2.length)).foldl (· + ·) 0

/-- A group of entries enters the queue whole, where room and order allow; otherwise it waits (R394). -/
def State.svcPush (s : State) (die : Nat) (group : List SvcEntry) : State :=
  let q := s.svcQ die
  if q.waiting == [] && q.taken + group.length ≤ 1024 then
    (s.setSvcQ { q with entries := q.entries ++ group }).wakeQueue fun h i => h.bind i == 5 && coreDie h.core == die
  else s.setSvcQ { q with waiting := q.waiting ++ [group] }

/-- Whether a group pushed now enters at once. -/
def State.svcRoom (s : State) (die n : Nat) : Bool :=
  let q := s.svcQ die
  q.waiting == [] && q.taken + n ≤ 1024

/-! ## Sets: leaving (R31, R133) -/

/-- A fibre leaves a set; a set without members is dissolved. -/
def JoinSet.leave (j : JoinSet) (fid : Nat) : JoinSet := { j with members := j.members.filter (·.fid != fid) }

/-- A fibre leaves every set of its sheaf (R31). -/
def Sheaf.leaveSets (h : Sheaf) (fid : Nat) : Sheaf :=
  { h with sets := (h.sets.map (·.leave fid)).filter (fun j => j.members != []) }

/-! ## Ending a fibre (R142) -/

/-- An ended fibre whose completion flags are clear ceases to be live (R142). -/
def State.reap (s : State) (k : FKey) : State :=
  { s with fibres := s.fibres.filter fun f => !(f.key == k && f.cond == .ended && f.flags.all (· == 0)) }

/-- `fend` of one fibre: it leaves its warp and sets, and ends once its flags are clear; register writes of its operations
in flight are discarded (R142). -/
def State.endFibre (s : State) (k : FKey) : State :=
  let s1 := { (s.setCond k .ended) with
    ops := updIf (·.key == k) (fun o => { o with dst := none, dst2 := none, gone := true }) s.ops
    side := updIf (·.op.key == k) (fun e => { e with op := { e.op with gone := true } }) s.side
    matq := updIf (·.elected == k) (fun o => { o with gone := true }) s.matq }
  (s1.modSheaf k.sheaf fun h => h.leaveSets k.fid).reap k

/-! ## Traps -/

/-- Codes of R241. -/
abbrev Code := BitVec 16
def cIllegal : Code := 0x0100
def cRegRange : Code := 0x0101
def cPrivilege : Code := 0x0102
def cHandle : Code := 0x0103
def cBounds : Code := 0x0104
def cRights : Code := 0x0105
def cAlign : Code := 0x0106
def cTransl : Code := 0x0107
def cPoison : Code := 0x0108
def cBarrier : Code := 0x0109
def cQueue : Code := 0x010A
def cSet : Code := 0x010B
def cExchange : Code := 0x010C
def cMatState : Code := 0x010D
def cMatOperand : Code := 0x010E
def cBkpt : Code := 0x010F
def cContain : Code := 0x0180
def cMachine : Code := 0x0181

/-- A trap: its code, OPND and INFO (R40, R231). -/
structure TrapInfo where
  code : Code
  opnd : BitVec 8
  info : Dword
  deriving DecidableEq, Repr

/-- A trap with OPND and INFO 0. -/
def TrapInfo.plain (c : Code) : TrapInfo := ⟨c, 0, 0⟩
/-- A trap whose INFO is the effective capability (R231). -/
def TrapInfo.cap (c : Code) (e : Dword) : TrapInfo := ⟨c, 0, e⟩

/-- The 32-byte trap record (R231). -/
def trapRecord (s : State) (f : Fibre) (t : TrapInfo) (pc : Dword) : BitVec 256 :=
  packBits 256 [(pc.toNat, 192), (t.info.toNat, 128), (s.ctxOf f.key, 104), (t.opnd.toNat, 96),
    ((s.launchId f.key).toNat, 64), (1, 61), (coreDie f.core, 48), (coreInDie f.core, 40), (f.slot, 16), (t.code.toNat, 0)]

/-- A fibre raises a trap. Unprivileged: sr.fault is written, the fibre is held and the record is queued to the die's
service queue (R231). Privileged: ks.epc and ks.ecause are written and it continues at ks.trapvec (R232)
(DEDUCED; log 39). -/
def State.takeTrap (s : State) (k : FKey) (t : TrapInfo) (pc : Dword) : State :=
  match s.fib? k with
  | none => s
  | some f =>
    if s.isPriv k then
      (s.modFib k fun f => { f with
        ksEpc := pc, ksEcause := BitVec.ofNat 32 (t.code.toNat + 2 ^ 16 * f.slot), pc := f.ksTrapvec, clause := none,
        cond := .unbatched }).leaveWarp k
    else
      let s1 := (s.modFib k fun f => { f with
        faultCode := t.code, faultOpnd := t.opnd, faultValid := true, cond := .held .trap }).leaveWarp k
      s1.svcPush (coreDie f.core) [⟨trapRecord s f t pc, false⟩]

/-- The held fibre that an `eret` of a service fibre names: its context, core and slot (R234). -/
def State.erTarget (s : State) (ctx core slot : Nat) : Option Fibre :=
  s.fibres.find? fun f =>
    f.core == core && f.slot == slot && f.cond == .held .trap && s.ctxOf f.key == ctx
      && (match s.sheaf? f.key.sheaf with | some h => !h.saved | none => false)

/-- Return from a trap: the held fibre resumes at ks.epc, its clause kept unless ks.epc was written (R57, R234). -/
def State.returnTo (s : State) (k : FKey) (epc : Dword) (written : Bool) : State :=
  s.modFib k fun f => { f with
    pc := epc, clause := if written then none else f.clause, cond := .unbatched }

/-! ## As created and as placed -/

/-- A fibre as a launch creates it (R14). -/
def Fibre.initial (key : FKey) (core depth winBase regs : Nat) (pc args : Dword) : Fibre :=
  let f : Fibre :=
    { key, core, depth, pc, predReg := 2, winBase, regs := List.replicate regs 0, residues := List.replicate 8 0,
      flags := List.replicate 12 0, cond := .unbatched, clause := none, inFlags := 0, inHtbase := 0, inHtlen := 0,
      faultCode := 0, faultOpnd := 0, faultValid := false, monitor := none, uiEn := false, uiPend := false,
      uiHandler := 0, uiLink := 0, pendTraps := [], ksCtx := 0, ksTrapvec := 0, ksEpc := 0, ksEcause := 0,
      epcWritten := false }
  (f.setReg 2 0xFFFFFFFF).setPair 0 args

/-- A barrier object as its sheaf is placed (R22). -/
def Barrier.initial : Barrier :=
  { phase := 0, expect := 0, arrived := 0, scope := 0, init := false, pending := 0, swap := false, ready := false }

end Sys2Proof.Machine
end

