-- ==== Sys2Proof/Machine/Aes.lean ====
section
/-! DEFINITION. AES-256 in Galois/counter mode, which R365 names and the manual does not define: taken from the published
standards (PRESUMED; log 13). -/

namespace Sys2Proof.Machine

/-! ## The field of 2^8 elements -/

/-- Multiply by x modulo x^8 + x^4 + x^3 + x + 1. -/
def gfDouble (a : Nat) : Nat := if 128 ≤ a then (2 * a) % 256 ^^^ 0x1B else 2 * a

/-- Product in the field. -/
def gfMul (a b : Nat) : Nat :=
  ((List.range 8).foldl (fun (p : Nat × Nat) i => (if b.testBit i then p.1 ^^^ p.2 else p.1, gfDouble p.2)) (0, a)).1

/-- The inverse, as the power 254; 0 for 0. -/
def gfInv (a : Nat) : Nat :=
  ((List.range 7).foldl (fun (p : Nat × Nat) _ => let q := gfMul p.2 p.2; (gfMul p.1 q, q)) (1, a)).1

/-- Rotate a byte left. -/
def rotByte (n a : Nat) : Nat := a * 2 ^ n % 256 + a * 2 ^ n / 256

/-- The substitution of a byte. -/
def aesSub (a : Nat) : Nat :=
  let x := gfInv a
  x ^^^ rotByte 1 x ^^^ rotByte 2 x ^^^ rotByte 3 x ^^^ rotByte 4 x ^^^ 0x63

/-! ## AES-256 -/

/-- Byte-wise exclusive or. -/
def xorBytes (a b : List Nat) : List Nat := List.zipWith (· ^^^ ·) a b

/-- The next word of the key schedule: word i from the words so far. -/
def nextKeyWord (ws : Array (List Nat)) (i rcon : Nat) : List Nat :=
  let t := ws.getD (i - 1) []
  let t1 :=
    if i % 8 == 0 then
      match (t.drop 1 ++ t.take 1).map aesSub with
      | b :: l => (b ^^^ rcon) :: l
      | [] => []
    else if i % 8 == 4 then t.map aesSub
    else t
  xorBytes (ws.getD (i - 8) []) t1

/-- The 60 words of the key schedule. -/
def aesSchedule (key : List Nat) : Array (List Nat) :=
  let w0 : Array (List Nat) := ((List.range 8).map fun i => (key.drop (4 * i)).take 4).toArray
  ((List.range 52).foldl (fun (p : Array (List Nat) × Nat) j =>
    let i := j + 8
    (p.1.push (nextKeyWord p.1 i p.2), if i % 8 == 0 then gfDouble p.2 else p.2)) (w0, 1)).1

/-- The 16 bytes of a round's key. -/
def roundKey (ws : Array (List Nat)) (r : Nat) : List Nat := (List.range 4).flatMap fun i => ws.getD (4 * r + i) []

/-- Row i of the columns moves by i. -/
def shiftRows (s : List Nat) : List Nat := (List.range 16).map fun i => s.getD ((i + 4 * (i % 4)) % 16) 0

/-- One column mixed. -/
def mixColumn (c : List Nat) : List Nat :=
  (List.range 4).map fun i =>
    let x (j : Nat) := c.getD ((i + j) % 4) 0
    gfMul 2 (x 0) ^^^ gfMul 3 (x 1) ^^^ x 2 ^^^ x 3

/-- The four columns mixed. -/
def mixColumns (s : List Nat) : List Nat := (List.range 4).flatMap fun j => mixColumn ((s.drop (4 * j)).take 4)

/-- One block enciphered. -/
def aesBlock (ws : Array (List Nat)) (block : List Nat) : List Nat :=
  let s := (List.range 13).foldl (fun s r =>
    xorBytes (mixColumns (shiftRows (s.map aesSub))) (roundKey ws (r + 1))) (xorBytes block (roundKey ws 0))
  xorBytes (shiftRows (s.map aesSub)) (roundKey ws 14)

/-! ## Galois/counter mode -/

/-- A block as a number, its first byte most significant. -/
def blockNat (b : List Nat) : Nat := b.foldl (fun acc x => 256 * acc + x) 0

/-- The 16 bytes of a number, the most significant first. -/
def natBlock (v : Nat) : List Nat := (List.range 16).map fun i => v / 256 ^ (15 - i) % 256

/-- Product of two blocks in the field of 2^128 elements. -/
def ghashMul (x y : Nat) : Nat :=
  ((List.range 128).foldl (fun (p : Nat × Nat) i =>
    (if x.testBit (127 - i) then p.1 ^^^ p.2 else p.1, if p.2 % 2 == 1 then p.2 / 2 ^^^ 0xE1 * 2 ^ 120 else p.2 / 2)) (0, y)).1

/-- The hash key of a cipher key. -/
def gcmH (ws : Array (List Nat)) : Nat := blockNat (aesBlock ws (List.replicate 16 0))

/-- Blocks of 16 bytes, the last filled with zeros. -/
def blocksOf (bs : List Nat) : List (List Nat) :=
  (List.range ((bs.length + 15) / 16)).map fun i =>
    let b := (bs.drop (16 * i)).take 16
    b ++ List.replicate (16 - b.length) 0

/-- The hash after further bytes. -/
def ghash (h acc : Nat) (bs : List Nat) : Nat := (blocksOf bs).foldl (fun a b => ghashMul (a ^^^ blockNat b) h) acc

/-- Counter block number j of a 12-byte IV; number 1 enciphers the tag. -/
def gcmCounter (iv : List Nat) (j : Nat) : List Nat := iv ++ (natBlock (j % 2 ^ 32)).drop 12

/-- The IV of R365: the fixed field, then the invocation counter, each most significant byte first. -/
def gcmIv (fixed : BitVec 32) (counter : Dword) : List Nat :=
  (natBlock fixed.toNat).drop 12 ++ (natBlock counter.toNat).drop 8

/-- The key's 32 bytes as stored, byte 0 lowest. -/
def keyBytes (key : BitVec 256) : List Nat := (leBytes 32 key.toNat).map (·.toNat)

/-- Ciphertext that begins at byte `off`, a multiple of 16, deciphered (R366). -/
def gcmCrypt (key : BitVec 256) (iv : List Nat) (off : Nat) (bs : List Byte) : List Byte :=
  let ws := aesSchedule (keyBytes key)
  let ks := (List.range ((bs.length + 15) / 16)).flatMap fun i => aesBlock ws (gcmCounter iv (off / 16 + i + 2))
  List.zipWith (fun (b : Byte) (k : Nat) => b ^^^ BitVec.ofNat 8 k) bs ks

/-- The hash after further ciphertext. -/
def gcmHash (key : BitVec 256) (acc : Nat) (bs : List Byte) : Nat :=
  ghash (gcmH (aesSchedule (keyBytes key))) acc (bs.map (·.toNat))

/-- The tag of `len` bytes of ciphertext with this hash. -/
def gcmTag (key : BitVec 256) (iv : List Nat) (acc len : Nat) : List Byte :=
  let ws := aesSchedule (keyBytes key)
  let s := ghash (gcmH ws) acc (natBlock (8 * len))
  (xorBytes (natBlock s) (aesBlock ws (gcmCounter iv 1))).map (BitVec.ofNat 8)

end Sys2Proof.Machine
end

