-- ==== Sys2Proof/Machine/Float.lean ====
section
/-! DEFINITION. Floating-point values as exact numbers (R90, R91), their one rounding (R93), conversions (R94), flushing
(R95), sums (R98, R100) and the operations built on them (R92, R101, R103). -/

namespace Sys2Proof.Machine

/-- The floating-point formats (R90). -/
inductive Fmt where
  | f64 | f32 | f16 | bf16 | f8a | f8b
  deriving DecidableEq, Repr

/-- Fraction bits (R90). -/
def Fmt.fb : Fmt → Nat
  | .f64 => 52 | .f32 => 23 | .f16 => 10 | .bf16 => 7 | .f8a => 3 | .f8b => 2
/-- Exponent bits (R90). -/
def Fmt.eb : Fmt → Nat
  | .f64 => 11 | .f32 => 8 | .f16 => 5 | .bf16 => 8 | .f8a => 4 | .f8b => 5
/-- Bias (R90). -/
def Fmt.bias (f : Fmt) : Nat := 2 ^ (f.eb - 1) - 1
/-- Width in bits. -/
def Fmt.width (f : Fmt) : Nat := 1 + f.eb + f.fb
/-- The largest biased exponent pattern. -/
def Fmt.emax (f : Fmt) : Nat := 2 ^ f.eb - 1
/-- Exponent of the unit of the smallest normal and of the subnormals (R90). -/
def Fmt.qmin (f : Fmt) : Int := 1 - (f.bias : Int) - f.fb
/-- Canonical NaN (R91). -/
def Fmt.nan : Fmt → Nat
  | .f64 => 0x7FF8000000000000 | .f32 => 0x7FC00000 | .f16 => 0x7E00 | .bf16 => 0x7FC0 | .f8a => 0x7F | .f8b => 0x7E
/-- FTZ reaches these formats only (R95). -/
def Fmt.flushes : Fmt → Bool
  | .f64 | .f32 | .f16 | .bf16 => true
  | .f8a | .f8b => false

/-- The format of a floating-point type, or of the elements of a packed one (R67, R88). -/
def tyFmt : Ty → Option Fmt
  | .f64 => some .f64 | .f32 => some .f32 | .f16 => some .f16 | .bf16 => some .bf16 | .f8a => some .f8a
  | .f8b => some .f8b | .x2bf16 => some .bf16 | .x2f16 => some .f16 | .x4f8a => some .f8a | .x4f8b => some .f8b
  | .none | .s8 | .s16 | .s32 | .s64 | .z8 | .z16 | .z32 | .z64 | .b32 | .b64 | .s4 | .z4 | .x2s16 | .x2z16 | .x4s8
  | .x4z8 | .x8s4 | .x8z4 => none

/-- What a pattern stands for: a NaN, an infinity, or (−1)^neg × mant × 2^exp. -/
inductive FV where
  | nan
  | inf (neg : Bool)
  | num (neg : Bool) (mant : Nat) (exp : Int)
  deriving DecidableEq, Repr

/-- The value of a pattern (R90, R91). -/
def Fmt.value (f : Fmt) (bits : Nat) : FV :=
  let neg := bits.testBit (f.eb + f.fb)
  let e := bits / 2 ^ f.fb % 2 ^ f.eb
  let frac := bits % 2 ^ f.fb
  if f == .f8a && e == f.emax && frac == 7 then .nan
  else if f != .f8a && e == f.emax then if frac == 0 then .inf neg else .nan
  else if e == 0 then .num neg frac f.qmin
  else .num neg (2 ^ f.fb + frac) ((e : Int) - f.bias - f.fb)

/-- The pattern with the sign bit of a format set where `neg`. -/
def Fmt.signed (f : Fmt) (neg : Bool) (mag : Nat) : Nat := if neg then 2 ^ (f.eb + f.fb) + mag else mag

/-- The sign bit of a pattern. -/
def Fmt.signOf (f : Fmt) (bits : Nat) : Bool := bits.testBit (f.eb + f.fb)

/-- Whether a discarded part of `rem` out of 2^shift rounds the magnitude `m` up (R93). -/
def roundsUp (md : Rnd) (neg : Bool) (m rem shift : Nat) : Bool :=
  match md with
  | .rn => 2 * rem > 2 ^ shift || (2 * rem == 2 ^ shift && m % 2 == 1)
  | .rz => false
  | .rp => !neg && rem != 0
  | .rm => neg && rem != 0

/-- The magnitude of mant × 2^exp in units of 2^q, rounded (R93). -/
def roundUnits (md : Rnd) (neg : Bool) (mant : Nat) (exp q : Int) : Nat :=
  if q ≤ exp then mant * 2 ^ (exp - q).toNat
  else
    let s := (q - exp).toNat
    let m := mant / 2 ^ s
    if roundsUp md neg m (mant % 2 ^ s) s then m + 1 else m

/-- The largest finite magnitude. -/
def Fmt.largest (f : Fmt) : Nat := if f == .f8a then 0x7E else f.emax * 2 ^ f.fb - 1

/-- The magnitude a finite result that overflowed takes (R93, R94). -/
def Fmt.overflow (f : Fmt) (md : Rnd) (neg : Bool) : Nat :=
  if f == .f8a then 0x7E
  else
    match md with
    | .rn => f.emax * 2 ^ f.fb
    | .rz => f.largest
    | .rp => if neg then f.largest else f.emax * 2 ^ f.fb
    | .rm => if neg then f.emax * 2 ^ f.fb else f.largest

/-- The rounded magnitude of mant × 2^exp, `mant` not 0 (R93). -/
def Fmt.roundMag (f : Fmt) (md : Rnd) (neg : Bool) (mant : Nat) (exp : Int) : Nat :=
  let e := (Nat.log2 mant : Int) + exp
  let q := max (e - f.fb) f.qmin
  let m := roundUnits md neg mant exp q
  let mag := if q == f.qmin then m else (q + f.fb + f.bias).toNat * 2 ^ f.fb + m - 2 ^ f.fb
  if mag > f.largest then f.overflow md neg else mag

/-- The pattern of a value rounded to a format (R92, R93, R94). -/
def Fmt.round (f : Fmt) (md : Rnd) (v : FV) : Nat :=
  match v with
  | .nan => f.nan
  | .inf neg => f.signed neg (if f == .f8a then 0x7E else f.emax * 2 ^ f.fb)
  | .num neg 0 _ => f.signed neg 0
  | .num neg m e => f.signed neg (f.roundMag md neg m e)

/-- A pattern that is subnormal and not zero, replaced by the zero of its sign (R95). -/
def Fmt.flush (f : Fmt) (ftz : Bool) (bits : Nat) : Nat :=
  if ftz && f.flushes && bits / 2 ^ f.fb % 2 ^ f.eb == 0 && bits % 2 ^ f.fb != 0 then f.signed (f.signOf bits) 0 else bits

/-- An operand as read under FTZ (R95). -/
def Fmt.read (f : Fmt) (ftz : Bool) (bits : Nat) : FV := f.value (f.flush ftz bits)

/-- A result rounded and, under FTZ, flushed (R93, R95). -/
def Fmt.write (f : Fmt) (ftz : Bool) (md : Rnd) (v : FV) : Nat := f.flush ftz (f.round md v)

/-- mant × 2^exp as an integer multiple of 2^q, q ≤ exp. -/
def scaleTo (neg : Bool) (mant : Nat) (exp q : Int) : Int :=
  let m : Int := (mant * 2 ^ (exp - q).toNat : Nat)
  if neg then -m else m

/-- Negation. -/
def FV.neg : FV → FV
  | .nan => .nan
  | .inf s => .inf !s
  | .num s m e => .num (!s) m e

/-- The sign of a value; a NaN has none. -/
def FV.isNeg : FV → Bool
  | .nan => false
  | .inf s => s
  | .num s _ _ => s

/-- Product, exact; 0 × ∞ is a NaN (R98, R121). -/
def FV.mul : FV → FV → FV
  | .nan, _ => .nan
  | _, .nan => .nan
  | .inf s, .inf t => .inf (s != t)
  | .inf s, .num t m _ => if m == 0 then .nan else .inf (s != t)
  | .num s m _, .inf t => if m == 0 then .nan else .inf (s != t)
  | .num s m e, .num t n g => .num (s != t) (m * n) (e + g)

/-- The exponent at which every finite term is an integer. -/
def minExp : List FV → Int → Int
  | [], q => q
  | .num _ m e :: l, q => minExp l (if m == 0 then q else min e q)
  | _ :: l, q => minExp l q

/-- The exact sum of the finite terms in units of 2^q. -/
def sumUnits (q : Int) : List FV → Int
  | [] => 0
  | .num s m e :: l => (if m == 0 then 0 else scaleTo s m e q) + sumUnits q l
  | _ :: l => sumUnits q l

/-- The exact sum of terms: a NaN term or infinities of both signs give a NaN, infinities of one sign that infinity; an
exact zero keeps the sign all terms share and is otherwise +0, or −0 in .rm (R93, R98, R100; log 21). -/
def FV.sum (md : Rnd) (terms : List FV) : FV :=
  let pinf := terms.contains (.inf false)
  let ninf := terms.contains (.inf true)
  if terms.contains .nan || (pinf && ninf) then .nan
  else if pinf then .inf false
  else if ninf then .inf true
  else
    let q := minExp terms 0
    let t := sumUnits q terms
    if t == 0 then
      .num (if terms.all FV.isNeg && terms != [] then true
            else if terms.all (fun v => !v.isNeg) then false else md == .rm) 0 0
    else .num (t < 0) t.natAbs q

/-- a < b on values that are not NaN, with −0 equal to +0. -/
def FV.lt : FV → FV → Bool
  | .nan, _ => false
  | _, .nan => false
  | .inf true, .inf b => !b
  | .inf false, _ => false
  | .inf true, .num _ _ _ => true
  | .num _ _ _, .inf b => !b
  | .num s m e, .num t n g =>
    let q := min e g
    scaleTo s m e q < scaleTo t n g q

/-- Equality of values that are not NaN, with −0 equal to +0. -/
def FV.eqv (a b : FV) : Bool := a != .nan && b != .nan && !a.lt b && !b.lt a

/-- Order of `fmin` and `fmax`: as `lt`, with −0 below +0 (R103, R122). -/
def FV.below (a b : FV) : Bool := a.lt b || (a.eqv b && a.isNeg && !b.isNeg)

/-- The conditions of `fcmp` (R123). -/
def fcondHolds (c : FCond) (a b : FV) : Bool :=
  let un := a == .nan || b == .nan
  match c with
  | .eq => a.eqv b
  | .ne => un || !a.eqv b
  | .lt => a.lt b
  | .le => !un && !b.lt a
  | .gt => b.lt a
  | .ge => !un && !a.lt b
  | .un => un
  | .or => !un

/-- The class mask of a pattern (R124). -/
def Fmt.classOf (f : Fmt) (bits : Nat) : Nat :=
  match f.value bits with
  | .nan => 2 ^ 8
  | .inf neg => if neg then 1 else 2 ^ 7
  | .num neg m _ =>
    if m == 0 then if neg then 2 ^ 3 else 2 ^ 4
    else if bits / 2 ^ f.fb % 2 ^ f.eb == 0 then if neg then 2 ^ 2 else 2 ^ 5
    else if neg then 2 ^ 1 else 2 ^ 6

/-- A value rounded to an integral value, its sign kept (R125). -/
def FV.integral (md : Rnd) : FV → FV
  | .nan => .nan
  | .inf s => .inf s
  | .num s m e => if 0 ≤ e then .num s m e else .num s (roundUnits md s m e 0) 0

/-- An integer clamped to a range. -/
def clampInt (lo hi v : Int) : Int := max lo (min hi v)

/-- Float to integer (R94). -/
def FV.toInt (md : Rnd) (lo hi : Int) : FV → Int
  | .nan => 0
  | .inf s => if s then lo else hi
  | .num s m e =>
    if 64 ≤ e && m != 0 then if s then lo else hi
    else
      let n : Int := roundUnits md s m e 0
      clampInt lo hi (if s then -n else n)

/-- Integer to float (R94). -/
def FV.ofInt (v : Int) : FV := .num (v < 0) v.natAbs 0

/-- Conversion between formats (R94). -/
def Fmt.convert (src dst : Fmt) (md : Rnd) (bits : Nat) : Nat := dst.round md (src.value bits)

/-- FP32 addition in .rn, as the bank adder and the atomics do it (R103). -/
def f32add (a b : Nat) : Nat := Fmt.f32.round .rn (FV.sum .rn [Fmt.f32.value a, Fmt.f32.value b])

/-- The smaller or larger of two patterns: the one operand that is no NaN, else by value; both NaN is canonical
(R103, R122). -/
def Fmt.pick (f : Fmt) (wantMax : Bool) (a b : Nat) : Nat :=
  let va := f.value a
  let vb := f.value b
  if va == .nan then if vb == .nan then f.nan else b
  else if vb == .nan then a
  else if wantMax then if va.below vb then b else a
  else if vb.below va then b else a

/-- Integer square root by bits: the largest r + 2^k-sum whose square is at most n. -/
def isqrtBits (n : Nat) : Nat → Nat → Nat
  | 0, r => r
  | k + 1, r => let c := r + 2 ^ k; if c * c ≤ n then isqrtBits n k c else isqrtBits n k r

/-- Integer square root. -/
def isqrt (n : Nat) : Nat := isqrtBits n (Nat.log2 n / 2 + 1) 0

/-- A value that rounds like the square root of mant × 2^exp in every mode and format (R96). -/
def sqrtValue (mant : Nat) (exp : Int) : FV :=
  let pad : Nat := 130 - min 120 (Nat.log2 mant)
  let s : Nat := if (exp - pad) % 2 == 0 then pad else pad + 1
  let n := mant * 2 ^ s
  let r := isqrt n
  .num false (2 * r + (if r * r == n then 0 else 1)) ((exp - s) / 2 - 1)

/-- `fsqrt` (R96, R97). -/
def FV.sqrt : FV → FV
  | .nan => .nan
  | .inf s => if s then .nan else .inf false
  | .num s m e => if m == 0 then .num s 0 0 else if s then .nan else sqrtValue m e

/-- `cvt.ef` (R101): the narrowed pattern and the new residue, from an FP32 pattern and a BF16 residue. -/
def cvtEfStep (dst : Fmt) (md : Rnd) (x rsd : Nat) : Nat × Nat :=
  let vx := Fmt.f32.value x
  let isFin (v : FV) : Bool := match v with | .num _ _ _ => true | _ => false
  let r0 := Fmt.bf16.value rsd
  let r := if isFin r0 then r0 else .num false 0 0
  if !isFin vx then (dst.round md vx, 0)
  else
    let s := Fmt.f32.round .rn (FV.sum .rn [vx, r])
    let vs := Fmt.f32.value s
    let y := dst.round md vs
    let vy := dst.value y
    if !isFin vs || !isFin vy then (y, 0)
    else
      let d := Fmt.f32.round .rn (FV.sum .rn [vs, vy.neg])
      let new := Fmt.bf16.round .rn (Fmt.f32.value d)
      (y, if isFin (Fmt.bf16.value new) then new else 0)

end Sys2Proof.Machine
end

