-- ==== Sys2Proof/Machine/Approx.lean ====
section
/-! DEFINITION. The approximating instructions (R96, R97). The result the hardware is built to give is the opaque
`Config.approx`; it is used wherever it lies within the bound R96 states, and the correctly rounded value otherwise, so
every result is within the bound, and the exact and special cases of R96 and R97 are exact (log 10, log 11). -/

namespace Sys2Proof.Machine

/-- A positive real to within 2^err: mant × 2^exp, with its sign. -/
structure Real where
  neg : Bool
  mant : Nat
  exp : Int
  err : Int
  deriving DecidableEq, Repr

/-- π × 2^320, rounded down. -/
def pi320 : Nat := 6710401180212168915155840974220003240804194089427148950727106424351713218671805380099500388914039
/-- ln 2 × 2^120, rounded down. -/
def ln2x120 : Nat := 921350637599661305226344307672478454

/-- A value of at most the bound c × 2^u away from `r`, whatever the error of `r` is. -/
def Real.near (r : Real) (y : FV) (c : Nat) (u : Int) : Bool :=
  match y with
  | .num s m e =>
    let q := min (min e r.exp) (min r.err u)
    let d := scaleTo s m e q - scaleTo r.neg r.mant r.exp q
    d.natAbs + 2 ^ (r.err - q).toNat ≤ c * 2 ^ (u - q).toNat
  | .nan => false
  | .inf _ => false

/-- The candidate where it lies within the bound (and has the sign of the exact result, where `signed`), else the value
rounded to nearest. -/
def Real.result (r : Real) (f : Fmt) (cand : Nat) (signed : Bool) (c : Nat) (u : Int) : Nat :=
  let best := f.round .rn (.num r.neg r.mant r.exp)
  if f.value best == .inf r.neg then best
  else if r.near (f.value cand) c u && (!signed || f.signOf cand == r.neg) then cand
  else best

/-- The exponent of one unit in the last place of a value (R96). -/
def Real.ulp (r : Real) (f : Fmt) : Int := max ((Nat.log2 r.mant : Int) + r.exp - f.fb) f.qmin

/-- Whether a magnitude is a power of two. -/
def isPow2 (m : Nat) : Bool := m != 0 && 2 ^ Nat.log2 m == m

/-- 1 / (m × 2^e). -/
def recipReal (neg : Bool) (m : Nat) (e : Int) : Real :=
  let k := 130 + Nat.log2 m
  { neg, mant := 2 ^ k / m, exp := -(k : Int) - e, err := -(k : Int) - e }

/-- 1 / √(m × 2^e). -/
def rsqrtReal (m : Nat) (e : Int) : Real :=
  let m2 := if e % 2 == 0 then m else 2 * m
  let e2 := if e % 2 == 0 then e else e - 1
  let k := 130 + Nat.log2 m
  let x := -(k : Int) - e2 / 2
  { neg := false, mant := isqrt (2 ^ (2 * k) / m2), exp := x, err := x + 1 }

/-- Sum of t^j / j! from a term onwards, in units of 2^−120. -/
def expTail (t : Nat) : Nat → Nat → Nat → Nat
  | 0, _, term => term
  | n + 1, j, term => term + expTail t n (j + 1) (term * t / 2 ^ 120 / j)

/-- 2^x for x = fl + fr / 2^120, 0 ≤ fr < 2^120. -/
def exp2Real (fl : Int) (fr : Nat) : Real :=
  { neg := false, mant := expTail (fr * ln2x120 / 2 ^ 120) 45 1 (2 ^ 120), exp := fl - 120, err := fl - 100 }

/-- The first n fraction bits of log2 of m / 2^120, 1 ≤ m / 2^120 < 2. -/
def log2Bits : Nat → Nat → Nat → Nat
  | 0, _, acc => acc
  | n + 1, m, acc =>
    let sq := m * m / 2 ^ 120
    if 2 ^ 121 ≤ sq then log2Bits n (sq / 2) (2 * acc + 1) else log2Bits n sq (2 * acc)

/-- log2 (m × 2^e). -/
def log2Real (m : Nat) (e : Int) : Real :=
  let l := Nat.log2 m
  let mm := if l ≤ 120 then m * 2 ^ (120 - l) else m / 2 ^ (l - 120)
  let v : Int := ((l : Int) + e) * 2 ^ 80 + log2Bits 80 mm 0
  { neg := v < 0, mant := v.natAbs, exp := -80, err := -78 }

/-- Sum of the alternating series whose next term is `term`, dividing by j (j + 1) each time, in units of 2^−200. -/
def trigTail (sq : Nat) : Nat → Nat → Nat → Int
  | 0, _, _ => 0
  | n + 1, j, term => (term : Int) - trigTail sq n (j + 2) (term * sq / 2 ^ 200 / (j * (j + 1)))

/-- sin (cosine where `cosine`) of ±m × 2^e, for magnitudes up to 2^15. -/
def trigReal (cosine neg : Bool) (m : Nat) (e : Int) : Real :=
  let half := pi320 / 2 ^ 121
  let x := if 0 ≤ e + 200 then m * 2 ^ (e + 200).toNat else m / 2 ^ (-(e + 200)).toNat
  let q := x / half % 4
  let r := x % half
  let sq := r * r / 2 ^ 200
  let sn := trigTail sq 40 2 r
  let cs := trigTail sq 40 1 (2 ^ 200)
  let v : Int :=
    match (if cosine then (q + 1) % 4 else q) with
    | 0 => sn
    | 1 => cs
    | 2 => -sn
    | _ => -cs
  let v := if neg && !cosine then -v else v
  { neg := v < 0, mant := v.natAbs, exp := -200, err := -150 }

/-- A finite value in [−1, 1] made of a free pattern: the pattern itself where it is one (R96; log 11). -/
def unitInterval (f : Fmt) (bits : Nat) : Nat :=
  let b := bits % 2 ^ f.width
  let mag := b % 2 ^ (f.width - 1)
  if mag ≤ f.bias * 2 ^ f.fb then b
  else f.signed (f.signOf b) (mag % (f.bias * 2 ^ f.fb + 1))

/-- The approximating instructions before flushing of the result: operand value, its pattern's candidate (R96, R97). -/
def approxValue (op : Config.ApproxOp) (f : Fmt) (v : FV) (cand : Nat) : Nat :=
  match op, v with
  | _, .nan => f.nan
  | .rcp, .inf s => f.signed s 0
  | .rcp, .num s m e =>
    if m == 0 then f.round .rn (.inf s)
    else if isPow2 m then f.round .rn (.num s 1 (-(Nat.log2 m : Int) - e))
    else let r := recipReal s m e; r.result f cand true 1 (r.ulp f)
  | .rsq, .inf s => if s then f.nan else 0
  | .rsq, .num s m e =>
    if m == 0 then f.round .rn (.inf s)
    else if s then f.nan
    else if isPow2 m && (Nat.log2 m + e) % 2 == 0 then f.round .rn (.num false 1 (-((Nat.log2 m + e) / 2)))
    else let r := rsqrtReal m e; r.result f cand true 2 (r.ulp f)
  | .exp2, .inf s => if s then 0 else f.round .rn (.inf false)
  | .exp2, .num s m e =>
    if m == 0 then f.round .rn (.num false 1 0)
    else if 12 < (Nat.log2 m : Int) + e then
      if s then ({ neg := false, mant := 1, exp := -8193, err := -8192 } : Real).result f cand true 2 f.qmin else f.round .rn (.inf false)
    else
      let whole : Bool := 0 ≤ e || m % 2 ^ (-e).toNat == 0
      let x : Int := if 0 ≤ e + 120 then scaleTo s m e (-120) else (if s then -1 else 0)
      let fl := x / 2 ^ 120
      let fr := (x % 2 ^ 120).toNat
      if whole && f.qmin ≤ fl then f.round .rn (.num false 1 fl)
      else let r := exp2Real fl fr; r.result f cand true 2 (r.ulp f)
  | .log2, .inf s => if s then f.nan else f.round .rn (.inf false)
  | .log2, .num s m e =>
    if m == 0 then f.round .rn (.inf true)
    else if s then f.nan
    else if isPow2 m then f.round .rn (FV.ofInt ((Nat.log2 m : Int) + e))
    else
      let r := log2Real m e
      let l := (Nat.log2 m : Int) + e
      if l == -1 || l == 0 then r.result f cand false 1 (if f == .f16 then -11 else -22)
      else r.result f cand false 2 (r.ulp f)
  | .sin, .inf _ => f.nan
  | .sin, .num s m e =>
    if m == 0 then f.signed s 0
    else if 15 < (Nat.log2 m : Int) + e || ((Nat.log2 m : Int) + e == 15 && !isPow2 m) then unitInterval f cand
    else (trigReal false s m e).result f cand false 1 (if f == .f16 then -10 else -21)
  | .cos, .inf _ => f.nan
  | .cos, .num s m e =>
    if m == 0 then f.round .rn (.num false 1 0)
    else if 15 < (Nat.log2 m : Int) + e || ((Nat.log2 m : Int) + e == 15 && !isPow2 m) then unitInterval f cand
    else (trigReal true s m e).result f cand false 1 (if f == .f16 then -10 else -21)

/-- An approximating instruction on a pattern (R95–R97). -/
def approxOp (op : Config.ApproxOp) (ty : Ty) (f : Fmt) (ftz : Bool) (bits : Nat) : Nat :=
  let b := f.flush ftz bits
  let cand := (Config.approx op ty (BitVec.ofNat 64 b)).toNat % 2 ^ f.width
  f.flush ftz (approxValue op f (f.value b) cand)

end Sys2Proof.Machine
end

