-- ==== Sys2Proof/WellFormed.lean ====
section
/-! DEFINITION. Which instructions are well-formed: the types, modes, scopes, orders, immediates and register indices that
the description of each instruction accepts (R66–R72, R107–R117, R127–R137, R149–R151, R161, R166–R168, R183, R191,
R206, R213, R218, R230, R238). What depends on the issuing fibre (its registers, its view) or on the clause (its
flags, its length) is checked at issue. Event rows carry no encoding; only the ranges their arguments have anywhere are
checked. -/

namespace Sys2Proof

/-- Width in bits of a value of a type, or of a packed word (R67, R107). -/
def Ty.bits : Ty → Nat
  | .none => 32
  | .s8 | .z8 | .f8a | .f8b => 8
  | .s16 | .z16 | .f16 | .bf16 => 16
  | .s64 | .z64 | .b64 | .f64 => 64
  | .s4 | .z4 => 4
  | .s32 | .z32 | .b32 | .f32 | .x2bf16 | .x2f16 | .x2s16 | .x2z16 | .x4s8 | .x4z8 | .x8s4 | .x8z4 | .x4f8a | .x4f8b => 32

/-- Types whose operands are `.d` pairs (R107). -/
def Ty.wide (t : Ty) : Bool := t.bits == 64

/-- Element count of a packed type, 1 for any other (R88). -/
def Ty.lanes : Ty → Nat
  | .x2bf16 | .x2f16 | .x2s16 | .x2z16 => 2
  | .x4s8 | .x4z8 | .x4f8a | .x4f8b => 4
  | .x8s4 | .x8z4 => 8
  | .none | .s8 | .s16 | .s32 | .s64 | .z8 | .z16 | .z32 | .z64 | .b32 | .b64 | .f64 | .f32 | .f16 | .bf16 | .f8a | .f8b
  | .s4 | .z4 => 1

/-- The packed types of R88. -/
def Ty.packed (t : Ty) : Bool := t.lanes != 1

/-- Signed and unsigned scalar integer types of 8 to 64 bits. -/
def Ty.sint : Ty → Bool
  | .s8 | .s16 | .s32 | .s64 => true
  | _ => false
/-- The `.z` types of 8 to 64 bits. -/
def Ty.zint : Ty → Bool
  | .z8 | .z16 | .z32 | .z64 => true
  | _ => false
/-- `.s8`–`.s64` and `.z8`–`.z64`. -/
def Ty.int (t : Ty) : Bool := t.sint || t.zint
/-- The packed integer types `iadd` takes (R110). -/
def Ty.intPacked : Ty → Bool
  | .x2s16 | .x2z16 | .x4s8 | .x4z8 => true
  | _ => false
/-- `.s32`, `.z32`, `.s64`, `.z64` (R110, R112). -/
def Ty.int32or64 : Ty → Bool
  | .s32 | .z32 | .s64 | .z64 => true
  | _ => false
/-- `.b32` and `.b64` (R114–R118). -/
def Ty.bitsTy : Ty → Bool
  | .b32 | .b64 => true
  | _ => false
/-- `.f64`, `.f32`, `.f16`, `.bf16` (R123). -/
def Ty.flt : Ty → Bool
  | .f64 | .f32 | .f16 | .bf16 => true
  | _ => false
/-- The types of the rounded arithmetic (R121). -/
def Ty.fltArith (t : Ty) : Bool := t.flt || t == .x2f16 || t == .x2bf16
/-- Floating-point scalar types with the 8-bit formats (R124, R127). -/
def Ty.fltAll (t : Ty) : Bool := t.flt || t == .f8a || t == .f8b
/-- The types a load or store takes (R150). -/
def Ty.mem : Ty → Bool
  | .none | .s4 | .z4 => false
  | _ => true
/-- Types of the approximating instructions and of `fsqrt` (R96). -/
def Ty.fltFn : Ty → Bool
  | .f64 | .f32 | .f16 => true
  | _ => false

/-- An even index, as a pair needs (R16). -/
def Reg.even (r : Reg) : Bool := !r.getLsbD 0
/-- A register field of a given type: even where the type is 64 bits wide (R16, R107). -/
def Ty.regOk (t : Ty) (r : Reg) : Bool := !t.wide || Reg.even r

/-- The widening rule of a 32-bit immediate (R108). -/
def immOk (t : Ty) (imm : Word) : Bool :=
  match t with
  | .s8 => imm == (imm.setWidth 8).signExtend 32
  | .s16 => imm == (imm.setWidth 16).signExtend 32
  | .z8 => imm == (imm.setWidth 8).setWidth 32
  | .z16 | .f16 | .bf16 => imm == (imm.setWidth 16).setWidth 32
  | _ => true

/-- POS and LEN of `bfx` and `bfi` (R116, R117). -/
def fieldOk (t : Ty) (pos : BitVec 6) (len : BitVec 7) : Bool :=
  pos.toNat < t.bits && 1 ≤ len.toNat && len.toNat ≤ t.bits && pos.toNat + len.toNat ≤ t.bits

/-- Only a long-latency instruction may select completion flags (R60). -/
def Hdr.uncounted (h : Hdr) : Bool := h.fsel == 0

/-- Operations and types of the atomics (R166). -/
def AtomOp.tyOk : AtomOp → Ty → Bool
  | .add, t | .min, t | .max, t => t.int32or64
  | .and, t | .or, t | .xor, t | .xchg, t => t.bitsTy
  | .inc, t | .dec, t => t == .z32
  | .fadd, t | .fmin, t | .fmax, t => t == .f32

/-- Operations and types of `sred` and `sscan` (R136). -/
def RedOp.tyOk : RedOp → Ty → Bool
  | .add, t | .min, t | .max, t => t.int32or64 || t == .f32
  | .and, t | .or, t | .xor, t => t.bitsTy

/-- SCOPE and ORDER of the loads (R149). -/
def ldOrderOk (o : Order) (s : Scope) : Bool :=
  (o == .plain && s == .fib) || (o == .acq && s != .fib)
/-- SCOPE and ORDER of the stores (R149). -/
def stOrderOk (o : Order) (s : Scope) : Bool :=
  (o == .plain && s == .fib) || (o == .rel && s != .fib)

/-- The special registers of R39 and R41 that may be named: index, whether 64 bits wide. -/
def srWide (idx : BitVec 8) : Option Bool :=
  let i := idx.toNat
  if i ≤ 0x0F then some false
  else if i == 0x10 then some true
  else if 0x12 ≤ i && i ≤ 0x1A then some false
  else if i == 0x80 || i == 0x81 || (0x84 ≤ i && i ≤ 0x87) || (0x8C ≤ i && i ≤ 0x8E) then some false
  else if i == 0x82 || i == 0x88 || i == 0x8A then some true
  else none

/-- A special-register index with a register of its width (R39). -/
def srOk (idx : BitVec 8) (r : Reg) : Bool :=
  match srWide idx with
  | some w => !w || Reg.even r
  | none => false

/-- `swr` of these registers is a row of its own. -/
def swrOwnRow (idx : BitVec 8) : Bool :=
  idx == 0x13 || idx == 0x82 || idx == 0x84 || idx == 0x8D || idx == 0x8E

/-- Registers and strides the `mma` forms share (R183). -/
def MmaOps.ok (o : MmaOps) : Bool :=
  (o.asp || Reg.even o.a) && (o.bsp || Reg.even o.b) && Reg.even o.str && o.acs.toNat % 16 == 0

/-- Well-formed instructions. -/
def Instr.wf : Instr → Bool
  | .iadd h t s d a b | .isub h t s d a b =>
    h.uncounted && (t.int || t.intPacked) && !(s && t.wide) && t.regOk d && t.regOk a && t.regOk b
  | .iaddImm32 h t s d a imm | .isubImm32 h t s d a imm =>
    h.uncounted && (t.int || t.intPacked) && !(s && t.wide) && t.regOk d && t.regOk a && immOk t imm
  | .iaddImm64 h t d a _ | .isubImm64 h t d a _ =>
    h.uncounted && (t == .s64 || t == .z64) && Reg.even d && Reg.even a
  | .imul h t d a b => h.uncounted && t.int && t.regOk d && t.regOk a && t.regOk b
  | .imulImm32 h t d a imm => h.uncounted && t.int && t.regOk d && t.regOk a && immOk t imm
  | .imulh h t d a b => h.uncounted && t.int32or64 && t.regOk d && t.regOk a && t.regOk b
  | .imad h t d a b c => h.uncounted && t.int32or64 && t.regOk d && t.regOk a && t.regOk b && t.regOk c
  | .iaddc h _ d _ _ _ => h.uncounted && Reg.even d
  | .imin h t d a b | .imax h t d a b =>
    h.uncounted && (t.int || t.intPacked) && t.regOk d && t.regOk a && t.regOk b
  | .iminImm32 h t d a imm | .imaxImm32 h t d a imm =>
    h.uncounted && (t.int || t.intPacked) && t.regOk d && t.regOk a && immOk t imm
  | .iabs h t d a => h.uncounted && t.sint && t.regOk d && t.regOk a
  | .ineg h t d a => h.uncounted && t.int && t.regOk d && t.regOk a
  | .bAnd h t d a b | .bOr h t d a b | .bXor h t d a b | .bAndn h t d a b =>
    h.uncounted && t.bitsTy && t.regOk d && t.regOk a && t.regOk b
  | .bAndImm32 h t d a _ | .bOrImm32 h t d a _ | .bXorImm32 h t d a _ | .bAndnImm32 h t d a _ =>
    h.uncounted && t.bitsTy && t.regOk d && t.regOk a
  | .bAndImm64 h t d a _ | .bOrImm64 h t d a _ | .bXorImm64 h t d a _ | .bAndnImm64 h t d a _ =>
    h.uncounted && t == .b64 && Reg.even d && Reg.even a
  | .bNot h t d a => h.uncounted && t.bitsTy && t.regOk d && t.regOk a
  | .shl h t d a _ | .shr h t d a _ | .sra h t d a _ | .rot h t d a _ =>
    h.uncounted && t.bitsTy && t.regOk d && t.regOk a
  | .shlImm32 h t d a _ | .shrImm32 h t d a _ | .sraImm32 h t d a _ | .rotImm32 h t d a _ =>
    h.uncounted && t.bitsTy && t.regOk d && t.regOk a
  | .bfx h t d a pos len => h.uncounted && t.int32or64 && t.regOk d && t.regOk a && fieldOk t pos len
  | .bfi h t d a b pos len =>
    h.uncounted && t.bitsTy && t.regOk d && t.regOk a && t.regOk b && fieldOk t pos len
  | .popc h t _ a | .clz h t _ a | .ctz h t _ a => h.uncounted && t.bitsTy && t.regOk a
  | .brev h t d a => h.uncounted && t.bitsTy && t.regOk d && t.regOk a
  | .icmp h _ t _ a b => h.uncounted && t.int && t.regOk a && t.regOk b
  | .icmpImm32 h _ t _ a imm => h.uncounted && t.int && t.regOk a && immOk t imm
  | .sel h t d a b _ _ => h.uncounted && t.bitsTy && t.regOk d && t.regOk a && t.regOk b
  | .fadd h _ t d a b | .fsub h _ t d a b | .fmul h _ t d a b =>
    h.uncounted && t.fltArith && t.regOk d && t.regOk a && t.regOk b
  | .faddImm32 h _ t _ _ imm | .fsubImm32 h _ t _ _ imm | .fmulImm32 h _ t _ _ imm =>
    h.uncounted && t.fltArith && t != .f64 && immOk t imm
  | .faddImm64 h _ d a _ | .fsubImm64 h _ d a _ | .fmulImm64 h _ d a _ => h.uncounted && Reg.even d && Reg.even a
  | .ffma h _ t d a b c => h.uncounted && t.fltArith && t.regOk d && t.regOk a && t.regOk b && t.regOk c
  | .fmin h t d a b | .fmax h t d a b => h.uncounted && t.fltArith && t.regOk d && t.regOk a && t.regOk b
  | .fcmp h _ t _ a b => h.uncounted && t.flt && t.regOk a && t.regOk b
  | .fclass h t _ a => h.uncounted && t.fltAll && t.regOk a
  | .frnd h _ t d a => h.uncounted && t.flt && t.regOk d && t.regOk a
  | .frcp h t d a | .frsq h t d a => h.uncounted && t.fltFn && t.regOk d && t.regOk a
  | .fsqrt h _ t d a => h.uncounted && t.fltFn && t.regOk d && t.regOk a
  | .fexp2 h t d a | .flog2 h t d a => h.uncounted && (t == .f32 || t == .f16) && t.regOk d && t.regOk a
  | .fsin h t _ _ | .fcos h t _ _ => h.uncounted && (t == .f32 || t == .f16)
  | .cvt h md dt src d a =>
    h.uncounted && (dt.int || dt.fltAll) && (src.int || src.fltAll) && (!(dt.int && src.int) || md == .rn)
      && dt.regOk d && src.regOk a
  | .cvtEf h _ dt _ _ _ _ => h.uncounted && (dt == .bf16 || dt == .f8a || dt == .f8b)
  | .eclr h _ => h.uncounted
  | .pack h t _ _ _ _ i => h.uncounted && t.packed && i.toNat % 2 == 0 && i.toNat < t.lanes
  | .unpack h t _ _ i => h.uncounted && t.packed && i.toNat < t.lanes
  | .dot2 h _ t _ _ _ _ => h.uncounted && (t == .x2bf16 || t == .x2f16)
  | .dot4 h md t _ _ _ _ =>
    h.uncounted && (t == .x4f8a || t == .x4f8b || ((t == .x4s8 || t == .x4z8) && md == .rn))
  | .dot8 h t _ _ _ _ => h.uncounted && (t == .x8s4 || t == .x8z4)
  | .sshfl h _ t d a _ c _ => h.uncounted && t.bitsTy && t.regOk d && t.regOk a && t.regOk c
  | .svote h m _ _ _ w _ => h.uncounted && (m == .mask || w == 0)
  | .sred h op t d a _ => h.uncounted && op.tyOk t && t.regOk d && t.regOk a
  | .sscan h op _ t d a _ => h.uncounted && op.tyOk t && t.regOk d && t.regOk a
  | .sjoin h _ _ _ => h.uncounted
  | .sleave h _ | .sbar h _ => h.uncounted
  | .bra h _ => h.uncounted
  | .brx h a | .ret h a => h.uncounted && Reg.even a
  | .brxL h d a => h.uncounted && Reg.even d && Reg.even a
  | .call h d _ => h.uncounted && Reg.even d
  | .fspawn h _ _ _ _ => h.uncounted
  | .fend h => h.uncounted
  | .ld _ o s _ _ t d a _ => ldOrderOk o s && t.mem && t.regOk d && Reg.even a
  | .st _ o s _ t v a _ => stOrderOk o s && t.mem && t.regOk v && Reg.even a
  | .ldRo _ _ t d a _ => t.mem && t.regOk d && Reg.even a
  | .lds _ t d _ _ => t.mem && t.regOk d
  | .sts _ t v _ _ => t.mem && t.regOk v
  | .ldw _ t d a _ => t.mem && t.regOk d && Reg.even a
  | .ldwNb _ t d a _ _ => t.mem && t.regOk d && Reg.even a
  | .stx _ t v _ _ _ => t.mem && t.regOk v
  | .pref _ _ a _ => Reg.even a
  | .cwb _ a _ | .cinv _ a _ | .cflush _ a _ => Reg.even a
  | .hoffImm32 h d a _ => h.uncounted && Reg.even d && Reg.even a
  | .hoffUnsigned h d a _ | .hoffSigned h d a _ => h.uncounted && Reg.even d && Reg.even a
  | .hoffPair h d a b => h.uncounted && Reg.even d && Reg.even a && Reg.even b
  | .hoffImm64 h d a _ => h.uncounted && Reg.even d && Reg.even a
  | .hnarrow h d a b _ _ => h.uncounted && Reg.even d && Reg.even a && Reg.even b
  | .hinfo h d a => h.uncounted && Reg.even d && Reg.even a
  | .fence h _ _ => h.uncounted
  | .atom _ op _ s t d a _ b =>
    op.tyOk t && (op == .add || op == .min || op == .max || op == .and || op == .or || op == .xor || op == .xchg || op == .inc)
      && s != .fib && t.regOk d && Reg.even a && t.regOk b
  | .atomDecFloat _ op _ s t d a _ b =>
    op.tyOk t && (op == .dec || op == .fadd || op == .fmin || op == .fmax) && s != .fib && t.regOk d && Reg.even a
      && t.regOk b
  | .atomc _ _ s t d a b c _ => t.bitsTy && s != .fib && t.regOk d && Reg.even a && t.regOk b && t.regOk c
  | .red _ op o s t b a _ =>
    op.tyOk t && (op == .add || op == .min || op == .max || op == .and || op == .or || op == .xor || op == .inc || op == .dec)
      && (o == .plain || o == .rel) && s != .fib && t.regOk b && Reg.even a
  | .redFloat _ op o s t b a _ =>
    op.tyOk t && (op == .fadd || op == .fmin || op == .fmax) && (o == .plain || o == .rel) && s != .fib && t.regOk b
      && Reg.even a
  | .mma _ _ o => (o.ty == .bf16 || o.ty == .f16) && o.ok
  | .mmaW4 _ _ o p => (o.ty == .s4 || o.ty == .z4) && o.ok && Reg.even p
  | .mmaBp _ o => (o.ty == .f8a || o.ty == .f8b || o.ty == .s8 || o.ty == .z8) && o.ok
  | .scacc _ _ t _ _ _ _ _ acs pst => (t == .f32 || t == .s32) && acs.toNat % 16 == 0 && pst.toNat % 16 == 0
  | .aclr _ _ m n _ => 1 ≤ m.toNat && m.toNat ≤ 128 && 1 ≤ n.toNat && n.toNat ≤ 128
  | .mprog _ => true
  | .binit h _ e s => h.uncounted && e != 0 && 1 ≤ s.toNat && s.toNat ≤ 4
  | .barr h _ _ => h.uncounted
  | .barx h _ _ b => h.uncounted && Reg.even b
  | .bwait h _ _ => h.uncounted
  | .bphase h _ _ | .bphaseCnt h _ _ => h.uncounted
  | .clswap h _ _ => h.uncounted
  | .marm h _ t d a _ => h.uncounted && t.bitsTy && t.regOk d && Reg.even a
  | .marmQ h _ => h.uncounted
  | .mwait => true
  | .qpush _ _ _ a _ => a.toNat % 8 == 0
  | .qpop _ d _ _ => d.toNat % 8 == 0
  | .qstat h _ _ => h.uncounted
  | .tnext h _ => h.uncounted
  | .step h => h.uncounted
  | .nop | .yield | .halt | .uidis => true
  | .bkpt h _ => h.uncounted
  | .svc h a _ => h.uncounted && a.toNat % 4 == 0
  | .trap h _ | .ttrap h _ => h.uncounted
  | .eret h _ | .eretEnd h _ => h.uncounted
  | .srd h d idx => h.uncounted && srOk idx d
  | .swr h idx a => h.uncounted && srOk idx a && !swrOwnRow idx
  | .srFaultClear h _ | .ksFrozenWrite h _ | .ksKillWrite h _ => h.uncounted
  | .ksHtbaseWrite h len a => h.uncounted && (len || Reg.even a)
  | .uien h l a => h.uncounted && Reg.even l && Reg.even a
  -- event rows: the ranges their arguments have
  | .issueCycle c q _ | .warpDissolution c q => c < 1544 && q < 4
  | .flitReceive p f => p < 16 && f.length == 256
  | .retryRequest p _ | .linkDown p => p < 16
  | .hostWrite r _ d => r.port < 2 && 1 ≤ d.length && d.length ≤ 4096
  | .hostRead r _ n => r.port < 2 && 1 ≤ n && n ≤ 4096
  | .hostAtomicop r op _ n _ _ =>
    r.port < 2 && ((n == 4 || n == 8) || (op == .cas && n == 16))
  | .mailboxSend r s p d => r.port < 2 && s < 16 && p < 2 && d.length == 64
  | .consumerIndexWrite r s p _ => r.port < 2 && s < 16 && p < 2
  | .managementQueueWrite p d => p < 2 && d.length == 32
  | .registerWrite p _ _ | .renew p | .claim p => p < 2
  | .powerCapThrottle d => d < 8
  | .matrixOpStart c | .followerClaim c | .matrixRowComplete c _ | .matrixOpComplete c | .sideLogReplay c
  | .exchangeComplete c | .spillComplete c | .fillComplete c | .spareRemap c | .reorderCheck c => c < 1544
  | _ => true

end Sys2Proof
end

