-- ==== Sys2Proof/Decode.lean ====
section
/-! DEFINITION. The encoding (R48, R63–R74, R109, R147–R151, R183, R206–R239): the fields of an instruction, its decoder,
total on any bytes, and its encoder. The decoder reads the fields an instruction uses, then checks that the instruction
is well-formed and that every other bit is the one its encoding has, so a reserved or unused field that is not zero is
refused (R66, R71). Event rows have no encoding. -/

namespace Sys2Proof

/-- Why a word is no instruction. -/
inductive DecodeError where
  /-- length code 0b00: a clause header (R48, R52) -/
  | header
  /-- a reserved major opcode (R71) -/
  | major
  /-- a format the opcode map does not list for the major opcode (R65) -/
  | format
  /-- a reserved MINOR, SUB or MOD (R71, R72) -/
  | minor
  /-- a reserved TYPE code (R67) -/
  | type
  /-- SCOPE 6 or 7 (R69) -/
  | scope
  /-- a type, mode, immediate or pair index the instruction does not accept -/
  | illFormed
  /-- a reserved or unused field that is not zero (R66) -/
  | reserved
  /-- fewer bytes than the length code asks for -/
  | short
  deriving DecidableEq, Repr

/-- The fields of the first 64 bits (R63, R64). `v` is bits 58:51: MOD and MINOR, or SCOPE, ORDER and SUB. -/
structure Fields where
  lc : BitVec 2
  major : BitVec 8
  fsel : BitVec 2
  gen : BitVec 1
  ginv : BitVec 1
  greg : BitVec 8
  gbit : BitVec 5
  dst : Reg
  srca : Reg
  srcb : Reg
  v : BitVec 8
  ty : BitVec 5
  deriving DecidableEq, Repr

/-- The fields of a 64-bit word (R63, R64). -/
def Fields.ofWord (w : Dword) : Fields :=
  { lc := w.extractLsb' 0 2, major := w.extractLsb' 2 8, fsel := w.extractLsb' 10 2, gen := w.extractLsb' 12 1,
    ginv := w.extractLsb' 13 1, greg := w.extractLsb' 14 8, gbit := w.extractLsb' 22 5, dst := w.extractLsb' 27 8,
    srca := w.extractLsb' 35 8, srcb := w.extractLsb' 43 8, v := w.extractLsb' 51 8, ty := w.extractLsb' 59 5 }

/-- The 64-bit word of the fields. -/
def Fields.toWord (f : Fields) : Dword :=
  f.ty ++ f.v ++ f.srcb ++ f.srca ++ f.dst ++ f.gbit ++ f.greg ++ f.ginv ++ f.gen ++ f.fsel ++ f.major ++ f.lc

/-- MOD, bits 58:57. -/
def Fields.mod (f : Fields) : BitVec 2 := f.v.extractLsb' 6 2
/-- MINOR, bits 56:51. -/
def Fields.minor (f : Fields) : BitVec 6 := f.v.extractLsb' 0 6
/-- SCOPE, bits 58:56 of the memory groups. -/
def Fields.scope (f : Fields) : BitVec 3 := f.v.extractLsb' 5 3
/-- ORDER, bits 55:54 of the memory groups. -/
def Fields.order (f : Fields) : BitVec 2 := f.v.extractLsb' 3 2
/-- SUB, bits 53:51 of the memory groups. -/
def Fields.sub (f : Fields) : BitVec 3 := f.v.extractLsb' 0 3

/-- TYPE codes (R67). -/
def Ty.code : Ty → BitVec 5
  | .none => 0x00 | .s8 => 0x01 | .s16 => 0x02 | .s32 => 0x03 | .s64 => 0x04 | .z8 => 0x05 | .z16 => 0x06 | .z32 => 0x07
  | .z64 => 0x08 | .b32 => 0x09 | .b64 => 0x0A | .f64 => 0x0B | .f32 => 0x0C | .f16 => 0x0D | .bf16 => 0x0E
  | .f8a => 0x0F | .f8b => 0x10 | .s4 => 0x11 | .z4 => 0x12 | .x2bf16 => 0x13 | .x2f16 => 0x14 | .x2s16 => 0x15
  | .x2z16 => 0x16 | .x4s8 => 0x17 | .x4z8 => 0x18 | .x8s4 => 0x19 | .x8z4 => 0x1A | .x4f8a => 0x1B | .x4f8b => 0x1C

/-- The type a code names; 0x1D–0x1F name none (R67). -/
def Ty.ofCode (c : BitVec 5) : Option Ty :=
  [Ty.none, .s8, .s16, .s32, .s64, .z8, .z16, .z32, .z64, .b32, .b64, .f64, .f32, .f16, .bf16, .f8a, .f8b, .s4, .z4,
   .x2bf16, .x2f16, .x2s16, .x2z16, .x4s8, .x4z8, .x8s4, .x8z4, .x4f8a, .x4f8b][c.toNat]?

/-- Rounding modes (R68). -/
def Rnd.code : Rnd → BitVec 2
  | .rn => 0 | .rz => 1 | .rp => 2 | .rm => 3
/-- Rounding modes (R68). -/
def Rnd.ofCode (c : BitVec 2) : Rnd :=
  match c.toNat with
  | 0 => .rn | 1 => .rz | 2 => .rp | _ => .rm

/-- Scope codes (R69). -/
def Scope.code : Scope → BitVec 3
  | .fib => 0 | .shf => 1 | .cls => 2 | .die => 3 | .pkg => 4 | .sys => 5
/-- Scope codes (R69); 6 and 7 name none. -/
def Scope.ofCode (c : BitVec 3) : Option Scope := [Scope.fib, .shf, .cls, .die, .pkg, .sys][c.toNat]?

/-- ORDER codes (R69). -/
def Order.code : Order → BitVec 2
  | .plain => 0 | .acq => 1 | .rel => 2 | .ar => 3
/-- ORDER codes (R69). -/
def Order.ofCode (c : BitVec 2) : Order :=
  match c.toNat with
  | 0 => .plain | 1 => .acq | 2 => .rel | _ => .ar

/-- ORDER codes of `fence` (R69). -/
def FenceKind.code : FenceKind → BitVec 2
  | .sc => 0 | .acq => 1 | .rel => 2 | .ar => 3
/-- ORDER codes of `fence` (R69). -/
def FenceKind.ofCode (c : BitVec 2) : FenceKind :=
  match c.toNat with
  | 0 => .sc | 1 => .acq | 2 => .rel | _ => .ar

/-- Hint bits 52:51 (R148). -/
def Hint.code : Hint → BitVec 2
  | .none => 0 | .last => 1 | .first => 2
/-- Hint bits 52:51; 0b11 is reserved (R148). -/
def Hint.ofCode (c : BitVec 2) : Option Hint := [Hint.none, .last, .first][c.toNat]?

/-- Levels of `pref` (R161). -/
def PrefLevel.code : PrefLevel → BitVec 3
  | .l1 => 0 | .l2 => 1 | .llc => 2
/-- Levels of `pref` (R161). -/
def PrefLevel.ofCode (c : BitVec 3) : Option PrefLevel := [PrefLevel.l1, .l2, .llc][c.toNat]?

/-- MINOR of `icmp` (R72). -/
def ICond.code : ICond → BitVec 6
  | .eq => 0 | .ne => 1 | .lt => 2 | .le => 3 | .gt => 4 | .ge => 5
/-- MINOR of `icmp` (R72). -/
def ICond.ofCode (c : BitVec 6) : Option ICond := [ICond.eq, .ne, .lt, .le, .gt, .ge][c.toNat]?

/-- MINOR of `fcmp` (R72). -/
def FCond.code : FCond → BitVec 6
  | .eq => 0 | .ne => 1 | .lt => 2 | .le => 3 | .gt => 4 | .ge => 5 | .un => 6 | .or => 7
/-- MINOR of `fcmp` (R72). -/
def FCond.ofCode (c : BitVec 6) : Option FCond := [FCond.eq, .ne, .lt, .le, .gt, .ge, .un, .or][c.toNat]?

/-- MINOR of `sshfl` (R72). -/
def ShflMode.code : ShflMode → BitVec 6
  | .rank => 0 | .rot => 1 | .rev => 2 | .grp => 3
/-- MINOR of `sshfl` (R72). -/
def ShflMode.ofCode (c : BitVec 6) : Option ShflMode := [ShflMode.rank, .rot, .rev, .grp][c.toNat]?

/-- MINOR of `svote` (R72). -/
def VoteMode.code : VoteMode → BitVec 6
  | .count => 0 | .mask => 1 | .first => 2 | .same => 3
/-- MINOR of `svote` (R72). -/
def VoteMode.ofCode (c : BitVec 6) : Option VoteMode := [VoteMode.count, .mask, .first, .same][c.toNat]?

/-- MINOR of `sred` and `sscan` (R72). -/
def RedOp.code : RedOp → BitVec 6
  | .add => 0 | .min => 1 | .max => 2 | .and => 3 | .or => 4 | .xor => 5
/-- MINOR of `sred` and `sscan` (R72). -/
def RedOp.ofCode (c : BitVec 6) : Option RedOp := [RedOp.add, .min, .max, .and, .or, .xor][c.toNat]?

/-- SUB of `atom` on major 0x90; of `red` on 0x93 the same but for 6 and 7 (R71). -/
def AtomOp.code : AtomOp → BitVec 3
  | .add => 0 | .min => 1 | .max => 2 | .and => 3 | .or => 4 | .xor => 5 | .xchg => 6 | .inc => 7
  | .dec => 0 | .fadd => 1 | .fmin => 2 | .fmax => 3
/-- SUB of `red` (R71). -/
def AtomOp.redCode : AtomOp → BitVec 3
  | .add => 0 | .min => 1 | .max => 2 | .and => 3 | .or => 4 | .xor => 5 | .inc => 6 | .dec => 7
  | .fadd => 0 | .fmin => 1 | .fmax => 2 | .xchg => 0
/-- Major 0x90 (R71). -/
def AtomOp.of90 (c : BitVec 3) : Option AtomOp :=
  [AtomOp.add, .min, .max, .and, .or, .xor, .xchg, .inc][c.toNat]?
/-- Major 0x91 (R71). -/
def AtomOp.of91 (c : BitVec 3) : Option AtomOp := [AtomOp.dec, .fadd, .fmin, .fmax][c.toNat]?
/-- Major 0x93 (R71). -/
def AtomOp.of93 (c : BitVec 3) : Option AtomOp :=
  [AtomOp.add, .min, .max, .and, .or, .xor, .inc, .dec][c.toNat]?
/-- Major 0x94 (R71). -/
def AtomOp.of94 (c : BitVec 3) : Option AtomOp := [AtomOp.fadd, .fmin, .fmax][c.toNat]?

/-- One bit of a flag. -/
def bit1 (b : Bool) : BitVec 1 := BitVec.ofBool b

/-! ## The encoder -/

/-- The 64 bits above the first word, 96I: IMM32, bits 127:96 zero (R48, R65). -/
def hiI (imm : Word) : Dword := 0#32 ++ imm
/-- 96X: extended modifiers and SRCC (R65). -/
def hiX (ext : BitVec 24) (c : Reg) : Dword := 0#32 ++ ext ++ c
/-- IMM32 with a displacement in bits 31:8 and a register in bits 7:0 (R147). -/
def immDR (disp : BitVec 24) (r : Reg) : Word := disp ++ r

/-- Guard fields (R70): all zero where the guard is disabled. -/
def Fields.guarded (g : Option Guard) (f : Fields) : Fields :=
  match g with
  | none => { f with gen := 0, ginv := 0, greg := 0, gbit := 0 }
  | some g => { f with gen := 1, ginv := bit1 g.inv, greg := g.reg, gbit := g.bit }

/-- Fields of an instruction with a header. -/
def Fields.mk' (lc : BitVec 2) (major : BitVec 8) (h : Hdr) (ty : Ty) (v : BitVec 8) (d a b : Reg) : Fields :=
  Fields.guarded h.guard
    { lc, major, fsel := h.fsel, gen := 0, ginv := 0, greg := 0, gbit := 0, dst := d, srca := a, srcb := b, v, ty := ty.code }

/-- Fields of an instruction that is never guarded (R70, R239). -/
def Fields.plain (lc : BitVec 2) (major : BitVec 8) (fsel : BitVec 2) (ty : Ty) (d a b : Reg) : Fields :=
  { lc, major, fsel, gen := 0, ginv := 0, greg := 0, gbit := 0, dst := d, srca := a, srcb := b, v := 0, ty := ty.code }

/-- Bits 58:51 from MOD and MINOR. -/
def vMM (md : BitVec 2) (minor : BitVec 6) : BitVec 8 := md ++ minor
/-- Bits 58:51 from SCOPE, ORDER and SUB. -/
def vMem (s : Scope) (o : Order) (sub : BitVec 3) : BitVec 8 := s.code ++ o.code ++ sub

/-- An encoding: the first word's fields and the 64 bits above it (zero for the 64 format). -/
abbrev Enc := Fields × Dword

/-- 64 format. -/
def e64 (major : BitVec 8) (h : Hdr) (ty : Ty) (v : BitVec 8) (d a b : Reg) : Option Enc :=
  some (Fields.mk' 1 major h ty v d a b, 0)
/-- 96I format. -/
def e96I (major : BitVec 8) (h : Hdr) (ty : Ty) (v : BitVec 8) (d a : Reg) (imm : Word) : Option Enc :=
  some (Fields.mk' 2 major h ty v d a 0, hiI imm)
/-- 96X format. -/
def e96X (major : BitVec 8) (h : Hdr) (ty : Ty) (v : BitVec 8) (d a b : Reg) (ext : BitVec 24) (c : Reg) : Option Enc :=
  some (Fields.mk' 2 major h ty v d a b, hiX ext c)
/-- 128I format. -/
def e128I (major : BitVec 8) (h : Hdr) (ty : Ty) (v : BitVec 8) (d a : Reg) (imm : Dword) : Option Enc :=
  some (Fields.mk' 3 major h ty v d a 0, imm)

/-- Bits 127:64 of the `mma` forms (R183). -/
def hiMma (o : MmaOps) (pair : Bool) (prm : Reg) : Dword :=
  0#21 ++ bit1 o.bsp ++ bit1 o.asp ++ bit1 pair ++ prm ++ o.acs ++ o.str ++ o.shp
/-- Bits 127:64 of `scacc` (R183). -/
def hiScacc (clr : Bool) (pst acs : BitVec 16) (shp sb : Reg) : Dword :=
  0#15 ++ bit1 clr ++ pst ++ acs ++ shp ++ sb

/-- The encoding of an instruction; `none` for the event rows, which have none. `fend` keeps its guard fields (R63, R70), which R142's
'every field above bit 12 except MAJOR and LC zero' is read to leave out (DEDUCED; log 16). -/
def encodeFields : Instr → Option Enc
  | .iadd h t s d a b => e64 0x00 h t (vMM (0#1 ++ bit1 s) 0) d a b
  | .iaddImm32 h t s d a i => e96I 0x00 h t (vMM (0#1 ++ bit1 s) 0) d a i
  | .iaddImm64 h t d a i => e128I 0x00 h t 0 d a i
  | .isub h t s d a b => e64 0x01 h t (vMM (0#1 ++ bit1 s) 0) d a b
  | .isubImm32 h t s d a i => e96I 0x01 h t (vMM (0#1 ++ bit1 s) 0) d a i
  | .isubImm64 h t d a i => e128I 0x01 h t 0 d a i
  | .imul h t d a b => e64 0x02 h t 0 d a b
  | .imulImm32 h t d a i => e96I 0x02 h t 0 d a i
  | .imulh h t d a b => e64 0x03 h t 0 d a b
  | .imad h t d a b c => e96X 0x04 h t 0 d a b 0 c
  | .iaddc h bo d a b c => e96X 0x05 h .z32 (vMM (0#1 ++ bit1 bo) 0) d a b 0 c
  | .imin h t d a b => e64 0x06 h t 0 d a b
  | .iminImm32 h t d a i => e96I 0x06 h t 0 d a i
  | .imax h t d a b => e64 0x07 h t 0 d a b
  | .imaxImm32 h t d a i => e96I 0x07 h t 0 d a i
  | .iabs h t d a => e64 0x08 h t 0 d a 0
  | .ineg h t d a => e64 0x09 h t 0 d a 0
  | .bAnd h t d a b => e64 0x0A h t 0 d a b
  | .bAndImm32 h t d a i => e96I 0x0A h t 0 d a i
  | .bAndImm64 h t d a i => e128I 0x0A h t 0 d a i
  | .bOr h t d a b => e64 0x0B h t 0 d a b
  | .bOrImm32 h t d a i => e96I 0x0B h t 0 d a i
  | .bOrImm64 h t d a i => e128I 0x0B h t 0 d a i
  | .bXor h t d a b => e64 0x0C h t 0 d a b
  | .bXorImm32 h t d a i => e96I 0x0C h t 0 d a i
  | .bXorImm64 h t d a i => e128I 0x0C h t 0 d a i
  | .bNot h t d a => e64 0x0D h t 0 d a 0
  | .shl h t d a b => e64 0x0E h t 0 d a b
  | .shlImm32 h t d a n => e96I 0x0E h t 0 d a (0#24 ++ n)
  | .shr h t d a b => e64 0x0F h t 0 d a b
  | .shrImm32 h t d a n => e96I 0x0F h t 0 d a (0#24 ++ n)
  | .sra h t d a b => e64 0x10 h t 0 d a b
  | .sraImm32 h t d a n => e96I 0x10 h t 0 d a (0#24 ++ n)
  | .rot h t d a b => e64 0x11 h t 0 d a b
  | .rotImm32 h t d a n => e96I 0x11 h t 0 d a (0#24 ++ n)
  | .bfx h t d a pos len => e96I 0x12 h t 0 d a (0#19 ++ len ++ pos)
  | .bfi h t d a b pos len => e96X 0x13 h t 0 d a b (0#11 ++ len ++ pos) 0
  | .popc h t d a => e64 0x14 h t 0 d a 0
  | .clz h t d a => e64 0x15 h t 0 d a 0
  | .ctz h t d a => e64 0x16 h t 0 d a 0
  | .brev h t d a => e64 0x17 h t 0 d a 0
  | .icmp h cc t d a b => e64 0x18 h t (vMM 0 cc.code) d a b
  | .icmpImm32 h cc t d a i => e96I 0x18 h t (vMM 0 cc.code) d a i
  | .sel h t d a b c n => e96X 0x19 h t 0 d a b (0#19 ++ n) c
  | .bAndn h t d a b => e64 0x1A h t 0 d a b
  | .bAndnImm32 h t d a i => e96I 0x1A h t 0 d a i
  | .bAndnImm64 h t d a i => e128I 0x1A h t 0 d a i
  | .fadd h m t d a b => e64 0x20 h t (vMM m.code 0) d a b
  | .faddImm32 h m t d a i => e96I 0x20 h t (vMM m.code 0) d a i
  | .faddImm64 h m d a i => e128I 0x20 h .f64 (vMM m.code 0) d a i
  | .fsub h m t d a b => e64 0x21 h t (vMM m.code 0) d a b
  | .fsubImm32 h m t d a i => e96I 0x21 h t (vMM m.code 0) d a i
  | .fsubImm64 h m d a i => e128I 0x21 h .f64 (vMM m.code 0) d a i
  | .fmul h m t d a b => e64 0x22 h t (vMM m.code 0) d a b
  | .fmulImm32 h m t d a i => e96I 0x22 h t (vMM m.code 0) d a i
  | .fmulImm64 h m d a i => e128I 0x22 h .f64 (vMM m.code 0) d a i
  | .ffma h m t d a b c => e96X 0x23 h t (vMM m.code 0) d a b 0 c
  | .fmin h t d a b => e64 0x24 h t 0 d a b
  | .fmax h t d a b => e64 0x25 h t 0 d a b
  | .fcmp h cc t d a b => e64 0x26 h t (vMM 0 cc.code) d a b
  | .fclass h t d a => e64 0x27 h t 0 d a 0
  | .frnd h m t d a => e64 0x28 h t (vMM m.code 0) d a 0
  | .frcp h t d a => e64 0x29 h t 0 d a 0
  | .frsq h t d a => e64 0x2A h t 0 d a 0
  | .fsqrt h m t d a => e64 0x2B h t (vMM m.code 0) d a 0
  | .fexp2 h t d a => e64 0x2C h t 0 d a 0
  | .flog2 h t d a => e64 0x2D h t 0 d a 0
  | .fsin h t d a => e64 0x2E h t 0 d a 0
  | .fcos h t d a => e64 0x2F h t 0 d a 0
  | .cvt h m dt src d a => e64 0x40 h dt (vMM m.code (0#1 ++ src.code)) d a 0
  | .cvtEf h m dt d a e j => e96X 0x41 h dt (vMM m.code 0) d a 0 (0#22 ++ j) (0#5 ++ e)
  | .eclr h e => e64 0x42 h .none 0 (0#5 ++ e) 0 0
  | .pack h t d a b c i => e96X 0x43 h t 0 d a b (0#21 ++ i) c
  | .unpack h t d a i => e96I 0x44 h t 0 d a (0#29 ++ i)
  | .dot2 h m t d a b c => e96X 0x45 h t (vMM m.code 0) d a b 0 c
  | .dot4 h m t d a b c => e96X 0x46 h t (vMM m.code 0) d a b 0 c
  | .dot8 h t d a b c => e96X 0x47 h t 0 d a b 0 c
  | .sshfl h m t d a b c set => e96X 0x50 h t (vMM 0 m.code) d a b (0#18 ++ set) c
  | .svote h m d a n w set => e96I 0x51 h .none (vMM 0 m.code) d a (0#15 ++ w ++ n ++ set)
  | .sred h op t d a set => e96I 0x52 h t (vMM 0 op.code) d a (0#26 ++ set)
  | .sscan h op x t d a set => e96I 0x53 h t (vMM (0#1 ++ bit1 x) op.code) d a (0#26 ++ set)
  | .sjoin h l d set => e96I 0x54 h .none 0 d 0 (0#25 ++ bit1 l ++ set)
  | .sleave h set => e96I 0x55 h .none 0 0 0 (0#26 ++ set)
  | .sbar h set => e96I 0x56 h .none 0 0 0 (0#26 ++ set)
  | .bra h disp => e96I 0x60 h .none 0 0 0 disp
  | .brx h a => e64 0x61 h .none 0 0 a 0
  | .brxL h d a => e64 0x61 h .none (vMM 1 0) d a 0
  | .call h d disp => e96I 0x62 h .none 0 d 0 disp
  | .ret h a => e64 0x63 h .none 0 0 a 0
  | .fspawn h d a disp p => e96I 0x64 h .none 0 d a (immDR disp p)
  | .fend h => e64 0x65 h .none 0 0 0 0
  | .ld h o s hint dir t d a disp => e96I 0x70 h t (vMem s o (bit1 dir ++ hint.code)) d a disp
  | .st h o s hint t v a disp => e96I 0x71 h t (vMem s o (0#1 ++ hint.code)) v a disp
  | .ldRo h hint t d a disp => e96I 0x72 h t (vMem .fib .plain (0#1 ++ hint.code)) d a disp
  | .lds h t d a disp => e96I 0x73 h t 0 d a disp
  | .sts h t v a disp => e96I 0x74 h t 0 v a disp
  | .ldw h t d a disp => e96I 0x75 h t 0 d a disp
  | .ldwNb h t d a disp s => e96I 0x75 h t (vMem .fib .plain 1) d a (immDR disp s)
  | .stx h t v a disp k => e96I 0x76 h t 0 v a (immDR disp k)
  | .pref h l a disp => e96I 0x77 h .none (vMem .fib .plain l.code) 0 a disp
  | .hoffImm32 h d a i => e96I 0x78 h .none 0 d a i
  | .hoffUnsigned h d a b => e96I 0x78 h .none (vMem .fib .plain 1) d a (immDR 0 b)
  | .hoffSigned h d a b => e96I 0x78 h .none (vMem .fib .plain 2) d a (immDR 0 b)
  | .hoffPair h d a b => e96I 0x78 h .none (vMem .fib .plain 3) d a (immDR 0 b)
  | .hoffImm64 h d a i => e128I 0x78 h .none 0 d a i
  | .hnarrow h d a b c m => e96X 0x79 h .none 0 d a b (0#19 ++ m) c
  | .hinfo h d a => e64 0x7A h .none 0 d a 0
  | .cwb h a disp => e96I 0x7B h .none 0 0 a disp
  | .cinv h a disp => e96I 0x7C h .none 0 0 a disp
  | .cflush h a disp => e96I 0x7D h .none 0 0 a disp
  | .fence h k s => e64 0x7E h .none (s.code ++ k.code ++ 0#3) 0 0 0
  | .atom h op o s t d a disp b => e96I 0x90 h t (vMem s o op.code) d a (immDR disp b)
  | .atomDecFloat h op o s t d a disp b => e96I 0x91 h t (vMem s o op.code) d a (immDR disp b)
  | .atomc h o s t d a b c disp => e96X 0x92 h t (vMem s o 0) d a b disp c
  | .red h op o s t b a disp => e96I 0x93 h t (vMem s o op.redCode) b a disp
  | .redFloat h op o s t b a disp => e96I 0x94 h t (vMem s o op.redCode) b a disp
  | .mma f p o => some (Fields.plain 3 0xA0 f o.ty o.acc o.a o.b, hiMma o p 0)
  | .mmaW4 f p o prm => some (Fields.plain 3 0xA1 f o.ty o.acc o.a o.b, hiMma o p prm)
  | .mmaBp f o => some (Fields.plain 3 0xA2 f o.ty o.acc o.a o.b, hiMma o false 0)
  | .scacc f clr t acc p sa sb shp acs pst => some (Fields.plain 3 0xA3 f t acc p sa, hiScacc clr pst acs shp sb)
  | .aclr f d m n stride => some (Fields.plain 2 0xA4 f .b32 d 0 0, hiI (stride ++ n ++ m))
  | .mprog d => some (Fields.plain 1 0xA5 0 .none d 0 0, 0)
  | .binit h b e s => e96I 0xB0 h .none 0 0 (0#4 ++ b) (0#13 ++ s ++ e)
  | .barr h b d => e64 0xB1 h .none 0 d (0#4 ++ b) 0
  | .barx h b d r => e96I 0xB2 h .none 0 d (0#4 ++ b) (0#24 ++ r)
  | .bwait h b p => e64 0xB3 h .none 0 0 (0#4 ++ b) p
  | .bphase h d b => e64 0xB4 h .none 0 d (0#4 ++ b) 0
  | .bphaseCnt h d b => e64 0xB4 h .none (vMM 1 0) d (0#4 ++ b) 0
  | .clswap h b d => e64 0xB5 h .none 0 d (0#4 ++ b) 0
  | .marm h acq t d a disp => e96I 0xB6 h t (vMM (0#1 ++ bit1 acq) 0) d a disp
  | .marmQ h q => e96I 0xB6 h .none (vMM 0 1) 0 (0#4 ++ q) 0
  | .mwait => some (Fields.plain 1 0xB7 0 .none 0 0 0, 0)
  | .qpush h decl q a s => some (Fields.mk' 3 0xB8 h .none 0 (0#4 ++ q) a 0, 0#55 ++ bit1 decl ++ s)
  | .qpop h d q s => e64 0xB9 h .none 0 d (0#4 ++ q) s
  | .qstat h d q => e64 0xBA h .none 0 d (0#4 ++ q) 0
  | .tnext h d => e64 0xBB h .none 0 d 0 0
  | .step h => e64 0xBC h .none 0 0 0 0
  | .nop => some (Fields.plain 1 0xC0 0 .none 0 0 0, 0)
  | .yield => some (Fields.plain 1 0xC1 0 .none 0 0 0, 0)
  | .bkpt h c => e96I 0xC2 h .none 0 0 0 (0#16 ++ c)
  | .halt => some (Fields.plain 1 0xC3 0 .none 0 0 0, 0)
  | .svc h a n => e96I 0xC4 h .none 0 0 a (0#16 ++ n)
  | .trap h c => e96I 0xC5 h .none 0 0 0 (0#17 ++ c)
  | .ttrap h c => e96I 0xC6 h .none 0 0 0 (0#17 ++ c)
  | .eret h c => e64 0xC7 h .none 0 0 c 0
  | .eretEnd h c => e64 0xC7 h .none (vMM 1 0) 0 c 0
  | .srd h d idx => e96I 0xC8 h .none 0 d 0 (0#24 ++ idx)
  | .swr h idx a => e96I 0xC9 h .none 0 0 a (0#24 ++ idx)
  | .srFaultClear h a => e96I 0xC9 h .none 0 0 a 0x13
  | .ksFrozenWrite h a => e96I 0xC9 h .none 0 0 a 0x8D
  | .ksKillWrite h a => e96I 0xC9 h .none 0 0 a 0x8E
  | .ksHtbaseWrite h len a => e96I 0xC9 h .none 0 0 a (if len then 0x84 else 0x82)
  | .uien h l a => e64 0xCA h .none 0 l a 0
  | .uidis => some (Fields.plain 1 0xCB 0 .none 0 0 0, 0)
  | _ => none

/-! ## The decoder -/

/-- The guard of R70. -/
def Fields.guard (f : Fields) : Option Guard :=
  if f.gen == 1 then some ⟨f.ginv == 1, f.greg, f.gbit⟩ else none

/-- The header every instruction but a few carries (R63). -/
def Fields.hdr (f : Fields) : Hdr := ⟨f.guard, f.fsel⟩

/-- Refuse by name where an optional code is absent. -/
def orErr {α : Type} (x : Option α) (e : DecodeError) : Except DecodeError α :=
  match x with
  | some a => .ok a
  | none => .error e

/-- The upper 64 bits taken apart as the formats of R65 read them. -/
structure Upper where
  bits : Dword
  deriving DecidableEq, Repr

/-- IMM32 (R65). -/
def Upper.imm (u : Upper) : Word := u.bits.extractLsb' 0 32
/-- Extended modifiers, bits 95:72 (R65). -/
def Upper.ext (u : Upper) : BitVec 24 := u.bits.extractLsb' 8 24
/-- SRCC, bits 71:64 (R65); also a register in IMM32 bits 7:0 (R147). -/
def Upper.srcc (u : Upper) : Reg := u.bits.extractLsb' 0 8

/-- Integer and logic, majors 0x00–0x1F (R71, R110–R120). -/
def parseInt (f : Fields) (t : Ty) (u : Upper) : Except DecodeError Instr :=
  let h := f.hdr
  let sat := f.mod.getLsbD 0
  match f.major.toNat, f.lc.toNat with
  | 0x00, 1 => .ok (.iadd h t sat f.dst f.srca f.srcb)
  | 0x00, 2 => .ok (.iaddImm32 h t sat f.dst f.srca u.imm)
  | 0x00, 3 => .ok (.iaddImm64 h t f.dst f.srca u.bits)
  | 0x01, 1 => .ok (.isub h t sat f.dst f.srca f.srcb)
  | 0x01, 2 => .ok (.isubImm32 h t sat f.dst f.srca u.imm)
  | 0x01, 3 => .ok (.isubImm64 h t f.dst f.srca u.bits)
  | 0x02, 1 => .ok (.imul h t f.dst f.srca f.srcb)
  | 0x02, 2 => .ok (.imulImm32 h t f.dst f.srca u.imm)
  | 0x03, 1 => .ok (.imulh h t f.dst f.srca f.srcb)
  | 0x04, 2 => .ok (.imad h t f.dst f.srca f.srcb u.srcc)
  | 0x05, 2 => .ok (.iaddc h sat f.dst f.srca f.srcb u.srcc)
  | 0x06, 1 => .ok (.imin h t f.dst f.srca f.srcb)
  | 0x06, 2 => .ok (.iminImm32 h t f.dst f.srca u.imm)
  | 0x07, 1 => .ok (.imax h t f.dst f.srca f.srcb)
  | 0x07, 2 => .ok (.imaxImm32 h t f.dst f.srca u.imm)
  | 0x08, 1 => .ok (.iabs h t f.dst f.srca)
  | 0x09, 1 => .ok (.ineg h t f.dst f.srca)
  | 0x0A, 1 => .ok (.bAnd h t f.dst f.srca f.srcb)
  | 0x0A, 2 => .ok (.bAndImm32 h t f.dst f.srca u.imm)
  | 0x0A, 3 => .ok (.bAndImm64 h t f.dst f.srca u.bits)
  | 0x0B, 1 => .ok (.bOr h t f.dst f.srca f.srcb)
  | 0x0B, 2 => .ok (.bOrImm32 h t f.dst f.srca u.imm)
  | 0x0B, 3 => .ok (.bOrImm64 h t f.dst f.srca u.bits)
  | 0x0C, 1 => .ok (.bXor h t f.dst f.srca f.srcb)
  | 0x0C, 2 => .ok (.bXorImm32 h t f.dst f.srca u.imm)
  | 0x0C, 3 => .ok (.bXorImm64 h t f.dst f.srca u.bits)
  | 0x0D, 1 => .ok (.bNot h t f.dst f.srca)
  | 0x0E, 1 => .ok (.shl h t f.dst f.srca f.srcb)
  | 0x0E, 2 => .ok (.shlImm32 h t f.dst f.srca u.srcc)
  | 0x0F, 1 => .ok (.shr h t f.dst f.srca f.srcb)
  | 0x0F, 2 => .ok (.shrImm32 h t f.dst f.srca u.srcc)
  | 0x10, 1 => .ok (.sra h t f.dst f.srca f.srcb)
  | 0x10, 2 => .ok (.sraImm32 h t f.dst f.srca u.srcc)
  | 0x11, 1 => .ok (.rot h t f.dst f.srca f.srcb)
  | 0x11, 2 => .ok (.rotImm32 h t f.dst f.srca u.srcc)
  | 0x12, 2 => .ok (.bfx h t f.dst f.srca (u.imm.extractLsb' 0 6) (u.imm.extractLsb' 6 7))
  | 0x13, 2 => .ok (.bfi h t f.dst f.srca f.srcb (u.ext.extractLsb' 0 6) (u.ext.extractLsb' 6 7))
  | 0x14, 1 => .ok (.popc h t f.dst f.srca)
  | 0x15, 1 => .ok (.clz h t f.dst f.srca)
  | 0x16, 1 => .ok (.ctz h t f.dst f.srca)
  | 0x17, 1 => .ok (.brev h t f.dst f.srca)
  | 0x18, 1 => (orErr (ICond.ofCode f.minor) .minor).bind fun cc => .ok (.icmp h cc t f.dst f.srca f.srcb)
  | 0x18, 2 => (orErr (ICond.ofCode f.minor) .minor).bind fun cc => .ok (.icmpImm32 h cc t f.dst f.srca u.imm)
  | 0x19, 2 => .ok (.sel h t f.dst f.srca f.srcb u.srcc (u.ext.extractLsb' 0 5))
  | 0x1A, 1 => .ok (.bAndn h t f.dst f.srca f.srcb)
  | 0x1A, 2 => .ok (.bAndnImm32 h t f.dst f.srca u.imm)
  | 0x1A, 3 => .ok (.bAndnImm64 h t f.dst f.srca u.bits)
  | m, _ => .error (if m ≤ 0x1A then .format else .major)

/-- Floating point, majors 0x20–0x3F (R71, R121–R126). -/
def parseFloat (f : Fields) (t : Ty) (u : Upper) : Except DecodeError Instr :=
  let h := f.hdr
  let m := Rnd.ofCode f.mod
  match f.major.toNat, f.lc.toNat with
  | 0x20, 1 => .ok (.fadd h m t f.dst f.srca f.srcb)
  | 0x20, 2 => .ok (.faddImm32 h m t f.dst f.srca u.imm)
  | 0x20, 3 => .ok (.faddImm64 h m f.dst f.srca u.bits)
  | 0x21, 1 => .ok (.fsub h m t f.dst f.srca f.srcb)
  | 0x21, 2 => .ok (.fsubImm32 h m t f.dst f.srca u.imm)
  | 0x21, 3 => .ok (.fsubImm64 h m f.dst f.srca u.bits)
  | 0x22, 1 => .ok (.fmul h m t f.dst f.srca f.srcb)
  | 0x22, 2 => .ok (.fmulImm32 h m t f.dst f.srca u.imm)
  | 0x22, 3 => .ok (.fmulImm64 h m f.dst f.srca u.bits)
  | 0x23, 2 => .ok (.ffma h m t f.dst f.srca f.srcb u.srcc)
  | 0x24, 1 => .ok (.fmin h t f.dst f.srca f.srcb)
  | 0x25, 1 => .ok (.fmax h t f.dst f.srca f.srcb)
  | 0x26, 1 => (orErr (FCond.ofCode f.minor) .minor).bind fun cc => .ok (.fcmp h cc t f.dst f.srca f.srcb)
  | 0x27, 1 => .ok (.fclass h t f.dst f.srca)
  | 0x28, 1 => .ok (.frnd h m t f.dst f.srca)
  | 0x29, 1 => .ok (.frcp h t f.dst f.srca)
  | 0x2A, 1 => .ok (.frsq h t f.dst f.srca)
  | 0x2B, 1 => .ok (.fsqrt h m t f.dst f.srca)
  | 0x2C, 1 => .ok (.fexp2 h t f.dst f.srca)
  | 0x2D, 1 => .ok (.flog2 h t f.dst f.srca)
  | 0x2E, 1 => .ok (.fsin h t f.dst f.srca)
  | 0x2F, 1 => .ok (.fcos h t f.dst f.srca)
  | n, _ => .error (if n ≤ 0x2F then .format else .major)

/-- Conversion, packing and dot products, majors 0x40–0x4F (R71, R127–R131, R201). -/
def parseConv (f : Fields) (t : Ty) (u : Upper) : Except DecodeError Instr :=
  let h := f.hdr
  let m := Rnd.ofCode f.mod
  match f.major.toNat, f.lc.toNat with
  | 0x40, 1 => (orErr (Ty.ofCode (f.minor.extractLsb' 0 5)) .type).bind fun src => .ok (.cvt h m t src f.dst f.srca)
  | 0x41, 2 => .ok (.cvtEf h m t f.dst f.srca (u.srcc.extractLsb' 0 3) (u.ext.extractLsb' 0 2))
  | 0x42, 1 => .ok (.eclr h (f.dst.extractLsb' 0 3))
  | 0x43, 2 => .ok (.pack h t f.dst f.srca f.srcb u.srcc (u.ext.extractLsb' 0 3))
  | 0x44, 2 => .ok (.unpack h t f.dst f.srca (u.imm.extractLsb' 0 3))
  | 0x45, 2 => .ok (.dot2 h m t f.dst f.srca f.srcb u.srcc)
  | 0x46, 2 => .ok (.dot4 h m t f.dst f.srca f.srcb u.srcc)
  | 0x47, 2 => .ok (.dot8 h t f.dst f.srca f.srcb u.srcc)
  | n, _ => .error (if n ≤ 0x47 then .format else .major)

/-- Sets and control, majors 0x50–0x6F (R71, R132–R142, R215–R217). -/
def parseSetCtl (f : Fields) (t : Ty) (u : Upper) : Except DecodeError Instr :=
  let h := f.hdr
  let set := u.imm.extractLsb' 0 6
  match f.major.toNat, f.lc.toNat with
  | 0x50, 2 => (orErr (ShflMode.ofCode f.minor) .minor).bind fun m =>
      .ok (.sshfl h m t f.dst f.srca f.srcb u.srcc (u.ext.extractLsb' 0 6))
  | 0x51, 2 => (orErr (VoteMode.ofCode f.minor) .minor).bind fun m =>
      .ok (.svote h m f.dst f.srca (u.imm.extractLsb' 6 5) (u.imm.extractLsb' 11 6) set)
  | 0x52, 2 => (orErr (RedOp.ofCode f.minor) .minor).bind fun op => .ok (.sred h op t f.dst f.srca set)
  | 0x53, 2 => (orErr (RedOp.ofCode f.minor) .minor).bind fun op =>
      .ok (.sscan h op (f.mod.getLsbD 0) t f.dst f.srca set)
  | 0x54, 2 => .ok (.sjoin h (u.imm.getLsbD 6) f.dst set)
  | 0x55, 2 => .ok (.sleave h set)
  | 0x56, 2 => .ok (.sbar h set)
  | 0x60, 2 => .ok (.bra h u.imm)
  | 0x61, 1 => if f.mod.getLsbD 0 then .ok (.brxL h f.dst f.srca) else .ok (.brx h f.srca)
  | 0x62, 2 => .ok (.call h f.dst u.imm)
  | 0x63, 1 => .ok (.ret h f.srca)
  | 0x64, 2 => .ok (.fspawn h f.dst f.srca u.ext u.srcc)
  | 0x65, 1 => .ok (.fend h)
  | n, _ => .error (if n ≤ 0x56 || (0x60 ≤ n && n ≤ 0x65) then .format else .major)

/-- Memory, majors 0x70–0x8F (R71, R147–R164). -/
def parseMem (f : Fields) (t : Ty) (s : Scope) (u : Upper) : Except DecodeError Instr :=
  let h := f.hdr
  let o := Order.ofCode f.order
  let hint := orErr (Hint.ofCode (f.sub.extractLsb' 0 2)) .minor
  match f.major.toNat, f.lc.toNat with
  | 0x70, 2 => hint.bind fun c => .ok (.ld h o s c (f.sub.getLsbD 2) t f.dst f.srca u.imm)
  | 0x71, 2 => hint.bind fun c => .ok (.st h o s c t f.dst f.srca u.imm)
  | 0x72, 2 => hint.bind fun c => .ok (.ldRo h c t f.dst f.srca u.imm)
  | 0x73, 2 => .ok (.lds h t f.dst f.srca u.imm)
  | 0x74, 2 => .ok (.sts h t f.dst f.srca u.imm)
  | 0x75, 2 =>
    match f.sub.toNat with
    | 0 => .ok (.ldw h t f.dst f.srca u.imm)
    | 1 => .ok (.ldwNb h t f.dst f.srca u.ext u.srcc)
    | _ => .error .minor
  | 0x76, 2 => .ok (.stx h t f.dst f.srca u.ext u.srcc)
  | 0x77, 2 => (orErr (PrefLevel.ofCode f.sub) .minor).bind fun l => .ok (.pref h l f.srca u.imm)
  | 0x78, 2 =>
    match f.sub.toNat with
    | 0 => .ok (.hoffImm32 h f.dst f.srca u.imm)
    | 1 => .ok (.hoffUnsigned h f.dst f.srca u.srcc)
    | 2 => .ok (.hoffSigned h f.dst f.srca u.srcc)
    | 3 => .ok (.hoffPair h f.dst f.srca u.srcc)
    | _ => .error .minor
  | 0x78, 3 => .ok (.hoffImm64 h f.dst f.srca u.bits)
  | 0x79, 2 => .ok (.hnarrow h f.dst f.srca f.srcb u.srcc (u.ext.extractLsb' 0 5))
  | 0x7A, 1 => .ok (.hinfo h f.dst f.srca)
  | 0x7B, 2 => .ok (.cwb h f.srca u.imm)
  | 0x7C, 2 => .ok (.cinv h f.srca u.imm)
  | 0x7D, 2 => .ok (.cflush h f.srca u.imm)
  | 0x7E, 1 => .ok (.fence h (FenceKind.ofCode f.order) s)
  | n, _ => .error (if n ≤ 0x7E then .format else .major)

/-- Atomics, majors 0x90–0x9F (R71, R147, R166–R168). -/
def parseAtom (f : Fields) (t : Ty) (s : Scope) (u : Upper) : Except DecodeError Instr :=
  let h := f.hdr
  let o := Order.ofCode f.order
  match f.major.toNat, f.lc.toNat with
  | 0x90, 2 => (orErr (AtomOp.of90 f.sub) .minor).bind fun op => .ok (.atom h op o s t f.dst f.srca u.ext u.srcc)
  | 0x91, 2 => (orErr (AtomOp.of91 f.sub) .minor).bind fun op => .ok (.atomDecFloat h op o s t f.dst f.srca u.ext u.srcc)
  | 0x92, 2 => .ok (.atomc h o s t f.dst f.srca f.srcb u.srcc u.ext)
  | 0x93, 2 => (orErr (AtomOp.of93 f.sub) .minor).bind fun op => .ok (.red h op o s t f.dst f.srca u.imm)
  | 0x94, 2 => (orErr (AtomOp.of94 f.sub) .minor).bind fun op => .ok (.redFloat h op o s t f.dst f.srca u.imm)
  | n, _ => .error (if n ≤ 0x94 then .format else .major)

/-- The operands of the `mma` forms (R183). -/
def mmaOpsOf (f : Fields) (t : Ty) (u : Upper) : MmaOps :=
  { ty := t, acc := f.dst, a := f.srca, b := f.srcb, shp := u.bits.extractLsb' 0 8, str := u.bits.extractLsb' 8 8,
    acs := u.bits.extractLsb' 16 16, asp := u.bits.getLsbD 41, bsp := u.bits.getLsbD 42 }

/-- Matrix, majors 0xA0–0xAF (R71, R183, R191, R192). -/
def parseMat (f : Fields) (t : Ty) (u : Upper) : Except DecodeError Instr :=
  let o := mmaOpsOf f t u
  let pair := u.bits.getLsbD 40
  match f.major.toNat, f.lc.toNat with
  | 0xA0, 3 => .ok (.mma f.fsel pair o)
  | 0xA1, 3 => .ok (.mmaW4 f.fsel pair o (u.bits.extractLsb' 32 8))
  | 0xA2, 3 => .ok (.mmaBp f.fsel o)
  | 0xA3, 3 => .ok (.scacc f.fsel (u.bits.getLsbD 48) t f.dst f.srca f.srcb (u.bits.extractLsb' 0 8)
      (u.bits.extractLsb' 8 8) (u.bits.extractLsb' 16 16) (u.bits.extractLsb' 32 16))
  | 0xA4, 2 => .ok (.aclr f.fsel f.dst (u.imm.extractLsb' 0 8) (u.imm.extractLsb' 8 8) (u.imm.extractLsb' 16 16))
  | 0xA5, 1 => .ok (.mprog f.dst)
  | n, _ => .error (if n ≤ 0xA5 then .format else .major)

/-- Synchronisation and queues, majors 0xB0–0xBF (R71, R206–R229). -/
def parseSync (f : Fields) (t : Ty) (u : Upper) : Except DecodeError Instr :=
  let h := f.hdr
  let x := f.mod.getLsbD 0
  let b : BitVec 4 := f.srca.extractLsb' 0 4
  match f.major.toNat, f.lc.toNat with
  | 0xB0, 2 => .ok (.binit h b (u.imm.extractLsb' 0 16) (u.imm.extractLsb' 16 3))
  | 0xB1, 1 => .ok (.barr h b f.dst)
  | 0xB2, 2 => .ok (.barx h b f.dst u.srcc)
  | 0xB3, 1 => .ok (.bwait h b f.srcb)
  | 0xB4, 1 => if x then .ok (.bphaseCnt h f.dst b) else .ok (.bphase h f.dst b)
  | 0xB5, 1 => .ok (.clswap h b f.dst)
  | 0xB6, 2 =>
    match f.minor.toNat with
    | 0 => .ok (.marm h x t f.dst f.srca u.imm)
    | 1 => .ok (.marmQ h b)
    | _ => .error .minor
  | 0xB7, 1 => .ok .mwait
  | 0xB8, 3 => .ok (.qpush h (u.bits.getLsbD 8) (f.dst.extractLsb' 0 4) f.srca u.srcc)
  | 0xB9, 1 => .ok (.qpop h f.dst b f.srcb)
  | 0xBA, 1 => .ok (.qstat h f.dst b)
  | 0xBB, 1 => .ok (.tnext h f.dst)
  | 0xBC, 1 => .ok (.step h)
  | n, _ => .error (if n ≤ 0xBC then .format else .major)

/-- System, majors 0xC0–0xCF (R71, R230–R239). -/
def parseSystem (f : Fields) (u : Upper) : Except DecodeError Instr :=
  let h := f.hdr
  let x := f.mod.getLsbD 0
  match f.major.toNat, f.lc.toNat with
  | 0xC0, 1 => .ok .nop
  | 0xC1, 1 => .ok .yield
  | 0xC2, 2 => .ok (.bkpt h (u.imm.extractLsb' 0 16))
  | 0xC3, 1 => .ok .halt
  | 0xC4, 2 => .ok (.svc h f.srca (u.imm.extractLsb' 0 16))
  | 0xC5, 2 => .ok (.trap h (u.imm.extractLsb' 0 15))
  | 0xC6, 2 => .ok (.ttrap h (u.imm.extractLsb' 0 15))
  | 0xC7, 1 => if x then .ok (.eretEnd h f.srca) else .ok (.eret h f.srca)
  | 0xC8, 2 => .ok (.srd h f.dst u.srcc)
  | 0xC9, 2 =>
    match u.srcc.toNat with
    | 0x13 => .ok (.srFaultClear h f.srca)
    | 0x82 => .ok (.ksHtbaseWrite h false f.srca)
    | 0x84 => .ok (.ksHtbaseWrite h true f.srca)
    | 0x8D => .ok (.ksFrozenWrite h f.srca)
    | 0x8E => .ok (.ksKillWrite h f.srca)
    | _ => .ok (.swr h u.srcc f.srca)
  | 0xCA, 1 => .ok (.uien h f.dst f.srca)
  | 0xCB, 1 => .ok .uidis
  | n, _ => .error (if n ≤ 0xCB then .format else .major)

/-- The instruction whose used fields are these (R71). -/
def parse (f : Fields) (hi : Dword) : Except DecodeError Instr :=
  if f.lc == 0 then .error .header
  else
    match orErr (Ty.ofCode f.ty) .type with
    | .error e => .error e
    | .ok t =>
      let u : Upper := ⟨hi⟩
      match f.major.toNat / 16 with
      | 0 | 1 => parseInt f t u
      | 2 | 3 => parseFloat f t u
      | 4 => parseConv f t u
      | 5 | 6 => parseSetCtl f t u
      | 7 | 8 => (orErr (Scope.ofCode f.scope) .scope).bind fun s => parseMem f t s u
      | 9 => (orErr (Scope.ofCode f.scope) .scope).bind fun s => parseAtom f t s u
      | 10 => parseMat f t u
      | 11 => parseSync f t u
      | 12 => parseSystem f u
      | _ => .error .major

/-- The decoder over fields: parsed, well-formed, and with no other bit set than its encoding has (R66, R71). -/
def decodeFields (f : Fields) (hi : Dword) : Except DecodeError Instr :=
  (parse f hi).bind fun i =>
    if !i.wf then .error .illFormed
    else if encodeFields i == some (f, hi) then .ok i
    else .error .reserved

/-- The decoder over the 128 bits at an instruction's address; a 64-bit instruction reads only the first 64 (R48). -/
def decodeWord (lo hi : Dword) : Except DecodeError Instr :=
  let f := Fields.ofWord lo
  decodeFields f (if f.lc == 1 then 0 else hi)

/-- Bytes an encoded instruction occupies (R48). -/
def lcSize (lc : BitVec 2) : Nat := if lc.toNat ≤ 1 then 8 else 16

/-- A little-endian double (R5). -/
def leDword (bs : List Byte) : Dword :=
  BitVec.ofNat 64 ((bs.take 8).foldr (fun b n => b.toNat + 256 * n) 0)

/-- The bytes of a double, little-endian. -/
def dwordBytes (w : Dword) : List Byte :=
  (List.range 8).map fun i => w.extractLsb' (8 * i) 8

/-- The decoder over bytes: the instruction and the rest. -/
def decodeBytes (bs : List Byte) : Except DecodeError (Instr × List Byte) :=
  if bs.length < 8 then .error .short
  else
    let lo := leDword bs
    let n := lcSize (lo.extractLsb' 0 2)
    if bs.length < n then .error .short
    else (decodeWord lo (leDword (bs.drop 8))).bind fun i => .ok (i, bs.drop n)

/-- The encoder over words: the first 64 bits and the 64 above them. -/
def encodeWord (i : Instr) : Option (Dword × Dword) :=
  (encodeFields i).map fun e => (e.1.toWord, e.2)

/-- The encoder over bytes. -/
def encodeBytes (i : Instr) : Option (List Byte) :=
  (encodeFields i).map fun e =>
    if e.1.lc == 1 then dwordBytes e.1.toWord else dwordBytes e.1.toWord ++ dwordBytes e.2

/-- The instruction the decoder reads from an instruction whose bits are `w`, `nbits` of them given. -/
def decodeTableWord (nbits w : Nat) : Option Instr :=
  let v := w % 2 ^ nbits
  match decodeBytes (dwordBytes (BitVec.ofNat 64 v) ++ dwordBytes (BitVec.ofNat 64 (v / 2 ^ 64))) with
  | .ok (i, _) => some i
  | .error _ => none

/-! ## Clause headers (R51) and what the fetch check asks of an instruction (R53, R60, R61) -/

/-- A clause header's fields (R51). -/
structure ClauseHdr where
  wait : BitVec 12
  flagA : BitVec 4
  flagB : BitVec 4
  len : BitVec 4
  yield : Bool
  deriving DecidableEq, Repr

/-- A legal flag name of a header: 0–11, or 15 for none (R51). -/
def flagNameOk (n : BitVec 4) : Bool := n.toNat < 12 || n.toNat == 15

/-- A clause header from its word; `none` raises the illegal-instruction trap (R51, R52). -/
def ClauseHdr.ofWord (w : Dword) : Option ClauseHdr :=
  let h : ClauseHdr :=
    { wait := w.extractLsb' 2 12, flagA := w.extractLsb' 14 4, flagB := w.extractLsb' 18 4, len := w.extractLsb' 22 4,
      yield := w.getLsbD 26 }
  if w.extractLsb' 0 2 == 0 && w.extractLsb' 27 37 == 0 && h.len != 0 && flagNameOk h.flagA && flagNameOk h.flagB
      && !(h.flagA == h.flagB && h.flagA != 15) then some h
  else none

/-- The word of a clause header. -/
def ClauseHdr.toWord (h : ClauseHdr) : Dword :=
  0#37 ++ BitVec.ofBool h.yield ++ h.len ++ h.flagB ++ h.flagA ++ h.wait ++ 0#2

/-- Clause-ending instructions (R53). -/
def Instr.clauseEnding : Instr → Bool
  | .bra .. | .brx .. | .brxL .. | .call .. | .ret .. | .fend .. | .bwait .. | .mwait | .step .. | .yield | .bkpt ..
  | .trap .. | .ttrap .. | .eret .. | .eretEnd .. | .halt => true
  | _ => false

/-- FSEL of an instruction (R60); 0 for one that carries none. -/
def Instr.fsel : Instr → BitVec 2
  | .ld h .. | .st h .. | .ldRo h .. | .lds h .. | .sts h .. | .ldw h .. | .ldwNb h .. | .stx h .. | .pref h .. | .cwb h ..
  | .cinv h .. | .cflush h .. | .atom h .. | .atomDecFloat h .. | .atomc h .. | .red h .. | .redFloat h .. | .qpush h ..
  | .qpop h .. => h.fsel
  | .mma f .. | .mmaW4 f .. | .mmaBp f .. | .scacc f .. | .aclr f .. => f
  | _ => 0

/-- The flag select is legal in a clause that names flags A and B (R60). -/
def fselOk (f : BitVec 2) (flagA flagB : Nat) : Bool :=
  !(f.getLsbD 0 && flagA == 15) && !(f.getLsbD 1 && flagB == 15)

/-- The flags a select names (R60). -/
def fselFlags (f : BitVec 2) (flagA flagB : Nat) : List Nat :=
  (if f.getLsbD 0 then [flagA] else []) ++ (if f.getLsbD 1 then [flagB] else [])

end Sys2Proof
end

