-- ==== Sys2Proof/Machine/Operands.lean ====
section
/-! DEFINITION. Operand forms: scalars and packed elements in registers (R86, R88, R107), immediates (R108), and the
register operands of each instruction in the order of R75, step 5. -/

namespace Sys2Proof.Machine

/-! ## Values of a width -/

/-- The low w bits. -/
def lowBits (w n : Nat) : Nat := n % 2 ^ w
/-- Two's complement value of the low w bits (R85). -/
def sval (w n : Nat) : Int := let m := n % 2 ^ w; if m < 2 ^ (w - 1) then m else (m : Int) - 2 ^ w
/-- The value of w bits as a signed or unsigned type reads them (R85). -/
def ival (signed : Bool) (w n : Nat) : Int := if signed then sval w n else (n % 2 ^ w : Nat)
/-- An integer modulo 2^w (R87). -/
def wrap (w : Nat) (v : Int) : Nat := (v % (2 ^ w : Nat)).toNat
/-- Smallest and largest value of a type (R85). -/
def rangeLo (signed : Bool) (w : Nat) : Int := if signed then -(2 ^ (w - 1) : Nat) else 0
/-- Smallest and largest value of a type (R85). -/
def rangeHi (signed : Bool) (w : Nat) : Int := if signed then (2 ^ (w - 1) : Nat) - 1 else (2 ^ w : Nat) - 1

/-- Whether a type, or the elements of a packed type, are signed (R85, R88). -/
def tySigned : Ty → Bool
  | .s8 | .s16 | .s32 | .s64 | .s4 | .x2s16 | .x4s8 | .x8s4 => true
  | .none | .z8 | .z16 | .z32 | .z64 | .b32 | .b64 | .f64 | .f32 | .f16 | .bf16 | .f8a | .f8b | .z4 | .x2bf16 | .x2f16
  | .x2z16 | .x4z8 | .x8z4 | .x4f8a | .x4f8b => false

/-- Width of a scalar, or of an element of a packed type (R88). -/
def elemBits (t : Ty) : Nat := t.bits / t.lanes

/-! ## Registers by type -/

/-- The bits of an operand of a type: a pair where it is 64 bits wide, else the low bits of the register (R86, R107). -/
def Fibre.get (f : Fibre) (t : Ty) (r : Reg) : Nat :=
  if t.wide then (f.pair r).toNat else (f.reg r).toNat % 2 ^ t.bits

/-- What a scalar of a type leaves in its register or pair: .s types of 8 and 16 bits sign-extended, every other one with
its upper bits zero (R86). -/
def widen (t : Ty) (v : Nat) : Nat :=
  if t.wide then v % 2 ^ 64
  else if tySigned t && !t.packed then wrap 32 (sval t.bits v)
  else v % 2 ^ t.bits

/-- Write a result of a type (R86, R107). -/
def Fibre.put (f : Fibre) (t : Ty) (r : Reg) (v : Nat) : Fibre :=
  if t.wide then f.setPair r (BitVec.ofNat 64 v) else f.setReg r (BitVec.ofNat 32 (widen t v))

/-- The bits of an immediate of a type (R108). -/
def immBits (t : Ty) (imm : Word) : Nat :=
  match t with
  | .s64 | .b64 => (imm.signExtend 64).toNat
  | _ => imm.toNat % 2 ^ t.bits

/-- Element i of width w of a packed word (R88). -/
def elem (w i n : Nat) : Nat := n / 2 ^ (w * i) % 2 ^ w

/-- A packed word from its elements, element 0 lowest (R88). -/
def ofElems (w : Nat) : List Nat → Nat
  | [] => 0
  | e :: l => e % 2 ^ w + 2 ^ w * ofElems w l

/-- An operation carried out on each element of a type; a scalar has one (R107). -/
def mapElems (t : Ty) (g : Nat → Nat) (a : Nat) : Nat :=
  ofElems (elemBits t) ((List.range t.lanes).map fun i => g (elem (elemBits t) i a))
/-- An operation carried out on each pair of elements (R107). -/
def zipElems (t : Ty) (g : Nat → Nat → Nat) (a b : Nat) : Nat :=
  ofElems (elemBits t) ((List.range t.lanes).map fun i => g (elem (elemBits t) i a) (elem (elemBits t) i b))
/-- An operation carried out on each triple of elements (R107). -/
def zipElems3 (t : Ty) (g : Nat → Nat → Nat → Nat) (a b c : Nat) : Nat :=
  ofElems (elemBits t) ((List.range t.lanes).map fun i =>
    g (elem (elemBits t) i a) (elem (elemBits t) i b) (elem (elemBits t) i c))

/-! ## Memory operands -/

/-- What a load of a type writes for the bytes it read (R150). -/
def loadVal (t : Ty) (bytes : List Byte) : Nat := widen t (leNat bytes)

/-- Size in bytes of a memory operand (R150). -/
def tySize (t : Ty) : Nat := t.bits / 8

/-- HANDLE of a capability (R43). -/
def capHandle (c : Dword) : Nat := c.toNat / 2 ^ 40
/-- OFFSET of a capability (R43). -/
def capOffset (c : Dword) : Nat := c.toNat % 2 ^ 40
/-- A capability from HANDLE and OFFSET (R43). -/
def mkCap (handle off : Nat) : Dword := BitVec.ofNat 64 (handle * 2 ^ 40 + off % 2 ^ 40)

/-- The effective address of an access before its checks, exact (R145). -/
def effAddr (cap : Dword) (disp : Int) : Int := capOffset cap + disp

/-- The effective capability of an access, as trap records carry it (R231; log 22). -/
def effCap (cap : Dword) (disp : Int) : Dword := mkCap (capHandle cap) (wrap 40 (effAddr cap disp))

/-! ## Register operands in the order of R75 -/

/-- A register operand: its index and how many registers it takes. -/
abbrev Opnd := Nat × Nat

/-- An operand of a type (R107). -/
def opT (t : Ty) (r : Reg) : Opnd := (r.toNat, if t.wide then 2 else 1)
/-- A single register. -/
def op1 (r : Reg) : Opnd := (r.toNat, 1)
/-- A pair. -/
def op2 (r : Reg) : Opnd := (r.toNat, 2)

/-- Registers of a unit pushed to a binding (R218); 8 where the register is unbound, a unit of unknown kind (DESIGN CHOICE; log 82). -/
def pushBlock (bind : Nat) : Nat := if bind == 3 || bind == 4 || bind == 6 then 16 else 8
/-- Registers of an entry popped from a binding (R218). -/
def popBlock (bind : Nat) : Nat := if bind == 3 || bind == 4 then 16 else 8

/-- Operands of the `mma` forms (R183). -/
def mmaOpnds (o : MmaOps) : List Opnd :=
  [op1 o.acc, (o.a.toNat, if o.asp then 1 else 2), (o.b.toNat, if o.bsp then 1 else 2), op1 o.shp, op2 o.str]

/-- The register operands of an instruction after its guard, in the order DST, SRCA, SRCB and then ascending bit position
(R75, step 5). `bind` gives the bindings of the sheaf's queue registers (R218). Event rows name none. -/
def opnds (bind : Nat → Nat) : Instr → List Opnd
  | .iadd _ t _ d a b | .isub _ t _ d a b | .imul _ t d a b | .imulh _ t d a b | .imin _ t d a b | .imax _ t d a b
  | .bAnd _ t d a b | .bOr _ t d a b | .bXor _ t d a b | .bAndn _ t d a b | .fadd _ _ t d a b | .fsub _ _ t d a b
  | .fmul _ _ t d a b | .fmin _ t d a b | .fmax _ t d a b => [opT t d, opT t a, opT t b]
  | .iaddImm32 _ t _ d a _ | .isubImm32 _ t _ d a _ | .imulImm32 _ t d a _ | .iminImm32 _ t d a _ | .imaxImm32 _ t d a _
  | .bAndImm32 _ t d a _ | .bOrImm32 _ t d a _ | .bXorImm32 _ t d a _ | .bAndnImm32 _ t d a _ | .faddImm32 _ _ t d a _
  | .fsubImm32 _ _ t d a _ | .fmulImm32 _ _ t d a _ => [opT t d, opT t a]
  | .iaddImm64 _ _ d a _ | .isubImm64 _ _ d a _ | .bAndImm64 _ _ d a _ | .bOrImm64 _ _ d a _ | .bXorImm64 _ _ d a _
  | .bAndnImm64 _ _ d a _ | .faddImm64 _ _ d a _ | .fsubImm64 _ _ d a _ | .fmulImm64 _ _ d a _ => [op2 d, op2 a]
  | .imad _ t d a b c | .ffma _ _ t d a b c => [opT t d, opT t a, opT t b, opT t c]
  | .iaddc _ _ d a b c => [op2 d, op1 a, op1 b, op1 c]
  | .iabs _ t d a | .ineg _ t d a | .bNot _ t d a | .brev _ t d a | .frnd _ _ t d a | .frcp _ t d a | .frsq _ t d a
  | .fsqrt _ _ t d a | .fexp2 _ t d a | .flog2 _ t d a | .fsin _ t d a | .fcos _ t d a => [opT t d, opT t a]
  | .shl _ t d a b | .shr _ t d a b | .sra _ t d a b | .rot _ t d a b => [opT t d, opT t a, op1 b]
  | .shlImm32 _ t d a _ | .shrImm32 _ t d a _ | .sraImm32 _ t d a _ | .rotImm32 _ t d a _ | .bfx _ t d a _ _ =>
    [opT t d, opT t a]
  | .bfi _ t d a b _ _ => [opT t d, opT t a, opT t b]
  | .popc _ t d a | .clz _ t d a | .ctz _ t d a | .fclass _ t d a => [op1 d, opT t a]
  | .icmp _ _ t d a b | .fcmp _ _ t d a b => [op1 d, opT t a, opT t b]
  | .icmpImm32 _ _ t d a _ => [op1 d, opT t a]
  | .sel _ t d a b c _ => [opT t d, opT t a, opT t b, op1 c]
  | .cvt _ _ dt src d a => [opT dt d, opT src a]
  | .cvtEf _ _ _ d a _ _ => [op1 d, op1 a]
  | .eclr _ _ => []
  | .pack _ _ d a b c _ | .dot2 _ _ _ d a b c | .dot4 _ _ _ d a b c | .dot8 _ _ d a b c => [op1 d, op1 a, op1 b, op1 c]
  | .unpack _ _ d a _ => [op1 d, op1 a]
  | .sshfl _ _ t d a b c _ => [opT t d, opT t a, op1 b, opT t c]
  | .svote _ _ d a _ _ _ => [op1 d, op1 a]
  | .sred _ _ t d a _ | .sscan _ _ _ t d a _ => [opT t d, opT t a]
  | .sjoin _ _ d _ => [op1 d]
  | .sleave _ _ | .sbar _ _ => []
  | .bra _ _ => []
  | .brx _ a | .ret _ a => [op2 a]
  | .brxL _ d a => [op2 d, op2 a]
  | .call _ d _ => [op2 d]
  | .fspawn _ d a _ p => [op1 d, op1 a, op1 p]
  | .fend _ => []
  | .ld _ _ _ _ _ t d a _ | .ldRo _ _ t d a _ | .ldw _ t d a _ => [opT t d, op2 a]
  | .st _ _ _ _ t v a _ => [opT t v, op2 a]
  | .lds _ t d a _ => [opT t d, op1 a]
  | .sts _ t v a _ => [opT t v, op1 a]
  | .ldwNb _ t d a _ x => [opT t d, op2 a, op1 x]
  | .stx _ t v a _ k => [opT t v, op1 a, op1 k]
  | .pref _ _ a _ | .cwb _ a _ | .cinv _ a _ | .cflush _ a _ => [op2 a]
  | .hoffImm32 _ d a _ | .hoffImm64 _ d a _ | .hinfo _ d a => [op2 d, op2 a]
  | .hoffUnsigned _ d a b | .hoffSigned _ d a b => [op2 d, op2 a, op1 b]
  | .hoffPair _ d a b => [op2 d, op2 a, op2 b]
  | .hnarrow _ d a b c _ => [op2 d, op2 a, op2 b, op1 c]
  | .fence _ _ _ => []
  | .atom _ _ _ _ t d a _ b | .atomDecFloat _ _ _ _ t d a _ b => [opT t d, op2 a, opT t b]
  | .atomc _ _ _ t d a b c _ => [opT t d, op2 a, opT t b, opT t c]
  | .red _ _ _ _ t b a _ | .redFloat _ _ _ _ t b a _ => [opT t b, op2 a]
  | .mma _ _ o | .mmaBp _ o => mmaOpnds o
  | .mmaW4 _ _ o p => mmaOpnds o ++ [op2 p]
  | .scacc _ _ _ acc p sa sb shp _ _ => [op1 acc, op1 p, op1 sa, op1 sb, op1 shp]
  | .aclr _ d _ _ _ => [op1 d]
  | .mprog d => [op1 d]
  | .binit _ _ _ _ => []
  | .barr _ _ d | .clswap _ _ d | .bphase _ d _ | .bphaseCnt _ d _ => [op1 d]
  | .barx _ _ d b => [op1 d, op2 b]
  | .bwait _ _ p => [op1 p]
  | .marm _ _ t d a _ => [opT t d, op2 a]
  | .marmQ _ _ | .mwait => []
  | .qpush _ _ q a x => [(a.toNat, pushBlock (bind q.toNat)), op1 x]
  | .qpop _ d q x => [(d.toNat, popBlock (bind q.toNat)), op1 x]
  | .qstat _ d _ | .tnext _ d => [op1 d]
  | .step _ | .nop | .yield | .bkpt _ _ | .halt => []
  | .svc _ a _ => [(a.toNat, 4)]
  | .trap _ _ | .ttrap _ _ => []
  | .eret _ c | .eretEnd _ c => [op1 c]
  | .srd _ d idx => [(d.toNat, if srWide idx == some true then 2 else 1)]
  | .swr _ idx a => [(a.toNat, if srWide idx == some true then 2 else 1)]
  | .srFaultClear _ a | .ksFrozenWrite _ a | .ksKillWrite _ a => [op1 a]
  | .ksHtbaseWrite _ len a => [(a.toNat, if len then 1 else 2)]
  | .uien _ l a => [op2 l, op2 a]
  | .uidis => []
  | _ => []

/-- The header of a guarded instruction (R63, R70); `none` for those that carry none. -/
def hdr? (i : Instr) : Option Hdr :=
  match encodeFields i with
  | some (f, _) => if f.major.toNat / 16 == 10 then none else some f.hdr
  | none => none

/-- OPND of the first operand that reaches the register count: the lowest index of it that lies at or above (R75). Where that index is
256, which OPND's 8 bits cannot hold, OPND is 0 (DESIGN CHOICE; log 82). -/
def rangeTrap (regs : Nat) : List Opnd → Option TrapInfo
  | [] => none
  | (i, n) :: l =>
    if regs < i + n then some ⟨cRegRange, BitVec.ofNat 8 (max i regs), 0⟩ else rangeTrap regs l

end Sys2Proof.Machine
end

