-- ==== Sys2Proof/Machine/Flags.lean ====
section
/-! DEFINITION. The completion flags (R19, R60), the register interlock (R62), and when an instruction may issue for a
fibre. -/

namespace Sys2Proof.Machine

/-- The count of a flag (R19). -/
def Fibre.flag (f : Fibre) (n : Nat) : Nat := f.flags.getD n 0

/-- Add one to each named flag (R19). -/
def Fibre.countFlags (f : Fibre) (names : List Nat) : Fibre :=
  { f with flags := names.foldl (fun fl n => fl.set n (fl.getD n 0 + 1)) f.flags }

/-- Subtract one from each named flag (R19). -/
def Fibre.uncountFlags (f : Fibre) (names : List Nat) : Fibre :=
  { f with flags := names.foldl (fun fl n => fl.set n (fl.getD n 0 - 1)) f.flags }

/-- An operation has completed for a fibre: its flags fall, and an ended fibre whose flags are clear is gone (R19, R142). -/
def State.completeFlags (s : State) (k : FKey) (names : List Nat) : State :=
  (s.modFib k (·.uncountFlags names)).reap k

/-- Flags that a fibre's clause and an instruction's select name (R60). -/
def Fibre.selected (f : Fibre) (fsel : BitVec 2) : List Nat :=
  match f.clause with
  | some c => fselFlags fsel c.flagA c.flagB
  | none => []

/-- A named flag already holds 63 (R19). -/
def Fibre.flagsFull (f : Fibre) (names : List Nat) : Bool := names.any fun n => 63 ≤ f.flag n

/-- sr.flg0–sr.flg2: six bits for each of five flags (R39). -/
def Fibre.flagWord (f : Fibre) (j : Nat) : Word :=
  BitVec.ofNat 32 (((List.range (if j == 2 then 2 else 5)).map fun i => f.flag (5 * j + i) * 2 ^ (6 * i)).foldl (· + ·) 0)

/-- A wait mask is satisfied: every flag it names is clear (R59). -/
def Fibre.waitOk (f : Fibre) (mask : BitVec 12) : Bool :=
  (List.range 12).all fun n => !mask.getLsbD n || f.flag n == 0

/-- Registers an outstanding operation will write (R62). -/
def MemOp.writes (o : MemOp) : List Opnd :=
  (match o.dst with
    | some r => [if o.kind == .qpop then (r.toNat, o.size / 4) else opT o.ty r]
    | none => [])
  ++ (match o.dst2 with | some r => [op1 r] | none => [])

/-- Two operands share a register. -/
def opndOverlap (x y : Opnd) : Bool := x.1 < y.1 + y.2 && y.1 < x.1 + x.2

/-- A register operand whose write by an earlier long-latency instruction is outstanding (R62). -/
def State.interlocked (s : State) (k : FKey) (ops : List Opnd) : Bool :=
  s.ops.any fun o => o.key == k && o.writes.any fun w => ops.any (opndOverlap w)

/-- The register operands of an instruction with its guard register first (R75). -/
def allOpnds (bind : Nat → Nat) (i : Instr) : List Opnd :=
  (match hdr? i with
    | some ⟨some g, _⟩ => [op1 g.reg]
    | _ => [])
  ++ opnds bind i

/-- Instructions that enter the commit log (R300). -/
def logged : Instr → Bool
  | .ld .. | .ldRo .. | .ldw .. | .ldwNb .. | .st .. | .lds .. | .sts .. | .stx .. | .atom .. | .atomDecFloat .. | .atomc .. | .red .. | .redFloat ..
  | .marm .. | .fence .. | .barr .. | .barx .. | .clswap .. | .sbar .. | .qpush .. | .qpop .. | .svc .. => true
  | _ => false

/-- Instructions that enter the matrix queue (R178). -/
def matrixQueued : Instr → Bool
  | .mma .. | .mmaW4 .. | .mmaBp .. | .scacc .. | .aclr .. => true
  | _ => false

/-- Matrix instructions (R178). -/
def matrixInstr : Instr → Bool
  | .mma .. | .mmaW4 .. | .mmaBp .. | .scacc .. | .aclr .. | .mprog .. => true
  | _ => false

/-- Entries of a core's commit log (R300). -/
def State.logCount (s : State) (core : Nat) : Nat := (s.log.filter (·.core == core)).length

/-- Entries of a core's matrix queue (R179). -/
def State.matQ (s : State) (core : Nat) : List MatOp := s.matq.filter fun m => m.core == core && !m.stopped

/-- A follower's array is claimed by its leader (R36): a matrix instruction issued on it is held. -/
def State.claimed (s : State) (core : Nat) : Bool :=
  !isLeader core && s.matq.any fun m => m.core + 1 == core && m.pair && m.claimed

/-- A fibre stalls at an `hnarrow` until its write has been performed, and at a `marm` until D is written (R152, R213); the stall is
no hold of R27, and the fibre stays in its warp (DEDUCED; log 72). -/
def State.stalled (s : State) (k : FKey) : Bool := s.ops.any fun o => o.key == k && !o.gone && (o.kind == .hnarrow || o.kind == .marm)

/-- An instruction may issue for one fibre (R19, R62). -/
def State.fibreMayIssue (s : State) (i : Instr) (k : FKey) : Bool :=
  match s.fib? k, s.sheaf? k.sheaf with
  | some f, some h => !s.stalled k && !f.flagsFull (f.selected i.fsel) && !s.interlocked k (allOpnds h.bind i)
  | _, _ => false

/-- A warp's next instruction may issue (R343): flags, interlocks, the commit log, the matrix queue and claims. -/
def State.mayIssue (s : State) (i : Instr) (w : Warp) : Bool :=
  w.members.all (s.fibreMayIssue i)
    && (!logged i || s.logCount w.core + w.members.length ≤ 1024)
    && (!matrixQueued i || (s.matQ w.core).length < 8)
    && (!matrixInstr i || !s.claimed w.core)

/-- What stops a context's fibres at a clause boundary: its freezing, or a halt of its partition (R45, R348). -/
def State.ctxStopped (s : State) (ctx : Nat) : Bool :=
  match s.ctx? ctx with
  | none => false
  | some c => c.frozen || (match s.part? c.part with | some p => p.halting && p.resident == some ctx | none => false)

end Sys2Proof.Machine
end

