-- ==== Sys2Proof/Machine/Batch.lean ====
section
/-! DEFINITION. How fibres are batched into warps: clause boundaries (R28), formation (R29), starvation (R30). -/

namespace Sys2Proof.Machine

/-- The warps of a quadrant, in ascending slot. -/
def State.quadWarps (s : State) (core quad : Nat) : List Warp :=
  sortBy (·.slot) (s.warps.filter fun w => w.core == core && w.quad == quad)

/-- Fibres of a quadrant whose sheafs stand on the core, not saved. -/
def State.quadFibres (s : State) (core quad : Nat) : List Fibre :=
  s.fibres.filter fun f => f.core == core && f.key.quad == quad
    && (match s.sheaf? f.key.sheaf with | some h => !h.saved | none => false)

/-- The unbatched fibres of a quadrant. -/
def State.unbatched (s : State) (core quad : Nat) : List Fibre :=
  (s.quadFibres core quad).filter (·.cond == .unbatched)

/-- The launch number of a fibre, by its sheaf. -/
def State.launchNo (s : State) (k : FKey) : Nat := match s.sheaf? k.sheaf with | some h => h.launch | none => 0

/-- The program counter of a warp: that of its lowest lane. -/
def State.warpPc (s : State) (w : Warp) : Nat :=
  match w.members.head?.bind s.fib? with | some f => f.pc.toNat | none => 0

/-- Every member stands at a clause start. -/
def State.atBoundary (s : State) (w : Warp) : Bool :=
  w.members.all fun k => match s.fib? k with | some f => f.clause == none | none => false

/-- Members in ascending lane. -/
def byLane (l : List FKey) : List FKey := sortBy FKey.lane l

/-- One fibre for each lane, the one of least depth (R28, R29). -/
def onePerLane (l : List Fibre) : List Fibre :=
  (List.range 32).filterMap fun lane => minBy? (·.depth) (l.filter (·.key.lane == lane))

/-- Put fibres into a warp slot's batch. -/
def State.batch (s : State) (ks : List FKey) (slot : Nat) : State :=
  { s with fibres := updIf (fun f => ks.contains f.key) (fun f => { f with cond := .batched slot }) s.fibres }

/-- Take fibres out of their warps, ready to be batched. -/
def State.unbatch (s : State) (ks : List FKey) : State :=
  ks.foldl (fun s k => s.setCond k .unbatched) s

/-- Splitting: the members at the lowest program counter stay; the others become unbatched (R28, 2). -/
def State.splitWarp (s : State) (w : Warp) : State :=
  match minBy? (fun (f : Fibre) => f.pc.toNat) (w.members.filterMap s.fib?) with
  | none => s
  | some lo => s.unbatch (w.members.filter fun k => match s.fib? k with | some f => f.pc != lo.pc | none => false)

/-- Two warps merge into the lower-numbered slot (R28, 3; R343). -/
def State.mergeWarps (s : State) (x y : Warp) : State :=
  let keep := if x.slot < y.slot then x else y
  let m : Warp := { keep with
    members := byLane (x.members ++ y.members), passed := max x.passed y.passed, skip := x.skip || y.skip }
  let ws := s.warps.filter fun w => !(w.core == x.core && w.quad == x.quad && (w.slot == x.slot || w.slot == y.slot))
  ({ s with warps := ws ++ [m] }).batch m.members m.slot

/-- Merging of every other warp of the launch at the same clause start with disjoint lanes (R28, 3). -/
def State.mergeAll (s : State) (core quad slot : Nat) : Nat → State
  | 0 => s
  | n + 1 =>
    match s.warp? core quad slot with
    | none => s
    | some w =>
      let lanes := w.members.map FKey.lane
      match (s.quadWarps core quad).find? fun v =>
          v.slot != slot && v.launch == w.launch && s.atBoundary v && s.warpPc v == s.warpPc w
            && v.members.all (fun k => !lanes.contains k.lane) with
      | none => s
      | some v => (s.mergeWarps w v).mergeAll core quad (min slot v.slot) n

/-- Filling: unbatched fibres at the warp's program counter join on its free lanes (R28, 4). -/
def State.fillWarp (s : State) (core quad slot : Nat) : State :=
  match s.warp? core quad slot with
  | none => s
  | some w =>
    let lanes := w.members.map FKey.lane
    let pc := s.warpPc w
    let cand := (s.unbatched core quad).filter fun f =>
      s.launchNo f.key == w.launch && f.pc.toNat == pc && f.clause == none && !lanes.contains f.key.lane
    let new := (onePerLane cand).map (·.key)
    (s.modWarp core quad slot fun w => { w with members := byLane (w.members ++ new) }).batch new slot

/-- The rules of R28 at a clause boundary of the warp in a slot; a warp marked for dissolution is dissolved (R30). -/
def State.boundary (s : State) (core quad slot : Nat) : State :=
  match s.warp? core quad slot with
  | none => s
  | some w =>
    if w.dissolve then s.unbatch w.members
    else
      let s1 := s.splitWarp w
      let s2 := s1.mergeAll core quad slot 16
      let at' := match s2.warp? core quad slot with
        | some w2 => w2.slot
        | none => match (s2.quadWarps core quad).find? (fun v => v.members.any w.members.contains) with
          | some v => v.slot
          | none => slot
      s2.fillWarp core quad at'

/-- The lowest free warp slot of a quadrant (R27, R29). -/
def State.freeSlot (s : State) (core quad : Nat) : Option Nat :=
  let used := (s.quadWarps core quad).map (·.slot)
  (List.range 16).find? fun i => !used.contains i

/-- The fibres the next warp takes: one launch at the lowest program counter, one on each lane, all at the same place of
their clause (R29). -/
def State.nextBatch (s : State) (core quad : Nat) : List Fibre :=
  let un := s.unbatched core quad
  match minBy? (fun (f : Fibre) => f.pc.toNat) un with
  | none => []
  | some lo =>
    let here := un.filter (·.pc == lo.pc)
    match minBy? (fun (f : Fibre) => s.launchNo f.key) here with
    | none => []
    | some f0 =>
      let mine := onePerLane (here.filter fun f => s.launchNo f.key == s.launchNo f0.key)
      match mine.head? with
      | none => []
      | some f1 => mine.filter fun f => f.clause.map (·.left) == f1.clause.map (·.left) && f.clause.map (·.hdr) == f1.clause.map (·.hdr)

/-- After 64 consecutive opportunities without a free slot, the warp that has held its slot longest is dissolved, at once where it
stands at a clause boundary and else at its next one (R30). -/
def State.dissolveDue (s : State) (core quad : Nat) : State :=
  match s.quads.find? (fun q => q.core == core && q.quad == quad) with
  | none => s
  | some q =>
    if q.starved < 64 then s
    else
      match minBy? (·.age) (s.quadWarps core quad) with
      | none => s
      | some w =>
        let s1 := { s with quads := putIf (fun x => x.core == core && x.quad == quad) { q with starved := 0 } s.quads }
        if s1.atBoundary w then s1.unbatch w.members
        else s1.modWarp core quad w.slot fun w => { w with dissolve := true }

/-- One formation opportunity: a new warp where a slot is free, else a count of starvation, whose 64th dissolves a warp (R29, R30,
R47). -/
def State.formWarp (s : State) (core quad : Nat) : State :=
  let fs := s.nextBatch core quad
  let starved := match s.quads.find? (fun q => q.core == core && q.quad == quad) with | some q => q.starved | none => 0
  let setStarved (s : State) (n : Nat) : State :=
    { s with quads := putIf (fun q => q.core == core && q.quad == quad) { core, quad, starved := n } s.quads }
  match fs.head?, s.freeSlot core quad with
  | none, _ => setStarved s 0
  | some _, none => (setStarved s (starved + 1)).dissolveDue core quad
  | some f, some slot =>
    let ks := fs.map (·.key)
    let w : Warp := { core, quad, slot, members := ks, launch := s.launchNo f.key, age := s.evno, passed := 0,
                      skip := false, dissolve := false }
    setStarved (({ s with warps := s.warps ++ [w] }).batch ks slot) 0

/-- WARP_DISSOLUTION (R30). -/
def execWarpDissolution (core quad : Nat) (s : State) : Outc := .next (s.dissolveDue core quad)

end Sys2Proof.Machine
end

