-- ==== Sys2Proof/Machine/Warp.lean ====
section
/-! DEFINITION. How a warp executes one instruction: for each member in lane order the guard (R70), the traps of R75
steps 4 and 5, then the instruction's own effect; twin issue (R317, R318). -/

namespace Sys2Proof.Machine

/-- What an instruction does for one fibre. -/
inductive Act where
  /-- the fibre goes on with the following word -/
  | next (s : State)
  /-- the fibre goes to a clause header at this offset -/
  | goto (s : State) (pc : Dword)
  /-- the fibre has left its warp at this instruction and stands at it -/
  | stay (s : State)
  /-- the fibre has left its warp and resumes after this instruction -/
  | past (s : State)
  /-- the instruction traps with no effect -/
  | trap (t : TrapInfo)
  /-- the fibre has ended -/
  | gone (s : State)

/-- A fibre moves past the instruction it stands at; at the end of the clause it stands at the next header (R51, R52). -/
def Fibre.advance (f : Fibre) : Fibre :=
  match f.clause with
  | none => f
  | some c =>
    { f with pc := f.pc + BitVec.ofNat 64 c.size,
             clause := if c.left ≤ 1 then none else some { c with left := c.left - 1 } }

/-- A fibre goes to another clause (R53). -/
def Fibre.jump (f : Fibre) (pc : Dword) : Fibre := { f with pc := pc, clause := none }

/-- Instructions of the privileged view only (R39, R73). -/
def privileged : Instr → Bool
  | .halt | .eret .. | .eretEnd .. | .ksFrozenWrite .. | .ksKillWrite .. | .ksHtbaseWrite .. => true
  | .srd _ _ idx | .swr _ idx _ => 0x80 ≤ idx.toNat
  | _ => false

/-- The guard's register bit, inverted where GINV is 1 (R70). -/
def Fibre.guardHolds (f : Fibre) (g : Guard) : Bool := (f.reg g.reg).getLsbD g.bit.toNat != g.inv

/-- What becomes of one member before its own effect (R70, R75). -/
inductive Pre where
  | run
  | skip
  | trap (t : TrapInfo)
  deriving DecidableEq, Repr

/-- The guard, then the privilege trap, then the register-range trap (R70, R75). -/
def preCheck (i : Instr) (f : Fibre) (h : Sheaf) : Pre :=
  let priv := privileged i && !h.priv
  let rest : Pre :=
    if priv then .trap (.plain cPrivilege)
    else
      match rangeTrap h.regs (opnds h.bind i) with
      | some t => .trap t
      | none => .run
  match hdr? i with
  | some ⟨some g, _⟩ =>
    if h.regs ≤ g.reg.toNat then
      .trap (if priv then .plain cPrivilege else ⟨cRegRange, g.reg, 0⟩)
    else if f.guardHolds g then rest else .skip
  | _ => rest

/-- Whether a member executes the instruction. -/
def State.executes (s : State) (i : Instr) (k : FKey) : Bool :=
  match s.fib? k, s.sheaf? k.sheaf with
  | some f, some h => preCheck i f h == .run
  | _, _ => false

/-- Bytes of an instruction (R48). -/
def isize (i : Instr) : Nat :=
  match encodeFields i with
  | some (f, _) => lcSize f.lc
  | none => 8

/-- One member executes the instruction. -/
def State.member (s : State) (i : Instr) (skip : FKey → State → Act) (body : FKey → State → Act) (k : FKey) : State :=
  let s0 := s.modFib k fun f => { f with clause := f.clause.map fun c => { c with size := isize i } }
  match s0.fib? k, s0.sheaf? k.sheaf with
  | some f, some h =>
    let act : Act :=
      match preCheck i f h with
      | .skip => skip k s0
      | .trap t => .trap t
      | .run => body k s0
    match act with
    | .next s1 => s1.modFib k Fibre.advance
    | .goto s1 pc => s1.modFib k (·.jump pc)
    | .stay s1 => s1
    | .past s1 => s1.modFib k Fibre.advance
    | .trap t => s0.takeTrap k t f.pc
    | .gone s1 => s1
  | _, _ => s

/-- A member whose guard is false goes on with the following word (R70). -/
def skipOn (_ : FKey) (s : State) : Act := .next s

/-- The major opcode of an instruction (R71). -/
def majorOf (i : Instr) : Nat := match encodeFields i with | some (f, _) => f.major.toNat | none => 0

/-- A core is fenced: it issues nothing further (R319). -/
def State.fenceCore (s : State) (core : Nat) : State := s.setCore { s.coreSt core with fenced := true }

/-- INFO of a machine check (R318). -/
def machineInfo (major quad lane source : Nat) : Dword :=
  packBits 64 [(source, 15), (lane, 10), (quad, 8), (major, 0)]

/-- A second mismatch: the machine check in every executing fibre, and the core is fenced (R318, R319). -/
def State.machineCheck (s : State) (i : Instr) (w : Warp) (lane : Nat) : State :=
  let t : TrapInfo := ⟨cMachine, 0, machineInfo (majorOf i) w.quad lane 0⟩
  (w.members.foldl (fun s k =>
    match s.fib? k with
    | some f => if s.executes i k then s.takeTrap k t f.pc else s
    | none => s) s).fenceCore w.core

/-- The row key of a twin-issue mismatch: the row is 32 × quadrant + lane; the array's numbers are not stated (R325). -/
def State.twinKey (s : State) (quad lane : Nat) : Dword × State :=
  let (b, s1) := s.freeBits
  ((b.extractLsb' 40 24 ++ BitVec.ofNat 40 (32 * quad + lane) : BitVec 64), s1)

/-- A first mismatch is logged as a corrected error of the working lane, and the replay writes the results (R318). -/
def State.twinReplay (s : State) (core quad lane : Nat) : State :=
  let (key, s1) := s.twinKey quad lane
  { s1 with agenda := ⟨0, .correctedError (coreDie core) key (some (coreCluster core % 24 / 6))⟩ :: s1.agenda }

/-- A clause that yields makes its warp skip the next choice (R58). -/
def State.clauseYield (s : State) (w : Warp) : State :=
  match w.members.head?.bind s.fib? |>.bind (·.clause) with
  | some c => if c.left ≤ 1 && c.yield then s.modWarp w.core w.quad w.slot fun w => { w with skip := true } else s
  | none => s

/-- After an instruction: a warp whose members stand at a clause start is at a clause boundary (R28). -/
def State.endOfInstr (s : State) (w : Warp) : State :=
  match s.warp? w.core w.quad w.slot with
  | some w' => if s.atBoundary w' then s.boundary w.core w.quad w.slot else s
  | none => s

/-- A warp executes an instruction: `skip` is what a member does whose guard is false. -/
def warpExec' (i : Instr) (skip : Warp → FKey → State → Act) (body : Warp → FKey → State → Act) (s : State) : Outc :=
  match s.issue with
  | none => .next s
  | some is =>
    let s0 := { s with issue := none }
    match s0.warp? is.core is.quad is.slot with
    | none => .next s0
    | some w =>
      if !s0.mayIssue i w then .next s0
      else
        let struck := match is.upset with
          | some (lane, twice) => if w.members.any (fun k => k.lane == lane && s0.executes i k) then some (lane, twice) else none
          | none => none
        match struck with
        | some (lane, true) => .next (s0.machineCheck i w lane)
        | _ =>
          let s1 := match struck with
            | some (lane, _) => s0.twinReplay w.core w.quad lane
            | none => s0
          let s2 := w.members.foldl (fun s k => s.member i (skip w) (body w) k) (s1.clauseYield w)
          .next (s2.endOfInstr w)

/-- A warp executes an instruction whose guard-false members go on (R70). -/
def warpExec (i : Instr) (body : FKey → State → Act) (s : State) : Outc :=
  warpExec' i (fun _ => skipOn) (fun _ => body) s

/-- An instruction that only changes the executing fibre's own registers (R104). -/
def regExec (i : Instr) (g : State → Fibre → Fibre) (s : State) : Outc :=
  warpExec i (fun k s =>
    match s.fib? k with
    | some f => .next (s.modFib k fun _ => g s f)
    | none => .next s) s

end Sys2Proof.Machine
end

