-- ==== Sys2Proof/Machine/Integer.lean ====
section
/-! DEFINITION. Integer arithmetic, logic, shifts, bit fields, compare and select (R110–R120). -/

namespace Sys2Proof.Machine

/-! ## The operations on bits -/

/-- Sum or difference of two elements, clamped where saturating (R110, R111). -/
def addSub (sub sat sg : Bool) (w a b : Nat) : Nat :=
  let v := if sub then ival sg w a - ival sg w b else ival sg w a + ival sg w b
  wrap w (if sat then max (rangeLo sg w) (min (rangeHi sg w) v) else v)

/-- Smaller or larger of two elements (R110). -/
def minMax (mx sg : Bool) (w a b : Nat) : Nat :=
  if mx then if ival sg w a < ival sg w b then b else a
  else if ival sg w b < ival sg w a then b else a

/-- `iadd` and `isub` on operands of a type (R110, R111). -/
def iaddVal (sub sat : Bool) (t : Ty) (a b : Nat) : Nat := zipElems t (addSub sub sat (tySigned t) (elemBits t)) a b
/-- `imin` and `imax` on operands of a type (R110). -/
def iminVal (mx : Bool) (t : Ty) (a b : Nat) : Nat := zipElems t (minMax mx (tySigned t) (elemBits t)) a b
/-- `imul` (R110). -/
def imulVal (t : Ty) (a b : Nat) : Nat := wrap t.bits (ival (tySigned t) t.bits a * ival (tySigned t) t.bits b)
/-- `imulh`: the upper half of the exact product (R110). -/
def imulhVal (t : Ty) (a b : Nat) : Nat :=
  wrap t.bits (ival (tySigned t) t.bits a * ival (tySigned t) t.bits b / (2 ^ t.bits : Nat))
/-- `imad` (R112). -/
def imadVal (t : Ty) (a b c : Nat) : Nat :=
  wrap t.bits (ival (tySigned t) t.bits a * ival (tySigned t) t.bits b + ival (tySigned t) t.bits c)
/-- `iaddc`: the pair of sum and carry, or difference and borrow (R113). -/
def iaddcVal (borrow : Bool) (a b c : Nat) : Nat :=
  if borrow then
    let v : Int := (a : Int) - b - (c % 2 : Nat)
    wrap 32 v + (if v < 0 then 2 ^ 32 else 0)
  else
    let v := a + b + c % 2
    v % 2 ^ 32 + v / 2 ^ 32 * 2 ^ 32
/-- `iabs` (R110). -/
def iabsVal (t : Ty) (a : Nat) : Nat := wrap t.bits (sval t.bits a).natAbs
/-- `ineg` (R110). -/
def inegVal (t : Ty) (a : Nat) : Nat := wrap t.bits (-(a : Int))

/-- The logic operations (R114). -/
inductive Logic where
  | and | or | xor | andn
  deriving DecidableEq, Repr

/-- Bitwise operations on w bits (R114). -/
def logicVal (o : Logic) (w a b : Nat) : Nat :=
  match o with
  | .and => a &&& b
  | .or => a ||| b
  | .xor => a ^^^ b
  | .andn => a &&& (b ^^^ (2 ^ w - 1))
/-- `not` (R114). -/
def notVal (w a : Nat) : Nat := a ^^^ (2 ^ w - 1)

/-- Shifts and rotation (R115). -/
inductive ShiftOp where
  | shl | shr | sra | rot
  deriving DecidableEq, Repr

/-- A shift of w bits by n places (R115). -/
def shiftVal (o : ShiftOp) (w a n : Nat) : Nat :=
  match o with
  | .shl => if w ≤ n then 0 else a * 2 ^ n % 2 ^ w
  | .shr => if w ≤ n then 0 else a / 2 ^ n
  | .sra => wrap w (sval w a / (2 ^ min n (w - 1) : Nat))
  | .rot => let k := n % w; (a * 2 ^ k % 2 ^ w) + a / 2 ^ (w - k)

/-- `bfx` (R116). -/
def bfxVal (t : Ty) (pos len a : Nat) : Nat :=
  let field := a / 2 ^ pos % 2 ^ len
  if tySigned t then wrap t.bits (sval len field) else field
/-- `bfi` (R117). -/
def bfiVal (pos len a b : Nat) : Nat :=
  b % 2 ^ pos + a % 2 ^ len * 2 ^ pos + b / 2 ^ (pos + len) * 2 ^ (pos + len)

/-- `popc` (R118). -/
def popcVal (w a : Nat) : Nat := ((List.range w).filter fun i => a.testBit i).length
/-- `clz` (R118). -/
def clzVal (w a : Nat) : Nat := if a == 0 then w else w - 1 - Nat.log2 a
/-- The position of the lowest 1 bit from i upwards, among n bits. -/
def lowestFrom (a : Nat) : Nat → Nat → Nat
  | 0, i => i
  | n + 1, i => if a.testBit i then i else lowestFrom a n (i + 1)
/-- `ctz` (R118). -/
def ctzVal (w a : Nat) : Nat := lowestFrom a w 0
/-- `brev` (R118). -/
def brevVal (w a : Nat) : Nat := ((List.range w).map fun i => if a.testBit i then 2 ^ (w - 1 - i) else 0).foldl (· + ·) 0

/-- The conditions of `icmp` (R119). -/
def icondHolds (c : ICond) (a b : Int) : Bool :=
  match c with
  | .eq => a == b
  | .ne => a != b
  | .lt => a < b
  | .le => a ≤ b
  | .gt => b < a
  | .ge => b ≤ a

/-- All ones where a condition holds, else all zeros (R119, R123). -/
def maskOf (c : Bool) : Word := if c then 0xFFFFFFFF else 0

/-! ## Register forms -/

/-- D := g (A, B) on registers of a type. -/
def reg2 (t : Ty) (g : Nat → Nat → Nat) (d a b : Reg) (f : Fibre) : Fibre := f.put t d (g (f.get t a) (f.get t b))
/-- D := g (A, immediate) (R108). -/
def regImm (t : Ty) (g : Nat → Nat → Nat) (d a : Reg) (imm : Nat) (f : Fibre) : Fibre := f.put t d (g (f.get t a) imm)
/-- D := g (A). -/
def reg1 (t : Ty) (g : Nat → Nat) (d a : Reg) (f : Fibre) : Fibre := f.put t d (g (f.get t a))
/-- D, a single register, := g (A) (R107). -/
def regTo32 (t : Ty) (g : Nat → Nat) (d a : Reg) (f : Fibre) : Fibre := f.setReg d (BitVec.ofNat 32 (g (f.get t a)))

/-! ## The instructions -/

/-- `iadd` (R110, R111). -/
def execIadd (h : Hdr) (t : Ty) (sat : Bool) (d a b : Reg) (s : State) : Outc :=
  regExec (.iadd h t sat d a b) (fun _ => reg2 t (iaddVal false sat t) d a b) s
/-- `iadd` with IMM32 (R108, R110, R111). -/
def execIaddImm32 (h : Hdr) (t : Ty) (sat : Bool) (d a : Reg) (imm : Word) (s : State) : Outc :=
  regExec (.iaddImm32 h t sat d a imm) (fun _ => regImm t (iaddVal false sat t) d a (immBits t imm)) s
/-- `iadd` with IMM64 (R108, R110). -/
def execIaddImm64 (h : Hdr) (t : Ty) (d a : Reg) (imm : Dword) (s : State) : Outc :=
  regExec (.iaddImm64 h t d a imm) (fun _ => regImm t (iaddVal false false t) d a imm.toNat) s
/-- `isub` (R110, R111). -/
def execIsub (h : Hdr) (t : Ty) (sat : Bool) (d a b : Reg) (s : State) : Outc :=
  regExec (.isub h t sat d a b) (fun _ => reg2 t (iaddVal true sat t) d a b) s
/-- `isub` with IMM32 (R108, R110, R111). -/
def execIsubImm32 (h : Hdr) (t : Ty) (sat : Bool) (d a : Reg) (imm : Word) (s : State) : Outc :=
  regExec (.isubImm32 h t sat d a imm) (fun _ => regImm t (iaddVal true sat t) d a (immBits t imm)) s
/-- `isub` with IMM64 (R108, R110). -/
def execIsubImm64 (h : Hdr) (t : Ty) (d a : Reg) (imm : Dword) (s : State) : Outc :=
  regExec (.isubImm64 h t d a imm) (fun _ => regImm t (iaddVal true false t) d a imm.toNat) s
/-- `imul` (R110). -/
def execImul (h : Hdr) (t : Ty) (d a b : Reg) (s : State) : Outc :=
  regExec (.imul h t d a b) (fun _ => reg2 t (imulVal t) d a b) s
/-- `imul` with IMM32 (R108, R110). -/
def execImulImm32 (h : Hdr) (t : Ty) (d a : Reg) (imm : Word) (s : State) : Outc :=
  regExec (.imulImm32 h t d a imm) (fun _ => regImm t (imulVal t) d a (immBits t imm)) s
/-- `imulh` (R110). -/
def execImulh (h : Hdr) (t : Ty) (d a b : Reg) (s : State) : Outc :=
  regExec (.imulh h t d a b) (fun _ => reg2 t (imulhVal t) d a b) s
/-- `imad` (R112). -/
def execImad (h : Hdr) (t : Ty) (d a b c : Reg) (s : State) : Outc :=
  regExec (.imad h t d a b c) (fun _ f => f.put t d (imadVal t (f.get t a) (f.get t b) (f.get t c))) s
/-- `iaddc` and `iaddc.b` (R113). -/
def execIaddc (h : Hdr) (borrow : Bool) (d a b c : Reg) (s : State) : Outc :=
  regExec (.iaddc h borrow d a b c) (fun _ f =>
    f.setPair d (BitVec.ofNat 64 (iaddcVal borrow (f.reg a).toNat (f.reg b).toNat (f.reg c).toNat))) s
/-- `imin` (R110). -/
def execImin (h : Hdr) (t : Ty) (d a b : Reg) (s : State) : Outc :=
  regExec (.imin h t d a b) (fun _ => reg2 t (iminVal false t) d a b) s
/-- `imin` with IMM32 (R108, R110). -/
def execIminImm32 (h : Hdr) (t : Ty) (d a : Reg) (imm : Word) (s : State) : Outc :=
  regExec (.iminImm32 h t d a imm) (fun _ => regImm t (iminVal false t) d a (immBits t imm)) s
/-- `imax` (R110). -/
def execImax (h : Hdr) (t : Ty) (d a b : Reg) (s : State) : Outc :=
  regExec (.imax h t d a b) (fun _ => reg2 t (iminVal true t) d a b) s
/-- `imax` with IMM32 (R108, R110). -/
def execImaxImm32 (h : Hdr) (t : Ty) (d a : Reg) (imm : Word) (s : State) : Outc :=
  regExec (.imaxImm32 h t d a imm) (fun _ => regImm t (iminVal true t) d a (immBits t imm)) s
/-- `iabs` (R110). -/
def execIabs (h : Hdr) (t : Ty) (d a : Reg) (s : State) : Outc :=
  regExec (.iabs h t d a) (fun _ => reg1 t (iabsVal t) d a) s
/-- `ineg` (R110). -/
def execIneg (h : Hdr) (t : Ty) (d a : Reg) (s : State) : Outc :=
  regExec (.ineg h t d a) (fun _ => reg1 t (inegVal t) d a) s
/-- `and` (R114). -/
def execBAnd (h : Hdr) (t : Ty) (d a b : Reg) (s : State) : Outc :=
  regExec (.bAnd h t d a b) (fun _ => reg2 t (logicVal .and t.bits) d a b) s
/-- `and` with IMM32 (R108, R114). -/
def execBAndImm32 (h : Hdr) (t : Ty) (d a : Reg) (imm : Word) (s : State) : Outc :=
  regExec (.bAndImm32 h t d a imm) (fun _ => regImm t (logicVal .and t.bits) d a (immBits t imm)) s
/-- `and` with IMM64 (R108, R114). -/
def execBAndImm64 (h : Hdr) (t : Ty) (d a : Reg) (imm : Dword) (s : State) : Outc :=
  regExec (.bAndImm64 h t d a imm) (fun _ => regImm t (logicVal .and t.bits) d a imm.toNat) s
/-- `or` (R114). -/
def execBOr (h : Hdr) (t : Ty) (d a b : Reg) (s : State) : Outc :=
  regExec (.bOr h t d a b) (fun _ => reg2 t (logicVal .or t.bits) d a b) s
/-- `or` with IMM32 (R108, R114). -/
def execBOrImm32 (h : Hdr) (t : Ty) (d a : Reg) (imm : Word) (s : State) : Outc :=
  regExec (.bOrImm32 h t d a imm) (fun _ => regImm t (logicVal .or t.bits) d a (immBits t imm)) s
/-- `or` with IMM64 (R108, R114). -/
def execBOrImm64 (h : Hdr) (t : Ty) (d a : Reg) (imm : Dword) (s : State) : Outc :=
  regExec (.bOrImm64 h t d a imm) (fun _ => regImm t (logicVal .or t.bits) d a imm.toNat) s
/-- `xor` (R114). -/
def execBXor (h : Hdr) (t : Ty) (d a b : Reg) (s : State) : Outc :=
  regExec (.bXor h t d a b) (fun _ => reg2 t (logicVal .xor t.bits) d a b) s
/-- `xor` with IMM32 (R108, R114). -/
def execBXorImm32 (h : Hdr) (t : Ty) (d a : Reg) (imm : Word) (s : State) : Outc :=
  regExec (.bXorImm32 h t d a imm) (fun _ => regImm t (logicVal .xor t.bits) d a (immBits t imm)) s
/-- `xor` with IMM64 (R108, R114). -/
def execBXorImm64 (h : Hdr) (t : Ty) (d a : Reg) (imm : Dword) (s : State) : Outc :=
  regExec (.bXorImm64 h t d a imm) (fun _ => regImm t (logicVal .xor t.bits) d a imm.toNat) s
/-- `andn` (R114). -/
def execBAndn (h : Hdr) (t : Ty) (d a b : Reg) (s : State) : Outc :=
  regExec (.bAndn h t d a b) (fun _ => reg2 t (logicVal .andn t.bits) d a b) s
/-- `andn` with IMM32 (R108, R114). -/
def execBAndnImm32 (h : Hdr) (t : Ty) (d a : Reg) (imm : Word) (s : State) : Outc :=
  regExec (.bAndnImm32 h t d a imm) (fun _ => regImm t (logicVal .andn t.bits) d a (immBits t imm)) s
/-- `andn` with IMM64 (R108, R114). -/
def execBAndnImm64 (h : Hdr) (t : Ty) (d a : Reg) (imm : Dword) (s : State) : Outc :=
  regExec (.bAndnImm64 h t d a imm) (fun _ => regImm t (logicVal .andn t.bits) d a imm.toNat) s
/-- `not` (R114). -/
def execBNot (h : Hdr) (t : Ty) (d a : Reg) (s : State) : Outc :=
  regExec (.bNot h t d a) (fun _ => reg1 t (notVal t.bits) d a) s
/-- A shift by a register: the amount is the whole of B (R115). -/
def regShift (t : Ty) (o : ShiftOp) (d a b : Reg) (f : Fibre) : Fibre :=
  f.put t d (shiftVal o t.bits (f.get t a) (f.reg b).toNat)
/-- `shl` (R115). -/
def execShl (h : Hdr) (t : Ty) (d a b : Reg) (s : State) : Outc :=
  regExec (.shl h t d a b) (fun _ => regShift t .shl d a b) s
/-- `shl` with an amount in IMM32 bits 7:0 (R115). -/
def execShlImm32 (h : Hdr) (t : Ty) (d a : Reg) (n : BitVec 8) (s : State) : Outc :=
  regExec (.shlImm32 h t d a n) (fun _ => regImm t (shiftVal .shl t.bits) d a n.toNat) s
/-- `shr` (R115). -/
def execShr (h : Hdr) (t : Ty) (d a b : Reg) (s : State) : Outc :=
  regExec (.shr h t d a b) (fun _ => regShift t .shr d a b) s
/-- `shr` with an amount in IMM32 bits 7:0 (R115). -/
def execShrImm32 (h : Hdr) (t : Ty) (d a : Reg) (n : BitVec 8) (s : State) : Outc :=
  regExec (.shrImm32 h t d a n) (fun _ => regImm t (shiftVal .shr t.bits) d a n.toNat) s
/-- `sra` (R115). -/
def execSra (h : Hdr) (t : Ty) (d a b : Reg) (s : State) : Outc :=
  regExec (.sra h t d a b) (fun _ => regShift t .sra d a b) s
/-- `sra` with an amount in IMM32 bits 7:0 (R115). -/
def execSraImm32 (h : Hdr) (t : Ty) (d a : Reg) (n : BitVec 8) (s : State) : Outc :=
  regExec (.sraImm32 h t d a n) (fun _ => regImm t (shiftVal .sra t.bits) d a n.toNat) s
/-- `rot` (R115). -/
def execRot (h : Hdr) (t : Ty) (d a b : Reg) (s : State) : Outc :=
  regExec (.rot h t d a b) (fun _ => regShift t .rot d a b) s
/-- `rot` with an amount in IMM32 bits 7:0 (R115). -/
def execRotImm32 (h : Hdr) (t : Ty) (d a : Reg) (n : BitVec 8) (s : State) : Outc :=
  regExec (.rotImm32 h t d a n) (fun _ => regImm t (shiftVal .rot t.bits) d a n.toNat) s
/-- `bfx` (R116). -/
def execBfx (h : Hdr) (t : Ty) (d a : Reg) (pos : BitVec 6) (len : BitVec 7) (s : State) : Outc :=
  regExec (.bfx h t d a pos len) (fun _ => reg1 t (bfxVal t pos.toNat len.toNat) d a) s
/-- `bfi` (R117). -/
def execBfi (h : Hdr) (t : Ty) (d a b : Reg) (pos : BitVec 6) (len : BitVec 7) (s : State) : Outc :=
  regExec (.bfi h t d a b pos len) (fun _ => reg2 t (bfiVal pos.toNat len.toNat) d a b) s
/-- `popc` (R118). -/
def execPopc (h : Hdr) (t : Ty) (d a : Reg) (s : State) : Outc :=
  regExec (.popc h t d a) (fun _ => regTo32 t (popcVal t.bits) d a) s
/-- `clz` (R118). -/
def execClz (h : Hdr) (t : Ty) (d a : Reg) (s : State) : Outc :=
  regExec (.clz h t d a) (fun _ => regTo32 t (clzVal t.bits) d a) s
/-- `ctz` (R118). -/
def execCtz (h : Hdr) (t : Ty) (d a : Reg) (s : State) : Outc :=
  regExec (.ctz h t d a) (fun _ => regTo32 t (ctzVal t.bits) d a) s
/-- `brev` (R118). -/
def execBrev (h : Hdr) (t : Ty) (d a : Reg) (s : State) : Outc :=
  regExec (.brev h t d a) (fun _ => reg1 t (brevVal t.bits) d a) s
/-- `icmp` (R119). -/
def execIcmp (h : Hdr) (cc : ICond) (t : Ty) (d a b : Reg) (s : State) : Outc :=
  regExec (.icmp h cc t d a b) (fun _ f =>
    f.setReg d (maskOf (icondHolds cc (ival (tySigned t) t.bits (f.get t a)) (ival (tySigned t) t.bits (f.get t b))))) s
/-- `icmp` with IMM32 (R108, R119). -/
def execIcmpImm32 (h : Hdr) (cc : ICond) (t : Ty) (d a : Reg) (imm : Word) (s : State) : Outc :=
  regExec (.icmpImm32 h cc t d a imm) (fun _ f =>
    f.setReg d (maskOf (icondHolds cc (ival (tySigned t) t.bits (f.get t a)) (ival (tySigned t) t.bits (immBits t imm))))) s
/-- `sel` (R120). -/
def execSel (h : Hdr) (t : Ty) (d a b c : Reg) (bit : BitVec 5) (s : State) : Outc :=
  regExec (.sel h t d a b c bit) (fun _ f =>
    f.put t d (if (f.reg c).getLsbD bit.toNat then f.get t a else f.get t b)) s

end Sys2Proof.Machine
end

