-- ==== Sys2Proof/Machine/FloatInstr.lean ====
section
/-! DEFINITION. The floating-point group (R121–R126), majors 0x20–0x2F; FTZ reaches all of it but `fclass` (R95). -/

namespace Sys2Proof.Machine

/-- The format of a floating-point type; a type that has none is refused by the decoder. -/
def fmtOf (t : Ty) : Fmt := (tyFmt t).getD .f32

/-- One element of `fadd` or `fsub` (R121). -/
def faddElem (sub : Bool) (f : Fmt) (ftz : Bool) (md : Rnd) (a b : Nat) : Nat :=
  let vb := f.read ftz b
  f.write ftz md (FV.sum md [f.read ftz a, if sub then vb.neg else vb])
/-- One element of `fmul` (R121). -/
def fmulElem (f : Fmt) (ftz : Bool) (md : Rnd) (a b : Nat) : Nat :=
  f.write ftz md ((f.read ftz a).mul (f.read ftz b))
/-- One element of `ffma`, rounded once (R121). -/
def ffmaElem (f : Fmt) (ftz : Bool) (md : Rnd) (a b c : Nat) : Nat :=
  f.write ftz md (FV.sum md [(f.read ftz a).mul (f.read ftz b), f.read ftz c])
/-- One element of `fmin` or `fmax` (R122). -/
def fminElem (mx : Bool) (f : Fmt) (ftz : Bool) (a b : Nat) : Nat := f.pick mx (f.flush ftz a) (f.flush ftz b)
/-- `frnd` (R125). -/
def frndVal (f : Fmt) (ftz : Bool) (md : Rnd) (a : Nat) : Nat := f.write ftz md ((f.read ftz a).integral md)
/-- `fsqrt` (R96, R97). -/
def fsqrtVal (f : Fmt) (ftz : Bool) (md : Rnd) (a : Nat) : Nat := f.write ftz md (f.read ftz a).sqrt

/-- `fadd` and `fsub` on operands of a type. -/
def faddVal (sub : Bool) (t : Ty) (md : Rnd) (ftz : Bool) : Nat → Nat → Nat := zipElems t (faddElem sub (fmtOf t) ftz md)
/-- `fmul` on operands of a type. -/
def fmulVal (t : Ty) (md : Rnd) (ftz : Bool) : Nat → Nat → Nat := zipElems t (fmulElem (fmtOf t) ftz md)

/-- `fadd` (R121). -/
def execFadd (h : Hdr) (md : Rnd) (t : Ty) (d a b : Reg) (s : State) : Outc :=
  regExec (.fadd h md t d a b) (fun s f => reg2 t (faddVal false t md (s.ftz f.key)) d a b f) s
/-- `fadd` with IMM32 (R108, R121). -/
def execFaddImm32 (h : Hdr) (md : Rnd) (t : Ty) (d a : Reg) (imm : Word) (s : State) : Outc :=
  regExec (.faddImm32 h md t d a imm) (fun s f => regImm t (faddVal false t md (s.ftz f.key)) d a (immBits t imm) f) s
/-- `fadd.f64` with IMM64 (R121). -/
def execFaddImm64 (h : Hdr) (md : Rnd) (d a : Reg) (imm : Dword) (s : State) : Outc :=
  regExec (.faddImm64 h md d a imm) (fun s f => regImm .f64 (faddVal false .f64 md (s.ftz f.key)) d a imm.toNat f) s
/-- `fsub` (R121). -/
def execFsub (h : Hdr) (md : Rnd) (t : Ty) (d a b : Reg) (s : State) : Outc :=
  regExec (.fsub h md t d a b) (fun s f => reg2 t (faddVal true t md (s.ftz f.key)) d a b f) s
/-- `fsub` with IMM32 (R108, R121). -/
def execFsubImm32 (h : Hdr) (md : Rnd) (t : Ty) (d a : Reg) (imm : Word) (s : State) : Outc :=
  regExec (.fsubImm32 h md t d a imm) (fun s f => regImm t (faddVal true t md (s.ftz f.key)) d a (immBits t imm) f) s
/-- `fsub.f64` with IMM64 (R121). -/
def execFsubImm64 (h : Hdr) (md : Rnd) (d a : Reg) (imm : Dword) (s : State) : Outc :=
  regExec (.fsubImm64 h md d a imm) (fun s f => regImm .f64 (faddVal true .f64 md (s.ftz f.key)) d a imm.toNat f) s
/-- `fmul` (R121). -/
def execFmul (h : Hdr) (md : Rnd) (t : Ty) (d a b : Reg) (s : State) : Outc :=
  regExec (.fmul h md t d a b) (fun s f => reg2 t (fmulVal t md (s.ftz f.key)) d a b f) s
/-- `fmul` with IMM32 (R108, R121). -/
def execFmulImm32 (h : Hdr) (md : Rnd) (t : Ty) (d a : Reg) (imm : Word) (s : State) : Outc :=
  regExec (.fmulImm32 h md t d a imm) (fun s f => regImm t (fmulVal t md (s.ftz f.key)) d a (immBits t imm) f) s
/-- `fmul.f64` with IMM64 (R121). -/
def execFmulImm64 (h : Hdr) (md : Rnd) (d a : Reg) (imm : Dword) (s : State) : Outc :=
  regExec (.fmulImm64 h md d a imm) (fun s f => regImm .f64 (fmulVal .f64 md (s.ftz f.key)) d a imm.toNat f) s
/-- `ffma` (R121). -/
def execFfma (h : Hdr) (md : Rnd) (t : Ty) (d a b c : Reg) (s : State) : Outc :=
  regExec (.ffma h md t d a b c) (fun s f =>
    f.put t d (zipElems3 t (ffmaElem (fmtOf t) (s.ftz f.key) md) (f.get t a) (f.get t b) (f.get t c))) s
/-- `fmin` (R122). -/
def execFmin (h : Hdr) (t : Ty) (d a b : Reg) (s : State) : Outc :=
  regExec (.fmin h t d a b) (fun s f => reg2 t (zipElems t (fminElem false (fmtOf t) (s.ftz f.key))) d a b f) s
/-- `fmax` (R122). -/
def execFmax (h : Hdr) (t : Ty) (d a b : Reg) (s : State) : Outc :=
  regExec (.fmax h t d a b) (fun s f => reg2 t (zipElems t (fminElem true (fmtOf t) (s.ftz f.key))) d a b f) s
/-- `fcmp` (R123). -/
def execFcmp (h : Hdr) (cc : FCond) (t : Ty) (d a b : Reg) (s : State) : Outc :=
  regExec (.fcmp h cc t d a b) (fun s f =>
    f.setReg d (maskOf (fcondHolds cc ((fmtOf t).read (s.ftz f.key) (f.get t a)) ((fmtOf t).read (s.ftz f.key) (f.get t b))))) s
/-- `fclass` (R124). -/
def execFclass (h : Hdr) (t : Ty) (d a : Reg) (s : State) : Outc :=
  regExec (.fclass h t d a) (fun _ => regTo32 t (fmtOf t).classOf d a) s
/-- `frnd` (R125). -/
def execFrnd (h : Hdr) (md : Rnd) (t : Ty) (d a : Reg) (s : State) : Outc :=
  regExec (.frnd h md t d a) (fun s f => reg1 t (frndVal (fmtOf t) (s.ftz f.key) md) d a f) s
/-- `frcp` (R96, R97, R126). -/
def execFrcp (h : Hdr) (t : Ty) (d a : Reg) (s : State) : Outc :=
  regExec (.frcp h t d a) (fun s f => reg1 t (approxOp .rcp t (fmtOf t) (s.ftz f.key)) d a f) s
/-- `frsq` (R96, R97, R126). -/
def execFrsq (h : Hdr) (t : Ty) (d a : Reg) (s : State) : Outc :=
  regExec (.frsq h t d a) (fun s f => reg1 t (approxOp .rsq t (fmtOf t) (s.ftz f.key)) d a f) s
/-- `fsqrt` (R96, R97, R126). -/
def execFsqrt (h : Hdr) (md : Rnd) (t : Ty) (d a : Reg) (s : State) : Outc :=
  regExec (.fsqrt h md t d a) (fun s f => reg1 t (fsqrtVal (fmtOf t) (s.ftz f.key) md) d a f) s
/-- `fexp2` (R96, R97, R126). -/
def execFexp2 (h : Hdr) (t : Ty) (d a : Reg) (s : State) : Outc :=
  regExec (.fexp2 h t d a) (fun s f => reg1 t (approxOp .exp2 t (fmtOf t) (s.ftz f.key)) d a f) s
/-- `flog2` (R96, R97, R126). -/
def execFlog2 (h : Hdr) (t : Ty) (d a : Reg) (s : State) : Outc :=
  regExec (.flog2 h t d a) (fun s f => reg1 t (approxOp .log2 t (fmtOf t) (s.ftz f.key)) d a f) s
/-- `fsin` (R96, R97, R126). -/
def execFsin (h : Hdr) (t : Ty) (d a : Reg) (s : State) : Outc :=
  regExec (.fsin h t d a) (fun s f => reg1 t (approxOp .sin t (fmtOf t) (s.ftz f.key)) d a f) s
/-- `fcos` (R96, R97, R126). -/
def execFcos (h : Hdr) (t : Ty) (d a : Reg) (s : State) : Outc :=
  regExec (.fcos h t d a) (fun s f => reg1 t (approxOp .cos t (fmtOf t) (s.ftz f.key)) d a f) s

end Sys2Proof.Machine
end

