-- ==== Sys2Proof/Machine/Lines.lean ====
section
/-! DEFINITION. Lines and their homes: the newest contents of a line wherever it is held (R276, R277, R280), home slices
(R270, R281), the hash of a line (R305), interval records and intervals (R304–R308), and the traffic counters (R297). -/

namespace Sys2Proof.Machine

/-- A die L2's line. -/
def State.l2? (s : State) (die line : Nat) : Option L2Line := s.coh.l2.find? fun l => l.die == die && l.line == line
/-- A way of the LLC that a line holds: data, or a tag alone. -/
def State.llcTag? (s : State) (line : Nat) : Option LlcLine := s.coh.llc.find? (·.line == line)
/-- A line's data in the LLC. -/
def State.llc? (s : State) (line : Nat) : Option LlcLine := s.coh.llc.find? fun l => l.line == line && l.full
/-- A directory entry. -/
def State.dir? (s : State) (line : Nat) : Option DirEntry := s.coh.dir.find? (·.line == line)
/-- The die L2 line that is newer than the home: in M or E, or in O at the owner of the directory entry (R276–R278). -/
def State.owner? (s : State) (line : Nat) : Option L2Line :=
  s.coh.l2.find? fun l => l.line == line && (l.st == .m || l.st == .e
    || (l.st == .o && (match s.dir? line with | some d => d.owner == l.die | none => true)))

/-- The line as the home slice holds it. -/
def State.homeLine (s : State) (line : Nat) : List Byte :=
  match s.llc? line with
  | some l => l.data
  | none => s.rawRead (lineLoc line) 128

/-- The newest contents of a line. -/
def State.newestLine (s : State) (line : Nat) : List Byte :=
  match s.owner? line with
  | some l => l.data
  | none =>
    if line < 2 ^ 50 || (s.llc? line).isSome then s.homeLine line
    else match s.coh.l2.find? (·.line == line) with | some l => l.data | none => s.homeLine line

/-- Stack and stack line number of a line of device memory (R268). -/
def lineStack (line : Nat) : Nat × Nat :=
  let d := line % 2 ^ 50 * 128
  match windowMap (d / 2 ^ 40 % 4) (d % 2 ^ 40) with
  | some (st, a) => (st, a / 128)
  | none => (0, 0)

/-- Lines of other windows over the same DRAM line that have been used (R269). -/
def State.aliases (s : State) (line : Nat) : List Nat :=
  if line < 2 ^ 50 then
    (s.coh.dir.filter fun d => d.line != line && d.line < 2 ^ 50 && lineStack d.line == lineStack line).map (·.line)
  else []

/-- A byte of a line as a read returns it, given the line's newest contents: where the DRAM byte is mapped through several
windows, any of the values written through them (R269). -/
def State.viewByte (s : State) (line : Nat) (data : List Byte) (i : Nat) : Byte :=
  match s.aliases line with
  | [] => data.getD i 0
  | ls =>
    let vs := data.getD i 0 :: ls.map fun l => (s.newestLine l).getD i 0
    vs.getD (Config.windowChoice s.evno (line * 128 + i) % vs.length) 0

/-- The newest bytes at a place. -/
def State.newest (s : State) (l : Loc) (n : Nat) : List Byte :=
  (List.range n).map fun i =>
    let li := l.add i
    match li.line? with
    | some line => s.viewByte line (s.newestLine line) li.inLine
    | none => (s.rawRead li 1).headD 0

/-- The newest value at a place. -/
def State.newestNat (s : State) (l : Loc) (n : Nat) : Nat := leNat (s.newest l n)

/-- Whether a line is poisoned (R314, R384–R386). -/
def State.poisoned (s : State) (line : Nat) : Bool := s.coh.poison.contains line

/-- Update the coherent memory system. -/
def State.modCoh (s : State) (g : Coh → Coh) : State := { s with coh := g s.coh }

/-- A line, or a unit of another array, is poisoned. -/
def State.addPoison (s : State) (x : Nat) : State := s.modCoh fun c => { c with poison := nub (c.poison ++ [x]) }

/-- A die's links carry data, and it has power: it is ACTIVE (R407, R415). -/
def State.dieUp (s : State) (d : Nat) : Bool := !s.boot.railsOff && (match s.boot.chiplets[d]? with | some c => c.st == .active | none => false)

/-! ## Spaces and homes (R268, R270, R281, R306) -/

/-- The space of a line: 0 device, 1 peer, 2 pool (R306). -/
def lineSpace (line : Nat) : Nat := line / 2 ^ 50

/-- XOR of n successive fields of w bits (R270, R281). -/
def xorFields (w n x : Nat) : Nat := (List.range n).foldl (fun acc j => acc ^^^ (x / 2 ^ (w * j) % 2 ^ w)) 0

/-- The home slice of a line, as a package slice 0–511 (R270, R281). -/
def homeSlice (line : Nat) : Nat :=
  if lineSpace line == 0 then
    let (st, a) := lineStack line
    128 * (st / 3) + xorFields 7 5 (st % 3 * 2 ^ 29 + a)
  else xorFields 9 5 (line % 2 ^ 38)

/-- The base die of a line's home. -/
def homeBase (line : Nat) : Nat := homeSlice line / 128

/-! ## Routes and the port that carries a line (R376) -/

/-- The route mask of a fabric number. -/
def State.routeMask (s : State) (fn : Nat) : BitVec 16 :=
  match s.fab.routes.find? (·.1.toNat == fn) with | some r => r.2 | none => 0

/-- Ports of the mask that are up. -/
def State.routePorts (s : State) (fn : Nat) : List Nat :=
  (List.range 16).filter fun i => (s.routeMask fn).getLsbD i && (match s.fab.ports[i]? with | some p => p.up | none => false)

/-- The ports of one plane. -/
def planePorts (plane : Nat) (ports : List Nat) : List Nat := ports.filter fun i => i / 8 == plane

/-- The port for a packet that concerns a line, among the ports of a plane (R376). -/
def linePort (addr : Nat) (ports : List Nat) : Option Nat := ports[xorFields 4 10 addr % ports.length]?

/-- The fabric number of the home of a peer or pool line (R306). -/
def lineFn (line : Nat) : Nat := line % 2 ^ 50 / 2 ^ 38

/-- A line within its home, as ADDR of a packet names it (R378). -/
def lineAddr (line : Nat) : Nat := if lineSpace line == 2 then line % 2 ^ 38 else line % 2 ^ 35

/-- The port on which the requests for a peer or pool line leave (R376). -/
def State.carryPort (s : State) (line : Nat) : Nat :=
  let ps := s.routePorts (lineFn line)
  ((linePort (lineAddr line) (planePorts 0 ps)).or (linePort (lineAddr line) (planePorts 1 ps))).getD 0

/-! ## The hash (R305) -/

/-- H of a 128-byte line: the XOR of its doubles, double i rotated left by 4i (R305). -/
def lineHash (data : List Byte) : Dword :=
  (List.range 16).foldl (fun acc i =>
    acc ^^^ (BitVec.ofNat 64 (leNat ((data.drop (8 * i)).take 8))).rotateLeft (4 * i)) 0

/-! ## Interval records (R306, R307) -/

/-- HOLDER of a die L2 (R307). -/
def hL2 (die : Nat) : BitVec 16 := BitVec.ofNat 16 die
/-- HOLDER of a copy engine (R307). -/
def hCopy (die : Nat) : BitVec 16 := BitVec.ofNat 16 (0x3000 + die)
/-- HOLDER of a receive engine (R307). -/
def hRecv (die : Nat) : BitVec 16 := BitVec.ofNat 16 (0x4000 + die)
/-- HOLDER of a host port (R307). -/
def hHost (port : Nat) : BitVec 16 := BitVec.ofNat 16 (0x5000 + port)
/-- HOLDER of a fabric port (R307). -/
def hFabric (port : Nat) : BitVec 16 := BitVec.ofNat 16 (0x6000 + port)
/-- HOLDER of the memory side of a line: its HBM controller, or the fabric port that carries a peer or pool line (R307,
R308). -/
def State.hMem (s : State) (line : Nat) : BitVec 16 :=
  if lineSpace line == 0 then BitVec.ofNat 16 (0x2000 + (lineStack line).1) else hFabric (s.carryPort line)
/-- HOLDER of a core (R307). -/
def hCore (core : Nat) : BitVec 16 := BitVec.ofNat 16 (0x7000 + 256 * coreDie core + coreInDie core)
/-- HOLDER of the atomic units of a line's home slice (R307). -/
def hAtomic (line : Nat) : BitVec 16 := BitVec.ofNat 16 (0x8000 + homeSlice line)

/-- A record is sent on the sideband (R306). -/
def State.sendRec (s : State) (r : IRec) : State :=
  let now := match s.dir? r.line with | some d => d.interval | none => 0
  { s with chk := { s.chk with recs := s.chk.recs ++ [{ r with now }] } }

/-- A record of one hash. -/
def State.rec1 (s : State) (kind : RecKind) (line : Nat) (n : BitVec 32) (writer : Bool) (holder : BitVec 16)
    (h : Dword) : State :=
  s.sendRec { hash := h, interval := n, line, kind, writer, holder, hashb := 0 }

/-! ## Intervals (R304, R308) -/

/-- An interval the checkers still keep. -/
def State.ival? (s : State) (line : Nat) (n : BitVec 32) : Option Ival :=
  s.chk.ivals.find? fun v => v.line == line && v.n == n

/-- Cleared: the expected hash is fixed and every record of a holder granted so far has arrived and matched (R308). -/
def Ival.cleared (v : Ival) : Bool := v.violated.isNone && v.expect.isSome && v.due == []

/-- Whether an interval is cleared; one that the checker no longer keeps is. -/
def State.ivalCleared (s : State) (line : Nat) (n : BitVec 32) : Bool :=
  match s.ival? line n with | some v => v.cleared | none => true

/-- Update one interval. -/
def State.modIval (s : State) (line : Nat) (n : BitVec 32) (g : Ival → Ival) : State :=
  { s with chk := { s.chk with ivals := updIf (fun v => v.line == line && v.n == n) g s.chk.ivals } }

/-- The directory entry of a line; a new entry starts at interval 0, the memory interval (R304). -/
def State.dirOf (s : State) (line : Nat) : DirEntry :=
  (s.dir? line).getD { line, st := .uncached, owner := 0, sharers := [], xlat := false, interval := 0, writer := none, shut := false }

/-- Set a directory entry. -/
def State.setDir (s : State) (d : DirEntry) : State :=
  s.modCoh fun c => { c with dir := putIf (·.line == d.line) d c.dir }

/-- The expected hash of interval n + 1 and the unit that fixed it: what the writer of n handed on, or the expected hash of
a reader interval (R308, item 1). -/
def Ival.handsOn (v : Ival) : Option Dword × BitVec 16 :=
  if v.writer.isSome then (v.closed, v.closer) else (v.expect, v.supplier)

/-- An interval whose records are still under way, or whose closing hash is not fixed, is kept. -/
def State.stillOpen (s : State) (v : Ival) : Bool :=
  !v.cleared || v.handsOn.1.isNone || s.chk.recs.any fun r => r.line == v.line && r.interval == v.n

/-- A line has no directory entry, or one that went with its tag: no cache of the package, no other package and no request names the
line, it is no translation line, and nothing of its intervals is left to check (R277, R283, R304) (DEDUCED; log 45). -/
def State.dirFresh (s : State) (line : Nat) : Bool :=
  match s.dir? line with
  | none => true
  | some d =>
    d.st == .uncached && !d.xlat && (s.llcTag? line).isNone && !s.coh.l2.any (·.line == line)
      && !s.coh.remSh.any (·.2.1 == line) && !s.coh.remote.any (·.2.1 == line) && !s.coh.mshr.any (·.1 == line)
      && !s.coh.watched.any (fun w => w.entry / 128 == line) && !s.coh.fetches.any (fun f => f.line == line && (f.op == 4 || f.used.isSome))
      && s.chk.ivals.all (fun v => v.line != line || !s.stillOpen v)
      && !s.log.any (fun e => e.line == line && e.interval.isSome && !e.checked)

/-- A directory entry is allocated for a line that has none: it starts at the memory interval, whose closing data are what the home
holds; what earlier accesses were owed of the line has been cleared (R304, R308) (DEDUCED; log 45). -/
def State.ensureDir (s : State) (line : Nat) : State :=
  if s.dirFresh line then
    let v : Ival := { line, n := 0, writer := some (s.hMem line).toNat, readers := [], expect := some 0, supplier := s.hMem line,
                      due := [], closed := some (lineHash (s.homeLine line)), closer := s.hMem line, violated := none, recorded := [] }
    let s1 := s.setDir { line, st := .uncached, owner := 0, sharers := [], xlat := false, interval := 0, writer := none, shut := false }
    { s1 with
      chk := { s1.chk with ivals := s1.chk.ivals.filter (·.line != line) ++ [v] }
      log := updIf (·.line == line) (fun e => { e with interval := none }) s1.log
      owed := s1.owed.filter (·.line != line)
      cmds := s1.cmds.map fun c => { c with ivs := c.ivs.filter (·.1 != line) } }
  else s

/-- Open interval n + 1 with a writer, or with readers (R304); intervals before it that are done with are forgotten. -/
def State.openIval (s : State) (line : Nat) (writer : Option (BitVec 16)) (readers : List (BitVec 16)) : State :=
  let s0 := s.ensureDir line
  let d := s0.dirOf line
  let (ex, sup) := match s0.ival? line d.interval with
    | some v => v.handsOn
    | none => (none, 0)
  let v : Ival := { line, n := d.interval + 1, writer := writer.map (·.toNat), readers := readers.map (·.toNat), expect := ex,
                    supplier := sup, due := (writer.toList ++ readers).map (·.toNat), closed := none, closer := 0,
                    violated := none, recorded := [] }
  let keep := s0.chk.ivals.filter fun x => !(x.line == line && !s0.stillOpen x && x.n != d.interval)
  let s1 := s0.setDir { d with interval := d.interval + 1, writer := writer.map (·.toNat), shut := false }
  { s1 with chk := { s1.chk with ivals := keep ++ [v] } }

/-- A requester joins a reader interval (R304). -/
def State.joinIval (s : State) (line : Nat) (r : BitVec 16) : State :=
  s.modIval line (s.dirOf line).interval fun v => { v with readers := v.readers ++ [r.toNat], due := v.due ++ [r.toNat] }

/-! ## Traffic counters (R296–R298) -/

/-- Add to a counter of a die's block, at an 8-byte offset index (R297). -/
def State.countAt (s : State) (die i n : Nat) : State :=
  s.modCoh fun c =>
    if c.traffic.any (fun t => t.1 == die && t.2.1 == i) then
      { c with traffic := updIf (fun t => t.1 == die && t.2.1 == i) (fun t => (t.1, t.2.1, (t.2.2 + n) % 2 ^ 64)) c.traffic }
    else { c with traffic := c.traffic ++ [(die, i, n)] }

/-- The class of a transfer between a die L2 and the other end: a die L2, or the slices and stacks of a line's home
(R297). -/
def trafficClass (die line : Nat) (other : Option Nat) : Nat :=
  match lineSpace line with
  | 1 => 3
  | 2 => 4
  | _ =>
    match other with
    | some x => if x / 2 == die / 2 then 1 else 2
    | none => if homeBase line == die / 2 then 0 else 2

/-- Bytes that enter the die L2 from elsewhere (R297). -/
def State.countIn (s : State) (die line : Nat) (other : Option Nat) (n : Nat) : State :=
  if other == some die then s else s.countAt die (2 * trafficClass die line other) n
/-- Bytes that leave the die L2 for elsewhere (R297). -/
def State.countOut (s : State) (die line : Nat) (other : Option Nat) (n : Nat) : State :=
  if other == some die then s else s.countAt die (2 * trafficClass die line other + 1) n

/-- The 64-bit counter at an offset of the register window; offsets not listed read as zero (R297, R298). -/
def State.counter (s : State) (off : Nat) : Nat :=
  if off == 0x8000 then s.coh.pridisc
  else if off == 0x8008 then s.coh.atsreq
  else if off == 0x8010 then s.coh.prireq
  else if off < 0x8000 && off % 0x1000 < 0x60 then
    match s.coh.traffic.find? (fun t => t.1 == off / 0x1000 && t.2.1 == off % 0x1000 / 8) with
    | some t => t.2.2
    | none => 0
  else 0

/-- Bytes of the register window (R296). -/
def State.regWindow (s : State) (off n : Nat) : List Byte :=
  (List.range n).map fun i => BitVec.ofNat 8 (s.counter ((off + i) / 8 * 8) / 2 ^ (8 * ((off + i) % 8)))

end Sys2Proof.Machine
end

