-- ==== Sys2Proof/Machine/Packets.lean ====
section
/-! DEFINITION. Sending on the Falby fabric (R376–R380): packets, flits, delivery contexts, the requests for peer and pool lines
(R381, R383), and local lines that another package holds (R382) (log 14). -/

namespace Sys2Proof.Machine

/-! ## The choice of port (R376) -/

/-- A packet concerns a line (R378). -/
def opHasLine (op : BitVec 8) : Bool := op.toNat ≤ 0x0A

/-- Bytes a port has queued for transmission: it sends 224 bytes each nanosecond (R376, R377). -/
def State.queuedBytes (s : State) (i : Nat) : Nat :=
  match s.fab.ports[i]? with | some p => p.txBytes - 224 * (s.time - p.txSince) | none => 0

/-- The port a packet takes among some ports: by its line, or the one with the fewest bytes queued, the lowest of equals
(R376). -/
def State.pickPort (s : State) (op : BitVec 8) (addr : BitVec 40) (ports : List Nat) : Option Nat :=
  if opHasLine op then linePort addr.toNat ports else minBy? s.queuedBytes ports

/-- The ports on which a packet goes: one of each plane for the critical class; else, where it concerns a line, one of the first
plane that reaches its destination, and where it does not, any port of the mask (R376, R379; log 14). -/
def State.packetPorts (s : State) (dst : Nat) (cls : BitVec 2) (op : BitVec 8) (addr : BitVec 40) : List Nat :=
  let ps := s.routePorts dst
  let both := [s.pickPort op addr (planePorts 0 ps), s.pickPort op addr (planePorts 1 ps)].filterMap id
  if cls == 0 then both else if opHasLine op then both.take 1 else (s.pickPort op addr ps).toList

/-! ## Packets and flits (R377, R378) -/

/-- A packet's bytes: its header, then its payload. -/
def Packet.bytes (p : Packet) : List Byte :=
  let h : BitVec 128 := packBits 128 [(p.addr.toNat, 88), (p.op.toNat, 80), (p.dseq.toNat, 64), (p.dctx.toNat, 52), (p.cls.toNat, 50),
    (p.src.toNat, 36), (p.dst.toNat, 24), (p.payload.length / 16, 16), (p.mtag.toNat, 0)]
  leBytes 16 h.toNat ++ p.payload

/-- How many low bits of ADDR an operation uses: a line of this package, a line of any home, an endpoint, an endpoint and a status, none
(R378); the manual gives a notice no use for them and no bound. -/
def addrBits (op : Nat) : Nat :=
  if op ≤ 0x04 || op == 0x09 then 35 else if op ≤ 0x0A then 38 else if op ≤ 0x0C then 24 else if op == 0x0D then 0 else 40

/-- A packet from its header and the bytes that follow it; none where a field is reserved or an unused bit of ADDR is set (R378). -/
def Packet.ofHeader (h : Nat) (rest : List Byte) : Option Packet :=
  let f (lo n : Nat) : Nat := h / 2 ^ lo % 2 ^ n
  let op := f 80 8
  let units := f 16 8
  if op == 0 || 0x0F < op || f 50 2 == 3 || f 48 2 != 0 || 8 < units || 2 ^ addrBits op ≤ f 88 40 then none
  else some { addr := BitVec.ofNat 40 (f 88 40), op := BitVec.ofNat 8 op, dseq := BitVec.ofNat 16 (f 64 16),
              dctx := BitVec.ofNat 12 (f 52 12), cls := BitVec.ofNat 2 (f 50 2), src := BitVec.ofNat 12 (f 36 12),
              dst := BitVec.ofNat 12 (f 24 12), mtag := BitVec.ofNat 16 (f 0 16), payload := rest.take (16 * units) }

/-- The symbols of one of a flit's two interleaved codewords: those at even or at odd places (R377). -/
def codeword (flit : List Byte) (odd : Nat) : List Byte := (List.range 128).map fun i => flit.getD (2 * i + odd) 0

/-- A codeword's parity symbols are those of its data (R377). -/
def rsValid (w : List Byte) : Bool := leNat (w.drop 124) == (Config.rsParity (w.take 124)).toNat

/-- A valid codeword that differs from a received one in at most so many symbols (R377). -/
def rsNear : Nat → List Byte → Option (List Byte)
  | 0, w => if rsValid w then some w else none
  | n + 1, w => (rsNear n w).or ((List.range (128 * 256)).findSome? fun i => rsNear n (w.set (i / 256) (BitVec.ofNat 8 i)))

/-- The forward error correction of a received flit: up to 2 symbols of each codeword (R377). -/
def fecCorrect (flit : List Byte) : Option (List Byte) :=
  match rsNear 2 (codeword flit 0), rsNear 2 (codeword flit 1) with
  | some a, some b => some ((List.range 256).map fun i => (if i % 2 == 0 then a else b).getD (i / 2) 0)
  | _, _ => none

/-- The forward error correction's parity bytes of a flit's first 248 bytes (R377). -/
def fecParity (bytes : List Byte) : List Byte :=
  let a := leBytes 4 (Config.rsParity ((codeword bytes 0).take 124)).toNat
  let b := leBytes 4 (Config.rsParity ((codeword bytes 1).take 124)).toNat
  (List.range 8).map fun i => (if i % 2 == 0 then a else b).getD (i / 2) 0

/-- A flit of a type with a payload of at most 236 bytes, the rest zero (R377). -/
def flitBytes (ftype : Nat) (fseq fack : BitVec 12) (payload : List Byte) : List Byte :=
  let body := leBytes 4 (ftype * 2 ^ 28 + fseq.toNat * 2 ^ 16 + fack.toNat * 2 ^ 4) ++ payload
    ++ List.replicate (236 - payload.length) 0
  let crc := body ++ leBytes 8 (Config.crc64 body).toNat
  crc ++ fecParity crc

/-- Update one port. -/
def State.modPort (s : State) (i : Nat) (g : Port → Port) : State :=
  { s with fab := { s.fab with ports := s.fab.ports.mapIdx fun j p => if i == j then g p else p } }

/-- Bytes join a port's transmission queue (R376). -/
def Port.queue (p : Port) (time n : Nat) : Port := { p with txBytes := p.txBytes - 224 * (time - p.txSince) + n, txSince := time }

/-- A port sends a flit and keeps it for replay; only payload flits take a sequence number (R377; log 14). -/
def Port.send (p : Port) (time ftype : Nat) (payload : List Byte) : Port :=
  let seq := if ftype == 1 then p.txSeq else p.rxNext
  { p.queue time 256 with
    txSeq := if ftype == 1 then p.txSeq + 1 else p.txSeq
    replay := ((p.replay ++ [(seq, flitBytes ftype seq (p.rxNext - 1) payload)]).drop (p.replay.length - 255)) }

/-- A packet leaves by some ports. -/
def State.transmit (s : State) (p : Packet) (ports : List Nat) : State :=
  ports.foldl (fun s i => s.modPort i fun q => q.send s.time 1 p.bytes) s

/-! ## Delivery contexts (R380) -/

/-- Update the fabric. -/
def State.modFab (s : State) (g : Fab → Fab) : State := { s with fab := g s.fab }

/-- The sending side of a pair and class. -/
def State.txCtx (s : State) (fn cls : Nat) : Option DCtx := s.fab.dctxs.find? fun d => d.tx && d.fn == fn && d.cls == cls

/-- A delivery context number not in use. -/
def State.freeDctx (s : State) : BitVec 12 :=
  BitVec.ofNat 12 (((List.range 4096).find? fun n => !(s.fab.dctxs.any fun d => d.tx && d.num.toNat == n)).getD 0)

/-- The sending contexts that a port holds: those whose latest packet left by it (R380). -/
def State.portCtxs (s : State) (port : Nat) : Nat := (s.fab.dctxs.filter fun d => d.tx && d.ports.contains port).length

/-- A packet takes the next sequence number of its context and leaves; it waits where no context is free, and is dropped
where its destination cannot be reached. -/
def State.sendPacket (s : State) (p : Packet) : State :=
  let fn := p.dst.toNat
  let ports := s.packetPorts fn p.cls p.op p.addr
  let put (d : DCtx) (s : State) : State :=
    let q := { p with dctx := d.num, dseq := d.txNext, src := s.fab.self }
    let d' := { d with txNext := d.txNext + 1, unacked := d.unacked ++ [(q, s.time, 0, ports)], lastSent := s.time, ports }
    (s.modFab fun f => { f with dctxs := putIf (fun x => x.tx && x.num == d.num) d' f.dctxs }).transmit q ports
  if ports == [] then s
  else
    match s.txCtx fn p.cls.toNat with
    | some d => put d s
    | none =>
      if s.fab.waitq.any (fun w => w.dst == p.dst && w.cls == p.cls) || ports.any (1024 ≤ s.portCtxs ·) then
        s.modFab fun f => { f with waitq := f.waitq ++ [p] }
      else put { fn, cls := p.cls.toNat, num := s.freeDctx, tx := true, txNext := 0, unacked := [], lastSent := s.time,
                 rxNext := 0, early := [] } s

/-- A packet to a fabric number. -/
def mkPacket (dst : Nat) (op : Nat) (cls : Nat) (addr : Nat) (mtag : BitVec 16) (payload : List Byte) : Packet :=
  { addr := BitVec.ofNat 40 addr, op := BitVec.ofNat 8 op, dseq := 0, dctx := 0, cls := BitVec.ofNat 2 cls, src := 0,
    dst := BitVec.ofNat 12 dst, mtag, payload := payload ++ List.replicate ((16 - payload.length % 16) % 16) 0 }

/-! ## Requests for peer and pool lines (R381, R383) -/

/-- A line of a peer package that is held here. -/
def State.peerLine? (s : State) (line : Nat) : Option PeerLine := s.coh.peers.find? (·.line == line)

/-- The package may write its copy of a line: it holds the peer line alone; pool and device lines are its own to grant. -/
def State.mayOwn (s : State) (line : Nat) : Bool :=
  lineSpace line != 1 || (match s.peerLine? line with | some p => p.excl | none => false)

/-- A request tag that no request uses. -/
def State.freeTag (s : State) : Option (BitVec 16) :=
  ((List.range (s.coh.fetches.length + 1)).find? fun n => !(s.coh.fetches.any fun f => f.mtag.toNat == n + 1)).map fun n =>
    BitVec.ofNat 16 (n + 1)

/-- Send a request to the home of a line, in the class of its OP (R378). -/
def State.askHome (s : State) (line op : Nat) (memOp : Option Nat) (used : Option (BitVec 32 × Dword)) (payload : List Byte) :
    State :=
  match s.freeTag with
  | none => s
  | some tag =>
    let cls := if op == 3 then 0 else if op == 4 then 2 else 1
    let f : Fetch := { line, op := BitVec.ofNat 8 op, mtag := tag, memOp, answer := none, fill := none, used }
    { s with coh := { s.coh with fetches := s.coh.fetches ++ [f] } }.sendPacket
      (mkPacket (lineFn line) op cls (lineAddr line) tag payload)

/-- A request of some kind for a line is outstanding. -/
def State.asked (s : State) (line : Nat) (p : BitVec 8 → Bool) : Bool := s.coh.fetches.any fun f => f.line == line && p f.op

/-- A request for a line, other than a write-back, has not been answered yet. -/
def State.unanswered (s : State) (line : Nat) : Bool := s.coh.fetches.any fun f => f.line == line && f.op != 4 && f.answer.isNone && f.used.isNone

/-- Ask the home of a peer or pool line for its data or for leave to write it, once, and not before a write-back of it has been
acknowledged (R381, R383). -/
def State.fetchLine (s : State) (line : Nat) (write : Bool) : State :=
  if lineSpace line == 0 || s.asked line (fun _ => true) then s
  else
    let held := (s.peerLine? line).isSome && ((s.llc? line).isSome || s.coh.l2.any (·.line == line))
    let op := if lineSpace line == 2 || !write then 1 else if held then 3 else 2
    s.askHome line op none none []

/-- The 32 bytes of an interval record (R306). -/
def IRec.bytes (r : IRec) : List Byte :=
  let k := match r.kind with
    | .open => 0 | .close => 1 | .supply => 2 | .atomic => 3 | .overwrite => 4 | .memfill => 5 | .memwrite => 6
  let b : BitVec 256 := packBits 256 [(r.hash.toNat, 192), (r.interval.toNat, 160), (r.line % 2 ^ 52, 108), (k, 104),
    (r.writer.toNat, 103), (r.holder.toNat, 80), (r.hashb.toNat, 0)]
  leBytes 32 b.toNat

/-- An interval record from its bytes; none where its kind does not occur (R306). -/
def IRec.ofBytes (bs : List Byte) : Option IRec :=
  let v := leNat (bs.take 32)
  let f (lo n : Nat) : Nat := v / 2 ^ lo % 2 ^ n
  ([RecKind.open, .close, .supply, .atomic, .overwrite, .memfill, .memwrite][f 104 4]?).map fun kind =>
    { hash := BitVec.ofNat 64 (f 192 64), interval := BitVec.ofNat 32 (f 160 32), line := f 108 52, kind, writer := f 103 1 == 1,
      holder := BitVec.ofNat 16 (f 80 16), hashb := BitVec.ofNat 64 (f 0 64) }

/-- An interval record to the home of a peer or pool line (R306, R381). -/
def State.sendHomeRec (s : State) (kind : RecKind) (line : Nat) (n : BitVec 32) (writer : Bool) (h : Dword) : State :=
  let r : IRec := { hash := h, interval := n, line, kind, writer, holder := hFabric (s.carryPort line), hashb := 0 }
  s.sendPacket (mkPacket (lineFn line) 0x0A 0 (lineAddr line) 0 r.bytes)

/-! ## Local lines held by another package (R382) -/

/-- The newest data of a line are held by another package. -/
def State.remoteHeld (s : State) (line : Nat) : Bool := s.coh.remote.any (·.2.1 == line)

/-- The package that holds them is asked to return the line, once (R381). -/
def State.askRemote (s : State) (line : Nat) : State :=
  match s.coh.remote.find? fun r => r.2.1 == line && !r.2.2 with
  | none => s
  | some (fn, _, _) =>
    (s.modCoh fun c => { c with remote := updIf (·.2.1 == line) (fun r => (r.1, r.2.1, true)) c.remote }).sendPacket
      (mkPacket fn 0x06 0 (line % 2 ^ 35) 0 [])

/-- Packages, of some, that hold a line to read are told to invalidate it (R381, R382) (DESIGN CHOICE; log 67). -/
def State.invalSome (s : State) (line : Nat) (p : Nat → Bool) : State :=
  let hit (r : Nat × Nat × Bool) : Bool := r.2.1 == line && !r.2.2 && p r.1
  (s.coh.remSh.filter hit).foldl (fun s r => s.sendPacket (mkPacket r.1 0x05 0 (line % 2 ^ 35) 0 []))
    (s.modCoh fun c => { c with remSh := updIf hit (fun r => (r.1, r.2.1, true)) c.remSh })

/-- Every package that holds a line to read is told to invalidate it (R381, R382). -/
def State.invalRemote (s : State) (line : Nat) : State := s.invalSome line fun _ => true

/-- No other package's acknowledgement of an invalidation of a line is outstanding. -/
def State.remoteAcked (s : State) (line : Nat) : Bool := !s.coh.remSh.any fun r => r.2.1 == line && r.2.2

end Sys2Proof.Machine
end

