-- ==== Sys2Proof/Machine/Coherence.lean ====
section
/-! DEFINITION. The die L2s, the directory and the LLC (R276–R283): replacement, the requests a home slice serves, the
messages they cause, and accesses performed at the home. Each event is one act; a request or message that cannot be served
yet leaves the state unchanged (log 1). -/

namespace Sys2Proof.Machine

/-! ## Replacement (R282, R283) -/

/-- A replacement class. -/
def State.classOf (s : State) (c : Nat) : ClassEntry :=
  s.coh.classes.getD c { waymask := 0xFFFF#16, wpol := 0, prot := 0, ins := 2 }

/-- The age of a line after a hit (R283). -/
def hitAge (e : ClassEntry) (hint : Hint) (age : Nat) : Nat :=
  match hint with
  | .last => min age e.prot.toNat
  | .none => min age e.ins.toNat
  | .first => age

/-- The age of a line inserted (R283). -/
def insAge (e : ClassEntry) (hint : Hint) : Nat :=
  match hint with
  | .last => e.prot.toNat
  | .first => 3
  | .none => e.ins.toNat

/-- The victim among the ways of a mask, and by how much every valid way in the mask ages first: an invalid way, lowest
first; else the lowest way of age 3; else all age by one and again (R283). -/
def victim (mask : BitVec 16) (ways : List (Nat × Nat)) : Nat → Nat × Nat
  | 0 => (0, 0)
  | fuel + 1 =>
    let ws := (List.range 16).filter fun w => mask.getLsbD w
    match ws.find? fun w => !ways.any (·.1 == w) with
    | some w => (w, 0)
    | none =>
      match ws.find? fun w => ways.any fun x => x.1 == w && x.2 == 3 with
      | some w => (w, 0)
      | none =>
        let (w, n) := victim mask (ways.map fun x => if ws.contains x.1 then (x.1, x.2 + 1) else x) fuel
        (w, n + 1)

/-- The lines of a die L2 in a line's set. -/
def State.l2SetOf (s : State) (die line : Nat) : List L2Line :=
  s.coh.l2.filter fun l => l.die == die && Config.l2Set l.line == Config.l2Set line

/-- The lines of the LLC in a line's set of its home slice. -/
def State.llcSetOf (s : State) (line : Nat) : List LlcLine :=
  s.coh.llc.filter fun l => homeSlice l.line == homeSlice line && Config.llcSet l.line == Config.llcSet line

/-- A hit in a die L2 (R283). -/
def State.touchL2 (s : State) (die line cls : Nat) (hint : Hint) : State :=
  let e := s.classOf cls
  s.modCoh fun c => { c with
    l2 := updIf (fun l => l.die == die && l.line == line) (fun l => { l with age := hitAge e hint l.age }) c.l2 }

/-- A hit in the LLC (R283). -/
def State.touchLlc (s : State) (line cls : Nat) (hint : Hint) : State :=
  let e := s.classOf cls
  s.modCoh fun c => { c with llc := updIf (·.line == line) (fun l => { l with age := hitAge e hint l.age }) c.llc }

/-! ## Leaving a die L2 -/

/-- Wake the fibres of a die armed on a line (R214). -/
def State.wakeLineDie (s : State) (die line : Nat) : State :=
  { s with fibres := updIf (fun f => coreDie f.core == die && f.armedLine line) Fibre.wake s.fibres }

/-- A translation line stops being marked once no die holds it, in its L2 or as a cached entry (R289). -/
def State.unmarkXlat (s : State) (line : Nat) : State :=
  if s.coh.l2.any (·.line == line) || s.xc.any (·.lines.contains line) then s
  else s.modCoh fun c => { c with dir := updIf (fun d => d.line == line && d.xlat) (fun d => { d with xlat := false }) c.dir }

/-- Cached extents and handle entries go; a line that no die holds any more stops being marked (R289). -/
def State.dropXc (s : State) (p : XEntry → Bool) : State :=
  ((s.xc.filter p).flatMap (·.lines)).foldl State.unmarkXlat { s with xc := s.xc.filter fun x => !p x }

/-- A die L2 no longer holds a line: its L1 copies go with it, and that wakes an `mwait` on the line (R214, R276). -/
def State.dropL2 (s : State) (die line : Nat) : State :=
  ((s.modCoh fun c => { c with l2 := c.l2.filter fun l => !(l.die == die && l.line == line) }).wakeLineDie die line).unmarkXlat line

/-- Other packages hold a line to read (R382). -/
def State.remoteShared (s : State) (line : Nat) : Bool := s.coh.remSh.any (·.2.1 == line)

/-- A tag without data goes once no die L2 holds its line or is about to (R283). -/
def State.dropTag (s : State) (line : Nat) : State :=
  if s.coh.l2.any (·.line == line) || s.coh.msgs.any (fun m => match m with | .data _ l _ _ _ _ _ _ _ => l == line | _ => false) then s
  else s.modCoh fun c => { c with llc := c.llc.filter fun l => l.full || l.line != line }

/-- A die is no longer a holder in the directory; where it was the writer or owner and sharers are left, its interval is closed
and the next grant opens another (R304). -/
def State.dirLeave (s : State) (die line : Nat) (closes : Bool) : State :=
  match s.dir? line with
  | none => s
  | some d =>
    let sh := d.sharers.filter (· != die)
    let idle := if sh == [] && !s.remoteShared line then DirSt.uncached else DirSt.shared
    let owned := d.st != .uncached && d.st != .shared && d.owner == die
    let d1 := if owned then { d with st := idle, sharers := sh, shut := d.shut || closes }
      else { d with st := if d.st == .shared then idle else d.st, sharers := sh }
    (s.setDir d1).dropTag line

/-! ## The home's data (R280, R283) -/

/-- Write policies of R282. -/
def wpBack : BitVec 2 := 0
def wpThrough : BitVec 2 := 1
def wpNone : BitVec 2 := 2

/-- The write policy for a line of a class. A write-back to its home gives a peer line up, so that the slice keeps it until
eviction whatever the class says; under no-allocate, which speaks of HBM, it keeps a clean copy of a pool line (DEDUCED; log 83). -/
def State.polOf (s : State) (line cls : Nat) : BitVec 2 :=
  let pol := (s.classOf cls).wpol
  if lineSpace line == 1 then wpBack else if lineSpace line == 2 && pol == wpNone then wpThrough else pol

/-- Data go to the memory behind a line. Its HBM controller makes a record of them; a peer home or memory node sends its own
(R308, item 6; R381, R383). -/
def State.memWrite (s : State) (line : Nat) (data : List Byte) : State :=
  let n := (s.dirOf line).interval
  if lineSpace line == 0 then (s.rawWrite (lineLoc line) data).rec1 .memwrite line n false (s.hMem line) (lineHash data)
  else s.askHome line 4 none (some (n, lineHash data)) data

/-- The package no longer holds a peer line: its home is told the closing hash where the package could write it (R304, R381). -/
def State.leavePeer (s : State) (line : Nat) (data : List Byte) : State :=
  match s.peerLine? line with
  | none => s
  | some p =>
    let s1 := match p.iv with
      | some n => if p.excl then s.sendHomeRec .close line n true (lineHash data) else s
      | none => s
    s1.modCoh fun c => { c with peers := c.peers.filter (·.line != line) }

/-- Remove a way of the LLC, its dirty data written to memory. -/
def State.llcEvict (s : State) (l : LlcLine) : State :=
  let s1 := s.leavePeer l.line l.data
  (if l.full && l.dirty then s1.memWrite l.line l.data else s1).modCoh fun c => { c with llc := c.llc.filter (·.line != l.line) }

/-- The slice takes dirty data from a die L2 under the write policy of the line's class (R277, R283); the line has a way, since
the directory includes every die L2. -/
def State.sliceTake (s : State) (line cls : Nat) (data : List Byte) : State :=
  let put (full dirty : Bool) (s : State) : State :=
    s.modCoh fun c => { c with llc := updIf (·.line == line) (fun l => { l with data := if full then data else [], full, dirty }) c.llc }
  let pol := s.polOf line cls
  if (s.llcTag? line).isNone then s.memWrite line data
  else if pol == wpThrough then (put true false s).memWrite line data
  else if pol == wpNone then (put false false s).memWrite line data
  else put true true s

/-! ## Recalls (R277, R279) -/

/-- A holder returns its copy to the home, dirty data with it, and takes I; a writer or owner sends CLOSE (R304, R308). An O
copy whose line another die has upgraded is a sharer's copy, its invalidation on the way (R278). -/
def State.returnCopy (s : State) (l : L2Line) : State :=
  let d := s.dirOf l.line
  let dirty := l.st == .m || (l.st == .o && d.owner == l.die)
  let closes := dirty || d.writer == some l.die
  let s1 := if closes then s.rec1 .close l.line d.interval (d.writer == some l.die) (hL2 l.die) (lineHash l.data) else s
  let s2 := if dirty then (s1.sliceTake l.line l.cls l.data).countOut l.die l.line none 128 else s1
  (s2.dropL2 l.die l.line).dirLeave l.die l.line closes

/-- An acknowledgement from `src` reaches the writer `dst` (R278). -/
def State.takeAck (s : State) (src dst line : Nat) : State :=
  s.modCoh fun c =>
    let msgs := c.msgs.map fun m => match m with
      | .data d l st b iv acks cl h sp => if d == dst && l == line then .data d l st b iv (acks.erase src) cl h sp else m
      | _ => m
    { c with msgs, l2 := updIf (fun l => l.die == dst && l.line == line) (fun l => { l with acks := l.acks.erase src }) c.l2 }

/-- A holder takes an invalidation: its S or O copy goes (R276–R278); an M or E copy is a later grant. -/
def State.takeInval (s : State) (die line : Nat) : State :=
  match s.l2? die line with
  | some l => if l.st == .s || l.st == .o then s.dropL2 die line else s
  | none => s

/-- Whether a requester's data are in flight for a line, or a recall: the directory serves no other request for it, nor
while an atomic waits for its copies to be recalled (R279). -/
def State.lineBusy (s : State) (line : Nat) : Bool :=
  (s.ops.any fun o => o.recalling && o.loc.line? == some line) || s.coh.msgs.any fun m => match m with
    | .data _ l _ _ _ _ _ _ _ => l == line
    | .recall _ l => l == line
    | .inval _ l none => l == line
    | _ => false

/-- Bytes a host access touches. -/
def HostAcc.size (a : HostAcc) : Nat :=
  match a.kind with
  | .write d => d.length
  | .read n => n
  | .atomic _ n _ _ => n
  | .mail _ _ _ | .mop _ => 0

/-- A host access writes memory. -/
def HostAcc.writes (a : HostAcc) : Bool := match a.kind with | .write _ | .atomic _ _ _ _ => true | _ => false

/-- The lines a host access touches. -/
def HostAcc.lines (a : HostAcc) : List Nat := nub ((List.range a.size).filterMap fun i => (devLoc (a.dpa + i)).line?)

/-- A host access waits at a line's home slice. -/
def State.hostQueued (s : State) (line : Nat) : Bool := s.coh.pend.any (·.lines.contains line)

/-- Earlier requests to a line wait at its slice, or something of the line is in flight: a request that arrives now goes behind them
(R279, R280). -/
def State.lineTaken (s : State) (line : Nat) : Bool :=
  s.lineBusy line || s.coh.reqs.any (·.line == line) || s.coh.mshr.any (·.1 == line)

/-- No die holds a copy of a line that a write performed elsewhere has superseded: every invalidation has been acknowledged. -/
def State.lineSpread (s : State) (line : Nat) : Bool :=
  s.coh.l2.all (fun l => l.line != line || l.acks == [])
    && s.coh.msgs.all fun m => match m with
      | .data _ l _ _ _ acks _ _ _ => l != line || acks == []
      | .inval _ l _ => l != line
      | _ => true

/-- Once the acknowledgements for a line are all in, the writes of it that have been performed at a die are performed at the
package, and at system where no other package's is outstanding; the same of the writes that reads of it returned. A write to pool
memory is performed at system once its memory node has acknowledged it (R252, R278, R301). -/
def State.ackLog (s : State) (line : Nat) : State :=
  if s.lineSpread line then
    let sys := if s.remoteAcked line && lineSpace line != 2 then some s.evno else none
    let due (e : Access) : Bool := e.line == line && (e.atDie.isSome || e.returned.isSome) && e.atPkg.isNone
    { s with log := updIf due (fun e => { e with atPkg := some s.evno, atSys := sys }) s.log }
  else s

/-- The victim a new line needs in a die L2: its way, how much the ways age, and the line that stands there. -/
def State.l2Victim (s : State) (die line cls : Nat) : Nat × Nat × Option L2Line :=
  let set := s.l2SetOf die line
  let (way, aged) := victim (s.classOf cls).waymask (set.map fun l => (l.way, l.age)) 5
  (way, aged, set.find? (·.way == way))

/-- A requester takes line data (R276, R277): a victim leaves, the line is held in the state granted, and OPEN is sent with
the hash of the data as received (R308, item 2). -/
def State.installL2 (s : State) (die line : Nat) (st : LineSt) (bytes : List Byte) (iv : BitVec 32) (cls : Nat)
    (hint : Hint) (src : Option Nat) : State :=
  let old := s.l2? die line
  let s0 := s.modCoh fun c => { c with l2 := c.l2.filter fun l => !(l.die == die && l.line == line) }
  let (way, aged, vic) := s0.l2Victim die line cls
  let mask := (s.classOf cls).waymask
  let s1 := s0.modCoh fun c => { c with
    l2 := updIf (fun l => l.die == die && Config.l2Set l.line == Config.l2Set line && mask.getLsbD l.way)
      (fun l => { l with age := l.age + aged }) c.l2 }
  let s2 := match vic with
    | some v => s1.returnCopy v
    | none => s1
  let x : L2Line := { die, line, st, data := bytes, acks := match old with | some o => o.acks | none => [], way,
                      age := insAge (s.classOf cls) hint, cls, l1 := [], iv }
  ((s2.modCoh fun c => { c with l2 := c.l2 ++ [x] }).rec1 .open line iv ((s2.dirOf line).writer == some die) (hL2 die)
    (lineHash bytes)).countIn die line src 128

/-- Every message of a line is delivered, in the order invalidations, acknowledgements, data (R279). -/
def State.quiesce (s : State) (line : Nat) : State :=
  let mine (m : CohMsg) : Bool := match m with
    | .data _ l _ _ _ _ _ _ _ => l == line
    | .inval _ l _ => l == line
    | .recall _ l => l == line
    | .ack _ _ l => l == line
  let ms := s.coh.msgs.filter mine
  let s0 := s.modCoh fun c => { c with msgs := c.msgs.filter fun m => !mine m }
  let s1 := ms.foldl (fun s m => match m with | .inval d _ _ => s.takeInval d line | _ => s) s0
  let s2 := s1.modCoh fun c => { c with l2 := updIf (·.line == line) (fun l => { l with acks := [] }) c.l2 }
  (ms.foldl (fun s m => match m with
    | .data d _ st b iv _ cl h sp => s.installL2 d line st b iv cl h sp
    | _ => s) s2).ackLog line

/-- The slice recalls every copy of a line, as one act (R277, R279). -/
def State.recallAll (s : State) (line : Nat) : State :=
  let s1 := s.quiesce line
  let s2 := (s1.coh.l2.filter (·.line == line)).foldl State.returnCopy s1
  match s2.dir? line with
  | some d => s2.setDir { d with st := if s2.remoteShared line then .shared else .uncached, sharers := [] }
  | none => s2

/-! ## Ways of the LLC (R277, R280, R283) -/

/-- A line takes a way of the LLC, with its data or as a tag alone. The victim's copies are all recalled before its way is used
anew (R277, R283). -/
def State.llcInsert (s : State) (line cls : Nat) (hint : Hint) (data : List Byte) (full dirty : Bool) : State :=
  if (s.llcTag? line).isSome then
    s.modCoh fun c => { c with llc := updIf (·.line == line) (fun l => if full then { l with data, full, dirty } else l) c.llc }
  else
    let e := s.classOf cls
    let set := s.llcSetOf line
    let (way, aged) := victim e.waymask (set.map fun l => (l.way, l.age)) 5
    let s1 := s.modCoh fun c => { c with
      llc := updIf (fun l => set.any (·.line == l.line) && e.waymask.getLsbD l.way) (fun l => { l with age := l.age + aged }) c.llc }
    let s2 := match (s1.llcSetOf line).find? (·.way == way) with
      | some v =>
        let s2 := s1.recallAll v.line
        match s2.llcTag? v.line with | some v => s2.llcEvict v | none => s2
      | none => s1
    s2.modCoh fun c => { c with llc := c.llc ++ [{ line, full, data, dirty, way, age := insAge e hint, cls }] }

/-- Data of a line that come from the memory behind it enter the slice; what it holds already is newer. -/
def State.llcFill (s : State) (line cls : Nat) (hint : Hint) (data : List Byte) : State :=
  if (s.llc? line).isSome then s else s.llcInsert line cls hint data true false

/-- Under no-allocate the slice keeps a line's tag alone, once the data from HBM have been handed on (R283). -/
def State.keepTag (s : State) (line cls : Nat) : State :=
  if s.polOf line cls == wpNone then
    (s.modCoh fun c => { c with
      llc := updIf (fun l => l.line == line && !l.dirty) (fun l => { l with data := [], full := false }) c.llc }).dropTag line
  else s

/-- HBM gives the data of a line: its MEMFILL record fixes what a fresh memory interval hands on (R308, item 6). -/
def State.hbmSupply (s : State) (line : Nat) : State :=
  let fresh := s.dirFresh line
  let s0 := s.ensureDir line
  let s1 := if fresh then s0.modIval line 0 fun v => { v with closed := none } else s0
  s1.rec1 .memfill line (s1.dirOf line).interval true (s1.hMem line) (lineHash (s.rawRead (lineLoc line) 128))

/-- A line of device memory is read from HBM into its slice. -/
def State.hbmRead (s : State) (line cls : Nat) (hint : Hint) : State :=
  (s.hbmSupply line).llcFill line cls hint (s.rawRead (lineLoc line) 128)

/-- An access of a class at the home slice: a hit, or a device line read from HBM, inserted unless the class is no-allocate (R283). -/
def State.homeTouch (s : State) (line cls : Nat) : State :=
  if (s.llc? line).isSome then s.touchLlc line cls .none
  else if lineSpace line == 0 && (s.owner? line).isNone then
    if s.polOf line cls == wpNone then s.hbmSupply line else s.hbmRead line cls .none
  else s

/-- Store a line's bytes at its home under the write policy of a class (R283). -/
def State.homeStore (s : State) (line cls : Nat) (data : List Byte) : State :=
  let pol := s.polOf line cls
  if pol == wpNone then
    (s.modCoh fun c => { c with llc := updIf (·.line == line) (fun l => { l with data := [], full := false, dirty := false }) c.llc }).memWrite
      line data |>.dropTag line
  else
    let s1 := s.llcInsert line cls .none data true (pol == wpBack)
    if pol == wpThrough then s1.memWrite line data else s1

/-! ## Accesses performed at the home (R279, R304, R308 item 7) -/

/-- Replace bytes within a list. -/
def overlay (old : List Byte) (off : Nat) (new : List Byte) : List Byte :=
  (List.range old.length).map fun i =>
    if off ≤ i && i < off + new.length then new.getD (i - off) 0 else old.getD i 0

/-- The snoop that goes with a write to a translation line: every cached entry tagged with it goes, and the watch of each
extent entry that the write has answered ends (R289, R291). -/
def State.snoopXlat (s : State) (line : Nat) : State :=
  let data := s.newestLine line
  let answered (w : Watch) : Bool := w.entry / 128 == line && (leNat ((data.drop (w.entry % 128)).take 8)) / 2 ^ 62 != 0
  let s1 := { s with xc := s.xc.filter fun x => !x.lines.contains line }
  s1.modCoh fun c => { c with
    dir := updIf (·.line == line) (fun d => { d with xlat := false }) c.dir
    watched := c.watched.filter fun w => !answered w }

/-- A line that a translation has read or that is watched (R288, R291). -/
def State.xlatLine (s : State) (line : Nat) : Bool :=
  (match s.dir? line with | some d => d.xlat | none => false) || s.coh.watched.any fun w => w.entry / 128 == line

/-- A write to part or all of one line at its home: every die loses its copy, interval n + 1 has the writing unit as its
writer, which sends OPEN or OVERWRITE and then CLOSE, and armed fibres wake (R214, R279, R304, R308). A line written whole
is no longer poisoned where the writer is an engine (R314). -/
def State.homeWriteLine (s : State) (holder : BitVec 16) (engine : Bool) (cls line off : Nat) (bs : List Byte) : State :=
  let s0 := (s.invalRemote line).recallAll line
  let s1 := if off == 0 && 128 ≤ bs.length && (s0.llc? line).isNone then s0 else s0.homeTouch line cls
  let old := s1.homeLine line
  let new := overlay old off bs
  let whole := off == 0 && 128 ≤ bs.length
  let s2 := s1.openIval line (some holder) []
  let n := (s2.dirOf line).interval
  let s3 := s2.rec1 (if whole then .overwrite else .open) line n true holder (lineHash old)
  let s4 := (s3.homeStore line cls new).rec1 .close line n true holder (lineHash new)
  let s5 := if whole && engine then s4.modCoh fun c => { c with poison := c.poison.filter (· != line) } else s4
  (if s5.xlatLine line then s5.snoopXlat line else s5).wakeLine line

/-- The lines a run of bytes touches: line, offset in it, and the bytes there. -/
def splitLines (l : Loc) : List Byte → List (Loc × List Byte)
  | [] => []
  | b :: bs =>
    match splitLines (l.add 1) bs with
    | (l1, run) :: rest => if (l.add 1).inLine != 0 then (l, b :: run) :: rest else (l, [b]) :: (l1, run) :: rest
    | [] => [(l, [b])]

/-- Write bytes at a place at its home, or where it is held. Nothing is written where nothing backs it (R268, R296). -/
def State.homeWrite (s : State) (holder : BitVec 16) (engine : Bool) (cls : Nat) (l : Loc) (bs : List Byte) : State :=
  (splitLines l bs).foldl (fun s x =>
    match x.1.line? with
    | some line => s.homeWriteLine holder engine cls line x.1.inLine x.2
    | none => s.rawWrite x.1 x.2) s

/-- The lines and intervals that a home write of these bytes has just opened. -/
def State.writtenIvals (s : State) (l : Loc) (n : Nat) : List (Nat × BitVec 32) :=
  nub ((List.range n).filterMap fun i => (l.add i).line?) |>.map fun line => (line, (s.dirOf line).interval)

/-! ## Requests of a die L2 (R277) -/

/-- A request of a die for a line is under way. -/
def State.requested (s : State) (die line : Nat) : Bool :=
  s.coh.reqs.any (fun r => r.die == die && r.line == line)
    || s.coh.mshr.any (fun m => m.1 == line && m.2.any (·.die == die))
    || s.coh.msgs.any (fun m => match m with | .data d l _ _ _ _ _ _ _ => d == die && l == line | _ => false)

/-- Requests in the ingress queue of a line's slice (R280). -/
def State.ingress (s : State) (line : Nat) : Nat := (s.coh.reqs.filter fun r => homeSlice r.line == homeSlice line).length

/-- A host access to a line waits ahead of requests that arrive now; a write to a translation line lets those pass that it waits for
(R279, R280, R289). -/
def State.hostAhead (s : State) (line : Nat) : Bool :=
  s.coh.pend.any fun a => a.lines.contains line && !(a.writes && s.xlatLine line)

/-- A die L2 asks for a line, unless it already does; a full ingress queue holds it back, and so does a host access ahead of it
(R277, R279, R280). -/
def State.request (s : State) (die line : Nat) (write : Bool) (cls : Nat) (hint : Hint) : State :=
  if s.requested die line || 128 ≤ s.ingress line || s.hostAhead line then s
  else
    let kind : ReqKind :=
      if write then match s.l2? die line with | some _ => .upgrade | none => .rfo else .read
    s.modCoh fun c => { c with reqs := c.reqs ++ [{ die, line, kind, cls, hint }] }

/-- The request of a line that its slice may serve next: the oldest, once nothing of the line is in flight (R280); the links of the
requester and of the home's base die carry it (R407). -/
def State.nextReq (s : State) (line : Nat) : Option CohReq :=
  if s.lineBusy line || !s.dieUp (8 + homeBase line) then none
  else match s.coh.reqs.find? (·.line == line) with
    | some r => if s.dieUp r.die then some r else none
    | none => none

/-- Remove a request from the ingress queue. -/
def State.dropReq (s : State) (r : CohReq) : State := s.modCoh fun c => { c with reqs := c.reqs.erase r }

/-- Send a message. -/
def State.send (s : State) (m : CohMsg) : State := s.modCoh fun c => { c with msgs := c.msgs ++ [m] }

/-- Data for a requester are sent with the interval in which they are granted. -/
def State.sendData (s : State) (r : CohReq) (st : LineSt) (bytes : List Byte) (acks : List Nat) (src : Option Nat) : State :=
  s.send (.data r.die r.line st bytes (s.dirOf r.line).interval acks r.cls r.hint src)

/-- Invalidations to sharers, whose acknowledgements go to the writer (R277, R278). -/
def State.invalidate (s : State) (line : Nat) (dies : List Nat) (back : Nat) : State :=
  dies.foldl (fun s d => s.send (.inval d line (some back))) s

/-- The holders of a line beside one die. -/
def DirEntry.others (d : DirEntry) (die : Nat) : List Nat :=
  (d.sharers ++ (if d.st == .exclusive || d.st == .owned then [d.owner] else [])).filter (· != die)

/-- Whether a request needs the slice's data: no L2 supplies them. -/
def State.fromSlice (s : State) (r : CohReq) : Bool :=
  let d := s.dirOf r.line
  match r.kind with
  | .upgrade => (s.l2? r.die r.line).isNone && (d.st == .uncached || d.st == .shared)
  | .fill => true
  | .read | .rfo =>
    match d.st with
    | .uncached | .shared => true
    | .exclusive => match s.l2? d.owner r.line with | some x => x.st != .m | none => true
    | .owned => (s.l2? d.owner r.line).isNone

/-- The copy of a die that holds a line in M, E or O becomes a reader's: it hands its data on in the interval it had, and reports
them in the one that opens, with the readers named (R277, R304, R308). An exclusive holder that had written the line
gives its data to the slice too, since the line is then shared (log 24). -/
def State.shareOut (s : State) (line : Nat) (x : L2Line) (readers : List (BitVec 16)) : State :=
  let d := s.dirOf line
  let wrote := x.st == LineSt.m || x.st == LineSt.o
  let s1 := if d.writer.isSome || d.shut then
      let s2 := s.rec1 (if wrote then .supply else .close) line d.interval (d.writer == some x.die) (hL2 x.die) (lineHash x.data)
      let s3 := s2.openIval line none (hL2 x.die :: readers)
      s3.rec1 .open line (s3.dirOf line).interval false (hL2 x.die) (lineHash x.data)
    else readers.foldl (fun s r => s.joinIval line r) (s.rec1 .supply line d.interval false (hL2 x.die) (lineHash x.data))
  let n := (s1.dirOf line).interval
  let setSt (st : LineSt) (s : State) : State := s.modCoh fun c => { c with
    l2 := updIf (fun l => l.die == x.die && l.line == line) (fun l => { l with st, iv := n }) c.l2 }
  if d.st == .owned then setSt .o s1
  else
    let s4 := setSt .s (if x.st == .m then s1.sliceTake line x.cls x.data else s1)
    s4.setDir { s4.dirOf line with st := .shared, sharers := nub (x.die :: d.sharers) }

/-- A requester becomes one more sharer of the directory entry. -/
def State.addSharer (s : State) (line die : Nat) : State :=
  let d := s.dirOf line
  s.setDir { d with sharers := nub (d.sharers ++ [die]) }

/-- A reader is granted its copy in a reader interval: it joins the one that stands, or a new one is opened (R304). -/
def State.grantReader (s : State) (line : Nat) (r : BitVec 16) : State :=
  let d := s.dirOf line
  if d.writer.isSome || d.shut then s.openIval line none [r] else s.joinIval line r

/-- Serve a read (R277, R304). A peer line that the package may not write is granted to be read only. -/
def State.serveRead (s : State) (r : CohReq) : State :=
  let s0 := s.ensureDir r.line
  let d := s0.dirOf r.line
  let fromHome (s : State) : State :=
    if s.mayOwn r.line then
      let s1 := s.openIval r.line (some (hL2 r.die)) []
      (s1.setDir { s1.dirOf r.line with st := .exclusive, owner := r.die, sharers := [] }).sendData r .e (s.homeLine r.line) [] none
    else
      let s1 := s.grantReader r.line (hL2 r.die)
      (s1.setDir { s1.dirOf r.line with st := .shared, sharers := [r.die] }).sendData r .s (s.homeLine r.line) [] none
  match d.st with
  | .uncached => fromHome s0
  | .shared => ((s0.grantReader r.line (hL2 r.die)).addSharer r.line r.die).sendData r .s (s0.homeLine r.line) [] none
  | .exclusive | .owned =>
    match s0.l2? d.owner r.line with
    | none => fromHome s0
    | some x =>
      let wrote := x.st == LineSt.m || x.st == LineSt.o
      let s1 := (s0.shareOut r.line x [hL2 r.die]).addSharer r.line r.die
      (if wrote then s1.countOut d.owner r.line (some r.die) 128 else s1).sendData r .s x.data [] (if wrote then some d.owner else none)

/-- Serve a read for ownership, or an upgrade whose copy has gone: every other copy is invalidated, the owner supplies the
data or else the slice does, and the requester takes M once data and acknowledgements are in (R277, R304). -/
def State.serveRfo (s : State) (r : CohReq) : State :=
  let s0 := (s.invalRemote r.line).ensureDir r.line
  let d := s0.dirOf r.line
  let own := if d.st == .exclusive || d.st == .owned then s0.l2? d.owner r.line else none
  let sharers := d.sharers.filter fun x => x != r.die && own.map (·.die) != some x
  let (s1, data, src) := match own with
    | some x =>
      let wrote := x.st == LineSt.m || x.st == LineSt.o
      let s2 := s0.rec1 (if wrote then .supply else .close) r.line d.interval (d.writer == some x.die) (hL2 x.die) (lineHash x.data)
      let s3 := if wrote then s2.countOut x.die r.line (some r.die) 128 else s2
      (s3.dropL2 x.die r.line, x.data, if wrote then some x.die else none)
    | none => (s0, s0.homeLine r.line, none)
  let s4 := (s1.invalidate r.line sharers r.die).openIval r.line (some (hL2 r.die)) []
  (s4.setDir { s4.dirOf r.line with st := .owned, owner := r.die, sharers := [] }).sendData r .m data sharers src

/-- Serve an upgrade: granted at once, with the invalidations sent at the same moment (R278, R304). -/
def State.serveUpgrade (s : State) (r : CohReq) : State :=
  match s.l2? r.die r.line with
  | none => s.serveRfo r
  | some x =>
    let s0 := (s.invalRemote r.line).ensureDir r.line
    let d := s0.dirOf r.line
    let others := nub (d.others r.die)
    let s1 := (s0.invalidate r.line others r.die).openIval r.line (some (hL2 r.die)) []
    let n := (s1.dirOf r.line).interval
    let s2 := s1.setDir { s1.dirOf r.line with st := .owned, owner := r.die, sharers := [] }
    (s2.modCoh fun c => { c with
      l2 := updIf (fun l => l.die == r.die && l.line == r.line)
        (fun l => { l with st := .m, acks := l.acks ++ others, iv := n }) c.l2 }).rec1 .open r.line n true (hL2 r.die)
      (lineHash x.data)

/-- Serve a request of any kind. -/
def State.serve (s : State) (r : CohReq) : State :=
  match r.kind with
  | .read => s.serveRead r
  | .rfo => s.serveRfo r
  | .upgrade => s.serveUpgrade r
  | .fill => s

/-- Miss-status registers in use in a line's slice: a line being fetched, or recalled for an atomic, has one (R280). -/
def State.sliceMisses (s : State) (line : Nat) : Nat :=
  ((nub (s.coh.mshr.map (·.1) ++ (s.ops.filter (·.recalling)).filterMap (·.loc.line?))).filter fun l => homeSlice l == homeSlice line).length
/-- Requests linked in a slice's merge buffer (R280). -/
def State.sliceMerged (s : State) (line : Nat) : Nat :=
  ((s.coh.mshr.filter fun m => homeSlice m.1 == homeSlice line).map (·.2.length)).foldl (· + ·) 0

/-- A request must wait for the memory behind the line: no copy in the package supplies its data, or the package may not yet
write a peer line (R280, R381). -/
def State.needsFill (s : State) (r : CohReq) : Bool :=
  (s.fromSlice r && (s.llc? r.line).isNone) || ((r.kind == .rfo || r.kind == .upgrade) && !s.mayOwn r.line)

/-- An older miss of the slice waits for a miss-status register (R280). -/
def State.olderMiss (s : State) (r : CohReq) : Bool :=
  (s.coh.reqs.takeWhile (· != r)).any fun q =>
    q.line != r.line && homeSlice q.line == homeSlice r.line && !(s.coh.mshr.any (·.1 == q.line)) && s.nextReq q.line == some q
      && !s.remoteHeld q.line && s.needsFill q

/-- A line is to be fetched from the memory behind it: it takes a miss-status register (R280, R381, R383). -/
def State.startMiss (s : State) (line : Nat) (write : Bool) (linked : List CohReq) : State :=
  (s.modCoh fun c => { c with mshr := c.mshr ++ [(line, linked)] }).fetchLine line write

/-- Give a request to its slice: it is linked to a live miss of its line, served on a hit, or takes a miss-status register, which
the oldest waiting miss takes first; where there is no room it waits (R280). The owner of a line whose acknowledgements are
outstanding does not yet give it up for ownership elsewhere. -/
def State.serveNext (s : State) (die line : Nat) (kind : ReqKind) : State :=
  match s.nextReq line with
  | none => s
  | some r =>
    if r.die != die || r.kind != kind then s
    else if s.remoteHeld line then s.askRemote line
    else if s.coh.mshr.any (·.1 == line) then
      if s.sliceMerged line < 256 then
        (s.dropReq r).modCoh fun c => { c with mshr := updIf (·.1 == line) (fun m => (m.1, m.2 ++ [r])) c.mshr }
      else s
    else if s.needsFill r then
      if s.sliceMisses line < 64 && !s.olderMiss r then (s.dropReq r).startMiss line (r.kind != .read) [r] else s
    else if r.kind != .read && (s.coh.l2.any fun l => l.line == line && l.die != die && l.acks != []) then s
    else (s.dropReq r).touchLlc line r.cls r.hint |>.serve r

/-! ## Bytes for engines and matrix operations -/

/-- The newest data of a line are at hand, and the package may write it where it is to be written; no earlier request to it waits, nor is
anything of it in flight (R279–R280, R381–R383). -/
def State.lineReady (s : State) (line : Nat) (write whole : Bool) : Bool :=
  !s.remoteHeld line && !s.lineTaken line && !s.hostQueued line
    && (lineSpace line == 0
      || ((lineSpace line == 2 || (s.peerLine? line).isSome) && (!write || s.mayOwn line)
        && ((write && whole && lineSpace line == 2) || (s.llc? line).isSome || s.coh.l2.any (·.line == line))))

/-- What an engine or the matrix queue must wait for is asked for. -/
def State.wantLine (s : State) (die cls line : Nat) (write : Bool) : State :=
  if lineSpace line == 0 then s.askRemote line
  else if s.coh.mshr.any (·.1 == line) || 64 ≤ s.sliceMisses line then s
  else s.startMiss line write [⟨die, line, .fill, cls, .none⟩]

/-! ## The copies in an L1 (R274) -/

/-- The copies that stand in one set of a core's L1, with their lines. -/
def State.l1SetOf (s : State) (core set : Nat) : List (Nat × L1Copy) :=
  s.coh.l2.flatMap fun l => (l.l1.filter fun c => c.core == core && c.set == set).map fun c => (l.line, c)

/-- A core's L1 holds a copy of a line under an object tag. -/
def L2Line.l1Hit (l : L2Line) (core : Nat) (obj : BitVec 64) (off : Nat) : Bool :=
  l.l1.any fun c => c.core == core && c.obj == obj && c.off == off

/-- A use of an L1 copy. -/
def State.l1Touch (s : State) (die line core : Nat) (obj : BitVec 64) (off : Nat) : State :=
  s.modCoh fun c => { c with l2 := updIf (fun l => l.die == die && l.line == line) (fun l => { l with
    l1 := updIf (fun x => x.core == core && x.obj == obj && x.off == off) (fun x => { x with used := s.evno }) l.l1 }) c.l2 }

/-- A copy enters an L1 in an invalid way of its set, or in that of the copy used longest ago (R275). -/
def State.l1Fill (s : State) (die line core : Nat) (obj : BitVec 64) (off : Nat) : State :=
  let set := Config.l1Set obj off
  let there := s.l1SetOf core set
  let (way, s1) := match (List.range 8).find? fun w => !there.any (·.2.way == w) with
    | some w => (w, s)
    | none => match minBy? (fun (x : Nat × L1Copy) => x.2.used) there with
      | some (v, x) => (x.way, s.modCoh fun c => { c with l2 := updIf (fun l => l.die == die && l.line == v) (fun l => { l with l1 := l.l1.erase x }) c.l2 })
      | none => (0, s)
  let x : L1Copy := { core, obj, off, set, way, used := s.evno }
  s1.modCoh fun c => { c with l2 := updIf (fun l => l.die == die && l.line == line) (fun l => { l with l1 := l.l1 ++ [x] }) c.l2 }

/-! ## The events -/

/-- READ: a read request is served by the directory at the home slice (R277). -/
def execRead (die line : Nat) (s : State) : Outc := .next (s.serveNext die line .read)
/-- READ_FOR_OWNERSHIP (R277). -/
def execReadForOwnership (die line : Nat) (s : State) : Outc := .next (s.serveNext die line .rfo)
/-- UPGRADE (R278). -/
def execUpgrade (die line : Nat) (s : State) : Outc := .next (s.serveNext die line .upgrade)

/-- WRITE_BACK: a die L2 gives up a line it holds in M or O; the slice takes the data and the die takes I (R277, R304). -/
def execWriteBack (die line : Nat) (s : State) : Outc :=
  match s.l2? die line with
  | some l => if (l.st == .m || l.st == .o) && l.acks == [] && !s.lineBusy line then .next (s.returnCopy l) else .next s
  | none => .next s

/-- The first message of a line to a die, by kind, is the oldest to it; it arrives only while the die's links carry data (R407). -/
def State.firstTo (s : State) (die line : Nat) : Option CohMsg :=
  if !s.dieUp die then none
  else s.coh.msgs.find? fun m => match m with
    | .data d l _ _ _ _ _ _ _ => d == die && l == line
    | .inval d l _ => d == die && l == line
    | .recall d l => d == die && l == line
    | .ack _ _ _ => false

/-- Remove a message. -/
def State.dropMsg (s : State) (m : CohMsg) : State := s.modCoh fun c => { c with msgs := c.msgs.erase m }

/-- INVALIDATE: a holder invalidates its copy and acknowledges to the writer (R277, R278). -/
def execInvalidate (die line : Nat) (s : State) : Outc :=
  match s.firstTo die line with
  | some (.inval d l back) =>
    let s1 := (s.dropMsg (.inval d l back)).takeInval die line
    .next (match back with | some w => s1.send (.ack die w line) | none => s1.ackLog line)
  | _ => .next s

/-- RECALL: a holder returns its copy, with dirty data, to the home (R279). -/
def execRecall (die line : Nat) (s : State) : Outc :=
  match s.firstTo die line with
  | some (.recall d l) =>
    match s.l2? die line with
    | some x => if x.acks == [] then .next ((s.dropMsg (.recall d l)).returnCopy x) else .next s
    | none => .next ((s.dropMsg (.recall d l)).dirLeave die line false)
  | _ => .next s

/-- ACKNOWLEDGEMENT: an invalidation acknowledgement reaches the writer (R278). -/
def execAcknowledgement (die line : Nat) (s : State) : Outc :=
  match s.coh.msgs.find? (fun m => match m with | .ack _ d l => d == die && l == line | _ => false) with
  | some (.ack src d l) => .next (((s.dropMsg (.ack src d l)).takeAck src die line).ackLog line)
  | _ => .next s

/-- DATA_RESPONSE: line data arrive at the requester, perhaps damaged on the way (R277, R311). A requester whose victim is
dirty waits until it has been written back. -/
def execDataResponse (die line : Nat) (damage : List (Nat × Byte)) (s : State) : Outc :=
  match s.firstTo die line with
  | some (.data d l st b iv acks cl h sp) =>
    if acks != [] then .next s
    else
      let blocked := match (s.l2Victim die line cl).2.2 with
        | some v => (s.l2? die line).isNone && (v.st == LineSt.m || v.st == LineSt.o || v.acks != [])
        | none => false
      if blocked then .next s
      else
        let b' := damage.foldl (fun (b : List Byte) x => b.set x.1 (b.getD x.1 0 ^^^ x.2)) b
        .next (((s.dropMsg (.data d l st b iv acks cl h sp)).installL2 die line st b' iv cl h sp).ackLog line)
  | _ => .next s

/-- A record of a line's home and the use of the answer it is about have met: it fixes what the local memory interval hands on,
and the home is told what was received (R308, item 6; R381). -/
def State.matchFetch (s : State) (f : Fetch) : State :=
  match f.fill, f.used with
  | some (h, iv, writer), some (n, got) =>
    let s1 := s.modCoh fun c => { c with fetches := c.fetches.filter (·.mtag != f.mtag) }
    if f.op == 4 then s1.rec1 .memwrite f.line n false (s1.hMem f.line) h
    else
      let s2 := if f.answer == some [] then s1 else s1.rec1 .memfill f.line n true (s1.hMem f.line) h
      if lineSpace f.line == 1 then
        (s2.modCoh fun c => { c with
          peers := updIf (·.line == f.line) (fun p => { p with excl := p.excl || writer, iv := some iv }) c.peers }).sendHomeRec .open f.line
          iv writer got
      else s2
  | _, _ => s

/-- The data of a line, or leave to write it, that its home has answered are used: the package holds the line (R381, R383). -/
def State.useAnswer (s : State) (f : Fetch) (data : List Byte) (cls : Nat) (hint : Hint) : State :=
  let fresh := s.dirFresh f.line
  let s0 := s.ensureDir f.line
  let s1 := if fresh then s0.modIval f.line 0 fun v => { v with closed := none } else s0
  let s2 := if data == [] then s1 else s1.llcFill f.line cls hint (data.take 128)
  let excl := f.op != 1
  let p : PeerLine := { line := f.line, excl, iv := none }
  let s3 := if lineSpace f.line == 1 then s2.modCoh fun c => { c with peers := putIf (·.line == f.line) p c.peers } else s2
  let f1 := { f with used := some ((s3.dirOf f.line).interval, lineHash (s3.newestLine f.line)) }
  (s3.modCoh fun c => { c with fetches := updIf (·.mtag == f.mtag) (fun _ => f1) c.fetches }).matchFetch f1

/-- The requests linked to a line are served in order before any later request to it (R280). -/
def State.serveLinked (s : State) (rs : List CohReq) : State :=
  match rs with
  | [] => s
  | r :: rest =>
    if r.kind == .fill then s.modCoh fun c => { c with reqs := rest ++ c.reqs }
    else if s.needsFill r then s.modCoh fun c => { c with reqs := rs ++ c.reqs }
    else (s.modCoh fun c => { c with reqs := rest ++ c.reqs }).serve r

/-- A line of device memory has been read from HBM: the requests linked to it are served (R280). -/
def State.fillDone (s : State) (line : Nat) (rs : List CohReq) : State :=
  let (cls, hint) := match rs with | r :: _ => (r.cls, r.hint) | [] => (0, Hint.none)
  (((s.modCoh fun c => { c with mshr := c.mshr.filter (·.1 != line) }).hbmRead line cls hint).serveLinked rs).keepTag line cls

/-- What waits at the slice for a line of device memory is served in its order, as one act (R280; log 1). -/
def State.drainLine (s : State) (line : Nat) : Nat → State
  | 0 => s
  | n + 1 =>
    match s.coh.mshr.find? (·.1 == line), s.coh.reqs.find? (·.line == line) with
    | some (_, rs), _ => ((s.fillDone line rs).quiesce line).drainLine line n
    | none, some r =>
      let s1 := s.dropReq r
      let s2 := if s1.needsFill r then s1.hbmRead line r.cls r.hint else s1.touchLlc line r.cls r.hint
      (((s2.serve r).keepTag line r.cls).quiesce line).drainLine line n
    | none, none => s

/-- How many requests to a line wait at its slice, and one more. -/
def State.waiters (s : State) (line : Nat) : Nat :=
  (s.coh.reqs.filter (·.line == line)).length + ((s.coh.mshr.filter (·.1 == line)).map (·.2.length + 1)).foldl (· + ·) 0 + 1

/-- A die L2 reads a line of device memory through its home as one act, behind what waits there: a translation's coherent read, or a
fill of an instruction cache. A line that another package holds, that is poisoned, for which an atomic recalls its copies or a host
access waits is not read now (R275, R279–R280, R288; log 1). -/
def State.fetchNow (s : State) (die line cls : Nat) : State :=
  if (s.l2? die line).isSome then s.touchL2 die line cls .none
  else if lineSpace line != 0 || s.remoteHeld line || s.poisoned line || s.hostQueued line
      || (s.ops.any fun o => o.recalling && o.loc.line? == some line) then s
  else
    let s1 := (s.quiesce line).drainLine line (s.waiters line)
    if (s1.l2? die line).isSome then s1
    else
      let s2 := match (s1.l2Victim die line cls).2.2 with | some v => s1.quiesce v.line | none => s1
      let r : CohReq := { die, line, kind := .read, cls, hint := .none }
      let s3 := if s2.needsFill r then s2.hbmRead line cls .none else s2.touchLlc line cls .none
      ((s3.serveRead r).keepTag line cls).quiesce line

/-- HBM_FILL_COMPLETE: a line's data arrive from HBM, or the answer of a peer home or memory node is used; the requests linked to
it are served (R280). A request to a home that could not be sent before is sent. -/
def execHbmFillComplete (line : Nat) (s : State) : Outc :=
  match s.coh.mshr.find? (·.1 == line) with
  | none => .next s
  | some (_, rs) =>
    let (cls, hint) := match rs with | r :: _ => (r.cls, r.hint) | [] => (0, Hint.none)
    let s2 := s.modCoh fun c => { c with mshr := c.mshr.filter (·.1 != line) }
    if lineSpace line == 0 then .next (s.fillDone line rs)
    else match s.coh.fetches.find? fun f => f.line == line && f.op != 4 && f.op != 9 && f.used.isNone with
      | none => .next (s.fetchLine line (rs.any fun r => r.kind == .rfo || r.kind == .upgrade))
      | some f => match f.answer with
        | none => .next s
        | some data => .next ((s2.useAnswer f data cls hint).serveLinked rs)

end Sys2Proof.Machine
end

