-- ==== Sys2Proof/Machine/RunQueue.lean ====
section
/-! DEFINITION. Which context of a partition runs (R344, R345): the run queue, the staging of the context that is to come (R353), the
request of a pre-emption, and freezing (R45). -/

namespace Sys2Proof.Machine

/-! ## The run queue (R344) -/

/-- A context is frozen; one that no longer exists is not. -/
def State.ctxFrozen (s : State) (ctx : Nat) : Bool := match s.ctx? ctx with | some c => c.frozen | none => false

/-- A context's priority, plus one; 0 where it has no launch that has not ended. -/
def State.ctxPrio (s : State) (ctx : Nat) : Nat :=
  (s.launches.filter (·.ctx == ctx)).foldl (fun m l => max m (l.prio + 1)) 0

/-- A context is runnable (R344). -/
def State.runnable (s : State) (ctx : Nat) : Bool := !s.ctxFrozen ctx && s.ctxPrio ctx != 0 && (s.ctx? ctx).isSome

/-- A sheaf of the context is saved for a core that is fenced and may yet be replaced, or on a die that is being reset (R319, R410). -/
def State.awaitsSpare (s : State) (ctx : Nat) : Bool :=
  s.sheafs.any fun h => h.ctx == ctx && h.saved
    && ((s.coreSt h.core).fenced && !(s.coreSt h.core).lost || s.boot.resets.any (·.die == coreDie h.core))

/-- The head of a partition's run queue: highest priority, then longest runnable (DEDUCED; log 51). -/
def State.runHead (s : State) (p : Part) : Option Nat :=
  (minBy? (fun (c : Ctx) => (5 - s.ctxPrio c.id) * 2 ^ 64 + c.runnableAt)
    (s.ctxs.filter fun c => c.part == p.num && s.runnable c.id && p.resident != some c.id && !s.awaitsSpare c.id)).map (·.id)

/-! ## The swap stores (R353) -/

/-- The context has an image for the core. -/
def State.hasImage (s : State) (ctx core : Nat) : Bool := s.sheafs.any fun h => h.ctx == ctx && h.core == core && h.saved

/-- Some core of the partition is exchanging. -/
def State.exchanging (s : State) (p : Part) : Bool := p.cores.any fun c => (s.coreSt c).swap == .exchanging

/-- The partial or staged images on a partition's cores are discarded. -/
def State.unstage (s : State) (p : Part) : State :=
  p.cores.foldl (fun s c =>
    let k := s.coreSt c
    if k.swap == .staging || k.swap == .staged then s.setCore { k with swap := .empty, swapCtx := none } else s) s

/-- The incoming context's images begin to be filled into the empty stores. -/
def State.stage (s : State) (p : Part) (ctx : Nat) : State :=
  p.cores.foldl (fun s c =>
    let k := s.coreSt c
    if k.swap == .empty && s.hasImage ctx c && !k.fenced then s.setCore { k with swap := .staging, swapCtx := some ctx } else s) s

/-- The scheduler chooses the run-queue head as the next context. -/
def State.retarget (s : State) (n : Nat) : State :=
  match s.part? n with
  | none => s
  | some p =>
    if s.exchanging p then s
    else
      let head := s.runHead p
      let s1 := if head == p.incoming then s else (s.unstage p).modPart n fun p => { p with incoming := head }
      match head with | some c => s1.stage p c | none => s1

/-! ## Pre-emption (R345, R348) -/

/-- The resident context of a partition is to stop: it goes to the back of its priority level (R346). Before a halt the incoming
context follows the head of the run queue (R353). -/
def State.preempt (s : State) (n : Nat) : State :=
  match s.part? n with
  | none => s
  | some p => match p.resident with
    | none => s
    | some r =>
      if p.halting then s.retarget n
      else ((s.modPart n fun p => { p with halting := true }).modCtx r fun c => { c with runnableAt := s.time }).retarget n

/-- A service context's identifier (R42). -/
def serviceCtx : Nat := 0xFFFFFF

/-- A step of a tenant's launch holds a die (R342, R410). -/
def State.dieHeld (s : State) (d : Nat) : Bool := s.launches.any fun l => l.ctx != serviceCtx && l.phase != .starting && l.held.contains d

/-- A sheaf of the context stands on a core that is fenced, or on a die that is to be reset and that no step holds (R319, R410). -/
def State.onFenced (s : State) (ctx : Nat) : Bool :=
  s.sheafs.any fun h => h.ctx == ctx && !h.saved
    && ((s.coreSt h.core).fenced || (s.boot.resets.any (·.die == coreDie h.core) && !s.dieHeld (coreDie h.core)))

/-- The scheduler looks at a partition: a resident context that is frozen or has no launch left gives way to the run queue, and
one with a sheaf on a fenced core, or on a die about to be reset, is pre-empted (R319, R344, R345, R410). -/
def State.reschedule (s : State) (n : Nat) : State :=
  match s.part? n with
  | none => s
  | some p => match p.resident with
    | none => s.retarget n
    | some r =>
      if !p.halting && ((!s.runnable r && (s.runHead p).isSome) || s.onFenced r) then s.preempt n else s.retarget n

/-- A context has been released or given another launch: `was` says whether it was runnable before. The time at which it became so
is kept; one of higher priority pre-empts at once (R344, R345). -/
def State.becameRunnable (s0 : State) (ctx : Nat) (was : Bool) : State :=
  let s := if !was && s0.runnable ctx then s0.modCtx ctx fun c => { c with runnableAt := s0.time } else s0
  match s.ctx? ctx with
  | none => s
  | some c => match s.part? c.part with
    | none => s
    | some p => match p.resident with
      | none => s.retarget p.num
      | some r => if r != ctx && s.runnable ctx && s.ctxPrio r < s.ctxPrio ctx then s.preempt p.num else s.reschedule p.num

/-- A context is frozen (R45): nothing of it starts a clause, its engine commands stop at their next chunk, and a matrix operation of
it stops at its next row boundary, to load B anew when it resumes (R200). The run queue is looked at again (R344, R345). -/
def State.freezeCtx (s : State) (ctx : Nat) : State :=
  let s1 := s.modCtx ctx fun c => { c with frozen := true }
  let s2 := { s1 with matq := updIf (·.ctx == ctx) (fun m => { m with bbuf := none, pbuf := [] }) s1.matq }
  match s.ctx? ctx with
  | some c => s2.reschedule c.part
  | none => s2

end Sys2Proof.Machine
end

