-- ==== Sys2Proof/Machine/Notice.lean ====
section
/-! DEFINITION. Notices to the host (R404), the fault ring of a context (R352, R402), the error logs (R176), and the freezing
of a context (R45, R401, R402). -/

namespace Sys2Proof.Machine

/-- The I/O die holds a notice until it can be written to the ring; beyond 1,024 held it is dropped and counted (R404). -/
def State.notice (s : State) (nkind ctx : Nat) (rec : BitVec 512) : State :=
  let h := s.host
  if 1024 ≤ h.notices.length then { s with host := { h with nlost := (h.nlost + 1) % 2 ^ 64 } }
  else
    let n : BitVec 1024 := packBits 1024 [(h.noticeSeq, 640), (s.time, 576), (ctx, 528), (nkind, 512), (rec.toNat, 0)]
    { s with host := { h with notices := h.notices ++ [n], noticeSeq := h.noticeSeq + 1 } }

/-- The unit in whose name the device's own records reach device memory (log 25). -/
def hDevice : BitVec 16 := hHost 0

/-- Write bytes at a device physical address. -/
def State.devWrite (s : State) (dpa : Nat) (bs : List Byte) : State := s.homeWrite hDevice false 0 (devLoc dpa) bs

/-- The cores of a context's partition as it was created (R352). -/
def State.madeCores (s : State) (c : Ctx) : List Nat := match s.part? c.part with | some p => p.made | none => []

/-- The snapshot area of a context (R347, R352). -/
def State.snapBase (s : State) (c : Ctx) : Nat := c.saveBase + (s.madeCores c).length * 2 ^ 20
/-- The fault ring of a context: 64 records in the 4 KiB after the snapshot area (R352, R402). -/
def State.faultBase (s : State) (c : Ctx) : Nat := s.snapBase c + 2 ^ 16

/-- Write into a context's areas, once MOP 0x08 has given their base: a base of 0 names none (R352, R398; log 31). -/
def State.areaWrite (s : State) (c : Ctx) (dpa : Nat) (bs : List Byte) : State := if c.saveBase == 0 then s else s.devWrite dpa bs

/-- A 64-byte record is written to the context's fault ring, round-robin (R402). -/
def State.faultRing (s : State) (ctx : Nat) (rec : BitVec 512) : State :=
  match s.ctx? ctx with
  | none => s
  | some c =>
    let s1 := s.areaWrite c (s.faultBase c + 64 * (c.faultPos % 64)) (leBytes 64 rec.toNat)
    s1.modCtx ctx fun c => { c with faultPos := c.faultPos + 1 }

/-- A record of a die's error log (R176, R314). -/
def State.errLog (s : State) (r : ErrRec) : State := { s with chk := { s.chk with errlog := s.chk.errlog ++ [r] } }

/-- A context enters the faulted state: it is frozen, and a fault record goes to its ring and to the host (R402). -/
def State.faultCtx (s : State) (ctx core : Nat) (obj : BitVec 64) (ext : Nat) (count : Nat) (pc : Dword) (code : Nat) : State :=
  let r : BitVec 512 := packBits 512 [(obj.toNat, 448), (s.time, 384), (pc.toNat, 320), (count, 288), (ext % 2 ^ 32, 256),
    (ctx, 104), (coreDie core, 48), (coreInDie core, 40), (code, 0)]
  (((s.freezeCtx ctx).modCtx ctx fun c => { c with faulted := true }).faultRing ctx r).notice 7 ctx r

/-- A dropped store: the die's error log receives a record, and the fibre's sr.fault, unless it has ended, the lost-store status;
no trap is raised (R176). -/
def State.lostStore (s : State) (k : FKey) (core : Nat) (ended : Bool) (addr : Dword) : State :=
  (if ended then s else s.modFib k fun f => { f with faultCode := 0x0010, faultOpnd := 0, faultValid := true }).errLog
    (.lostStore (coreDie core) k addr 0x0010)

end Sys2Proof.Machine
end

