-- ==== Sys2Proof/Machine/Release.lean ====
section
/-! DEFINITION. The commit log (R300, R301), the conditions of a release (R163, R165, R257, R312), and holding a fibre at
one (R27, R47). -/

namespace Sys2Proof.Machine

/-- Scopes in order, narrowest first (R69). -/
def scopeRank : Scope → Nat
  | .fib => 0 | .shf => 1 | .cls => 2 | .die => 3 | .pkg => 4 | .sys => 5

/-- The scope of a barrier object's SCOPE field (R22). -/
def scopeOf (n : Nat) : Scope := match n with | 1 => .shf | 2 => .cls | 3 => .die | 4 => .pkg | _ => .sys

/-- An access kind reads. -/
def AccKind.reads : AccKind → Bool
  | .read | .loose | .rmw | .pop => true
  | .write | .fence _ | .arrive | .sbar | .push | .svc => false

/-- An access kind writes. -/
def AccKind.writes : AccKind → Bool
  | .write | .rmw => true
  | .read | .loose | .pop | .fence _ | .arrive | .sbar | .push | .svc => false

/-- An entry's write is performed as far as a release at a scope needs (R301). Pool memory is coherent within the package only, and a
.sys release makes no write to it visible beyond that writes back nothing: such a release does not wait for a write-back that nothing
has asked for (R163, R267; DEDUCED; log 44). -/
def Access.wroteAt (e : Access) (sc : Scope) : Bool :=
  if scopeRank sc ≤ 3 then e.atDie.isSome
  else if scopeRank sc == 4 || lineSpace e.line == 2 then e.atPkg.isSome else e.atSys.isSome

/-- An entry has had every event that a release at a scope waits for: its write, and the write that its read returned, are
performed there (R165, R252 item 2, R302). -/
def Access.metAt (e : Access) (sc : Scope) : Bool :=
  (!e.kind.reads || (e.returned.isSome && (scopeRank sc ≤ 3 || e.wroteAt sc))) && (!e.kind.writes || e.wroteAt sc)

/-- No place, as the commit log names it. -/
def noLine : Nat := 2 ^ 100

/-- Append an entry of one fibre to its core's commit log, with the place it names (R300). -/
def State.logEntry (s : State) (k : FKey) (op : Nat) (kind : AccKind) (ord : Order) (sc : Scope) (at_ : Nat × Nat × Nat) : State :=
  match s.fib? k with
  | none => s
  | some f =>
    let (n, s1) := s.fresh
    { s1 with log := s1.log ++ [{ seq := n, op, key := k, core := f.core, pc := f.pc, kind, ord, sc, line := at_.1, off := at_.2.1,
                                  size := at_.2.2, returned := none, atDie := none, atPkg := none, atSys := none, interval := none,
                                  checked := false }] }

/-- Record events of the entries of an operation. -/
def State.logOp (s : State) (op : Nat) (g : Access → Access) : State :=
  { s with log := updIf (fun e => e.op == op) g s.log }

/-- A fibre owes clearance of an interval of a line to its releases, apart from its commit log (R312). -/
def State.owe (s : State) (k : FKey) (line : Nat) (n : BitVec 32) (since : Nat) : State :=
  if s.ivalCleared line n || s.owed.any (fun w => w.key == k && w.line == line && w.interval == n) then s
  else { s with owed := s.owed ++ [{ key := k, line, interval := n, since }] }

/-- The entry's interval, and every later one on the line up to the home's present number, has been judged (R312). -/
def State.entryCleared (s : State) (e : Access) : Bool :=
  match e.interval with | some n => s.ivalCleared e.line n | none => true

/-- No `cwb` or `cflush` of a fibre is outstanding: what every fence and release at .sys waits for (R163). -/
def State.maintained (s : State) (k : FKey) : Bool :=
  s.ops.all fun o => !(o.key == k && (o.kind == .cwb || o.kind == .cflush))

/-- The conditions of a release at a scope hold for a fibre: its earlier writes, and those that its earlier reads returned, are
performed there, its side log has drained, every earlier entry is checked and its interval cleared; at .sys its cwb and
cflush have completed (R163, R165, R174, R252, R257, R303, R312). `own` is the operation that releases, 0 for none. -/
def State.releaseMet (s : State) (k : FKey) (sc : Scope) (own : Nat) : Bool :=
  sc == .fib ||
  ((s.log.filter fun e => e.key == k && (if e.op == 0 then e.returned.isSome else e.op != own)).all (fun e =>
      e.metAt sc && e.checked && s.entryCleared e)
    && s.owed.all (fun w => w.key != k || s.ivalCleared w.line w.interval)
    && s.side.all (fun e => e.op.key != k)
    && (sc != .sys || s.maintained k))

/-- A fibre is held at a release (R27, R165): it leaves its warp and stands at the instruction. -/
def State.holdRelease (s : State) (k : FKey) (sc : Scope) (act : RelAct) : State :=
  s.setCond k (.held (.release sc act s.time))

/-- What a releasing instruction does for one fibre: its act, or the hold until its conditions are met. -/
def releasing (k : FKey) (sc : Scope) (own : Nat) (act : RelAct) (go : State → Act) (s : State) : Act :=
  if s.releaseMet k sc own then go s else .stay (s.holdRelease k sc act)

/-- The operation of a held release, if it has one. -/
def RelAct.op? : RelAct → Option Nat
  | .access op | .push op => some op
  | .fence _ | .arrive _ _ _ _ | .svc _ | .sbar _ | .spawn _ => none

/-- An outstanding operation ends without effect for its fibre: it leaves the log, and its flags fall. -/
def State.cancelOp (s : State) (op : Nat) : State :=
  match s.op? op with
  | none => s
  | some o =>
    (({ s with log := s.log.filter (·.op != op) }).dropOp op).completeFlags o.key o.flags

/-- A fibre has no part in a batch any more (R230). -/
def State.leaveBatch (s : State) (k : FKey) : State :=
  { s with batches := (s.batches.map fun b => { b with lanes := b.lanes.filter (·.1 != k) }).filter (fun b => b.lanes != []) }

/-- A held release is given up: its operation has no effect, its entry leaves the log, its fibre its batch. The fibre that an `fspawn`
would have started is no longer live, while the creator's D keeps its identifier (R141; DESIGN CHOICE; log 87). -/
def State.dropRelease (s : State) (k : FKey) (act : RelAct) : State :=
  let s1 := match act.op? with | some o => s.cancelOp o | none => s
  let s2 := match act with
    | .spawn j => { s1 with fibres := s1.fibres.filter fun (f : Fibre) => !(f.key == (⟨k.sheaf, j⟩ : FKey) && f.cond == Cond.held .spawn) }
    | _ => s1
  State.leaveBatch { s2 with log := s2.log.filter fun e => !(e.key == k && e.op == 0 && e.returned.isNone) } k

/-- A held release raises a trap and never completes (R258, R314): its operation has no effect. -/
def State.abandonRelease (s : State) (k : FKey) (act : RelAct) (t : TrapInfo) : State :=
  match s.fib? k with
  | none => s
  | some f => (s.dropRelease k act).takeTrap k t f.pc

/-- The fibre's entries for acts without an operation are done. -/
def State.logDone (s : State) (k : FKey) : State :=
  { s with log := updIf (fun e => e.key == k && e.op == 0 && e.returned.isNone) (fun e => { e with returned := some s.evno }) s.log }

end Sys2Proof.Machine
end

