-- ==== Sys2Proof/Machine/Lane.lean ====
section
/-! DEFINITION. Sets (R31–R33, R132–R137, R215–R217): the collectives, the set barrier, joining and leaving. -/

namespace Sys2Proof.Machine

/-! ## Results (R134–R137) -/

/-- The rank an `sshfl` reads, from the reader's rank k, the member count n and its own B (R134). -/
def shflSource (mode : ShflMode) (k n b : Nat) : Int :=
  let g := if b % 2 ^ 16 == 0 then n else b % 2 ^ 16
  match mode with
  | .rank => b
  | .rot => ((k + b) % n : Nat)
  | .rev => (k : Int) - (k % g : Nat) + ((g : Int) - 1 - (k % g : Nat))
  | .grp => (k : Int) - (k % g : Nat) + (b / 2 ^ 16 % 2 ^ 16 : Nat)

/-- combine of R136. -/
def redCombine (op : RedOp) (t : Ty) (a b : Nat) : Nat :=
  let w := t.bits
  match op with
  | .add => if t == .f32 then f32add a b else (a + b) % 2 ^ w
  | .min => if t == .f32 then Fmt.f32.pick false a b else if ival (tySigned t) w b < ival (tySigned t) w a then b else a
  | .max => if t == .f32 then Fmt.f32.pick true a b else if ival (tySigned t) w a < ival (tySigned t) w b then b else a
  | .and => a &&& b
  | .or => a ||| b
  | .xor => a ^^^ b

/-- The identity of an exclusive scan (R137). -/
def redIdentity (op : RedOp) (t : Ty) : Nat :=
  match op with
  | .add => if t == .f32 then 0x80000000 else 0
  | .min => if t == .f32 then 0x7F800000 else wrap t.bits (rangeHi (tySigned t) t.bits)
  | .max => if t == .f32 then 0xFF800000 else wrap t.bits (rangeLo (tySigned t) t.bits)
  | .and => 2 ^ t.bits - 1
  | .or | .xor => 0

/-- A .f32 result that is a NaN is the canonical one (R92). -/
def redCanon (t : Ty) (v : Nat) : Nat := if t == .f32 && Fmt.f32.value v == .nan then Fmt.f32.nan else v

/-- The fold of contributions in ascending rank; none where there is no contribution (R92, R136). -/
def redFold (op : RedOp) (t : Ty) : List Nat → Option Nat
  | [] => none
  | x :: l => some (redCanon t (l.foldl (redCombine op t) x))

/-- A of a contribution, of the type's width. -/
def SetAct.val (x : SetAct) (t : Ty) : Nat := x.a.toNat % 2 ^ t.bits

/-- The tested bit of a contributing member (R135). -/
def SetAct.test (x : SetAct) : Bool := x.contributes && x.a.getLsbD x.bit

/-- What a contributing member of rank k receives from the matched executions in rank order: a type and its bits
(R134–R137). -/
def setResult (ms : List SetAct) (k : Nat) (x : SetAct) : Option (Ty × Nat) :=
  let con := ms.filter (·.contributes)
  match x.kind with
  | .shfl mode t =>
    let src := shflSource mode k ms.length x.b.toNat
    let own := x.c.toNat % 2 ^ t.bits
    some (t, if src < 0 then own
      else match ms[src.toNat]? with
        | some y => if y.contributes then y.val t else own
        | none => own)
  | .vote mode =>
    let p := (con.filter (·.test)).length
    let c := con.length
    some (.b32, match mode with
      | .count => p % 2 ^ 16 + c % 2 ^ 16 * 2 ^ 16
      | .mask => ((List.range 32).map fun i =>
          match ms[32 * x.word + i]? with | some y => if y.test then 2 ^ i else 0 | none => 0).foldl (· + ·) 0
      | .first => match ms.findIdx? (·.test) with | some i => i | none => 0xFFFFFFFF
      | .same => if p == 0 || p == c then 0xFFFFFFFF else 0)
  | .red op t => (redFold op t (con.map (·.val t))).map fun v => (t, v)
  | .scan op excl t =>
    let below := ((ms.take (if excl then k else k + 1)).filter (·.contributes)).map (·.val t)
    some (t, (redFold op t below).getD (redIdentity op t))
  | .bar => none

/-! ## Sets of a sheaf -/

/-- A live set of a sheaf. -/
def Sheaf.set? (h : Sheaf) (j : Nat) : Option JoinSet := h.sets.find? (·.id == j)

/-- Update one set. -/
def State.modSet (s : State) (u j : Nat) (g : JoinSet → JoinSet) : State :=
  s.modSheaf u fun h => { h with sets := updIf (·.id == j) g h.sets }

/-- A member of a set stands held at one of its set instructions (R32, R133). -/
def State.heldAtSet (s : State) (k : FKey) (j : Nat) : Bool :=
  match s.fib? k with
  | some f => match f.cond with
    | .held (.set i) => i == j
    | .held (.release _ (.sbar i) _) => i == j
    | _ => false
  | none => false

/-- A set instruction of the set is pending: executed by some member, not yet completed (R215). -/
def State.setPending (s : State) (u : Nat) (js : JoinSet) : Bool :=
  js.members.any fun m => m.acts != [] || s.heldAtSet ⟨u, m.fid⟩ js.id

/-- Every member of a set is in a warp (R32). -/
def allIn (w : Warp) (u : Nat) (js : JoinSet) : Bool := js.members.all fun m => w.members.contains ⟨u, m.fid⟩

/-- Record an execution of a set instruction by a member (R133). -/
def State.pushAct (s : State) (k : FKey) (j : Nat) (x : SetAct) : State :=
  s.modSet k.sheaf j fun js => { js with members := updIf (·.fid == k.fid) (fun m => { m with acts := m.acts ++ [x] }) js.members }

/-- Hold a member at its set instruction. -/
def State.holdSet (s : State) (k : FKey) (j : Nat) : State := s.setCond k (.held (.set j))

/-- The executions of a lockstep set's members, in rank order, as they stand in one warp (R32). -/
def lockActs (i : Instr) (s : State) (u : Nat) (js : JoinSet) (mk : Bool → Fibre → SetAct) : List SetAct :=
  js.members.filterMap fun m => (s.fib? ⟨u, m.fid⟩).map fun f => mk (s.executes i ⟨u, m.fid⟩) f

/-- A collective's member whose guard is false (R133). On a lockstep set it stands with the others until the instruction executes,
which `now` says of an instruction whose members all stand in the warp (R32, R217). -/
def setSkip (j : Nat) (mk : Bool → Fibre → SetAct) (now : Warp → Nat → JoinSet → Bool) (w : Warp) (k : FKey) (s : State) : Act :=
  match s.sheaf? k.sheaf, s.fib? k with
  | some h, some f =>
    match h.set? j with
    | none => .next s
    | some js =>
      if !js.members.any (·.fid == k.fid) then .next s
      else if js.lock then if now w k.sheaf js then .next s else .stay (s.holdSet k j)
      else .next (s.pushAct k j (mk false f))
  | _, _ => .next s

/-- A collective's executing member: the set trap, the lockstep execution from the state before the instruction, or a hold
(R32, R33, R132, R133). -/
def setRun (i : Instr) (j : Nat) (mk : Bool → Fibre → SetAct) (before : State) (w : Warp) (k : FKey) (s : State) : Act :=
  match s.sheaf? k.sheaf, s.fib? k with
  | some h, some f =>
    match h.set? j with
    | none => .trap (.plain cSet)
    | some js =>
      if !js.members.any (·.fid == k.fid) then .trap (.plain cSet)
      else if js.lock then
        if allIn w k.sheaf js then
          let ms := lockActs i before k.sheaf js mk
          let x := mk true f
          match setResult ms (js.members.findIdx (·.fid == k.fid)) x with
          | some (t, v) => .next (s.modFib k fun f => f.put t x.dst v)
          | none => .next s
        else .stay (s.holdSet k j)
      else .stay ((s.pushAct k j (mk true f)).holdSet k j)
  | _, _ => .next s

/-- A set collective (R132, R133). -/
def setExec (i : Instr) (j : Nat) (mk : Bool → Fibre → SetAct) (s : State) : Outc :=
  warpExec' i (setSkip j mk allIn) (setRun i j mk s) s

/-- An execution that carries only A. -/
def actA (kind : SetKind) (t : Ty) (d a : Reg) (con : Bool) (f : Fibre) : SetAct :=
  { kind, contributes := con, dst := d, a := BitVec.ofNat 64 (f.get t a), b := 0, c := 0, bit := 0, word := 0 }

/-- `sshfl` (R134). -/
def execSshfl (h : Hdr) (mode : ShflMode) (t : Ty) (d a b c : Reg) (set : BitVec 6) (s : State) : Outc :=
  setExec (.sshfl h mode t d a b c set) set.toNat (fun con f =>
    { actA (.shfl mode t) t d a con f with b := f.reg b, c := BitVec.ofNat 64 (f.get t c) }) s
/-- `svote` (R135). -/
def execSvote (h : Hdr) (mode : VoteMode) (d a : Reg) (bit : BitVec 5) (word set : BitVec 6) (s : State) : Outc :=
  setExec (.svote h mode d a bit word set) set.toNat (fun con f =>
    { actA (.vote mode) .b32 d a con f with bit := bit.toNat, word := word.toNat }) s
/-- `sred` (R136). -/
def execSred (h : Hdr) (op : RedOp) (t : Ty) (d a : Reg) (set : BitVec 6) (s : State) : Outc :=
  setExec (.sred h op t d a set) set.toNat (actA (.red op t) t d a) s
/-- `sscan` (R137). -/
def execSscan (h : Hdr) (op : RedOp) (excl : Bool) (t : Ty) (d a : Reg) (set : BitVec 6) (s : State) : Outc :=
  setExec (.sscan h op excl t d a set) set.toNat (actA (.scan op excl t) t d a) s

/-! ## The set barrier (R217) -/

/-- An `sbar`'s entry in the commit log, once for each execution. -/
def State.logAct (s : State) (k : FKey) (kind : AccKind) (sc : Scope) : State :=
  if s.log.any fun e => e.key == k && e.op == 0 && e.returned.isNone then s else s.logEntry k 0 kind .plain sc (noLine, 0, 0)

/-- The execution record of an `sbar`. -/
def barAct (con : Bool) (f : Fibre) : SetAct := actA .bar .b32 0 0 con f

/-- A member whose release has completed counts as having executed the `sbar` (R217). -/
def State.sbarReached (s : State) (k : FKey) (j : Nat) : State :=
  match s.sheaf? k.sheaf, s.fib? k with
  | some h, some f =>
    match h.set? j with
    | some js => (if js.lock then s else s.pushAct k j (barAct true f)).holdSet k j
    | none => s
  | _, _ => s

/-- An `sbar` of a lockstep set executes: every member stands in the warp, and the release of each that executes it holds (R32,
R165, R217). -/
def lockBarNow (i : Instr) (before : State) (w : Warp) (u : Nat) (js : JoinSet) : Bool :=
  allIn w u js && js.members.all fun m => !before.executes i ⟨u, m.fid⟩ || before.releaseMet ⟨u, m.fid⟩ .shf 0

/-- An executing member of an `sbar`: its release comes first (R165, R217). -/
def sbarRun (i : Instr) (j : Nat) (before : State) (w : Warp) (k : FKey) (s : State) : Act :=
  match s.sheaf? k.sheaf with
  | none => .next s
  | some h =>
    match h.set? j with
    | none => .trap (.plain cSet)
    | some js =>
      if !js.members.any (·.fid == k.fid) then .trap (.plain cSet)
      else
        let s1 := s.logAct k .sbar .shf
        if js.lock && lockBarNow i before w k.sheaf js then .next (s1.logDone k)
        else releasing k .shf 0 (.sbar j) (fun s => .stay (s.sbarReached k j)) s1

/-- `sbar` (R217). -/
def execSbar (h : Hdr) (set : BitVec 6) (s : State) : Outc :=
  let i : Instr := .sbar h set
  warpExec' i (setSkip set.toNat barAct (lockBarNow i s)) (sbarRun i set.toNat s) s

/-! ## Completion on a set that is not lockstep (R33, R133) -/

/-- One member's part of a completed match: its result, and the end of its hold; where the instructions disagree, the set trap. A
member whose guard was false has gone on and does not trap (R70, R133) (DESIGN CHOICE; log 26). -/
def State.setFinish (s : State) (u : Nat) (ms : List SetAct) (agree : Bool) (m : SetMember) (rank : Nat) : State :=
  let k : FKey := ⟨u, m.fid⟩
  match m.acts, s.fib? k with
  | x :: _, some f =>
    if !x.contributes then s
    else if !agree then s.takeTrap k (.plain cSet) f.pc
    else
      (s.modFib k fun f =>
        let f1 := match setResult ms rank x with | some (t, v) => f.put t x.dst v | none => f
        { f1.advance with cond := .unbatched }).logDone k
  | _, _ => s

/-- The major opcode of a set instruction (R71). -/
def SetKind.major : SetKind → Nat
  | .shfl _ _ => 0x50
  | .vote _ => 0x51
  | .red _ _ => 0x52
  | .scan _ _ _ => 0x53
  | .bar => 0x56

/-- The results of a match differ in a member's lane (R105, R318): once, the replay writes them and the mismatch is logged; twice,
nothing is written, every contributing member takes the machine check, and the core is fenced. -/
def State.setUpset (s : State) (u : Nat) (js : JoinSet) (fid : Nat) (twice : Bool) : State :=
  match s.sheaf? u with
  | none => s
  | some h =>
    let quad := fid % 4
    let lane := fid / 4 % 32
    if !twice then s.twinReplay h.core quad lane
    else
      (js.members.foldl (fun s m => match m.acts, s.fib? ⟨u, m.fid⟩ with
        | x :: _, some f =>
          if x.contributes then s.takeTrap ⟨u, m.fid⟩ ⟨cMachine, 0, machineInfo x.kind.major quad lane 0⟩ f.pc else s
        | _, _ => s) s).fenceCore h.core

/-- SET_COLLECTIVE_COMPLETE: every member has executed its next set instruction; each contributing member receives its
result, which both halves must agree on (R105), or all raise the set trap where the instructions disagree (R132, R133; log 26). -/
def execSetCollectiveComplete (u j : Nat) (s : State) : Outc :=
  match (s.sheaf? u).bind (·.set? j) with
  | none => .next s
  | some js =>
    if js.lock || js.members == [] || js.members.any (·.acts == []) then .next s
    else
      let ms := js.members.filterMap (·.acts.head?)
      let agree := ms.all fun x => some x.kind == ms.head?.map (·.kind)
      let hit := js.upset.filter fun x => js.members.any fun m => m.fid == x.1 && (m.acts.head?.any (·.contributes))
      let s0 := match hit with | some (fid, twice) => s.setUpset u js fid twice | none => s
      let s1 := if hit.any (·.2) then s0 else js.members.zipIdx.foldl (fun s x => s.setFinish u ms agree x.1 x.2) s0
      .next (s1.modSet u j fun js => { js with members := js.members.map fun m => { m with acts := m.acts.tail }, upset := none })

/-! ## Joining and leaving (R215, R216) -/

/-- Members in ascending fibre identifier. -/
def JoinSet.add (js : JoinSet) (fid : Nat) : JoinSet :=
  { js with members := sortBy (·.fid) (js.members ++ [{ fid, acts := [] }]) }

/-- `sjoin` for one fibre (R215). -/
def sjoinRun (lock : Bool) (d : Reg) (j : Nat) (k : FKey) (s : State) : Act :=
  match s.sheaf? k.sheaf with
  | none => .next s
  | some h =>
    let done (s : State) (n : Nat) : Act := .next (s.modFib k fun f => f.setReg d (BitVec.ofNat 32 n))
    match h.set? j with
    | none => done (s.modSheaf k.sheaf fun h => { h with sets := h.sets ++ [{ id := j, lock, members := [{ fid := k.fid, acts := [] }] }] }) 1
    | some js =>
      if js.lock != lock || js.members.any (·.fid == k.fid) then .trap (.plain cSet)
      else if lock && (js.members.any (fun m => m.fid % 4 != k.quad || m.fid / 4 % 32 == k.lane) || 32 ≤ js.members.length) then
        .trap (.plain cSet)
      else if s.setPending k.sheaf js then .stay (s.setCond k (.held (.join j)))
      else done (s.modSet k.sheaf j fun js => js.add k.fid) (js.members.length + 1)

/-- `sjoin` (R215). -/
def execSjoin (h : Hdr) (lock : Bool) (d : Reg) (set : BitVec 6) (s : State) : Outc :=
  warpExec (.sjoin h lock d set) (sjoinRun lock d set.toNat) s

/-- `sleave` (R216). -/
def execSleave (h : Hdr) (set : BitVec 6) (s : State) : Outc :=
  warpExec (.sleave h set) (fun k s =>
    match (s.sheaf? k.sheaf).bind (·.set? set.toNat) with
    | none => .trap (.plain cSet)
    | some js =>
      if !js.members.any (·.fid == k.fid) then .trap (.plain cSet)
      else .next (s.modSheaf k.sheaf fun h => { h with
        sets := (updIf (·.id == set.toNat) (·.leave k.fid) h.sets).filter (fun j => j.members != []) })) s

/-! ## What a quadrant does before it forms a warp -/

/-- A fibre's sheaf is saved, and what it has outstanding with it (R349). -/
def State.keptAside (s : State) (k : FKey) : Bool := match s.sheaf? k.sheaf with | some h => h.saved | none => false

/-- Entries of a core's side log: one carries one instruction's data for one line (R173). -/
def State.sideCount (s : State) (core : Nat) : Nat :=
  (nub ((s.side.filter fun e => e.core == core && !s.keptAside e.op.key).map fun e => (e.op.grp, e.obj.toNat, e.op.roff / 128))).length

/-- A hold that ends by itself: in `sjoin`, once no set instruction of the set is pending (R215). -/
def State.holdOver (s : State) (f : Fibre) : Bool :=
  match f.cond with
  | .held (.join j) => match (s.sheaf? f.key.sheaf).bind (·.set? j) with
    | some js => !s.setPending f.key.sheaf js
    | none => true
  | _ => false

/-- Fibres whose hold is over may try their instruction again. -/
def State.liftHolds (s : State) (core quad : Nat) : State :=
  { s with
    fibres := updIf (fun f => f.core == core && f.key.quad == quad && s.holdOver f)
      (fun f => { f with cond := .unbatched }) s.fibres }

/-- A lockstep set whose members all stand held at one program counter of this quadrant (R32). Members that stand at different set
instructions stay held, as R32 has it of a member that never reaches the instruction (DESIGN CHOICE; log 26). -/
def State.lockReady (s : State) (core quad : Nat) (h : Sheaf) (js : JoinSet) : Bool :=
  js.lock && h.core == core && !h.saved && js.members.all (fun m => m.fid % 4 == quad)
    && (let fs := js.members.filterMap fun m => s.fib? ⟨h.uid, m.fid⟩
        fs.length == js.members.length && fs.all (fun f => f.cond == .held (.set js.id) && some f.pc == fs.head?.map (·.pc)))

/-- The quadrant forms the members of such sets into one warp each, in the lowest free slot (R32). Where every slot is taken they stay
held until one is free, and do not count towards the dissolution of R30 (DESIGN CHOICE; log 88). -/
def State.formLockstep (s : State) (core quad : Nat) : State :=
  s.sheafs.foldl (fun s h => h.sets.foldl (fun s js =>
    if !s.lockReady core quad h js then s
    else
      match s.freeSlot core quad with
      | none => s
      | some slot =>
        let ks := byLane (js.members.map fun m => ⟨h.uid, m.fid⟩)
        let w : Warp := { core, quad, slot, members := ks, launch := h.launch, age := s.evno, passed := 0, skip := false,
                          dissolve := false }
        ({ s with warps := s.warps ++ [w] }).batch ks slot) s) s

end Sys2Proof.Machine
end

