-- ==== Sys2Proof/Machine/Control.lean ====
section
/-! DEFINITION. Control transfers (R53, R54, R138, R139), fibre creation and ending (R25, R26, R140–R142), and the end of a
step's fibres (R229). -/

namespace Sys2Proof.Machine

/-! ## Transfers -/

/-- The trap a transfer's target raises in the transferring instruction (R54). -/
def State.targetTrap (s : State) (k : FKey) (target : Dword) : Option TrapInfo :=
  match s.launchOf k with
  | some l =>
    if l.codeLen ≤ target.toNat then some (.plain cBounds)
    else if target.toNat % 8 != 0 then some (.plain cIllegal) else none
  | none => none

/-- A transfer, with an effect on the fibre's registers before the program counter changes (R54, R139). -/
def transfer (target : Fibre → Dword) (link : Fibre → Fibre) (k : FKey) (s : State) : Act :=
  match s.fib? k with
  | none => .next s
  | some f =>
    match s.targetTrap k (target f) with
    | some t => .trap t
    | none => .goto (s.modFib k link) (target f)

/-- `bra` (R138). -/
def execBra (h : Hdr) (disp : Word) (s : State) : Outc :=
  warpExec (.bra h disp) (transfer (fun f => f.pc + disp.signExtend 64) id) s
/-- `brx` (R139). -/
def execBrx (h : Hdr) (a : Reg) (s : State) : Outc :=
  warpExec (.brx h a) (transfer (·.pair a) id) s
/-- `brx.l` (R139). -/
def execBrxL (h : Hdr) (d a : Reg) (s : State) : Outc :=
  warpExec (.brxL h d a) (transfer (·.pair a) fun f => f.setPair d (f.pc + 8)) s
/-- `call` (R139). -/
def execCall (h : Hdr) (d : Reg) (disp : Word) (s : State) : Outc :=
  warpExec (.call h d disp) (transfer (fun f => f.pc + disp.signExtend 64) fun f => f.setPair d (f.pc + 16)) s
/-- `ret` (R139). -/
def execRet (h : Hdr) (a : Reg) (s : State) : Outc :=
  warpExec (.ret h a) (transfer (·.pair a) id) s

/-! ## `fspawn` (R140, R141) -/

/-- The lowest identifier below the quota that is not live (R26). -/
def State.freeFid (s : State) (h : Sheaf) : Option Nat :=
  (List.range h.quota).find? fun j => (s.fib? ⟨h.uid, j⟩).isNone

/-- The new fibre of an `fspawn` (R140). It is not issued before its creator's release has completed (R141): until then it is held,
outside any warp, a condition that R27 does not name (DESIGN CHOICE; log 87). -/
def newFibre (h : Sheaf) (f : Fibre) (j : Nat) (target args : Dword) (a p : Reg) : Fibre :=
  let g := Fibre.initial ⟨h.uid, j⟩ h.core (h.depths.getD j 0) (h.windows.getD j 0) h.regs target args
  let g := (({ g with regs := List.replicate h.regs 0, predReg := p }).setPair 0 args).setReg 3 (BitVec.ofNat 32 f.key.fid)
  { (g.setReg p (f.reg a)) with cond := .held .spawn, inFlags := f.inFlags, inHtbase := f.inHtbase, inHtlen := f.inHtlen }

/-- The new fibre may be issued. -/
def State.startSpawned (s : State) (u j : Nat) : State :=
  s.modFib ⟨u, j⟩ fun f => if f.cond == .held .spawn then { f with cond := .unbatched } else f

/-- `fspawn` for one fibre (R140, R141). -/
def fspawnRun (d a : Reg) (disp : BitVec 24) (p : Reg) (k : FKey) (s : State) : Act :=
  match s.fib? k, s.sheaf? k.sheaf, s.launchOf k with
  | some f, some h, some l =>
    let target := f.pc + (disp.signExtend 64 <<< 3)
    if l.codeLen ≤ target.toNat then .trap (.plain cBounds)
    else
      match s.freeFid h with
      | none => .next (s.modFib k fun f => f.setReg d 0xFFFFFFFF)
      | some j =>
        let s1 := { s with fibres := s.fibres ++ [{ newFibre h f j target l.args a p with inc := s.evno + 1 }] }
        let s2 := s1.modFib k fun f => f.setReg d (BitVec.ofNat 32 j)
        releasing k .shf 0 (.spawn j) (fun s => .next (s.startSpawned k.sheaf j)) s2
  | _, _, _ => .next s

/-- `fspawn` (R140). -/
def execFspawn (h : Hdr) (d a : Reg) (disp : BitVec 24) (p : Reg) (s : State) : Outc :=
  warpExec (.fspawn h d a disp p) (fspawnRun d a disp p) s

/-! ## Ending -/

/-- A fibre that ends before it takes a pending matrix trap never takes it: the record goes to the context's fault record,
and the context enters the faulted state (R198, R402, R447). -/
def State.dropPending (s : State) (k : FKey) : State :=
  match s.fib? k with
  | none => s
  | some f => f.pendTraps.foldl (fun s t => s.faultCtx (s.ctxOf k) f.core t.obj t.ext 0 t.pc t.code.toNat) s

/-- `fend` for one fibre (R142). -/
def fendRun (k : FKey) (s : State) : Act := .gone ((s.dropPending k).endFibre k)

/-- `fend` (R142) (DEDUCED; log 16). -/
def execFend (h : Hdr) (s : State) : Outc := warpExec (.fend h) (fun k s => fendRun k s) s

/-- A fibre records a continuation for its launch: the first of a step fixes it, an equal one agrees, another is counted in
STRAY (R229). -/
def Launch.recordStep (l : Launch) (c : Nat) : Launch :=
  match l.cont with
  | none => { l with cont := some c }
  | some c0 => if c0 == c then l else { l with stray := l.stray + 1 }

/-- `step` (R229): the fibre ends, and the address of the following clause header is recorded. -/
def execStep (h : Hdr) (s : State) : Outc :=
  warpExec (.step h) (fun k s =>
    match s.fib? k with
    | none => .next s
    | some f => fendRun k (s.modLaunch (s.launchNo k) fun l => l.recordStep (f.pc.toNat + 8))) s

end Sys2Proof.Machine
end

