-- ==== Sys2Proof/Machine/Barrier.lean ====
section
/-! DEFINITION. Barrier objects (R22, R203–R212): initialisation, arrivals, byte counts, phase reads and waits, and the
cluster barrier with its exchange of banks. -/

namespace Sys2Proof.Machine

/-- A barrier object of a sheaf. -/
def State.bar? (s : State) (u n : Nat) : Option Barrier := (s.sheaf? u).bind fun h => h.bars[n]?

/-- Update one barrier object. -/
def State.modBar (s : State) (u n : Nat) (g : Barrier → Barrier) : State :=
  s.modSheaf u fun h => { h with bars := h.bars.mapIdx fun i b => if i == n then g b else b }

/-- The object as its 128-bit record (R22). -/
def Barrier.bits (b : Barrier) : BitVec 128 :=
  packBits 128 [(b.phase.toNat, 96), (b.expect.toNat, 80), (b.arrived.toNat, 64), (b.scope.toNat, 61),
    (if b.init then 1 else 0, 40), (b.pending.toNat, 0)]

/-- Fibres in `bwait` whose phase has advanced become unbatched (R209). -/
def State.wakeBwait (s : State) (u n : Nat) : State :=
  match s.bar? u n with
  | none => s
  | some b => { s with
      fibres := updIf (fun f => f.key.sheaf == u && (match f.cond with
          | .waiting (.bwait i p) => i == n && p != b.phase
          | _ => false)) (fun f => { f with cond := .unbatched }) s.fibres }

/-- The sheafs of a sheaf's stook: the N consecutive indices that begin at a multiple of N (R35, R160). -/
def State.stookOf (s : State) (h : Sheaf) : List Sheaf :=
  s.sheafs.filter fun g => g.launch == h.launch && h.stook != 0 && g.index / h.stook == h.index / h.stook

/-- One share of a completed cluster barrier: the banks exchange roles if a swap was requested, PHASE advances, ARRIVED
becomes 0. The bytes of the new shadow bank are open, from the free values at `seed` (R160, R211, R272; log 17, log 27). -/
def shareDone (n : Nat) (swap : Bool) (seed : Nat) (h : Sheaf) : Sheaf :=
  let opened : Option BankFree := some { seed, written := [] }
  { h with
    free0 := if swap && !h.bank then opened else h.free0
    free1 := if swap && h.bank then opened else h.free1
    bank := if swap then !h.bank else h.bank
    baseLive := if swap then h.baseShadow else h.baseLive
    baseShadow := if swap then h.baseLive else h.baseShadow
    bars := h.bars.mapIdx fun i b =>
      if i == n then { b with phase := b.phase + 1, arrived := 0, swap := false, ready := false } else b }

/-- Cluster completion: once the shares of all sheafs of the stook are ready, one act (R211). -/
def State.clusterComplete (s : State) (h : Sheaf) (n : Nat) : State :=
  let all := s.stookOf h
  let shares := all.filterMap fun g => g.bars[n]?
  if all.length == h.stook && shares.all (·.ready) then
    let swap := shares.any (·.swap)
    let s1 := { s with
      free := s.free + 2 ^ 32
      sheafs := updIf (fun g => all.any (·.uid == g.uid)) (fun g => shareDone n swap (s.free + g.index % 2 ^ 32) g) s.sheafs }
    all.foldl (fun s g => s.wakeBwait g.uid n) s1
  else s

/-- try_complete of R203. -/
def State.tryComplete (s : State) (u n : Nat) : State :=
  match s.sheaf? u, s.bar? u n with
  | some h, some b =>
    if b.arrived == b.expect && b.pending == 0 then
      if b.scope == 2 && h.stook != 0 then
        let s1 := s.modBar u n fun b => { b with ready := true }
        s1.clusterComplete h n
      else (s.modBar u n fun b => { b with phase := b.phase + 1, arrived := 0 }).wakeBwait u n
    else s
  | _, _ => s

/-- decrement of R203: an engine landing of so many bytes. -/
def State.decrement (s : State) (u n bytes : Nat) : State :=
  (s.modBar u n fun b => { b with pending := b.pending - BitVec.ofNat 40 bytes }).tryComplete u n

/-- The declared count that a `qpush` with DECL adds (R219): no arrival. -/
def State.declare (s : State) (u n bytes : Nat) : State :=
  (s.modBar u n fun b => { b with pending := b.pending + BitVec.ofNat 40 bytes }).tryComplete u n

/-- arrive of R203 on an object that has been initialised; none where it overflows (R204). -/
def State.arrive (s : State) (u n bytes : Nat) (swap : Bool) : Option State :=
  match s.bar? u n with
  | none => none
  | some b =>
    if b.arrived == b.expect then none
    else
      some ((s.modBar u n fun b => { b with
        pending := b.pending + BitVec.ofNat 40 bytes, arrived := b.arrived + 1, swap := b.swap || swap }).tryComplete u n)

/-- A fibre's arrival is counted; D receives the phase in which it was (R204, R207). -/
def arriveAct (k : FKey) (n bytes : Nat) (swap : Bool) (d : Reg) (s : State) : Act :=
  match s.bar? k.sheaf n, s.arrive k.sheaf n bytes swap with
  | some b, some s1 => .next ((s1.modFib k fun f => f.setReg d b.phase).logDone k)
  | _, _ => .trap (.plain cBarrier)

/-- An arrival of one fibre: the barrier-state trap, then the release at the barrier's scope (R205). -/
def arriveRun (n bytes : Nat) (swap : Bool) (d : Reg) (k : FKey) (s : State) : Act :=
  match s.bar? k.sheaf n with
  | none => .next s
  | some b =>
    if !b.init then .trap (.plain cBarrier)
    else
      let sc := scopeOf b.scope.toNat
      releasing k sc 0 (.arrive n bytes swap d) (arriveAct k n bytes swap d) (s.logAct k .arrive sc)

/-- `binit` (R206). -/
def execBinit (h : Hdr) (bar : BitVec 4) (expect : BitVec 16) (sc : BitVec 3) (s : State) : Outc :=
  warpExec (.binit h bar expect sc) (fun k s =>
    match s.bar? k.sheaf bar.toNat with
    | none => .next s
    | some b =>
      if b.init && (b.arrived != 0 || b.pending != 0) then .trap (.plain cBarrier)
      else .next (s.modBar k.sheaf bar.toNat fun b => { b with
        expect, scope := sc, arrived := 0, pending := 0, init := true })) s

/-- `barr` (R207). -/
def execBarr (h : Hdr) (bar : BitVec 4) (d : Reg) (s : State) : Outc :=
  warpExec (.barr h bar d) (arriveRun bar.toNat 0 false d) s

/-- `barx` (R208). -/
def execBarx (h : Hdr) (bar : BitVec 4) (d b : Reg) (s : State) : Outc :=
  warpExec (.barx h bar d b) (fun k s =>
    match s.fib? k with
    | none => .next s
    | some f =>
      let bytes := (f.pair b).toNat
      if 2 ^ 40 ≤ bytes then .trap (.plain cBarrier) else arriveRun bar.toNat bytes false d k s) s

/-- `clswap` (R212): the exchange trap comes before the barrier-state trap. -/
def execClswap (h : Hdr) (bar : BitVec 4) (d : Reg) (s : State) : Outc :=
  warpExec (.clswap h bar d) (fun k s =>
    match s.sheaf? k.sheaf, s.bar? k.sheaf bar.toNat with
    | some sh, some b =>
      if sh.stook == 0 then .trap (.plain cExchange)
      else if !b.init || b.scope != 2 then .trap (.plain cBarrier)
      else arriveRun bar.toNat 0 true d k s
    | _, _ => .next s) s

/-- `bwait` (R209). -/
def execBwait (h : Hdr) (bar : BitVec 4) (p : Reg) (s : State) : Outc :=
  warpExec (.bwait h bar p) (fun k s =>
    match s.fib? k, s.bar? k.sheaf bar.toNat with
    | some f, some b =>
      if !b.init then .trap (.plain cBarrier)
      else if b.phase != f.reg p then .next s
      else .past (s.setCond k (.waiting (.bwait bar.toNat (f.reg p))))
    | _, _ => .next s) s

/-- A read of a barrier object (R210). -/
def bphaseRun (n : Nat) (d : Reg) (g : Barrier → Word) (k : FKey) (s : State) : Act :=
  match s.bar? k.sheaf n with
  | none => .next s
  | some b => if !b.init then .trap (.plain cBarrier) else .next (s.modFib k fun f => f.setReg d (g b))

/-- `bphase` (R210). -/
def execBphase (h : Hdr) (d : Reg) (bar : BitVec 4) (s : State) : Outc :=
  warpExec (.bphase h d bar) (bphaseRun bar.toNat d (·.phase)) s
/-- `bphase.cnt` (R210). -/
def execBphaseCnt (h : Hdr) (d : Reg) (bar : BitVec 4) (s : State) : Outc :=
  warpExec (.bphaseCnt h d bar) (bphaseRun bar.toNat d fun b => b.expect ++ b.arrived) s

end Sys2Proof.Machine
end

