-- ==== Sys2Proof/Machine/System.lean ====
section
/-! DEFINITION. The system instructions: trapping instructions (R231–R233), return from a trap (R234), user interrupts
(R235–R237), traps pending from matrix operations (R447), service batches (R230, R394, R395), special registers (R38–R42,
R238), the monitor on a queue and sleeping on a monitor (R213, R214), schedules (R38, R228), and `nop`, `yield`, `halt`
(R239). -/

namespace Sys2Proof.Machine

/-! ## Plain ones -/

/-- `nop` (R74, R239). -/
def execNop (s : State) : Outc := warpExec .nop (fun _ s => .next s) s

/-- `yield`: the clause ends as if its YIELD bit were 1 (R58, R239). -/
def execYield (s : State) : Outc :=
  warpExec' .yield (fun _ => skipOn) (fun w _ s => .next (s.modWarp w.core w.quad w.slot fun w => { w with skip := true })) s

/-- `halt`: the service core stops issuing for all its fibres, and the host is told (R239, R397, R404). -/
def execHalt (s : State) : Outc :=
  warpExec .halt (fun k s =>
    match s.fib? k with
    | none => .next s
    | some f =>
      if (s.coreSt f.core).halted then .next s
      else .next ((s.setCore { s.coreSt f.core with halted := true }).notice 9 0 (BitVec.ofNat 512 (coreDie f.core)))) s

/-! ## Traps (R233) -/

/-- `bkpt` (R233). -/
def execBkpt (h : Hdr) (code : BitVec 16) (s : State) : Outc :=
  warpExec (.bkpt h code) (fun _ _ => .trap ⟨cBkpt, 0, code.setWidth 64⟩) s

/-- `trap` (R233). -/
def execTrap (h : Hdr) (code : BitVec 15) (s : State) : Outc :=
  warpExec (.trap h code) (fun _ _ => .trap ⟨0x8000 ||| code.setWidth 16, 0, code.setWidth 64⟩) s

/-- `ttrap`: the trap, in either view, the whole context frozen, and the record sent to the host (R45, R231–R233, R401, R404); in the privileged
view the record, which R232 queues nowhere, goes to the host alone (DEDUCED; log 93). -/
def execTtrap (h : Hdr) (code : BitVec 15) (s : State) : Outc :=
  warpExec (.ttrap h code) (fun k s =>
    match s.fib? k with
    | none => .next s
    | some f =>
      let t : TrapInfo := ⟨0x8000 ||| code.setWidth 16, 0, code.setWidth 64⟩
      let c := s.ctxOf k
      .stay (((s.takeTrap k t f.pc).freezeCtx c).notice 1 c ((trapRecord s f t f.pc).setWidth 512))) s

/-- The held fibre an `eret` names: by ks.ctx, core C of the issuing die and the slot of ks.ecause; a die has cores 0–191, and 255
names its service core (R234; log 41). -/
def State.eretTarget (s : State) (f : Fibre) (c : Reg) : Option Fibre :=
  let i := (f.reg c).toNat % 256
  if 192 ≤ i && i != 255 then none
  else s.erTarget f.ksCtx.toNat (coreOfDie (coreDie f.core) i) (f.ksEcause.toNat / 2 ^ 16 % 2 ^ 11)

/-- `eret` (R234). -/
def execEret (h : Hdr) (c : Reg) (s : State) : Outc :=
  warpExec (.eret h c) (fun k s =>
    match s.fib? k with
    | none => .next s
    | some f =>
      match s.eretTarget f c with
      | none => .trap (.plain cIllegal)
      | some g => .next (s.returnTo g.key f.ksEpc f.epcWritten)) s

/-- `eret.end` (R234): the held fibre ends as under `fend`. -/
def execEretEnd (h : Hdr) (c : Reg) (s : State) : Outc :=
  warpExec (.eretEnd h c) (fun k s =>
    match s.fib? k with
    | none => .next s
    | some f =>
      match s.eretTarget f c with
      | none => .trap (.plain cIllegal)
      | some g => .next ((s.dropPending g.key).endFibre g.key)) s

/-! ## User interrupts -/

/-- A user interrupt is raised for a sheaf: PEND in every live fibre whose EN is 1, else pending for the sheaf; an `mwait`
wakes (R214, R235). -/
def State.raiseUser (s : State) (u : Nat) : State :=
  if s.fibres.any fun f => f.key.sheaf == u && f.cond != .ended && f.uiEn then
    { s with fibres := updIf (fun f => f.key.sheaf == u && f.cond != .ended && f.uiEn) (fun f =>
        let g := { f with uiPend := true }
        if f.cond == .waiting .mwait then g.wake else g) s.fibres }
  else s.modSheaf u fun h => { h with uiPending := true }

/-- `uien` (R235, R236). -/
def execUien (h : Hdr) (l a : Reg) (s : State) : Outc :=
  warpExec (.uien h l a) (fun k s =>
    match s.fib? k, s.sheaf? k.sheaf with
    | some f, some sh =>
      .next ((s.modFib k fun f0 => { f0 with
        uiEn := true, uiHandler := f.pair a, uiLink := l, uiPend := f.uiPend || sh.uiPending }).modSheaf k.sheaf fun h =>
          { h with uiPending := false })
    | _, _ => .next s) s

/-- `uidis` (R236). -/
def execUidis (s : State) : Outc := warpExec .uidis (fun k s => .next (s.modFib k fun f => { f with uiEn := false })) s

/-- A fibre's context is frozen, its partition halts, or its sheaf is saved. -/
def State.ctxHalted (s : State) (k : FKey) : Bool :=
  match s.sheaf? k.sheaf with
  | none => true
  | some h => h.saved || s.ctxStopped h.ctx

/-- A fibre stands at a clause boundary where it would be issued: neither waiting nor held, its context running (R56,
R351). -/
def State.boundaryReady (s : State) (f : Fibre) : Bool :=
  f.clause == none && !s.ctxHalted f.key
    && (match f.cond with | .batched _ | .unbatched => true | .waiting _ | .held _ | .ended => false)

/-- USER_INTERRUPT_ENTRY: at a clause boundary with EN and PEND set (R237). The fibre always leaves its warp, also where the handler's
address is the warp's lowest program counter (R28; DESIGN CHOICE; log 89). -/
def execUserInterruptEntry (u fid : Nat) (s : State) : Outc :=
  match s.fib? ⟨u, fid⟩ with
  | none => .next s
  | some f =>
    if f.uiEn && f.uiPend && f.pendTraps == [] && s.boundaryReady f then
      .next ((s.modFib f.key fun f => { (f.setPair f.uiLink f.pc) with
        pc := f.uiHandler, uiEn := false, uiPend := false, cond := .unbatched }).leaveWarp f.key)
    else .next s

/-- PENDING_MATRIX_TRAP: the oldest pending trap is taken at the fibre's next clause boundary, at the address of that clause
header (R447). -/
def execPendingMatrixTrap (u fid : Nat) (s : State) : Outc :=
  match s.fib? ⟨u, fid⟩ with
  | none => .next s
  | some f =>
    match f.pendTraps with
    | [] => .next s
    | t :: rest =>
      if s.boundaryReady f then
        .next ((s.modFib f.key fun f => { f with pendTraps := rest }).takeTrap f.key ⟨t.code, 0, t.info⟩ f.pc)
      else .next s

/-! ## Service batches -/

/-- A lane of a batch has released (R230). -/
def State.batchReleased (s : State) (id : Nat) (k : FKey) : State :=
  { s with batches := updIf (·.id == id) (fun b => { b with
      lanes := updIf (fun l => l.1 == k) (fun l => (l.1, l.2.1, true)) b.lanes }) s.batches }

/-- What a lane does once its release has completed: it stays held until the batch is queued (R230). -/
def svcAct (id : Nat) (k : FKey) (s : State) : Act := .stay ((s.batchReleased id k).setCond k (.held (.svc id)))

/-- `svc` for one fibre: its registers join the batch of its warp, and it releases at .sys (R230). -/
def svcRun (a : Reg) (num : BitVec 16) (w : Warp) (k : FKey) (s : State) : Act :=
  match s.fib? k with
  | none => .next s
  | some f =>
    let id := s.evno * 2 ^ 20 + w.core * 64 + w.quad * 16 + w.slot
    let regs : BitVec 128 := BitVec.ofNat 128 (f.block a 4)
    let bs := if s.batches.any (·.id == id) then s.batches else s.batches ++ [{ id, num, pc := f.pc, lanes := [] }]
    let s1 := { s with batches := updIf (·.id == id) (fun b => { b with lanes := b.lanes ++ [(k, regs, false)] }) bs }
    releasing k .sys 0 (.svc id) (svcAct id k) (s1.logAct k .svc .sys)

/-- `svc` (R230). -/
def execSvc (h : Hdr) (a : Reg) (num : BitVec 16) (s : State) : Outc :=
  warpExec' (.svc h a num) (fun _ => skipOn) (svcRun a num) s

/-- The header of a batch (R395). -/
def batchHeader (s : State) (b : Batch) (f : Fibre) : BitVec 256 :=
  let mask := (b.lanes.map fun l => 2 ^ l.1.lane).foldl (· + ·) 0
  packBits 256 [(b.pc.toNat, 192), (mask, 160), (b.num.toNat, 144), (s.ctxOf f.key, 104), ((b.lanes.length + 1) / 2, 96),
    ((s.launchId f.key).toNat, 64), (2, 61), (coreDie f.core, 48), (coreInDie f.core, 40), (f.slot, 16)]

/-- The bodies of a batch: two lanes each (R395). -/
def batchBodies : List (BitVec 128) → List SvcEntry
  | x :: y :: l => ⟨y ++ x, true⟩ :: batchBodies l
  | [x] => [⟨x.setWidth 256, true⟩]
  | [] => []

/-- BATCH_RECORD: once every executing member has released and the queue has room for the whole batch, it is queued and its
fibres go on (R230, R394, R395). -/
def execBatchRecord (id : Nat) (s : State) : Outc :=
  match s.batches.find? (·.id == id) with
  | none => .next s
  | some b =>
    match b.lanes.head?.bind fun l => s.fib? l.1 with
    | none => .next s
    | some f =>
      let bodies := batchBodies (b.lanes.map (·.2.1))
      let die := coreDie f.core
      if b.lanes.all (·.2.2) && s.svcRoom die (1 + bodies.length) then
        let s1 := s.svcPush die (⟨batchHeader s b f, false⟩ :: bodies)
        let s2 := { s1 with batches := s1.batches.filter (·.id != id) }
        .next (b.lanes.foldl (fun s l => (s.modFib l.1 fun f => { f.advance with cond := .unbatched }).logDone l.1) s2)
      else .next s

/-- SERVICE_QUEUE_ADMIT: the oldest waiting group enters once the queue has room for it (R394). -/
def execServiceQueueAdmit (die : Nat) (s : State) : Outc :=
  let q := s.svcQ die
  match q.waiting with
  | [] => .next s
  | g :: rest =>
    if q.taken + g.length ≤ 1024 then
      .next ((s.setSvcQ { q with entries := q.entries ++ g, waiting := rest }).wakeQueue fun h i =>
        h.bind i == 5 && coreDie h.core == die)
    else .next s

/-! ## Special registers -/

/-- Live fibres of a sheaf: an ended fibre counts until its flags are clear (R39, R142). -/
def State.nfib (s : State) (u : Nat) : Nat := (s.fibres.filter (·.key.sheaf == u)).length

/-- The partition's die mask (R41, R400). -/
def Part.dieMask (p : Part) : Nat :=
  ((List.range 8).map fun d => if p.cores.any (fun c => coreDie c == d) then 2 ^ d else 0).foldl (· + ·) 0

/-- A special register's value for a fibre, 64 bits wide; `lanes` are those batched in the issuing warp (R39–R42). A
service core has no package-wide index: sr.core and sr.cluster take the free value there (R4; log 17). -/
def State.sreg (s : State) (f : Fibre) (h : Sheaf) (lanes : List Nat) (idx : Nat) : Nat :=
  let l := s.launch? h.launch
  let c := s.ctx? f.ksCtx.toNat
  match idx with
  | 0x00 => f.key.fid
  | 0x01 => f.key.lane
  | 0x02 => f.key.quad
  | 0x03 => f.slot
  | 0x04 => h.index
  | 0x05 => if f.core < 1536 then f.core else s.freeBits.1.toNat % 2 ^ 32
  | 0x06 => if f.core < 1536 then coreCluster f.core else s.freeBits.1.toNat % 2 ^ 32
  | 0x07 => coreDie f.core
  | 0x08 => match l with | some l => l.id.toNat | none => 0
  | 0x09 => match l with | some l => l.step | none => 0
  | 0x0A => match l with | some l => l.held.length | none => 0
  | 0x0B => s.nfib h.uid
  | 0x0C => h.quota
  | 0x0D => h.regs
  | 0x0E => 4096 * h.granules
  | 0x0F => match l.bind (fun l => l.scheds.find? (·.core == f.core)) with | some t => t.cursor | none => 0
  | 0x10 => s.time % 2 ^ 64
  | 0x12 => s.time / 1000 % 64
  | 0x13 => f.faultCode.toNat * 2 ^ 16 + f.faultOpnd.toNat * 2 ^ 8 + (if f.faultValid then 1 else 0)
  | 0x14 => if s.ftz f.key then 1 else 0
  | 0x15 => (if f.uiPend then 2 else 0) + (if f.uiEn then 1 else 0)
  | 0x16 => f.predReg.toNat
  | 0x17 => (lanes.map fun x => 2 ^ x).foldl (· + ·) 0
  | 0x18 => (f.flagWord 0).toNat
  | 0x19 => (f.flagWord 1).toNat
  | 0x1A => (f.flagWord 2).toNat
  | 0x80 => f.ksCtx.toNat
  | 0x81 => match c.bind (fun c => s.part? c.part) with | some p => p.dieMask | none => 0
  | 0x82 => match c with | some c => c.htbase.toNat | none => 0
  | 0x84 => match c with | some c => c.htlen | none => 0
  | 0x85 => match c with | some c => c.tslice.toNat | none => 0
  | 0x86 => match c with | some c => c.wbudget.toNat | none => 0
  | 0x87 => match c with | some c => c.flags.toNat | none => 0
  | 0x88 => f.ksTrapvec.toNat
  | 0x8A => f.ksEpc.toNat
  | 0x8C => f.ksEcause.toNat
  | 0x8D => match c with | some c => if c.frozen then 1 else 0 | none => 0
  | _ => 0

/-- `srd` (R39, R238). -/
def execSrd (h : Hdr) (d : Reg) (idx : BitVec 8) (s : State) : Outc :=
  warpExec' (.srd h d idx) (fun _ => skipOn) (fun w k s =>
    match s.fib? k, s.sheaf? k.sheaf with
    | some f, some sh =>
      let v := s.sreg f sh (w.members.map FKey.lane) idx.toNat
      let s1 := if (idx == 0x05 || idx == 0x06) && 1536 ≤ f.core then s.freeBits.2 else s
      .next (s1.modFib k fun f =>
        if srWide idx == some true then f.setPair d (BitVec.ofNat 64 v) else f.setReg d (BitVec.ofNat 32 v))
    | _, _ => .next s) s

/-- A write to a special register that has no row of its own; one marked RO ignores it (R6, R39–R42, R238). -/
def State.swrite (s : State) (k : FKey) (f : Fibre) (idx : Nat) (a : Reg) : State :=
  let w := f.reg a
  let x := f.ksCtx.toNat
  match idx with
  | 0x80 => s.modFib k fun f => { f with ksCtx := w.setWidth 24 }
  | 0x85 => s.modCtx x fun c => { c with tslice := w }
  | 0x86 => s.modCtx x fun c => { c with wbudget := w }
  | 0x87 => s.modCtx x fun c => { c with flags := w &&& 1 }
  | 0x88 => s.modFib k fun g => { g with ksTrapvec := f.pair a }
  | 0x8A => s.modFib k fun g => { g with ksEpc := f.pair a, epcWritten := true }
  | 0x8C => s.modFib k fun g => { g with ksEcause := w &&& 0x07FFFFFF }
  | _ => s

/-- `swr` (R6, R39, R238). -/
def execSwr (h : Hdr) (idx : BitVec 8) (a : Reg) (s : State) : Outc :=
  warpExec (.swr h idx a) (fun k s =>
    match s.fib? k with | some f => .next (s.swrite k f idx.toNat a) | none => .next s) s

/-- A write to sr.fault: writing 1 to VALID clears it (R40). -/
def execSrFaultClear (h : Hdr) (a : Reg) (s : State) : Outc :=
  warpExec (.srFaultClear h a) (fun k s => .next (s.modFib k fun f =>
    if (f.reg a).getLsbD 0 then { f with faultValid := false } else f)) s

/-- A write to ks.htbase or ks.htlen: the context's cached handle entries are invalidated first (R41, R42). -/
def State.setHandles (s : State) (ctx : Nat) (g : Ctx → Ctx) : State :=
  (s.dropXc (·.ctx == ctx)).modCtx ctx g

/-- A write to ks.htbase or ks.htlen (R41, R42). -/
def execKsHtbaseWrite (h : Hdr) (len : Bool) (a : Reg) (s : State) : Outc :=
  warpExec (.ksHtbaseWrite h len a) (fun k s =>
    match s.fib? k with
    | none => .next s
    | some f =>
      if len then
        let n := (f.reg a).toNat
        .next (if n ≤ 2 ^ 24 then s.setHandles f.ksCtx.toNat fun c => { c with htlen := n } else s)
      else .next (s.setHandles f.ksCtx.toNat fun c => { c with htbase := (f.pair a >>> 5) <<< 5 })) s

/-! ## Schedules and monitors -/

/-- The tile a `tnext` takes: the entry as it was at the launch, or, where a write has changed it since, either (R38, R342;
log 17). -/
def State.tile (s : State) (e : Word × Loc) : Word :=
  let now : Word := BitVec.ofNat 32 (s.newestNat e.2 4)
  if now == e.1 then e.1 else if s.choose.1 % 2 == 0 then e.1 else now

/-- `tnext` (R38, R228). -/
def execTnext (h : Hdr) (d : Reg) (s : State) : Outc :=
  warpExec (.tnext h d) (fun k s =>
    match s.fib? k, s.launchOf k with
    | some f, some l =>
      match l.scheds.find? (·.core == f.core) with
      | none => .next (s.modFib k fun f => f.setReg d 0xFFFFFFFF)
      | some t =>
        match t.tiles[t.cursor]? with
        | none => .next (s.modFib k fun f => f.setReg d 0xFFFFFFFF)
        | some e =>
          let s1 := (s.modFib k fun f => f.setReg d (s.tile e)).modLaunch l.uid fun l => { l with
            scheds := updIf (·.core == f.core) (fun t => { t with cursor := t.cursor + 1 }) l.scheds }
          .next s1.choose.2
    | _, _ => .next s) s

/-- `marm.q` (R213). -/
def execMarmQ (h : Hdr) (q : BitVec 4) (s : State) : Outc :=
  warpExec (.marmQ h q) (fun k s =>
    match s.sheaf? k.sheaf with
    | none => .next s
    | some sh =>
      if sh.bind q.toNat == 0 then .trap (.plain cQueue)
      else .next (s.modFib k fun f => { f with monitor := some ⟨.queue q.toNat, false⟩ })) s

/-- `mwait` (R214). -/
def execMwait (s : State) : Outc :=
  warpExec .mwait (fun k s =>
    match s.fib? k with
    | none => .next s
    | some f =>
      match f.monitor with
      | none => .next s
      | some m =>
        if m.fired || (f.uiEn && f.uiPend) then .next (s.modFib k fun f => { f with monitor := none })
        else .past (s.setCond k (.waiting .mwait))) s

end Sys2Proof.Machine
end

