-- ==== Sys2Proof/Machine/Translate.lean ====
section
/-! DEFINITION. From a capability to a place: handle-table entries (R143, R144), the access checks (R145, R146), the object
table and its extents (R285–R287), missing and failed translations (R291, R292), and host translations (R293). -/

namespace Sys2Proof.Machine

/-! ## Handle-table entries (R143) -/

/-- A handle-table entry's fields (R143); `bad` says that a reserved field is not zero. -/
structure Entry where
  kind : Nat
  space : Nat
  cls : Nat
  home : Nat
  rights : Nat
  base : Nat
  len : Nat
  objid : BitVec 64
  bad : Bool
  deriving DecidableEq, Repr

/-- An entry from its 256 bits (R143). -/
def Entry.ofNat (v : Nat) : Entry :=
  let f (lo n : Nat) : Nat := v / 2 ^ lo % 2 ^ n
  let kind := f 222 2
  { kind, space := f 219 3, cls := f 216 3, home := f 214 2, rights := f 192 5, base := f 128 40, len := f 64 40,
    objid := BitVec.ofNat 64 (f 0 64),
    bad := f 224 32 != 0 || f 197 17 != 0 || f 168 24 != 0 || f 104 24 != 0 || (kind == 2 && f 24 40 != 0) }

/-- PARENT of a derived entry (R143). -/
def Entry.parent (e : Entry) : Nat := e.objid.toNat % 2 ^ 24

/-- The 256 bits of a derived entry (R143, R152). -/
def derivedEntry (parent base len rights : Nat) : BitVec 256 :=
  packBits 256 [(2, 222), (rights, 192), (base, 128), (len, 64), (parent, 0)]

/-- Where a handle's entry lies (R143). -/
def entryLoc (htbase : Dword) (h : Nat) : Loc := devLoc (htbase.toNat + 32 * h)

/-- A handle's entry as it stands. -/
def State.entry (s : State) (htbase : Dword) (h : Nat) : Entry := Entry.ofNat (s.newestNat (entryLoc htbase h) 32)

/-- What a resolved handle grants: root entry and handle, the handle that was named, window, effective rights, and the table lines
read (R144). -/
structure Window where
  root : Entry
  handle : Nat
  named : Nat
  base : Nat
  len : Nat
  rights : Nat
  lines : List Nat
  deriving DecidableEq, Repr

/-- resolve of R144: a window, or the code of the trap raised. -/
def State.resolve (s : State) (htbase : Dword) (htlen h : Nat) : Except Code Window :=
  let ln (h : Nat) : List Nat := (entryLoc htbase h).line?.toList
  let fin (w : Window) (bad : Bool) : Except Code Window :=
    if bad || 5 ≤ w.root.space || w.root.home == 3 then .error cHandle else .ok w
  if h == 0 || htlen ≤ h then .error cHandle
  else
    let e := s.entry htbase h
    if e.kind == 1 then fin { root := e, handle := h, named := h, base := 0, len := e.len, rights := e.rights, lines := ln h } e.bad
    else if e.kind == 2 then
      let p := e.parent
      let root := s.entry htbase p
      if p == 0 || htlen ≤ p || root.kind != 1 then .error cHandle
      else if root.len < e.base + e.len then .error cBounds
      else fin { root, handle := p, named := h, base := e.base, len := e.len, rights := e.rights &&& root.rights, lines := ln h ++ ln p }
        (e.bad || root.bad)
    else .error cHandle

/-! ## Access checks (R145, R146) -/

/-- Rights by bit: R, W, X, A, P (R143). -/
inductive Right where
  | read | write | exec | atomic | publish
  deriving DecidableEq, Repr

/-- A right's bit within RIGHTS. -/
def Right.bit : Right → Nat
  | .read => 0 | .write => 1 | .exec => 2 | .atomic => 3 | .publish => 4

/-- A window grants a right. -/
def Window.grants (w : Window) (r : Right) : Bool := w.rights.testBit r.bit

/-- The check of an access of `size` bytes at `cap` with a displacement (R145): the window and the root offset, or the
trap. -/
def State.checkAccess (s : State) (f : Fibre) (cap : Dword) (disp : Int) (size : Nat) (need : Right) (spaces : List Nat) :
    Except TrapInfo (Window × Nat) :=
  let ea := effAddr cap disp
  let ec := effCap cap disp
  if ea % size != 0 then .error (.cap cAlign ec)
  else
    match s.resolve f.inHtbase f.inHtlen (capHandle cap) with
    | .error c => .error (.cap c ec)
    | .ok w =>
      if ea < 0 || (w.len : Int) < ea + size then .error (.cap cBounds ec)
      else if !w.grants need || !spaces.contains w.root.space then .error (.cap cRights ec)
      else .ok (w, w.base + ea.toNat)

/-! ## The object table (R285–R287) -/

/-- A descriptor's fields (R285); `bad` says that a reserved field is not zero. -/
structure ObjDesc where
  shadow : Nat
  live : Nat
  gen : Nat
  gran : Nat
  len : Nat
  pasid : Nat
  kind : Nat
  bad : Bool
  deriving DecidableEq, Repr

/-- A descriptor from its 512 bits (R285). -/
def ObjDesc.ofNat (v : Nat) : ObjDesc :=
  let f (lo n : Nat) : Nat := v / 2 ^ lo % 2 ^ n
  { shadow := f 256 64, live := f 192 64, gen := f 160 32, gran := f 136 2, len := f 64 40, pasid := f 32 20, kind := f 0 3,
    bad := f 320 192 != 0 || f 138 22 != 0 || f 104 32 != 0 || f 52 12 != 0 || f 3 29 != 0 }

/-- Bytes of a granule (R285). -/
def granule (g : Nat) : Nat :=
  match g with
  | 0 => 2 ^ 18
  | 1 => 2 ^ 21
  | 2 => 2 ^ 26
  | _ => 2 ^ 30

/-- Where the descriptor of an object lies in a partition's table (R285). -/
def descLoc (table : Nat) (x : BitVec 64) : Loc := devLoc (table + 64 * (x.toNat % 2 ^ 32))

/-- The object table of a context (R285) (DESIGN CHOICE; log 48). -/
def State.objTable (s : State) (ctx : Nat) : Nat :=
  match (s.ctx? ctx).bind fun c => s.part? c.part with | some p => p.objTable | none => 0

/-- What a translation finds (R287, R291, R292). -/
inductive XRes where
  | at (loc : Loc) (lines : List Nat)
  /-- the extent and the device physical address of its entry -/
  | missing (ext entry : Nat)
  | failed (ext : Nat)
  /-- a malformed descriptor or entry: the translation fault without a record -/
  | bad
  deriving DecidableEq, Repr

/-- The place of byte `i` of an extent (R286, R271) (DESIGN CHOICE; log 69). -/
def extentLoc (d : ObjDesc) (home win frame i : Nat) : Option Loc :=
  let a := frame * 4096 + i
  match d.kind with
  | 1 =>
    if win != 3 && win != home then none
    else some (if a < 2 ^ 40 then devLoc (win * 2 ^ 40 + a) else .unbacked)
  | 2 => some (.host d.pasid a)
  | 3 => some (.peer (frame / 2 ^ 40 % 2 ^ 12) ((frame % 2 ^ 40 * 4096 + i) % 2 ^ 42))
  | 4 => some (.pool (frame / 2 ^ 40 % 2 ^ 12) ((frame % 2 ^ 40 * 4096 + i) % 2 ^ 45))
  | 5 => some (.weight (frame / 2 ^ 49 % 8) ((frame % 2 ^ 18 * 4096 + i) % 2 ^ 30))
  | _ => none

/-- Translation of root offset `o` (R287); `shadow` selects the shadow extents. -/
def State.lookup (s : State) (ctx : Nat) (root : Entry) (o : Nat) (shadow : Bool) : XRes :=
  let x := root.objid
  let dl := descLoc (s.objTable ctx) x
  let d := ObjDesc.ofNat (s.newestNat dl 64)
  if d.gen != x.toNat / 2 ^ 32 || d.kind == 0 || 6 ≤ d.kind || d.bad || d.kind != root.space + 1 || d.len ≤ o || (shadow && d.shadow == 0) then .bad
  else
    let g := granule d.gran
    let ext := o / g
    let ea := (if shadow then d.shadow else d.live) + 8 * ext
    let el := devLoc ea
    let e := s.newestNat el 8
    let lines := dl.line?.toList ++ el.line?.toList
    let st := e / 2 ^ 62
    if st == 3 || e / 2 ^ 56 % 2 ^ 6 != 0 || e / 2 ^ 52 % 4 != 0 then .bad
    else if st == 0 then .missing ext (ea % 2 ^ 42)
    else if st == 2 then .failed ext
    else
      match extentLoc d root.home (e / 2 ^ 54 % 4) (e % 2 ^ 52) (o % g) with
      | some loc => .at loc lines
      | none => .bad

/-! ## Missing translations (R291) and host translations (R293) -/

/-- Kinds of access of a page-fault record (R396). -/
inductive FaultAcc where
  | load | store | matrix | engine
  deriving DecidableEq, Repr

/-- ACC of a page-fault record (R396). -/
def FaultAcc.code : FaultAcc → Nat
  | .load => 0 | .store => 1 | .matrix => 2 | .engine => 3

/-- The page-fault record (R396). -/
def faultRecord (obj : BitVec 64) (ext ctx home die : Nat) (acc : FaultAcc) (launch : Word) : BitVec 256 :=
  packBits 256 [(obj.toNat, 192), (ext % 2 ^ 32, 160), (acc.code, 128), (ctx, 104), (home, 96),
    (if acc == .engine then 0 else launch.toNat, 64), (3, 61), (die, 48)]

/-- The extent entry's line is watched and one record goes to the die's service queue, unless the die already watches the
entry (R291). -/
def State.pageFault (s : State) (die ctx : Nat) (root : Entry) (ext entry : Nat) (acc : FaultAcc) (launch : Word) : State :=
  if s.coh.watched.any fun w => w.die == die && w.entry == entry then s
  else
    (s.modCoh fun c => { c with watched := c.watched ++ [{ die, obj := root.objid, ext, entry }] }).svcPush die
      [⟨faultRecord root.objid ext ctx root.home die acc launch, false⟩]

/-- Update the I/O die's host side. -/
def State.modHost (s : State) (g : HostSt → HostSt) : State := { s with host := g s.host }

/-- A cached translation that grants an access (R293). -/
def State.atc? (s : State) (pasid iova : Nat) (wr : Bool) : Option Atc :=
  s.host.atc.find? fun a => a.pasid == pasid && a.base ≤ iova && iova < a.base + a.size && (if wr then a.write else a.read)

/-- A use of a cached translation makes it the most recent (R293). -/
def State.useAtc (s : State) (a : Atc) : State := s.modHost fun h => { h with atc := h.atc.filter (· != a) ++ [a] }

/-- The generation of a context (R294). -/
def State.genOf (s : State) (ctx : Nat) : Nat := match s.ctx? ctx with | some c => c.gen | none => 0

/-- A miss of the I/O die's translations: an access joins the Page Request of its page where one is outstanding; otherwise
one Translation Request is sent for the page (R293, R298). -/
def State.atsMiss (s : State) (pasid page : Nat) (wr : Bool) (ctx : Nat) : State :=
  let on (p : PageReq) : Bool := p.pasid == pasid && p.page == page
  let w := (ctx, s.genOf ctx)
  let join (p : PageReq) : PageReq := { p with wr := p.wr || wr, waiters := nub (p.waiters ++ [w]) }
  if s.host.pri.any on then s.modHost fun h => { h with pri := updIf on join h.pri }
  else if s.host.ats.any on then s.modHost fun h => { h with ats := updIf on join h.ats }
  else
    (s.modHost fun h => { h with ats := h.ats ++ [{ pasid, page, wr, sent := true, waiters := [w] }] }).modCoh fun c => { c with
      atsreq := (c.atsreq + 1) % 2 ^ 64 }

/-! ## Extent and handle caches (R288) -/

/-- Two cached entries are of one extent or handle in one cache. -/
def XEntry.same (x y : XEntry) : Bool :=
  x.die == y.die && x.core == y.core && x.ctx == y.ctx && x.handle == y.handle && x.obj == y.obj && x.ext == y.ext && x.shadow == y.shadow

/-- An entry enters its cache as the one used last, in place of the one used longest ago where the cache is full: 256 extents in a
core's, 8,192 in a die's; 256 handle entries in a core's, for which R288 gives no number (DESIGN CHOICE; log 71). -/
def State.putXc (s : State) (x : XEntry) : State :=
  let rest := s.xc.filter fun y => !y.same x
  let mine := rest.filter fun y => y.die == x.die && y.core == x.core && y.handle == x.handle
  let cap := if x.core.isSome then 256 else 8192
  match (if cap ≤ mine.length then mine.head? else none) with
  | some v => v.lines.foldl State.unmarkXlat { s with xc := (rest.erase v) ++ [x] }
  | none => { s with xc := rest ++ [x] }

/-- A die reads translation lines: coherently through its L2, and their home marks them (R288). -/
def State.readXlat (s : State) (die cls : Nat) (lines : List Nat) : State :=
  (nub lines).foldl (fun s l =>
    let s1 := (s.fetchNow die l cls).ensureDir l
    s1.setDir { s1.dirOf l with xlat := true }) s

/-- Coherent reads of an entry's lines fill a cache with it, once the die L2 holds them (R288): a line that could not be read now
leaves the entry uncached. -/
def State.fillXc (s : State) (x : XEntry) : State :=
  let s1 := s.readXlat x.die 0 x.lines
  if x.lines.all fun l => (s1.l2? x.die l).isSome then s1.putXc x else s1

/-- An extent or a handle's entry resolved for a core: its cache fills from the die's, and that by coherent reads of the lines; a
handle's entry is cached in the core alone (R288). -/
def State.cacheEntry (s : State) (core ctx : Nat) (handle : Bool) (obj : BitVec 64) (ext : Nat) (shadow : Bool) (lines : List Nat) : State :=
  let x : XEntry := { die := coreDie core, core := some core, ctx, handle, obj, ext, shadow, lines := nub lines }
  if s.xc.any x.same then s.putXc x
  else if handle then s.fillXc x
  else
    let d := { x with core := none }
    let s1 := if s.xc.any d.same then s.putXc d else s.fillXc d
    if s1.xc.any d.same then s1.putXc x else s1

/-- What the translation of an access leaves in the caches: the handle's entries and the extent. -/
def State.cacheXlat (s : State) (core ctx handle : Nat) (hlines : List Nat) (obj : BitVec 64) (ext : Nat) (shadow : Bool)
    (lines : List Nat) : State :=
  let s1 := if hlines == [] then s else s.cacheEntry core ctx true (BitVec.ofNat 64 handle) 0 false hlines
  s1.cacheEntry core ctx false obj ext shadow lines

/-- What becomes of an access once its checks have passed. -/
inductive XOut where
  /-- it lies here; the translation lines and the I/O virtual address used -/
  | at (loc : Loc) (lines : List Nat) (iova : Option (Nat × Nat))
  /-- it waits -/
  | wait (on : XWait)
  /-- the translation fault -/
  | fail
  deriving DecidableEq, Repr

/-- A Page Request for a page is outstanding, or waits to be sent (R293). -/
def State.pageOut (s : State) (pasid page : Nat) : Bool := s.host.pri.any fun p => p.pasid == pasid && p.page == page

/-- The extent of an object that a root offset lies in. -/
def State.extOf (s : State) (ctx : Nat) (root : Entry) (o : Nat) : Nat :=
  o / granule (ObjDesc.ofNat (s.newestNat (descLoc (s.objTable ctx) root.objid) 64)).gran

/-- The device physical address of the entry of an extent (R286). -/
def State.entryDpa (s : State) (ctx : Nat) (root : Entry) (o : Nat) (shadow : Bool) : Nat :=
  let d := ObjDesc.ofNat (s.newestNat (descLoc (s.objTable ctx) root.objid) 64)
  ((if shadow then d.shadow else d.live) + 8 * (o / granule d.gran)) % 2 ^ 42

/-- A place in the weight store of another die. -/
def Loc.otherStore (l : Loc) (die : Nat) : Bool := match l with | .weight d _ => d != die | _ => false

/-- Translate an access of a core, with all that a miss brings about (R287–R293). A host access that the I/O die cannot translate
yet lies at its I/O virtual address, where it is held; while a Page Request of its page is out it waits (log 43). An extent of another die's weight store is missing to
an engine's read, and a fault to a matrix operation's (R157, R186, R287). -/
def State.translate (s : State) (core ctx : Nat) (w : Window) (o : Nat) (wr : Bool) (acc : FaultAcc) (launch : Word)
    (shadow : Bool) : XOut × State :=
  match s.lookup ctx w.root o shadow with
  | .bad => (.fail, s)
  | .failed _ => (.fail, s)
  | .missing ext entry =>
    (.wait (.extent w.root.objid ext entry), s.pageFault (coreDie core) ctx w.root ext entry acc launch)
  | .at loc lines =>
    if !wr && acc == .matrix && loc.otherStore (coreDie core) then (.fail, s)
    else if !wr && acc == .engine && loc.otherStore (coreDie core) then
      let ext := s.extOf ctx w.root o
      let entry := s.entryDpa ctx w.root o shadow
      (.wait (.extent w.root.objid ext entry), s.pageFault (coreDie core) ctx w.root ext entry acc launch)
    else
    let s1 := s.cacheXlat core ctx w.named w.lines w.root.objid (s.extOf ctx w.root o) shadow lines
    match loc with
    | .host pasid iova =>
      match s1.atc? pasid iova wr with
      | some a =>
        (.at (.hostPa (a.host + (iova - a.base))) (w.lines ++ lines) (some (pasid, iova)), s1.useAtc a)
      | none =>
        let page := iova / 4096
        let s2 := s1.atsMiss pasid page wr ctx
        if s1.pageOut pasid page then (.wait (.page pasid page), s2)
        else (.at loc (w.lines ++ lines) (some (pasid, iova)), s2)
    | _ => (.at loc (w.lines ++ lines) none, s1)

/-- The extent a wait names has been answered: no die watches its entry any more; a page, once a translation is cached or its
request has been answered. -/
def State.answered (s : State) (on : XWait) : Bool :=
  match on with
  | .extent _ _ entry => !s.coh.watched.any fun w => w.entry == entry
  | .page pasid page =>
    !(s.host.ats.any fun p => p.pasid == pasid && p.page == page) && !s.pageOut pasid page

end Sys2Proof.Machine
end

