-- ==== Sys2Proof/Machine/Checker.lean ====
section
/-! DEFINITION. The run-time checkers (R299–R316): interval records at the home slice, violations and containment, the
reorder checker, and the clearance time limit. -/

namespace Sys2Proof.Machine

/-! ## Containment (R314, R315) -/

/-- LINE of R306 as a 52-bit number. -/
def lineField (line : Nat) : Nat := line % 2 ^ 52

/-- INFO of a containment trap (R314, item 2). -/
def containInfo (v : Violation) (sc : Scope) : Dword :=
  packBits 64 [(v.cause, 55), (scopeRank sc, 52), (lineField v.line, 0)]

/-- The containment record, for a held fibre or for none, and the context frozen with it, 0 for none (R314, R315). -/
def containRecord (s : State) (v : Violation) (f : Option (Fibre × Scope)) (ctx : Nat) : BitVec 512 :=
  let own : List (Nat × Nat) := match f with
    | some (f, sc) => [(f.pc.toNat, 256), (scopeRank sc, 197), ((s.launchId f.key).toNat, 64), (coreDie f.core, 48),
        (coreInDie f.core, 40), (f.slot, 16)]
    | none => []
  packBits 512 ([(v.exp.toNat, 448), (v.got.toNat, 384), (s.time, 320), (lineField v.line, 204), (v.cause, 200),
    (v.n.toNat, 160), (v.holder.toNat, 144), (v.supplier.toNat, 128), (ctx, 104), (cContain.toNat, 0)] ++ own)

/-- An interval is the violated one or one after it on its line (R314, item 2). -/
def Violation.covers (v : Violation) (line : Nat) (n : BitVec 32) : Bool := line == v.line && (n - v.n).toNat < 2 ^ 31

/-- A fibre's earlier accesses were performed in the violated interval or after it. -/
def State.touched (s : State) (v : Violation) (k : FKey) : Bool :=
  (s.log.any fun e => e.key == k && (match e.interval with | some n => v.covers e.line n | none => false))
    || s.owed.any fun w => w.key == k && v.covers w.line w.interval

/-- A fibre waits at a release for a violated interval (R312, R314). -/
def State.waitsOn (s : State) (v : Violation) (f : Fibre) : Option (Scope × RelAct) :=
  match f.cond with
  | .held (.release sc act _) => if s.touched v f.key then some (sc, act) else none
  | _ => none

/-- The context of a release that waited is frozen, with one containment record for it in a die's error log, in its fault ring
and sent to the host (R314, R316). -/
def State.containCtx (s : State) (v : Violation) (die ctx : Nat) (f : Option (Fibre × Scope)) : State :=
  let seen := match s.ival? v.line v.n with | some i => i.recorded.contains ctx | none => false
  let s1 := s.freezeCtx ctx
  if seen then s1
  else
    let r := containRecord s v f ctx
    (((s1.modIval v.line v.n fun i => { i with recorded := i.recorded ++ [ctx] }).errLog (.containment die r)).faultRing ctx r).notice 2
      ctx r

/-- One held release ends: the fibre raises the containment trap, and its context is frozen (R314, R316). -/
def State.contain (s : State) (v : Violation) (f : Fibre) (sc : Scope) (act : RelAct) : State :=
  (s.abandonRelease f.key act ⟨cContain, 0, containInfo v sc⟩).containCtx v (coreDie f.core) (s.ctxOf f.key) (some (f, sc))

/-- A publish that waits for an earlier shadow command of its queue register on its object (R364). -/
def Cmd.publishes (c d : Cmd) : Bool :=
  c.unit.toNat % 128 == 7 && d.unit.getLsbD 14 && c.sheaf == d.sheaf && c.q == d.q && d.id < c.id
    && d.refs.any fun r => match r, c.refs.head? with
      | .mem x _ _ _ _ _, some (.mem y _ _ _ _ _) => x == y
      | _, _ => false

/-- A command that writes shadow extents and has met a violation: a publish of its object through its register finds it, as long as
the line stays poisoned (R290, R314, R364; log 77). -/
def State.stain (s : State) (c : Cmd) (line : Nat) : State :=
  match c.unit.getLsbD 14, c.refs.getLast? with
  | true, some (.mem obj _ _ _ _ _) => s.modSheaf c.sheaf fun h => { h with
      queues := h.queues.mapIdx fun i r => if i == c.q then { r with stained := nub (r.stained ++ [(obj, line)]) } else r }
  | _, _ => s

/-- An access in the cover set of a publish was performed in the violated interval or after it (R262, R364). -/
def State.coverStruck (s : State) (v : Violation) (c : Cmd) : Bool :=
  s.log.any fun e => c.cover.contains e.seq && (match e.interval with | some n => v.covers e.line n | none => false)

/-- A violation (R314): the line is poisoned, waiting releases never complete, and engine arrivals and publishes that wait
on it end with status 0x000C, their contexts frozen. A fibre of a saved sheaf raises its trap, and its context's record is written, when
it is restored (R316). -/
def State.violate (s : State) (v : Violation) : State :=
  let s0 := s.modCoh fun c => { c with poison := nub (c.poison ++ [v.line]) }
  let x : Ival := { line := v.line, n := v.n, writer := none, readers := [], expect := none, supplier := 0, due := [], closed := none,
                    closer := 0, violated := some v, recorded := [] }
  let s1 := match s0.ival? v.line v.n with
    | some _ => s0.modIval v.line v.n fun i => { i with violated := some v }
    | none => { s0 with chk := { s0.chk with ivals := s0.chk.ivals ++ [x] } }
  let waiting := s1.fibres.filterMap fun f =>
    if (match s1.sheaf? f.key.sheaf with | some h => h.saved | none => true) then none
    else (s1.waitsOn v f).map fun x => (f, x)
  let s2 := waiting.foldl (fun s x => s.contain v x.1 x.2.1 x.2.2) s1
  let struck := s2.cmds.filter fun c => (c.ivs.any fun i => v.covers i.1 i.2) || s2.coverStruck v c
  let hit := s2.cmds.filter fun c => struck.any (·.id == c.id) || struck.any c.publishes
  let s3 := hit.foldl (fun s c => (s.modCmd c.id fun c => { c with last := some 0x000C, noArrival := true, ivs := [] }).containCtx v c.die
    c.ctx none |>.stain c v.line) s2
  let later := s1.fibres.any fun f => (match s1.sheaf? f.key.sheaf with | some h => h.saved | none => false) && (s1.waitsOn v f).isSome
  let s4 := if waiting == [] && hit == [] && !later then
      let r := containRecord s v none 0
      (s3.errLog (.containment (2 * homeBase v.line) r)).notice 2 0 r
    else s3
  s4.wakeLine v.line

/-! ## Records at the home slice (R308, R309) -/

/-- The expected hash of an interval becomes known; a reader interval hands the same hash on to the next (R308, item 1). -/
def State.fixExpect (s : State) (line : Nat) (h : Dword) (sup : BitVec 16) : Nat → BitVec 32 → State
  | 0, _ => s
  | k + 1, n =>
    match s.ival? line n with
    | none => s
    | some i =>
      if i.expect.isSome then s
      else
        let s1 := s.modIval line n fun i => { i with expect := some h, supplier := sup }
        if i.writer.isSome then s1 else s1.fixExpect line h sup k (n + 1)

/-- A closing hash reaches an interval: it is what the interval hands on, and fixes the expected hash of the next. -/
def State.closeIval (s : State) (r : IRec) (h : Dword) : State :=
  (s.modIval r.line r.interval fun i => { i with closed := some h, closer := r.holder }).fixExpect r.line h r.holder
    s.chk.ivals.length (r.interval + 1)

/-- The violation a record shows. -/
def recViolation (r : IRec) (cause : Nat) (supplier : BitVec 16) (exp got : Dword) : Violation :=
  { line := r.line, n := r.interval, cause, holder := r.holder, supplier, exp, got }

/-- A record of a kind may name its interval (R308, item 5): OPEN, OVERWRITE and ATOMIC once, in the interval in which their holder was
granted the line; SUPPLY, CLOSE and MEMWRITE in the interval that stood at the home as they were sent, or the one before it; a writer
closes its interval once. -/
def IRec.mayName (r : IRec) (i : Ival) : Bool :=
  match r.kind with
  | .open | .overwrite | .atomic => i.due.contains r.holder.toNat
  | .close | .supply => (r.interval == r.now || r.interval + 1 == r.now) && !(i.writer.isSome && i.closed.isSome)
  | .memwrite => r.interval == r.now || r.interval + 1 == r.now
  | .memfill => true

/-- A memory transfer of a line is recorded by its HBM controller, or by a fabric port for a line of another home (R308, item 6). -/
def State.memUnit (s : State) (r : IRec) : Bool :=
  if lineSpace r.line == 0 then r.holder == s.hMem r.line else r.holder.toNat / 2 ^ 12 == 6

/-- The checker takes one record (R308). A record of a unit that may not make it in that interval, or that names an interval it may
not name, is a role violation (item 5); where no expected hash of the interval is known, EXPHASH is 0 (DESIGN CHOICE; log 84). -/
def State.takeRec (s : State) (r : IRec) : State :=
  match s.ival? r.line r.interval with
  | none => s.violate (recViolation r 1 0 0 r.hash)
  | some i =>
    let exp := i.expect.getD 0
    let who := r.holder.toNat
    let role := if r.writer then i.writer == some who else i.readers.contains who
    let bad (cause : Nat) (got : Dword) : State := s.violate (recViolation r cause i.supplier exp got)
    let due (s : State) : State := s.modIval r.line r.interval fun i => { i with due := i.due.erase who }
    match r.kind with
    | .open =>
      if !role || !r.mayName i then bad 1 r.hash
      else if i.expect == some r.hash then due s
      else bad 0 r.hash
    | .overwrite => if r.writer && role && r.mayName i then due s else bad 1 r.hash
    | .atomic =>
      if !(r.writer && role && r.mayName i) then bad 1 r.hashb
      else if i.expect == some r.hashb then due (s.closeIval r r.hash)
      else bad 3 r.hashb
    | .close | .supply =>
      if !role || !r.mayName i then bad 1 r.hash
      else if i.writer.isSome || i.expect == some r.hash then s.closeIval r r.hash
      else bad 0 r.hash
    | .memwrite =>
      if !s.memUnit r || !r.mayName i then bad 1 r.hash
      else match i.closed.or i.expect with
      | some h => if h == r.hash then s else s.violate (recViolation r 5 (if i.closed.isSome then i.closer else i.supplier) h r.hash)
      | none => s
    | .memfill => if !s.memUnit r then bad 1 r.hash else if i.writer.isSome || i.expect == some r.hash then s.closeIval r r.hash else bad 5 r.hash

/-- A record can be matched now: one that is held to a hash waits until that hash is fixed (R308). -/
def State.recReady (s : State) (r : IRec) : Bool :=
  match s.ival? r.line r.interval with
  | none => true
  | some i => match r.kind with
    | .open => i.expect.isSome || !i.due.contains r.holder.toNat
    | .atomic => i.expect.isSome || !i.due.contains r.holder.toNat
    | .close | .supply | .memfill => i.writer.isSome || i.expect.isSome
    | .memwrite => i.closed.isSome || (i.writer.isNone && i.expect.isSome)
    | .overwrite => true

/-- INTERVAL_RECORD: the home slice's checker matches the oldest record of a line that it can (R308). -/
def execIntervalRecord (line : Nat) (s : State) : Outc :=
  match s.chk.recs.find? (fun r => r.line == line && s.recReady r) with
  | none => .next s
  | some r => .next (({ s with chk := { s.chk with recs := s.chk.recs.erase r } }).takeRec r)

/-! ## Clearance time limit (R313) -/

/-- The holder of a line's newest data is lost: its interval is closed as damaged, a violation of cause 7 (R311, R315, R384). An
expected hash that no record has fixed yet is an open value (log 17). -/
def State.damaged (s : State) (line : Nat) (holder : BitVec 16) : State :=
  let n := (s.dirOf line).interval
  let (x, s1) := s.freeBits
  let (exp, supplier) := match s.ival? line n with | some v => (v.expect.getD x, v.supplier) | none => (x, 0)
  s1.violate { line, n, cause := 7, holder, supplier, exp, got := 0 }

/-- The violation of an interval that was not cleared in time (R313). HOLDER is a unit whose OPEN or OVERWRITE is due, 0 where only the
expected hash is missing (DESIGN CHOICE; log 84). -/
def State.timedOut (s : State) (line : Nat) (n : BitVec 32) : State :=
  match s.ival? line n with
  | some i =>
    if i.cleared || i.violated.isSome then s
    else s.violate { line, n, cause := 6, holder := BitVec.ofNat 16 (i.due.headD 0), supplier := i.supplier, exp := 0, got := 0 }
  | none => s

/-- CLEARANCE_TIMEOUT: an interval not cleared 10 µs after the release of a fibre, or (`fid` 4096) the arrival or publish of engine
command `u`, began waiting for it is a violation of cause 6 (R313). -/
def execClearanceTimeout (u fid : Nat) (s : State) : Outc :=
  if fid == 4096 then
    match s.cmd? u with
    | none => .next s
    | some c =>
      match c.since, c.ivs.find? fun i => !s.ivalCleared i.1 i.2 with
      | some t, some i => if s.time < t + 10000 then .next s else .next (s.timedOut i.1 i.2)
      | _, _ => .next s
  else
    match s.fib? ⟨u, fid⟩ with
    | none => .next s
    | some f =>
      match f.cond with
      | .held (.release _ _ since) =>
        if (match s.sheaf? u with | some h => h.saved | none => true) then .next s
        else
          let open_ := (s.log.filter (·.key == f.key)).filterMap (fun e => e.interval.map fun n => (e.line, n, e.since))
            ++ (s.owed.filter (·.key == f.key)).map fun w => (w.line, w.interval, w.since)
          -- the release waits for an interval from its own start, or from the access that was performed in it later
          match open_.find? fun i => !s.ivalCleared i.1 i.2.1 && max since i.2.2 + 10000 ≤ s.time with
          | some i => .next (s.timedOut i.1 i.2.1)
          | none => .next s
      | _ => .next s

/-! ## The reorder checker (R300–R303) -/

/-- An event did not come after another. -/
def early (y x : Option Nat) : Bool :=
  match y, x with
  | some b, some a => b < a
  | some _, none => true
  | none, _ => false

/-- When an entry took effect: a read when it returned, a write when performed at die, an act when done. -/
def Access.at? (e : Access) : Option Nat := if e.kind.writes then e.atDie else e.returned

/-- When an entry's writes were performed at a scope. -/
def Access.wroteWhen (e : Access) (sc : Scope) : Option Nat :=
  if scopeRank sc ≤ 3 then e.atDie else if scopeRank sc == 4 || lineSpace e.line == 2 then e.atPkg else e.atSys

/-- An entry is an acquire act, or a fence that orders what follows (R302). -/
def Access.acquires (e : Access) : Bool :=
  match e.kind with
  | .fence k => k != .rel
  | .pop => true
  | _ => e.ord == .acq || e.ord == .ar

/-- An entry is a release act or a releasing fence (R302). -/
def Access.releases (e : Access) : Bool :=
  match e.kind with
  | .fence k => k != .acq
  | .arrive | .sbar | .push | .svc => true
  | _ => e.ord == .rel || e.ord == .ar

/-- Two entries name a common location (R243). -/
def Access.meets (x y : Access) : Bool :=
  x.line == y.line && x.line != noLine && x.off < y.off + y.size && y.off < x.off + x.size

/-- The writes of two entries to one location were performed in the wrong order at some scope. -/
def scopesBroken (x y : Access) : Bool :=
  x.meets y && x.kind.writes && y.kind.writes
    && [Scope.die, .pkg, .sys].any fun sc => match y.wroteWhen sc, x.wroteWhen sc with
      | some b, some a => b < a
      | some _, none => true
      | none, _ => false

/-- A constraint of R302 between two entries of one fibre, X before Y, is broken. No row but that of the releases constrains a read that
stands outside the memory model (R242, R265), and an act at .fib waits for nothing (R165). -/
def orderBroken (x y : Access) : Bool :=
  (x.kind != .loose && y.kind != .loose
      && ((x.meets y && early y.at? x.at?)
        || scopesBroken x y
        || (x.kind.reads && y.kind.writes && early y.atDie x.returned)
        || (x.acquires && early y.at? x.returned)))
    || (y.releases && y.sc != .fib
      && ((x.kind.writes && early y.at? (x.wroteWhen y.sc)) || (x.kind.reads && early y.at? x.returned)))
    || ((match x.kind with | .fence k => k != .acq | _ => false) && y.kind.writes && early y.atDie x.returned)

/-- An entry has taken effect, so that it can be checked. -/
def Access.settled (e : Access) : Bool :=
  if e.kind.writes then e.atDie.isSome && (!e.kind.reads || e.returned.isSome) else e.returned.isSome

/-- The violation of a broken constraint: the line and the interval of entry Y. No later release of the fibre clears (R303). -/
def State.reorderViolation (s : State) (e : Access) : State :=
  let n := e.interval.getD 0
  ({ s with log := updIf (·.seq == e.seq) (fun x => { x with interval := some n }) s.log }).violate
    { line := e.line, n, cause := 2, holder := hCore e.core, supplier := hCore e.core, exp := 0, got := 0 }

/-- Check one entry whose earlier entries of the same fibre have all been checked (R303). -/
def State.checkEntry (s : State) (e : Access) : State :=
  let before := s.log.filter fun x => x.key == e.key && x.seq < e.seq
  if e.checked || !e.settled || before.any (!·.checked) then s
  else
    let s1 := { s with log := updIf (·.seq == e.seq) (fun x => { x with checked := true }) s.log }
    if before.any (orderBroken · e) then s1.reorderViolation e else s1

/-- A publish whose cover set holds an access that is not yet cleared keeps waiting for its interval (R262, R364). -/
def State.coverLater (s : State) (e : Access) (n : BitVec 32) : State :=
  if s.ivalCleared e.line n then s
  else { s with cmds := updIf (·.cover.contains e.seq) (fun c => { c with ivs := nub (c.ivs ++ [(e.line, n)]) }) s.cmds }

/-- An entry that is checked, as every earlier one of its fibre is, leaves the log once every event that a later act of its fibre
still needs has occurred (R300); the order in which writes to one location reached the wider scopes has then been seen
(R302). An interval not yet cleared is still owed to the fibre's releases (R312). -/
def State.freeEntry (s : State) (e : Access) : State :=
  if !(e.checked && e.metAt .sys) then s
  else
    let late := s.log.any fun x => x.key == e.key && x.seq < e.seq && scopesBroken x e
    let s1 := if late then s.reorderViolation e else s
    let s2 := { s1 with log := s1.log.filter (·.seq != e.seq) }
    match e.interval with
    | some n => (s2.owe e.key e.line n e.since).coverLater e n
    | none => s2

/-- Entries of a core that are done with leave its log; what has been cleared is no longer owed. -/
def State.freeLog (s : State) (core : Nat) : State :=
  let s1 := (s.log.filter (·.core == core)).foldl State.freeEntry s
  { s1 with owed := s1.owed.filter fun w => !s1.ivalCleared w.line w.interval }

/-- REORDER_CHECK: a core's checker checks the entries that it can, in issue order, and frees those that are done with
(R300–R303). -/
def execReorderCheck (core : Nat) (s : State) : Outc :=
  .next (((s.log.filter (·.core == core)).foldl (fun s e => s.checkEntry e) s).freeLog core)

end Sys2Proof.Machine
end

