-- ==== Sys2Proof/Machine/MemInstr.lean ====
section
/-! DEFINITION. Memory, capability and fence instructions as they issue (R143–R173): checks, translation, and the operation
that each leaves outstanding. What an operation does when it is performed stands in Complete. -/

namespace Sys2Proof.Machine

/-! ## Outstanding operations -/

/-- An operation with nothing said but whose it is and what kind. -/
def MemOp.blank (id : Nat) (s : State) (f : Fibre) (kind : OpKind) (ty : Ty) : MemOp :=
  { id, key := f.key, core := f.core, pc := f.pc, kind, ty, ord := .plain, sc := .fib, hint := .none, cls := 0, loc := .unbacked,
    obj := 0, ext := 0, xl := [], iova := none, roff := 0, grp := s.evno, size := tySize ty, val := 0, val2 := 0, cap := 0,
    dst := none, dst2 := none, flags := [], released := true, homeDone := false, recalling := false, direct := false, clause := f.clause, unit := 0,
    queue := 0, decl := false, inc := f.inc, gone := false, replay := 0 }

/-- What an operation is in the commit log (R300): prefetches, maintenance and `hnarrow` do not enter it. -/
def OpKind.acc? : OpKind → Option AccKind
  | .ld | .lds | .marm => some .read
  | .ldRo | .ldw | .ldwNb => some .loose
  | .st | .sts | .stx | .red _ => some .write
  | .atom _ | .atomc => some .rmw
  | .qpush => some .push
  | .qpop => some .pop
  | .pref _ | .cwb | .cinv | .cflush | .hnarrow => none

/-- The line of a place, or the number of the unit of it where it has no line, as the commit log names it, and the bytes of it
that are accessed (R300). -/
def Loc.logPlace (l : Loc) (size : Nat) : Nat × Nat × Nat :=
  match l with
  | .scratch sh shadow off => (2 ^ 60 + sh * 2 ^ 21 + (if shadow then 2 ^ 20 else 0) + off / 16, off % 16, size)
  | .host p v => (2 ^ 95 + p * 2 ^ 64 + v / 128, v % 128, size)
  | .hostPa a => (2 ^ 90 + a / 128, a % 128, size)
  | .weight d a => (2 ^ 96 + d * 2 ^ 40 + a / 128, a % 128, size)
  | .regs o => (2 ^ 97 + o / 128, o % 128, size)
  | l => match l.line? with | some n => (n, l.inLine, size) | none => (noLine, 0, 0)

/-- The place of an operation, as the commit log names it: a host access by its I/O virtual address. -/
def MemOp.logPlace (o : MemOp) : Nat × Nat × Nat :=
  match o.iova with | some (p, v) => Loc.logPlace (.host p v) o.size | none => o.loc.logPlace o.size

/-- An operation becomes outstanding: it counts its flags and enters the log (R19, R300). -/
def State.addOp (s : State) (o : MemOp) : State :=
  let s1 := (s.modFib o.key (·.countFlags o.flags))
  let s2 := { s1 with ops := s1.ops ++ [o] }
  match o.kind.acc? with
  | some a => s2.logEntry o.key o.id a o.ord o.sc o.logPlace
  | none => s2

/-- ORDER has a release part (R69). -/
def Order.rel (o : Order) : Bool := o == .rel || o == .ar
/-- ORDER has an acquire part (R69). -/
def Order.acq (o : Order) : Bool := o == .acq || o == .ar

/-- A releasing access takes effect only once its release conditions hold (R165). -/
def State.freeRelease (s : State) (id : Nat) : State := s.modOp id fun o => { o with released := true }

/-- An operation is issued; a releasing one holds its fibre until it may take effect (R165). -/
def issueOp (o : MemOp) (s : State) : Act :=
  if Order.rel o.ord then
    releasing o.key o.sc o.id (.access o.id) (fun s => .next (s.freeRelease o.id)) (s.addOp { o with released := false })
  else .next (s.addOp o)

/-! ## Accesses through capabilities -/

/-- What a memory instruction asks for. -/
structure MemReq where
  kind : OpKind
  ty : Ty
  ord : Order
  sc : Scope
  hint : Hint
  direct : Bool
  disp : Int
  size : Nat
  need : Right
  spaces : List Nat
  /-- the access writes, so that a host translation must grant writing -/
  wr : Bool
  fsel : BitVec 2

/-- A plain store or reduction goes to the side log where its translation is missing; every other access holds its fibre
(R172, R173). -/
def MemReq.side (r : MemReq) : Bool :=
  r.ord == .plain && (match r.kind with | .st | .red _ => true | _ => false)

/-- The extent a wait names; for a page of a host object, the extent of the access. -/
def XWait.ext (on : XWait) (e : Nat) : Nat := match on with | .extent _ x _ => x | .page _ _ => e

/-- A missing translation's entry in the side log (R173); it has entered the commit log as its instruction issued (R300). -/
def State.logSide (s : State) (o : MemOp) (ctx : Nat) (root : Entry) (on : XWait) : State :=
  let e : SideEntry := { core := o.core, ctx, obj := root.objid, ext := on.ext (s.extOf ctx root o.roff), space := root.space,
                         home := root.home, on, op := o }
  { s with side := s.side ++ [e] }

/-- The entry of the side log that an access of one fibre needs: its object and line (R173). -/
def State.sideNeed (s : State) (r : MemReq) (a : Reg) (k : FKey) : Option (BitVec 64 × Nat) :=
  match s.fib? k with
  | none => none
  | some f =>
    match s.checkAccess f (f.pair a) r.disp r.size r.need r.spaces with
    | .error _ => none
    | .ok (w, o) =>
      match s.lookup (s.ctxOf k) w.root o false with
      | .missing _ _ => some (w.root.objid, o / 128)
      | .at (.host p v) _ => if (s.atc? p v r.wr).isNone && s.pageOut p (v / 4096) then some (w.root.objid, o / 128) else none
      | _ => none

/-- The side log has room for what an instruction of a warp needs of it; a faulting store that finds it full stalls in its warp
(R27, R173; DEDUCED; log 72). -/
def State.sideRoom (s : State) (i : Instr) (r : MemReq) (a : Reg) (w : Warp) : Bool :=
  let need := if r.side then nub ((w.members.filter (s.executes i)).filterMap (s.sideNeed r a)) else []
  need == [] || s.sideCount w.core + need.length ≤ 256

/-- An access of one fibre through the capability in `a`; `more` adds what the instruction brings beside it (R145, R154,
R172, R173, R287). A plain store or reduction that finds a failed translation as it issues raises the translation fault at its
instruction, as R292 says of the other accesses (DESIGN CHOICE; log 85). -/
def globalRun (r : MemReq) (a : Reg) (more : Fibre → MemOp → MemOp) (k : FKey) (s : State) : Act :=
  match s.fib? k with
  | none => .next s
  | some f =>
    let cap := f.pair a
    let ec := effCap cap r.disp
    match s.checkAccess f cap r.disp r.size r.need r.spaces with
    | .error t => .trap t
    | .ok (w, o) =>
      let ctx := s.ctxOf k
      let (x, s1) := s.translate f.core ctx w o r.wr (if r.side then .store else .load) (s.launchId k) false
      let (id, s2) := s1.fresh
      let op : MemOp := more f { MemOp.blank id s f r.kind r.ty with
        ord := r.ord, sc := r.sc, hint := r.hint, direct := r.direct, cls := w.root.cls, obj := w.root.objid, roff := o,
        size := r.size, cap := ec, flags := f.selected r.fsel }
      match x with
      | .fail => .trap (.cap cTransl ec)
      | .wait on =>
        if r.side then
          let s3 := (s2.modFib k (·.countFlags op.flags)).logSide op ctx w.root on
          .next (match r.kind.acc? with | some c => s3.logEntry k id c .plain .fib (noLine, 0, 0) | none => s3)
        else .stay (s1.setCond k (.waiting (.fault on ec)))
      | .at loc lines iova => issueOp { op with loc, xl := lines, iova } s2

/-- A request for data of a type. -/
def MemReq.data (kind : OpKind) (ty : Ty) (h : Hdr) (disp : Int) (need : Right) (spaces : List Nat) : MemReq :=
  { kind, ty, ord := .plain, sc := .fib, hint := .none, direct := false, disp, size := tySize ty, need, spaces, wr := false,
    fsel := h.fsel }

/-- The operations accepted on host memory (R171). -/
def hostAtomicOk (red : Bool) (op : AtomOp) (t : Ty) : Bool :=
  match op with
  | .add => t != .f32
  | .xchg => !red
  | _ => false

/-- The spaces an atomic serves: 0, 2 and 3, and 1 where R171 accepts it (R146). -/
def atomSpaces (ok : Bool) : List Nat := if ok then [0, 1, 2, 3] else [0, 2, 3]

/-- A request of an atomic, `atomc` or reduction. -/
def atomReq (kind : OpKind) (t : Ty) (ord : Order) (sc : Scope) (h : Hdr) (disp : Int) (hostOk : Bool) : MemReq :=
  { MemReq.data kind t h disp .atomic (atomSpaces hostOk) with ord, sc, wr := true }

/-- What a store or reduction that the side log may take asks for, and the register of its capability (R173). -/
def sideReq? : Instr → Option (MemReq × Reg)
  | .st h ord sc hint t _ a disp => some ({ MemReq.data .st t h disp.toInt .write [0, 1, 2, 3] with ord, sc, hint, wr := true }, a)
  | .red h op ord sc t _ a disp => some (atomReq (.red op) t ord sc h disp.toInt (hostAtomicOk true op t), a)
  | .redFloat h op ord sc t _ a disp => some (atomReq (.red op) t ord sc h disp.toInt (hostAtomicOk true op t), a)
  | _ => none

/-- An instruction's entries fit in the side log, so that its warp need not stall for it. -/
def State.sideFits (s : State) (i : Instr) (w : Warp) : Bool :=
  match sideReq? i with | some (r, a) => s.sideRoom i r a w | none => true

/-- A warp executes a store or reduction, once the side log has room for it (R173). -/
def storeExec (i : Instr) (more : Fibre → MemOp → MemOp) (s : State) : Outc :=
  match sideReq? i, s.issue with
  | some (r, a), some is =>
    match s.warp? is.core is.quad is.slot with
    | some w => if s.sideFits i w then warpExec i (globalRun r a more) s else .next { s with issue := none }
    | none => .next { s with issue := none }
  | _, _ => .next { s with issue := none }

/-- `ld` (R154). -/
def execLd (h : Hdr) (ord : Order) (sc : Scope) (hint : Hint) (direct : Bool) (t : Ty) (d a : Reg) (disp : Word)
    (s : State) : Outc :=
  warpExec (.ld h ord sc hint direct t d a disp)
    (globalRun { MemReq.data .ld t h disp.toInt .read [0, 1, 2, 3] with ord, sc, hint, direct } a
      fun _ o => { o with dst := some d }) s

/-- `st` (R154). -/
def execSt (h : Hdr) (ord : Order) (sc : Scope) (hint : Hint) (t : Ty) (v a : Reg) (disp : Word) (s : State) : Outc :=
  storeExec (.st h ord sc hint t v a disp) (fun f o => { o with val := BitVec.ofNat 64 (f.get t v) }) s

/-- `ld.ro` (R156). -/
def execLdRo (h : Hdr) (hint : Hint) (t : Ty) (d a : Reg) (disp : Word) (s : State) : Outc :=
  warpExec (.ldRo h hint t d a disp)
    (globalRun { MemReq.data .ldRo t h disp.toInt .read [0, 1, 2, 3] with hint } a fun _ o => { o with dst := some d }) s

/-! ## Scratchpad (R159, R160) -/

/-- The checks of a scratchpad access (R159): the offset, or the trap. -/
def scratchCheck (h : Sheaf) (a : Word) (disp : Int) (size : Nat) : Except TrapInfo Nat :=
  let o : Int := a.toNat + disp
  if o % size != 0 then .error (.plain cAlign)
  else if o < 0 || (4096 * h.granules : Int) < o + size then .error (.plain cBounds)
  else .ok o.toNat

/-- `lds` and `sts` for one fibre (R159). -/
def scratchRun (kind : OpKind) (t : Ty) (fsel : BitVec 2) (a : Reg) (disp : Word) (more : Fibre → MemOp → MemOp) (k : FKey)
    (s : State) : Act :=
  match s.fib? k, s.sheaf? k.sheaf with
  | some f, some sh =>
    match scratchCheck sh (f.reg a) disp.toInt (tySize t) with
    | .error e => .trap e
    | .ok o =>
      let (id, s1) := s.fresh
      .next (s1.addOp (more f { MemOp.blank id s f kind t with
        loc := .scratch k.sheaf false o, roff := o, flags := f.selected fsel }))
  | _, _ => .next s

/-- `lds` (R159). -/
def execLds (h : Hdr) (t : Ty) (d a : Reg) (disp : Word) (s : State) : Outc :=
  warpExec (.lds h t d a disp) (scratchRun .lds t h.fsel a disp fun _ o => { o with dst := some d }) s
/-- `sts` (R159). -/
def execSts (h : Hdr) (t : Ty) (v a : Reg) (disp : Word) (s : State) : Outc :=
  warpExec (.sts h t v a disp) (scratchRun .sts t h.fsel a disp fun f o => { o with val := BitVec.ofNat 64 (f.get t v) }) s

/-- `stx` (R160): the exchange trap, the checks of the offset, then the bounds trap for the rank. A sheaf of the stook that is no
longer placed takes no store (DESIGN CHOICE; log 73). -/
def execStx (h : Hdr) (t : Ty) (v a : Reg) (disp : BitVec 24) (kr : Reg) (s : State) : Outc :=
  warpExec (.stx h t v a disp kr) (fun k s =>
    match s.fib? k, s.sheaf? k.sheaf with
    | some f, some sh =>
      if sh.stook == 0 then .trap (.plain cExchange)
      else
        match scratchCheck sh (f.reg a) disp.toInt (tySize t) with
        | .error e => .trap e
        | .ok o =>
          let rank := (f.reg kr).toNat
          if sh.stook ≤ rank then .trap (.plain cBounds)
          else
            match (s.stookOf sh).find? (fun g => g.index % sh.stook == rank) with
            | none => .next s
            | some g =>
              let (id, s1) := s.fresh
              .next (s1.addOp { MemOp.blank id s f .stx t with
                loc := .scratch g.uid true o, roff := o, flags := f.selected h.fsel, val := BitVec.ofNat 64 (f.get t v) })
    | _, _ => .next s) s

/-! ## The weight store (R157, R158) -/

/-- Bank of a root offset (R157). -/
def weightBank (o : Nat) : Nat := o / 4096 % 64

/-- A weight-store access of one fibre, on the issuing die only (R157, R287). -/
def weightRun (kind : OpKind) (t : Ty) (fsel : BitVec 2) (a : Reg) (disp : Int) (more : Nat → State → MemOp → MemOp)
    (k : FKey) (s : State) : Act :=
  match s.fib? k with
  | none => .next s
  | some f =>
    let cap := f.pair a
    let ec := effCap cap disp
    match s.checkAccess f cap disp (tySize t) .read [4] with
    | .error e => .trap e
    | .ok (w, o) =>
      match s.lookup (s.ctxOf k) w.root o false with
      | .at (.weight die addr) lines =>
        if die != coreDie f.core then .trap (.cap cTransl ec)
        else
          let (id, s1) := (s.cacheXlat f.core (s.ctxOf k) w.named w.lines w.root.objid (s.extOf (s.ctxOf k) w.root o) false lines).fresh
          .next (s1.addOp (more o s { MemOp.blank id s f kind t with
            loc := .weight die addr, xl := w.lines ++ lines, obj := w.root.objid, roff := o, cap := ec, flags := f.selected fsel }))
      | _ => .trap (.cap cTransl ec)

/-- `ldw` (R157). -/
def execLdw (h : Hdr) (t : Ty) (d a : Reg) (disp : Word) (s : State) : Outc :=
  warpExec (.ldw h t d a disp) (weightRun .ldw t h.fsel a disp.toInt fun _ _ o => { o with dst := some d }) s

/-- A bank refreshes at some time in [t, t + 50) (R158). -/
def refreshing (bank t : Nat) : Bool := t / 1000 % 64 == bank || (t + 49) / 1000 % 64 == bank

/-- `ldw.nb` (R158): whether it is served is decided at issue. -/
def execLdwNb (h : Hdr) (t : Ty) (d a : Reg) (disp : BitVec 24) (st : Reg) (s : State) : Outc :=
  warpExec (.ldwNb h t d a disp st) (weightRun .ldwNb t h.fsel a disp.toInt fun o s op =>
    let b := weightBank o
    if refreshing b s.time then { op with dst := none, dst2 := some st, val2 := 0x80000000#64 ||| BitVec.ofNat 64 b, queue := 1 }
    else { op with dst := some d, dst2 := some st, val2 := 0 }) s

/-! ## Prefetch and pool maintenance (R161–R163) -/

/-- `pref` (R161): a prefetch whose checks or translation fail is dropped. -/
def execPref (h : Hdr) (lvl : PrefLevel) (a : Reg) (disp : Word) (s : State) : Outc :=
  warpExec (.pref h lvl a disp) (fun k s =>
    match s.fib? k with
    | none => .next s
    | some f =>
      match s.checkAccess f (f.pair a) disp.toInt 1 .read [0, 1, 2, 3] with
      | .error _ => .next s
      | .ok (w, o) =>
        match s.lookup (s.ctxOf k) w.root o false with
        | .at loc lines =>
          let (id, s1) := (s.cacheXlat f.core (s.ctxOf k) w.named w.lines w.root.objid (s.extOf (s.ctxOf k) w.root o) false lines).fresh
          .next (s1.addOp { MemOp.blank id s f (.pref lvl) .none with
            loc, xl := w.lines ++ lines, obj := w.root.objid, roff := o, size := 1, cls := w.root.cls, flags := f.selected h.fsel })
        | _ => .next s) s

/-- A line maintenance instruction of one fibre (R162): outside pool memory it has no further effect after its checks and completes at
once. A missing translation of pool memory holds the fibre as a load's does (DESIGN CHOICE; log 74). -/
def maintRun (kind : OpKind) (need : Right) (h : Hdr) (a : Reg) (disp : Word) (k : FKey) (s : State) : Act :=
  let r := { MemReq.data kind .none h disp.toInt need [0, 1, 2, 3] with size := 1 }
  match s.fib? k with
  | none => .next s
  | some f =>
    match s.checkAccess f (f.pair a) r.disp r.size r.need r.spaces with
    | .error t => .trap t
    | .ok (w, _) => if w.root.space == 3 then globalRun r a (fun _ o => o) k s else .next s

/-- `cwb` (R162). -/
def execCwb (h : Hdr) (a : Reg) (disp : Word) (s : State) : Outc := warpExec (.cwb h a disp) (maintRun .cwb .read h a disp) s
/-- `cinv` (R162). -/
def execCinv (h : Hdr) (a : Reg) (disp : Word) (s : State) : Outc :=
  warpExec (.cinv h a disp) (maintRun .cinv .write h a disp) s
/-- `cflush` (R162). -/
def execCflush (h : Hdr) (a : Reg) (disp : Word) (s : State) : Outc :=
  warpExec (.cflush h a disp) (maintRun .cflush .read h a disp) s

/-! ## Capability arithmetic (R151–R153) -/

/-- `hoff` on a capability (R151). -/
def hoffVal (cap : Dword) (addend : Int) : Dword :=
  let t := (capOffset cap : Int) + addend
  mkCap (capHandle cap) (if 0 ≤ t && t < 2 ^ 40 then t.toNat else 0xFFFFFFFFFF)

/-- `hoff` with IMM32 (R151). -/
def execHoffImm32 (h : Hdr) (d a : Reg) (imm : Word) (s : State) : Outc :=
  regExec (.hoffImm32 h d a imm) (fun _ f => f.setPair d (hoffVal (f.pair a) imm.toInt)) s
/-- `hoff` with an unsigned register (R151). -/
def execHoffUnsigned (h : Hdr) (d a b : Reg) (s : State) : Outc :=
  regExec (.hoffUnsigned h d a b) (fun _ f => f.setPair d (hoffVal (f.pair a) (f.reg b).toNat)) s
/-- `hoff.s` (R151). -/
def execHoffSigned (h : Hdr) (d a b : Reg) (s : State) : Outc :=
  regExec (.hoffSigned h d a b) (fun _ f => f.setPair d (hoffVal (f.pair a) (f.reg b).toInt)) s
/-- `hoff` with a pair (R151). -/
def execHoffPair (h : Hdr) (d a b : Reg) (s : State) : Outc :=
  regExec (.hoffPair h d a b) (fun _ f => f.setPair d (hoffVal (f.pair a) (f.pair b).toInt)) s
/-- `hoff` with IMM64 (R151). -/
def execHoffImm64 (h : Hdr) (d a : Reg) (imm : Dword) (s : State) : Outc :=
  regExec (.hoffImm64 h d a imm) (fun _ f => f.setPair d (hoffVal (f.pair a) imm.toInt)) s

/-- What `hinfo` writes: 0 where resolve would trap (R153). -/
def State.hinfoVal (s : State) (f : Fibre) (cap : Dword) : Dword :=
  match s.resolve f.inHtbase f.inHtlen (capHandle cap) with
  | .error _ => 0
  | .ok w =>
    let e := s.entry f.inHtbase (capHandle cap)
    packBits 64 [(e.kind, 53), (w.root.home, 51), (w.root.cls, 48), (w.root.space, 45), (w.rights, 40),
      (w.len - capOffset cap, 0)]

/-- `hinfo` (R153). -/
def execHinfo (h : Hdr) (d a : Reg) (s : State) : Outc :=
  regExec (.hinfo h d a) (fun s f => f.setPair d (s.hinfoVal f (f.pair a))) s

/-- `hnarrow` for one fibre (R152): the fibre stalls until the entry has been written. INFO of its handle and bounds traps
is the capability A (log 29). -/
def hnarrowRun (d a b c : Reg) (mask : BitVec 5) (k : FKey) (s : State) : Act :=
  match s.fib? k with
  | none => .next s
  | some f =>
    let cap := f.pair a
    match s.resolve f.inHtbase f.inHtlen (capHandle cap) with
    | .error e => .trap (.cap e cap)
    | .ok w =>
      let n := (f.pair b).toNat
      let slot := (f.reg c).toNat % 2 ^ 24
      if w.len < capOffset cap + n then .trap (.cap cBounds cap)
      else if slot == 0 || f.inHtlen ≤ slot || !([2, 3].contains (s.entry f.inHtbase slot).kind) then .trap (.cap cHandle cap)
      else
        let (id, s1) := s.fresh
        let e := derivedEntry w.handle (w.base + capOffset cap) n (w.rights &&& mask.toNat)
        .next (s1.addOp { MemOp.blank id s f .hnarrow .none with
          loc := entryLoc f.inHtbase slot, size := 32, cap, dst := some d, val2 := mkCap slot 0, unit := e.setWidth 512 })

/-- `hnarrow` (R152). -/
def execHnarrow (h : Hdr) (d a b c : Reg) (mask : BitVec 5) (s : State) : Outc :=
  warpExec (.hnarrow h d a b c mask) (hnarrowRun d a b c mask) s

/-! ## Fences (R164, R165) -/

/-- A fence of kind .acq holds the fibre until its earlier loads and atomics have returned (R165). -/
def State.readsBack (s : State) (k : FKey) : Bool :=
  s.log.all fun e => !(e.key == k && e.kind.reads && e.returned.isNone)

/-- The conditions under which a fence completes (R163, R165). -/
def State.fenceMet (s : State) (k : FKey) (kind : FenceKind) (sc : Scope) : Bool :=
  if kind == .acq then s.readsBack k && (sc != .sys || s.maintained k) else s.releaseMet k sc 0

/-- `fence` for one fibre (R164, R165): at .fib it enters the commit log (R300) and has no effect. -/
def fenceRun (kind : FenceKind) (sc : Scope) (k : FKey) (s : State) : Act :=
  if sc == .fib then .next ((s.logAct k (.fence kind) sc).logDone k)
  else
    let s1 := s.logAct k (.fence kind) sc
    if s1.fenceMet k kind sc then .next (s1.logDone k) else .stay (s1.holdRelease k sc (.fence kind))

/-- `fence` (R164). -/
def execFence (h : Hdr) (kind : FenceKind) (sc : Scope) (s : State) : Outc :=
  warpExec (.fence h kind sc) (fenceRun kind sc) s

/-! ## Atomics and reductions (R166–R168, R171) -/

/-- `atom` (R166). -/
def execAtom (h : Hdr) (op : AtomOp) (ord : Order) (sc : Scope) (t : Ty) (d a : Reg) (disp : BitVec 24) (b : Reg)
    (s : State) : Outc :=
  warpExec (.atom h op ord sc t d a disp b)
    (globalRun (atomReq (.atom op) t ord sc h disp.toInt (hostAtomicOk false op t)) a
      fun f o => { o with dst := some d, val := BitVec.ofNat 64 (f.get t b) }) s

/-- `atom.dec` and the floating-point atomics (R166). -/
def execAtomDecFloat (h : Hdr) (op : AtomOp) (ord : Order) (sc : Scope) (t : Ty) (d a : Reg) (disp : BitVec 24) (b : Reg)
    (s : State) : Outc :=
  warpExec (.atomDecFloat h op ord sc t d a disp b)
    (globalRun (atomReq (.atom op) t ord sc h disp.toInt (hostAtomicOk false op t)) a
      fun f o => { o with dst := some d, val := BitVec.ofNat 64 (f.get t b) }) s

/-- `atomc` (R167). -/
def execAtomc (h : Hdr) (ord : Order) (sc : Scope) (t : Ty) (d a b c : Reg) (disp : BitVec 24) (s : State) : Outc :=
  warpExec (.atomc h ord sc t d a b c disp)
    (globalRun (atomReq .atomc t ord sc h disp.toInt true) a
      fun f o => { o with dst := some d, val := BitVec.ofNat 64 (f.get t b), val2 := BitVec.ofNat 64 (f.get t c) }) s

/-- `red` (R168). -/
def execRed (h : Hdr) (op : AtomOp) (ord : Order) (sc : Scope) (t : Ty) (b a : Reg) (disp : Word) (s : State) : Outc :=
  storeExec (.red h op ord sc t b a disp) (fun f o => { o with val := BitVec.ofNat 64 (f.get t b) }) s

/-- `red` with a floating-point operation (R168). -/
def execRedFloat (h : Hdr) (op : AtomOp) (ord : Order) (sc : Scope) (t : Ty) (b a : Reg) (disp : Word) (s : State) : Outc :=
  storeExec (.redFloat h op ord sc t b a disp) (fun f o => { o with val := BitVec.ofNat 64 (f.get t b) }) s

/-! ## The monitor on a line (R213) -/

/-- `marm` (R213): the fibre stalls until D is written; the load and the arming are one act. -/
def execMarm (h : Hdr) (acq : Bool) (t : Ty) (d a : Reg) (disp : Word) (s : State) : Outc :=
  warpExec (.marm h acq t d a disp)
    (globalRun { MemReq.data .marm t h disp.toInt .read [0, 2] with
        ord := if acq then .acq else .plain, sc := if acq then .sys else .fib, fsel := 0 } a fun _ o => { o with dst := some d }) s

end Sys2Proof.Machine
end

