-- ==== Sys2Proof/Machine/Issue.lean ====
section
/-! DEFINITION. Fetching code (R48–R57) and the issue choice of a quadrant (R47, R58, R343). -/

namespace Sys2Proof.Machine

/-! ## Code (R50) -/

/-- Where byte `off` of a launch's code object lies now. -/
def Launch.codeLoc (l : Launch) (off : Nat) : Option Loc :=
  match l.codeMap.find? fun e => e.1 ≤ off && off < e.1 + e.2.1 with
  | some (o, _, loc) => some (loc.add (off - o))
  | none => none

/-- The 32 bytes of a fetch block as they stood when the launch began. -/
def Launch.oldBlock (l : Launch) (b : Nat) : List Byte := Memory.readN l.code (32 * b) 32

/-- The 32 bytes of a fetch block as they stand now. -/
def State.newBlock (s : State) (l : Launch) (b : Nat) : List Byte :=
  (List.range 32).map fun i =>
    match l.codeLoc (32 * b + i) with
    | some loc => (s.newest loc 1).headD 0
    | none => Memory.read l.code (32 * b + i)

/-- A byte of code to which no memory belonged when the launch began: what a fetch of it gives is not stated (log 64). -/
def Launch.openCode (l : Launch) (off : Nat) : Byte := (Config.freeBits (2 ^ 64 * (2 ^ 64 + l.uid) + off)).setWidth 8

/-- A fetch block: as it stood when the launch began, or, where a store has touched it since, either (R50, log 17). -/
def State.codeBlock (s : State) (l : Launch) (b : Nat) : List Byte :=
  let old := l.oldBlock b
  if l.codeMap == [] then old
  else
    let new := s.newBlock l b
    let bs := if new == old || Config.choice (2 ^ 64 * s.free + b) % 2 == 0 then old else new
    bs.zipIdx.map fun x => if l.codeLoc (32 * b + x.2) == some .unbacked then l.openCode (32 * b + x.2) else x.1

/-- Eight bytes of code at a multiple of 8. -/
def State.codeWord (s : State) (l : Launch) (off : Nat) : Dword :=
  leDword ((s.codeBlock l (off / 32)).drop (off % 32))

/-! ## The fetch check (R55, R75 steps 1–3) -/

/-- What a clause breaks: the code and the address of the offending word. -/
structure FetchTrap where
  code : Code
  addr : Nat
  deriving DecidableEq, Repr

/-- The first of two findings: a bounds trap before an illegal instruction, then the lower address (R75). -/
def FetchTrap.first (a b : Option FetchTrap) : Option FetchTrap :=
  match a, b with
  | none, x => x
  | x, none => x
  | some x, some y =>
    if x.code == cBounds then a else if y.code == cBounds then b else if x.addr ≤ y.addr then a else b

/-- An instruction from its two doubles. -/
def instrAt (word : Nat → Dword) (a : Nat) : Except DecodeError Instr := decodeWord (word a) (word (a + 8))

/-- The instructions of a clause from address `a` (R48, R49, R52, R53, R60 and the encoding rules). -/
def checkInstrs (word : Nat → Dword) (len : Nat) (h : ClauseHdr) : Nat → Nat → Option FetchTrap
  | 0, _ => none
  | n + 1, a =>
    if len < a + 8 then some ⟨cBounds, a⟩
    else
      let lc := (word a).extractLsb' 0 2
      let size := lcSize lc
      if len < a + size then some ⟨cBounds, a⟩
      else if lc == 0 then some ⟨cIllegal, a⟩
      else
        let rest := checkInstrs word len h n (a + size)
        let here : Option FetchTrap :=
          if size == 16 && a % 32 == 24 then some ⟨cIllegal, a⟩
          else
            match instrAt word a with
            | .error _ => some ⟨cIllegal, a⟩
            | .ok i =>
              if !fselOk i.fsel h.flagA.toNat h.flagB.toNat || (i.clauseEnding && n != 0) then some ⟨cIllegal, a⟩ else none
        FetchTrap.first here rest

/-- Where `n` instructions from address `a` leave the code object, as far as their length codes can be read (R52). -/
def clauseBounds (word : Nat → Dword) (len : Nat) : Nat → Nat → Option FetchTrap
  | 0, _ => none
  | n + 1, a =>
    if len < a + 8 then some ⟨cBounds, a⟩
    else
      let lc := (word a).extractLsb' 0 2
      if len < a + lcSize lc then some ⟨cBounds, a⟩ else if lc == 0 then none else clauseBounds word len n (a + lcSize lc)

/-- The whole clause at an address: its header, or the trap it raises (R48, R55); a header with a bad field that runs past the code
object raises the bounds trap (R75) (DEDUCED; log 40). -/
def checkClause (word : Nat → Dword) (len pc : Nat) : Except FetchTrap ClauseHdr :=
  if len < pc + 8 then .error ⟨cBounds, pc⟩
  else if pc % 8 != 0 then .error ⟨cIllegal, pc⟩
  else
    match ClauseHdr.ofWord (word pc) with
    | none =>
      let w := word pc
      .error ((if w.extractLsb' 0 2 == 0 then clauseBounds word len (w.extractLsb' 22 4).toNat (pc + 8) else none).getD ⟨cIllegal, pc⟩)
    | some h =>
      match checkInstrs word len h h.len.toNat (pc + 8) with
      | some t => .error t
      | none => .ok h

/-! ## The choice (R47, R343) -/

/-- A fibre that has a trap or a user interrupt to take before its next clause (R237, R447). -/
def Fibre.entryDue (f : Fibre) : Bool := f.pendTraps != [] || (f.uiEn && f.uiPend)

/-- A warp at a clause start may start it, or traps when it tries (R55, R59). -/
def State.clauseReady (s : State) (w : Warp) : Bool :=
  match s.launch? w.launch with
  | none => false
  | some l =>
    if s.ctxStopped l.ctx || w.members.any (fun k => match s.fib? k with | some f => f.entryDue | none => true) then false
    else
      let pc := s.warpPc w
      match checkClause (s.codeWord l) l.codeLen pc with
      | .error _ => true
      | .ok h =>
        w.members.all (fun k => match s.fib? k with | some f => f.waitOk h.wait | none => false)
          && (match instrAt (s.codeWord l) (pc + 8) with
              | .ok i =>
                -- the clause's flags, as the members will hold them once it has started
                let s1 := w.members.foldl (fun s k => s.modFib k fun f => { f with
                  clause := some ⟨pc, h.len.toNat, 8, h.flagA.toNat, h.flagB.toNat, h.yield⟩ }) s
                s1.mayIssue i w && s1.sideFits i w
              | .error _ => true)

/-- A warp is ready (R343). -/
def State.warpReady (s : State) (w : Warp) : Bool :=
  if s.atBoundary w then s.clauseReady w
  else
    match s.launch? w.launch with
    | none => false
    | some l =>
      match instrAt (s.codeWord l) (s.warpPc w) with
      | .ok i => s.mayIssue i w && s.sideFits i w
      | .error _ => true

/-- The warp a quadrant issues: one passed over more than 64 times, the one passed over most; else the lowest program
counter; the lower slot of equals (R47; log 23). -/
def State.chooseWarp (s : State) (ready : List Warp) : Option Warp :=
  match minBy? (fun (w : Warp) => 255 - w.passed) (ready.filter (64 < ·.passed)) with
  | some w => some w
  | none => minBy? s.warpPc ready

/-- Where a clause of `n` instructions from address `a` ends. -/
def clauseEnd (word : Nat → Dword) : Nat → Nat → Nat
  | 0, a => a
  | n + 1, a => clauseEnd word n (a + lcSize ((word a).extractLsb' 0 2))

/-- A line of code is in the core's instruction cache, or is filled from the die L2 in place of the line used longest ago in its set; one
that the die L2 cannot have at once is asked for (R275, R277, R283). The clause does not wait for it: its words are the launch's
(R50), and the delay is timing. -/
def State.icTouch (s : State) (core line : Nat) : State :=
  let here (x : IcLine) : Bool := x.core == core && x.line == line
  if s.ic.any here then { s with ic := updIf here (fun x => { x with used := s.evno }) s.ic }
  else
    let s1 := s.fetchNow (coreDie core) line 0
    if (s1.l2? (coreDie core) line).isNone then
      if s1.poisoned line then s1 else s1.request (coreDie core) line false 0 .none
    else
      let set := s1.ic.filter fun x => x.core == core && Config.roSet x.line == Config.roSet line
      let x : IcLine := { core, line, used := s1.evno }
      match (if Config.roWays ≤ set.length then minBy? (fun (y : IcLine) => y.used) set else none) with
      | some v => { s1 with ic := s1.ic.erase v ++ [x] }
      | none => { s1 with ic := s1.ic ++ [x] }

/-- The lines of the code from one offset to another pass through the core's instruction cache (R275). -/
def State.icFill (s : State) (core : Nat) (l : Launch) (a b : Nat) : State :=
  (nub ((List.range ((b - a) / 8)).filterMap fun i => (l.codeLoc (a + 8 * i)).bind Loc.line?)).foldl (fun s line => s.icTouch core line) s

/-- A warp begins a clause: its members stand at the first instruction, and the context's registers written since their
last clause boundary take effect for them (R42, R51, R55). -/
def State.startClause (s : State) (w : Warp) (h : ClauseHdr) (pc : Nat) : State :=
  let (fl, hb, hl) := match (s.launch? w.launch).bind fun l => s.ctx? l.ctx with
    | some c => (c.flags, c.htbase, c.htlen)
    | none => (0, 0, 0)
  w.members.foldl (fun s k => s.modFib k fun f => { f with
    pc := BitVec.ofNat 64 (pc + 8), inFlags := fl, inHtbase := hb, inHtlen := hl,
    clause := some ⟨pc, h.len.toNat, 8, h.flagA.toNat, h.flagB.toNat, h.yield⟩ }) s

/-- Every member of a warp takes a trap at an address (R55). -/
def State.trapWarp (s : State) (w : Warp) (t : FetchTrap) : State :=
  w.members.foldl (fun s k => s.takeTrap k (.plain t.code) (BitVec.ofNat 64 t.addr)) s

/-- Whether the core of a quadrant issues at all (R239, R319, R407, R415). -/
def State.coreRuns (s : State) (core : Nat) : Bool :=
  let c := s.coreSt core
  s.dieUp (coreDie core) && !c.fenced && !c.lost && !c.halted

/-- The pass-over counts after a choice; a cycle in which a warp is skipped under R58 counts for none (R343). -/
def State.passOver (s : State) (w : Warp) (ready : List Warp) (skipped : Bool) : State :=
  { s with warps := s.warps.map fun v =>
      if v.core == w.core && v.quad == w.quad then
        if v.slot == w.slot then { v with passed := 0, skip := false }
        else if !skipped && ready.any (fun r => r.slot == v.slot) then { v with passed := min 255 (v.passed + 1), skip := false }
        else { v with skip := false }
      else v }

/-- ISSUE_CYCLE: one formation opportunity and one issue choice of a quadrant (R29, R47, R55, R343). The chosen warp's
instruction is fetched and executed by the next step. -/
def execIssueCycle (core quad : Nat) (upset : Option (Nat × Bool)) (s : State) : Outc :=
  if !s.coreRuns core then .next s
  else
    let s0 := ((s.liftHolds core quad).formLockstep core quad).formWarp core quad
    let ready := (s0.quadWarps core quad).filter s0.warpReady
    let others := ready.filter (!·.skip)
    let skipped := others != [] && ready.any (·.skip)
    match s0.chooseWarp (if others == [] then ready else others) with
    | none => .next { s0 with warps := updIf (fun w => w.core == core && w.quad == quad) (fun w => { w with skip := false }) s0.warps }
    | some w =>
      let s1 := s0.passOver w ready skipped
      let go (s : State) : Outc := .next { s with issue := some ⟨core, quad, w.slot, upset⟩ }
      if !s1.atBoundary w then go s1
      else
        match s1.launch? w.launch with
        | none => .next s1
        | some l =>
          let pc := s1.warpPc w
          match checkClause (s1.codeWord l) l.codeLen pc with
          | .error t => .next (s1.trapWarp w t)
          | .ok h => go ((s1.icFill core l pc (clauseEnd (s1.codeWord l) h.len.toNat (pc + 8))).startClause w h pc)

/-- The instruction the issuing warp stands at. -/
def State.fetch (s : State) (is : Issue) : Option (Except DecodeError Instr) :=
  match s.warp? is.core is.quad is.slot with
  | none => none
  | some w =>
    match s.launch? w.launch with
    | none => none
    | some l => some (instrAt (s.codeWord l) (s.warpPc w))

/-- A word that no longer decodes traps in every member (R50, R55). -/
def State.fetchTrap (s : State) (is : Issue) : State :=
  match s.warp? is.core is.quad is.slot with
  | some w => { (s.trapWarp w ⟨cIllegal, s.warpPc w⟩) with issue := none }
  | none => { s with issue := none }

end Sys2Proof.Machine
end

