-- ==== Sys2Proof/Machine/Complete.lean ====
section
/-! DEFINITION. What an outstanding memory operation does when it is performed (R155, R166–R176, R247–R249), the atomics at
the home (R169, R279, R309), writes to translation lines (R289), the side log's replay and the retry of faulting accesses
(R172–R174, R291, R292). -/

namespace Sys2Proof.Machine

/-! ## Order among a fibre's operations -/

/-- An operation that reads a location of the memory model (R242). -/
def OpKind.readsMem : OpKind → Bool
  | .ld | .lds | .marm | .atom _ | .atomc => true
  | .ldRo | .ldw | .ldwNb | .st | .sts | .stx | .red _ | .pref _ | .cwb | .cinv | .cflush | .hnarrow | .qpush | .qpop => false

/-- An operation that writes memory. -/
def OpKind.writesMem : OpKind → Bool
  | .st | .sts | .stx | .atom _ | .atomc | .red _ | .hnarrow => true
  | .ld | .lds | .marm | .ldRo | .ldw | .ldwNb | .pref _ | .cwb | .cinv | .cflush | .qpush | .qpop => false

/-- A read-modify-write operation. -/
def OpKind.isRmw : OpKind → Bool
  | .atom _ | .atomc | .red _ => true
  | _ => false

/-- An operation whose completion is an acquire (R250). -/
def MemOp.acquires (o : MemOp) : Bool := Order.acq o.ord || o.kind == .qpop

/-- Two operations name a common line, host line or scratchpad byte. -/
def MemOp.meets (o p : MemOp) : Bool :=
  match o.loc, p.loc with
  | .scratch a b x, .scratch c d y => a == c && b == d && x < y + p.size && y < x + o.size
  | .hostPa x, .hostPa y => x / 128 == y / 128
  | .host _ _, .hostPa _ | .hostPa _, .host _ _ | .host _ _, .host _ _ => o.iova.map (fun v => (v.1, v.2 / 128)) == p.iova.map (fun v => (v.1, v.2 / 128))
  | l, m => match l.line?, m.line? with | some a, some b => a == b | _, _ => false

/-- The same object and line of it. -/
def MemOp.sameUnit (o p : MemOp) : Bool := o.obj == p.obj && o.roff / 128 == p.roff / 128

/-- An earlier entry of the side log, of the same fibre or line, has been replayed and is not yet performed (R173). -/
def State.replayBefore (s : State) (o : MemOp) : Bool :=
  o.replay != 0 && s.ops.any fun p => p.replay != 0 && p.replay < o.replay && p.core == o.core && (p.key == o.key || p.sameUnit o)

/-- An operation may be performed: it has been released; no earlier operation of its fibre names the same place, is an
acquire, or is a read where it writes; no earlier entry of the fibre in the side log overlaps it, and entries replayed from
it keep their order (R173, R247, R249, R253). Its die's links carry data (R407). -/
def State.opReady (s : State) (o : MemOp) : Bool :=
  o.released && s.dieUp (coreDie o.core)
    && s.ops.all (fun p => !(p.key == o.key && p.id < o.id
        && (o.meets p || p.acquires || (o.kind.writesMem && p.kind.readsMem))))
    && s.side.all (fun e => !(e.op.key == o.key && e.op.id < o.id && e.op.sameUnit o))
    && !s.replayBefore o

/-! ## Ends of operations -/

/-- An operation is done: it is no longer outstanding, and its flags fall (R19). -/
def State.finishOp (s : State) (o : MemOp) : State := (s.dropOp o.id).completeFlags o.key o.flags

/-- A loaded value reaches its destination (R150). -/
def State.deliver (s : State) (o : MemOp) (v : Nat) : State :=
  s.modFib o.key fun f => match o.dst with | some d => f.put o.ty d v | none => f

/-- The capability that an `hnarrow` returns (R152). -/
def State.setDst (s : State) (o : MemOp) : State :=
  match o.dst with | some d => s.modFib o.key fun f => f.setPair d o.val2 | none => s

/-- A read returned in an interval, or in none; `spread` says that the write it returned is performed at the package (R252 item 2,
R301, R312). -/
def State.logReadAt (s : State) (o : MemOp) (iv : Option (BitVec 32)) (spread sys : Bool) : State :=
  s.logOp o.id fun e => { e with
    returned := some s.evno, interval := iv, since := s.time
    atPkg := if spread then some (e.atPkg.getD s.evno) else e.atPkg
    atSys := if spread && sys then some (e.atSys.getD s.evno) else e.atSys }

/-- A read returned what is performed at every scope. -/
def State.logRead (s : State) (o : MemOp) (iv : Option (BitVec 32)) : State := s.logReadAt o iv true true

/-- A read of a line returned its newest value at a die L2 (R256). -/
def State.logLineRead (s : State) (o : MemOp) (line : Nat) (iv : BitVec 32) : State :=
  s.logReadAt o (some iv) (s.lineSpread line) (s.remoteAcked line && lineSpace line != 2)

/-- A write is performed at die, in an interval (R301) (DEDUCED; log 44). -/
def State.logDie (s : State) (o : MemOp) (iv : Option (BitVec 32)) : State :=
  s.logOp o.id fun e => { e with atDie := some s.evno, interval := iv, since := s.time }

/-- A write is performed at every scope (R301). -/
def State.logAll (s : State) (o : MemOp) (iv : Option (BitVec 32)) : State :=
  s.logOp o.id fun e => { e with atDie := some s.evno, atPkg := some s.evno, atSys := some s.evno, interval := iv, since := s.time }

/-- A write at a line's home slice is performed at every die at once, and at system once no other package's acknowledgement of its
invalidation is outstanding (R257, R279, R301, R382). -/
def State.logHome (s : State) (o : MemOp) (line : Nat) (iv : Option (BitVec 32)) : State :=
  let sys := if s.remoteAcked line then some s.evno else none
  s.logOp o.id fun e => { e with atDie := some s.evno, atPkg := some s.evno, atSys := sys, interval := iv, since := s.time }

/-- A read at a line's home slice returned a write that is performed at the package, and at system as its invalidations say. -/
def State.logHomeRead (s : State) (o : MemOp) (line : Nat) (iv : Option (BitVec 32)) : State :=
  s.logReadAt o iv true (s.remoteAcked line)

/-- A fibre leaves whatever holds it, so that it can take a trap: a release is given up, its part in a set instruction or a
batch taken back (log 19). -/
def State.abandonHold (s : State) (f : Fibre) : State :=
  let unlogged (s : State) : State := { s with log := s.log.filter fun e => !(e.key == f.key && e.op == 0 && e.returned.isNone) }
  match f.cond with
  | .held (.release _ act _) => s.dropRelease f.key act
  | .held (.set j) => unlogged (s.modSet f.key.sheaf j fun js => { js with
      members := updIf (·.fid == f.key.fid) (fun m => { m with acts := m.acts.dropLast }) js.members })
  | .held (.svc _) => unlogged (s.leaveBatch f.key)
  | _ => s

/-- A trap at the completion of an operation, taken at its instruction; a fibre already held in a trap keeps it, and only
sr.fault records this one (R175; log 19). -/
def State.asyncTrap (s : State) (o : MemOp) (t : TrapInfo) : State :=
  match (if o.gone then none else s.fib? o.key) with
  | none => s
  | some f =>
    match f.cond with
    | .ended => s
    | .held .trap => s.modFib o.key fun f => { f with faultCode := t.code, faultOpnd := t.opnd, faultValid := true }
    | _ => ((s.abandonHold f).modFib o.key fun f => { f with pc := o.pc, clause := o.clause }).takeTrap o.key t o.pc

/-- A line of a lost or unreachable package, node or range, or of a revoked extent, but for one that was asked of its node before the notice
and is not yet answered (R376, R384–R386). -/
def State.gone (s : State) (line : Nat) : Bool :=
  let owner := line % 2 ^ 50 / 2 ^ 38
  let a := line % 2 ^ 38 * 128
  let away := s.routePorts owner == []
  match lineSpace line with
  | 1 => away || s.coh.orphans.contains owner
  | 2 => away || s.coh.lostNodes.contains owner
      || (s.coh.lostRanges ++ (if s.unanswered line then [] else s.coh.revoked)).any fun r => r.1 == owner && r.2.1 < a + 128 && a < r.2.2
  | _ => false

/-- A line that gives poison to loads and takes no stores (R175, R176). -/
def State.badLine (s : State) (line : Nat) : Bool := s.poisoned line || s.gone line

/-- An operation meets poison: a read raises the poison trap, a write is dropped and recorded (R175, R176). -/
def State.opPoisoned (s : State) (o : MemOp) : State :=
  match o.kind with
  | .ld | .lds | .ldRo | .ldw | .ldwNb | .marm | .atom _ | .atomc => (s.cancelOp o.id).asyncTrap o (.cap cPoison o.cap)
  | .st | .sts | .stx | .red _ => (((s.logAll o none).logRead o none).lostStore o.key o.core o.gone o.cap).finishOp o
  | .hnarrow => ((s.lostStore o.key o.core o.gone o.cap).setDst o).finishOp o
  | .pref _ | .cwb | .cinv | .cflush | .qpush | .qpop => s.finishOp o

/-! ## Read-modify-write (R166, R167) -/

/-- The new value of an atomic operation (R166). -/
def atomNew (op : AtomOp) (t : Ty) (old b : Nat) : Nat :=
  let w := t.bits
  match op with
  | .add => (old + b) % 2 ^ w
  | .min => if ival (tySigned t) w b < ival (tySigned t) w old then b else old
  | .max => if ival (tySigned t) w old < ival (tySigned t) w b then b else old
  | .and => old &&& b
  | .or => old ||| b
  | .xor => old ^^^ b
  | .xchg => b
  | .inc => if b ≤ old then 0 else old + 1
  | .dec => if old == 0 || b < old then b else old - 1
  | .fadd => f32add old b
  | .fmin => Fmt.f32.pick false old b
  | .fmax => Fmt.f32.pick true old b

/-- What an operation writes for the old value; none where it writes nothing (R166–R168). -/
def MemOp.rmw (o : MemOp) (old : Nat) : Option Nat :=
  let m := 2 ^ o.ty.bits
  match o.kind with
  | .atom op | .red op => some (atomNew op o.ty old (o.val.toNat % m))
  | .atomc => if old == o.val.toNat % m then some (o.val2.toNat % m) else none
  | _ => none

/-- The ORDER of an `atomc` whose comparison failed (R167). -/
def failedOrder : Order → Order
  | .rel => .plain
  | .ar => .acq
  | x => x

/-- A failed `atomc` was a read (R167). -/
def State.logFailed (s : State) (o : MemOp) : State :=
  s.logOp o.id fun e => { e with kind := .read, ord := failedOrder e.ord }

/-- The operations of one warp instruction on one location, in lane order (R170). -/
def State.groupOf (s : State) (o : MemOp) : List MemOp :=
  sortBy (·.key.lane) (s.ops.filter fun p =>
    p.grp == o.grp && p.core == o.core && p.kind == o.kind && p.loc == o.loc && !p.homeDone)

/-! ## At the die L2 -/

/-- Bytes are stored in a writable line of a die L2: it is dirty, the storing core's own L1 copy is updated and every other goes, and
armed fibres wake (R214, R256, R274). -/
def State.l2Store (s : State) (o : MemOp) (line : Nat) (bs : List Byte) : State :=
  let die := coreDie o.core
  let mine (c : L1Copy) : Bool := c.core == o.core && c.obj == o.obj && c.off == o.roff / 128
  (s.modCoh fun c => { c with l2 := updIf (fun l => l.die == die && l.line == line) (fun l => { l with
      data := overlay l.data o.loc.inLine bs, st := .m
      l1 := (l.l1.filter mine).map fun c => { c with used := s.evno } }) c.l2 }).wakeLine line

/-- The bytes an operation reads of a line's data, where the DRAM line is used through one window or several (R269). -/
def State.opBytes (s : State) (o : MemOp) (line : Nat) (data : List Byte) : List Byte :=
  (List.range o.size).map fun i => s.viewByte line data (o.loc.inLine + i)

/-- The bytes an operation reads of a line. -/
def MemOp.bytesIn (o : MemOp) (data : List Byte) : List Byte := (data.drop o.loc.inLine).take o.size

/-- The read-only path: each 4-byte granule is the cached value or the one now in the die L2 (R156; log 17). -/
def roMix (free : Nat) (old new : List Byte) (off : Nat) : List Byte :=
  old.zipIdx.map fun x =>
    if Config.choice (2 ^ 64 * free + (off + x.2) / 4) % 2 == 0 then x.1 else new.getD x.2 0

/-- A die L2 line serves a load: from the core's L1 on a hit; else from the die L2, and the L1 takes a copy unless the load is direct
(R148, R154, R274). -/
def State.serveLoad (s : State) (o : MemOp) (x : L2Line) : State :=
  let off := o.roff / 128
  let s1 := if x.l1Hit o.core o.obj off then s.l1Touch x.die x.line o.core o.obj off
    else
      let s1 := s.touchL2 x.die x.line o.cls o.hint
      if o.direct then s1 else s1.l1Fill x.die x.line o.core o.obj off
  (s1.logLineRead o x.line x.iv).deliver o (loadVal o.ty (s.opBytes o x.line x.data))

/-- `marm`: the load is done and the monitor is armed; the fibre's stall ends (R213). -/
def State.finishMarm (s : State) (o : MemOp) (line : Nat) : State :=
  (s.finishOp o).modFib o.key fun f => { f with monitor := some ⟨.line line o.cap, false⟩ }

/-- One operation of a group is applied in a writable line (R169, R170). -/
def State.l2Rmw (s : State) (line : Nat) (o : MemOp) : State :=
  match s.l2? (coreDie o.core) line with
  | none => s
  | some x =>
    let old := leNat (s.opBytes o line x.data)
    let s1 := match o.rmw old with
      | some v => (s.l2Store o line (leBytes o.size v)).logDie o (some x.iv)
      | none => s.logFailed o
    ((s1.logLineRead o line x.iv).deliver o old).finishOp o

/-- A line enters a core's read-only cache, in place of the one of its set used longest ago where the set is full (R275). -/
def State.roFill (s : State) (r : RoLine) : State :=
  let set := s.roc.filter fun x => x.core == r.core && Config.roSet x.line == Config.roSet r.line
  match (if Config.roWays ≤ set.length then minBy? (·.used) set else none) with
  | some v => { s with roc := s.roc.erase v ++ [r] }
  | none => { s with roc := s.roc ++ [r] }

/-- A load through the read-only cache (R156, R275). A hit gives each granule from the cache or from the die L2; a miss gives the
line as the die L2 holds it, one of the values the rule allows (DESIGN CHOICE; log 17). -/
def State.serveRo (s : State) (o : MemOp) (line : Nat) : State :=
  let die := coreDie o.core
  match s.roc.find? (fun r => r.core == o.core && r.line == line), s.l2? die line with
  | some r, x =>
    let s1 : State := { s with roc := updIf (· == r) (fun r => { r with used := s.evno }) s.roc }
    let bs := match x with
      | some x => roMix s.free (o.bytesIn r.data) (s.opBytes o line x.data) o.loc.inLine
      | none => o.bytesIn r.data
    -- the granules may come from both copies, so that a release waits for the intervals of both (R312)
    let s2 := match x with
      | some x => s1.choose.2.owe o.key line x.iv s.time
      | none => s1.choose.2
    (((s2.logLineRead o line r.iv).deliver o (loadVal o.ty bs)).finishOp o)
  | none, some x =>
    let s1 := s.roFill { core := o.core, line, data := x.data, iv := x.iv, used := s.evno }
    (((s1.touchL2 die line o.cls o.hint).logLineRead o line x.iv).deliver o (loadVal o.ty (s.opBytes o line x.data))).finishOp o
  | none, none => s.request die line false o.cls o.hint

/-- A prefetch: the line is installed at the named level, or the prefetch is dropped (R161). At the LLC its slice reads the line
from the memory behind it. -/
def State.servePref (s : State) (o : MemOp) (line : Nat) (lvl : PrefLevel) : State :=
  let die := coreDie o.core
  let off := o.roff / 128
  match lvl with
  | .llc =>
    if (s.llc? line).isSome then (s.touchLlc line o.cls .none).finishOp o
    else if s.coh.mshr.any (·.1 == line) then s
    else if (s.owner? line).isSome || s.remoteHeld line || 64 ≤ s.sliceMisses line || s.polOf line o.cls == wpNone then s.finishOp o
    else s.startMiss line false [⟨die, line, .fill, o.cls, o.hint⟩]
  | .l2 => match s.l2? die line with
    | some _ => s.finishOp o
    | none => s.request die line false o.cls o.hint
  | .l1 => match s.l2? die line with
    | some x => (if x.l1Hit o.core o.obj off then s.l1Touch die line o.core o.obj off else s.l1Fill die line o.core o.obj off).finishOp o
    | none => s.request die line false o.cls o.hint

/-! ## Pool maintenance (R162) -/

/-- `cwb`: dirty data go to the memory node, and a clean copy stays. -/
def State.writeBackLine (s : State) (line : Nat) : State :=
  let s1 := s.recallAll line
  match s1.llc? line with
  | some l =>
    if l.dirty then
      (s1.modCoh fun c => { c with llc := updIf (·.line == line) (fun l => { l with dirty := false }) c.llc }).memWrite line l.data
    else s1
  | none => s1

/-- Every copy of a line goes from the coherent caches without a write-back. The line starts a new memory interval. -/
def State.dropCopies (s : State) (line : Nat) : State :=
  let s1 := s.quiesce line
  let s2 := (s1.coh.l2.filter (·.line == line)).foldl (fun s l => (s.dropL2 l.die line).dirLeave l.die line false) s1
  let s3 := s2.modCoh fun c => { c with llc := c.llc.filter (·.line != line) }
  match s3.dir? line with
  | none => s3
  | some _ =>
    let s4 := s3.openIval line (some (s3.hMem line)) []
    s4.modIval line (s4.dirOf line).interval fun v => { v with expect := some 0, due := [], closed := none }

/-- `cinv`: every copy goes from the package's caches, the read-only and the instruction caches among them (R155, R162). -/
def State.dropLine (s : State) (line : Nat) : State :=
  let s1 := s.dropCopies line
  { s1 with roc := s1.roc.filter (·.line != line), ic := s1.ic.filter (·.line != line) }

/-- A maintenance operation on a line of pool memory, once nothing of the line is in flight; one that has written the line back is done
once its memory node has acknowledged it (R162, R163, R301). -/
def State.maintain (s : State) (o : MemOp) (line : Nat) : State :=
  if s.coh.mshr.any (·.1 == line) || s.lineBusy line || s.asked line (· != 4) then s
  else if o.kind == .cinv then (s.dropLine line).finishOp o
  else if s.asked line (fun _ => true) then s
  else
    let dirty := (s.coh.l2.any fun l => l.line == line && (l.st == .m || l.st == .o)) || (s.coh.llc.any fun l => l.line == line && l.dirty)
    if dirty then s.writeBackLine line
    else if o.kind == .cflush then (s.dropLine line).finishOp o else s.finishOp o

/-! ## Lines of device, peer and pool memory -/

/-- An atomic that executes at its die's L2 (R169). -/
def MemOp.atL2 (o : MemOp) : Bool := lineSpace (o.loc.line?.getD 0) == 0 && scopeRank o.sc ≤ 3

/-- An operation on a cacheable line is performed, or asks for the line it needs. -/
def State.performLine (s : State) (o : MemOp) (line : Nat) : State :=
  let die := coreDie o.core
  match o.kind with
  | .cwb | .cinv | .cflush => if s.badLine line then s.finishOp o else s.maintain o line
  | _ =>
    if s.badLine line then s.opPoisoned o
    else
      match o.kind with
      | .ld => match s.l2? die line with
        | some x => (s.serveLoad o x).finishOp o
        | none => s.request die line false o.cls o.hint
      | .marm => match s.l2? die line with
        | some x => (s.serveLoad o x).finishMarm o line
        | none => s.request die line false o.cls o.hint
      | .ldRo => s.serveRo o line
      | .pref lvl => s.servePref o line lvl
      | .st => match s.l2? die line with
        | some x =>
          if x.st == .m || x.st == .e then
            ((((s.l2Store o line (leBytes o.size o.val.toNat)).touchL2 die line o.cls o.hint).logDie o (some x.iv)).ackLog
              line).finishOp o
          else s.request die line true o.cls o.hint
        | none => s.request die line true o.cls o.hint
      | .atom _ | .atomc | .red _ =>
        if o.homeDone then (s.deliver o o.val.toNat).finishOp o
        else if !o.atL2 then s
        else match s.l2? die line with
          | some x =>
            let g := s.groupOf o
            if !(g.all s.opReady) then s
            else if x.st == .m || x.st == .e then
              ((g.foldl (fun s p => s.l2Rmw line p) s).touchL2 die line o.cls o.hint).ackLog line
            else s.request die line true o.cls o.hint
          | none => s.request die line true o.cls o.hint
      | _ => s

/-! ## Other places -/

/-- A fibre's store into the accumulator of a queued or running matrix operation, or into a P tile that `scacc.clr` will write: each
word so stored ends with any pattern (R195; log 17). A store that the elected fibre made before the instruction precedes the
operation's accesses and is none of these (R194). -/
def State.taintTiles (s : State) (x : MemOp) (u off n : Nat) : State :=
  let hit (base stride m cols : Nat) : List Nat := (List.range n).filterMap fun i =>
    let x := off + i
    if (List.range m).any (fun r => base + r * stride ≤ x && x < base + r * stride + 4 * cols) then some (x / 4 * 4) else none
  { s with
    matq := s.matq.map fun m =>
      if m.sheaf == u && !(m.elected == x.key && m.inc == x.inc && x.id < m.id) then
        let p := match m.kind, m.a with | .scacc true, .scratch o => hit o m.pst m.m m.n | _, _ => []
        { m with taint := nub (m.taint ++ hit m.acc m.acs m.m m.n ++ p) }
      else m }

/-- A scratchpad access takes effect in the live or the shadow bank of its sheaf (R159, R160); a read of a unit that correction
could not repair raises the poison trap (R175, R324). -/
def State.performScratch (s : State) (o : MemOp) (u : Nat) (shadow : Bool) (off : Nat) : State :=
  match s.sheaf? u with
  | none => ((s.logAll o none).logRead o none).finishOp o
  | some h =>
    let l : Loc := .scratch u (h.bank != shadow) off
    let put : State := (s.rawWrite l (leBytes o.size o.val.toNat)).healUnits l o.size
    match o.kind with
    | .lds =>
      if s.badBytes l o.size then s.opPoisoned o
      else ((s.logRead o none).deliver o (loadVal o.ty (s.rawRead l o.size))).finishOp o
    | .sts => ((put.taintTiles o u off o.size).logAll o none).finishOp o
    | _ => (put.logAll o none).finishOp o

/-- One atomic on host memory (R171, R297). -/
def State.hostRmw (s : State) (o : MemOp) : State :=
  let die := coreDie o.core
  let old := leNat (s.rawRead o.loc o.size)
  let s1 := match o.rmw old with
    | some v => (s.rawWrite o.loc (leBytes o.size v)).logAll o none
    | none => s.logFailed o
  ((((s1.countAt die 11 o.size).countAt die 10 o.size).logRead o none).deliver o old).finishOp o

/-- An access to host memory (R155, R171, R297): the atomics of one warp instruction on one location are performed together, in lane
order (R170); a prefetch installs nothing, since host memory is never cached (R161, R274). -/
def State.performHost (s : State) (o : MemOp) : State :=
  let die := coreDie o.core
  match o.kind with
  | .ld | .ldRo | .marm =>
    (((s.countAt die 10 o.size).logRead o none).deliver o (loadVal o.ty (s.rawRead o.loc o.size))).finishOp o
  | .st => (((s.countAt die 11 o.size).rawWrite o.loc (leBytes o.size o.val.toNat)).logAll o none).finishOp o
  | .atom _ | .atomc | .red _ =>
    let g := s.groupOf o
    if g.all s.opReady then g.foldl State.hostRmw s else s
  | _ => s.finishOp o

/-- A plain store or reduction (R173). -/
def MemOp.sideable (o : MemOp) : Bool := o.ord == .plain && (match o.kind with | .st | .red _ => true | _ => false)

/-- The root an operation was made through, as far as a translation asks: host objects only. -/
def MemOp.hostRoot (o : MemOp) : Entry :=
  { kind := 1, space := 1, cls := o.cls, home := 0, rights := 0, base := 0, len := 0, objid := o.obj, bad := false }

/-- An access that the I/O die holds while a Page Request of its page is out: a plain store or reduction goes to the side log, once it has
room and its turn, with the others of its instruction on its place; any other access holds its fibre, if nothing else does (R170, R172,
R173, R293). -/
def State.holdOnPage (s : State) (o : MemOp) (pasid page : Nat) : State :=
  let on := XWait.page pasid page
  if o.sideable then
    let g := s.groupOf o
    if s.sideCount o.core < 256 && g.all s.opReady then g.foldl (fun s p => (s.dropOp p.id).logSide p (s.ctxOf p.key) p.hostRoot on) s else s
  else if o.gone then s
  else match s.fib? o.key with
    | some f => match f.cond with
      | .batched _ | .unbatched => s.setCond o.key (.waiting (.fault on o.cap))
      | _ => s
    | none => s

/-- A host access that the I/O die has not yet translated is translated afresh, or held on (R293–R295). -/
def State.performUntranslated (s : State) (o : MemOp) (pasid iova : Nat) : State :=
  if s.keptAside o.key && s.pageOut pasid (iova / 4096) then s else
  match o.kind with
  | .pref _ => s.finishOp o
  | _ =>
    let page := iova / 4096
    match s.atc? pasid iova o.kind.writesMem with
    | some a =>
      -- every operation of the warp instruction on this place goes with it (R170)
      let loc : Loc := .hostPa (a.host + (iova - a.base))
      let s1 := s.useAtc a
      let s2 := { s1 with ops := updIf (fun p => p.loc == o.loc && p.grp == o.grp && p.core == o.core && p.kind == o.kind) (fun p => { p with loc }) s1.ops }
      s2.performHost { o with loc }
    | none => if s.pageOut pasid page then s.holdOnPage o pasid page else s.atsMiss pasid page o.kind.writesMem (s.ctxOf o.key)

/-- An access to the register window: loads read counters, nothing is written, an atomic returns 0 (R296). -/
def State.performRegs (s : State) (o : MemOp) (off : Nat) : State :=
  match o.kind with
  | .ld | .ldRo => ((s.logRead o none).deliver o (loadVal o.ty (s.regWindow off o.size))).finishOp o
  | .marm => ((s.logRead o none).deliver o (loadVal o.ty (s.regWindow off o.size))).finishMarm o noLine
  | .st => (s.logAll o none).finishOp o
  | .atom _ | .atomc | .red _ => (((s.logAll o none).logRead o none).deliver o 0).finishOp o
  | _ => s.finishOp o

/-- A read of the weight store: `ldw` waits while its bank refreshes; `ldw.nb` was decided at issue, and a busy one (queue 1) reads
nothing (R157, R158). The store of a
quarantined die is unreachable and reads as what no memory backs (R268, R409). -/
def State.performWeight (s : State) (o : MemOp) : State :=
  let status (s : State) : State := match o.dst2 with
    | some r => s.modFib o.key fun f => f.setReg r (o.val2.setWidth 32)
    | none => s
  let die := match o.loc with | .weight d _ => d | _ => 8
  if o.kind == .ldwNb && o.queue == 1 then (status (s.logRead o none)).finishOp o
  else if s.rel.qmask.getLsbD die || s.badBytes o.loc o.size then s.opPoisoned o
  else
    let s1 := s.logRead o none
    match o.kind with
    | .ldw =>
      if s.time / 1000 % 64 == weightBank o.roff then s
      else (s1.deliver o (loadVal o.ty (s.rawRead o.loc o.size))).finishOp o
    | .ldwNb => (status (s1.deliver o (loadVal o.ty (s.rawRead o.loc o.size)))).finishOp o
    | _ => s.finishOp o

/-- A memory operation is performed where it lies. -/
def State.performOp (s : State) (o : MemOp) : State :=
  match o.loc with
  | .scratch u shadow off => s.performScratch o u shadow off
  | .hostPa _ => s.performHost o
  | .regs off => s.performRegs o off
  | .weight _ _ => s.performWeight o
  | .unbacked => s.opPoisoned o
  | .host pasid iova => s.performUntranslated o pasid iova
  | .hostUn _ _ => s
  | l => match l.line? with
    | some line => if o.kind.writesMem && s.xlatLine line then s else s.performLine o line
    | none => s

/-! ## Atomics at the home (R169, R279, R309) -/

/-- One read-modify-write of bytes at a line's home, no copy being held: interval n + 1 has the atomic unit as its writer,
and an ATOMIC record goes to the checker (R304, R309), also where a comparison failed and nothing is written; where the two
units disagree, a violation of cause 3. -/
def State.homeRmw (s : State) (cls line : Nat) (g : Option (List Byte → List Byte)) (agree : Bool) : State :=
  let s0 := s.homeTouch line cls
  let old := s0.homeLine line
  let new := match g with | some g => g old | none => old
  let s1 := ((if g.isSome then s0.invalRemote line else s0).openIval line (some (hAtomic line)) [])
  let n := (s1.dirOf line).interval
  let s2 := if g.isSome then (s1.homeStore line cls new).wakeLine line else s1
  if agree && !s.coh.atomUpset.contains (homeSlice line) then
    s2.sendRec { hash := lineHash new, interval := n, line, kind := .atomic, writer := true, holder := hAtomic line,
                 hashb := lineHash old }
  else
    let (x, s3) := (s2.modCoh fun c => { c with atomUpset := c.atomUpset.erase (homeSlice line) }).freeBits
    s3.violate { line, n, cause := 3, holder := hAtomic line, supplier := hAtomic line, exp := lineHash new, got := x }

/-- One operation at the home, whose old value its fibre receives when it completes. Its operand and returned bytes are counted
(R297). -/
def State.homeOp (s : State) (line : Nat) (agree : Bool) (o : MemOp) : State :=
  let die := coreDie o.core
  let off := o.loc.inLine
  let old := leNat (s.opBytes o line (s.homeLine line))
  let s0 := (s.countOut die line none o.size).countIn die line none (match o.dst with | some _ => o.size | none => 0)
  let s1 := s0.homeRmw o.cls line ((o.rmw old).map fun v => fun d => overlay d off (leBytes o.size v)) agree
  let iv := some (s1.dirOf line).interval
  let s2 := (match o.rmw old with | some _ => s1.logHome o line iv | none => s1.logFailed o).logHomeRead o line iv
  s2.modOp o.id fun p => { p with homeDone := true, recalling := false, val := BitVec.ofNat 64 old }

/-- Copies of a line held in the package stand in the way of an atomic at its home (R169). -/
def State.heldCopies (s : State) (line : Nat) : Bool := s.coh.l2.any (·.line == line)

/-- The major opcode and SUB of an atomic, `atomc` or reduction (R71). -/
def OpKind.rmwCode (k : OpKind) : Nat × Nat :=
  let code (f : BitVec 3 → Option AtomOp) (op : AtomOp) : Option Nat := (List.range 8).find? fun i => f (BitVec.ofNat 3 i) == some op
  match k with
  | .atom op => match code AtomOp.of90 op with | some i => (0x90, i) | none => (0x91, (code AtomOp.of91 op).getD 0)
  | .red op => match code AtomOp.of93 op with | some i => (0x93, i) | none => (0x94, (code AtomOp.of94 op).getD 0)
  | .atomc => (0x92, 0)
  | _ => (0, 0)

/-- The payload of an atomic to another home: byte 0 the operation's SUB, byte 1 its major opcode, byte 2 its TYPE, byte 3 the offset
in the line, byte 4 how many operations of its group follow, bytes 8–15 and 16–23 its operands (log 14). -/
def MemOp.payload (o : MemOp) (more : Nat) : List Byte :=
  let (major, sub) := o.kind.rmwCode
  leBytes 8 (sub + 2 ^ 8 * major + 2 ^ 16 * o.ty.code.toNat + 2 ^ 24 * o.loc.inLine + 2 ^ 32 * more) ++ leBytes 8 o.val.toNat
    ++ leBytes 8 o.val2.toNat

/-- The operations of one warp instruction on one location of peer or pool memory go to its home, in lane order (R169, R170, R381,
R383); the package's own copies have gone before them. -/
def State.sendAtomics (s : State) (line : Nat) (g : List MemOp) : State :=
  match s.llcTag? line with
  | some l => s.llcEvict l
  | none =>
    if s.asked line (fun _ => true) then s
    else (g.zipIdx.foldl (fun s x =>
      let die := coreDie x.1.core
      (s.askHome line 9 (some x.1.id) none (x.1.payload (g.length - 1 - x.2))).countOut die line none x.1.size) s)

/-- The home has answered an atomic: the old value reaches its fibre, and its write counts at system scope (R297, R301, R381). -/
def State.atomicAnswer (s : State) (id line old : Nat) : State :=
  match s.op? id with
  | none => s
  | some o =>
    let s1 := s.countIn (coreDie o.core) line none (match o.dst with | some _ => o.size | none => 0)
    let v := old % 2 ^ o.ty.bits
    let s2 := (match o.rmw v with | some _ => s1.logAll o none | none => s1.logFailed o).logRead o none
    s2.modOp id fun p => { p with homeDone := true, recalling := false, val := BitVec.ofNat 64 v }

/-- HOME_ATOMIC: in its turn among the requests to the line (R280), the slice recalls every copy of the line and then executes the operations of one warp instruction on one
location in lane order, or sends them to the home of a peer or pool line (R169, R170, R279, R309, R381, R383). -/
def execHomeAtomic (id : Nat) (agree : Bool) (s : State) : Outc :=
  match s.op? id with
  | none => .next s
  | some o =>
    match o.loc.line? with
    | none => .next s
    | some line =>
      let g := s.groupOf o
      let turn := g.any (·.recalling) || !(s.hostQueued line || s.coh.reqs.any (·.line == line))
      if !o.kind.isRmw || o.homeDone || o.atL2 || s.badLine line || s.xlatLine line || !(g.all s.opReady) || !turn then .next s
      else if s.remoteHeld line then .next (s.askRemote line)
      else if s.heldCopies line then
        if s.lineBusy line || 64 ≤ s.sliceMisses line then .next s
        else
          let dies := (s.coh.l2.filter (·.line == line)).map (·.die)
          .next ((dies.foldl (fun s d => s.send (.recall d line)) s).modOp id fun p => { p with recalling := true })
      else if (s.modOp id fun p => { p with recalling := false }).lineBusy line || s.coh.mshr.any (·.1 == line) then .next s
      else
        let s0 := s.modOp id fun p => { p with recalling := false }
        if lineSpace line == 0 then .next (g.foldl (fun s p => s.homeOp line agree p) s0) else .next (s0.sendAtomics line g)

/-! ## Writes to translation lines (R289) -/

/-- An access translated through the line is in flight, and stands in the way of a write to it: accesses of other fibres, and
the writer's own earlier ones; the writer's own later ones too where they do not wait for it (R289)
(DEDUCED; log 46). -/
def State.xlatBusy (s : State) (line : Nat) (o : MemOp) : Bool :=
  s.ops.any (fun p => p.id != o.id && p.released && p.xl.contains line
      && (p.key != o.key || p.id < o.id || !(o.kind.readsMem || o.acquires || p.meets o)))
    || s.cmds.any (fun c => c.chunk != [] && c.xl.contains line)

/-- Releasing operations that still wait and were translated through the line start again from their instructions. -/
def State.retranslate (s : State) (line : Nat) : State :=
  (s.ops.filter fun p => !p.released && p.xl.contains line).foldl (fun s p =>
    match s.fib? p.key with
    | some f => ((s.abandonHold f).setCond f.key .unbatched)
    | none => s) s

/-- A write at the home of a translation line, with its snoop; its bytes leave the writer's die (R289, R297). -/
def State.xlatWrite (s : State) (o : MemOp) (line : Nat) (bs : List Byte) : State :=
  let die := coreDie o.core
  (((s.retranslate line).homeWriteLine (hL2 die) false o.cls line o.loc.inLine bs).countOut die line none bs.length).snoopXlat line

/-- One atomic at the home of a translation line (R289, R309). -/
def State.xlatRmw (s : State) (line : Nat) (o : MemOp) : State :=
  let s1 := ((s.retranslate line).recallAll line).homeOp line true o
  (s1.snoopXlat line).deliver o ((s1.op? o.id).map (·.val.toNat) |>.getD 0) |>.finishOp o

/-- TRANSLATION_LINE_WRITE: a store, atomic or `hnarrow` to a translation line is performed at the home slice, once every
access translated through the line has been performed, with every cached entry invalidated (R152, R289, R291). The atomics of
one warp instruction on one location are performed together, in lane order (R170). -/
def execTranslationLineWrite (id : Nat) (s : State) : Outc :=
  match s.op? id with
  | none => .next s
  | some o =>
    match o.loc.line? with
    | none => .next s
    | some line =>
      let g := if o.kind.isRmw then s.groupOf o else [o]
      if !o.kind.writesMem || o.homeDone || !(s.xlatLine line || o.kind == .hnarrow) || g.any (fun p => !s.opReady p || s.xlatBusy line p) then .next s
      else if s.remoteHeld line then .next (s.askRemote line)
      else if !s.lineReady line true false then .next (s.wantLine (coreDie o.core) o.cls line true)
      else if s.badLine line then .next (s.opPoisoned o)
      else
        match o.kind with
        | .hnarrow =>
          let s1 := s.xlatWrite o line (leBytes 32 o.unit.toNat)
          .next (((s1.owe o.key line (s1.dirOf line).interval s.time).setDst o).finishOp o)
        | .st =>
          let s1 := s.xlatWrite o line (leBytes o.size o.val.toNat)
          .next ((s1.logHome o line (some (s1.dirOf line).interval)).finishOp o)
        | _ => .next (g.foldl (fun s p => s.xlatRmw line p) s)

/-- The device writes a run of its own memory in a layout that is not architectural: cached copies of its lines go, and its bytes
are open (R352, R372; log 78). -/
def State.deviceArea (s : State) (base size : Nat) : State :=
  let mine (line : Nat) : Bool := base / 128 ≤ line && line * 128 < base + size
  let s1 := (nub ((s.coh.l2.map (·.line) ++ s.coh.llc.map (·.line)).filter mine)).foldl State.dropCopies s
  s1.openArea base size

/-! ## The side log (R173, R174, R292) -/

/-- The entries of the side log that one warp instruction made for one line (R173). -/
def SideEntry.with (e x : SideEntry) : Bool := x.core == e.core && x.op.grp == e.op.grp && x.op.sameUnit e.op

/-- An entry may replay: its sheaf is placed, what it waits for has been answered, and no earlier entry of its line or of its fibres
stands before it (R173, R349). -/
def State.mayReplay (s : State) (e : SideEntry) : Bool :=
  let before := (s.side.filter (·.core == e.core)).takeWhile fun x => !e.with x
  !s.keptAside e.op.key && s.answered e.on && before.all fun x =>
    x.op.key != e.op.key && !x.op.sameUnit e.op && !(s.side.any fun y => e.with y && y.op.key == x.op.key)

/-- An entry becomes an operation, in the turn of its group among those replayed, and its place is known to the commit log (R300,
R302). -/
def State.replayOne (s : State) (turn : Nat) (e : SideEntry) (loc : Loc) (lines : List Nat) (iova : Option (Nat × Nat)) : State :=
  let o := { e.op with loc, xl := lines, iova, replay := turn + 1 }
  { s with side := s.side.erase e, ops := s.ops ++ [o] }.logOp o.id fun x => { x with
    line := o.logPlace.1, off := o.logPlace.2.1, size := o.logPlace.2.2 }

/-- Entries are discarded because their translation failed: the context enters the faulted state, and the fibres held on them
stay held until it is released (R174, R292, R402). -/
def State.discardSide (s : State) (es : List SideEntry) (e : SideEntry) (code : Nat) : State :=
  let s1 := es.foldl (fun s x => ({ s with side := s.side.erase x, log := s.log.filter (·.op != x.op.id) }).completeFlags x.op.key x.op.flags) s
  let stuck := s1.fibres.filter fun f =>
    (match f.cond with | .held (.release _ _ _) => true | _ => false) && es.any (·.op.key == f.key)
  let s2 := s1.modCtx e.ctx fun c => { c with discarded := c.discarded ++ stuck.map fun f => (f.key, e.op.cap) }
  s2.faultCtx e.ctx e.core e.obj e.ext es.length e.op.pc code

/-- The root an entry was made through, as far as a translation asks (R287). -/
def SideEntry.root (e : SideEntry) : Entry :=
  { kind := 1, space := e.space, cls := e.op.cls, home := e.home, rights := 0, base := 0, len := 0, objid := e.obj, bad := false }

/-- Replay the oldest group of entries that may replay: translate it again; it is performed like any store, waits anew, or
is discarded (DEDUCED; log 49). -/
def State.replay (s : State) (e : SideEntry) : State :=
  let es := s.side.filter e.with
  let rewait (s : State) (on : XWait) (ext : Nat) : State := { s with
    side := updIf e.with (fun x => { x with on, ext }) s.side }
  match s.lookup e.ctx e.root e.op.roff false with
  | .bad => s.discardSide es e 0x000E
  | .failed ext =>
    s.discardSide (s.side.filter fun x => x.ctx == e.ctx && x.obj == e.obj && x.ext == ext) e 0x000E
  | .missing ext entry =>
    rewait (s.pageFault (coreDie e.core) e.ctx e.root ext entry .store (s.launchId e.op.key)) (.extent e.obj ext entry) ext
  | .at loc lines =>
    let (turn, s1) := (s.cacheXlat e.core e.ctx 0 [] e.obj (s.extOf e.ctx e.root e.op.roff) false lines).fresh
    match loc with
    | .host pasid iova =>
      match s1.atc? pasid iova true with
      | some a => es.foldl (fun s x =>
          let v := iova + x.op.roff - e.op.roff
          s.replayOne turn x (.hostPa (a.host + (v - a.base))) lines (some (pasid, v))) (s1.useAtc a)
      | none => rewait (s1.atsMiss pasid (iova / 4096) true e.ctx) (.page pasid (iova / 4096)) e.ext
    | _ => es.foldl (fun s x =>
        match s.lookup e.ctx e.root x.op.roff false with
        | .at l _ => s.replayOne turn x l lines none
        | _ => s) s1

/-- SIDE_LOG_REPLAY: the oldest entry of a core's side log that may replay does so (R173). -/
def execSideLogReplay (core : Nat) (s : State) : Outc :=
  match (s.side.filter (·.core == core)).find? s.mayReplay with
  | none => .next s
  | some e => .next (s.replay e)

/-! ## Faulting accesses (R172, R291) -/

/-- What the answer to an extent or a page lets go on: held loads are retried, held matrix operations and stopped commands
resume. -/
def State.retry (s : State) (p : XWait → Bool) : State :=
  let go (on : XWait) : Bool := p on && s.answered on
  { s with
    fibres := updIf (fun f => match f.cond with | .waiting (.fault x _) => go x | _ => false)
      (fun f => { f with cond := .unbatched }) s.fibres
    matq := updIf (fun m => match m.held with | some x => go x | none => false) (fun m => { m with held := none }) s.matq
    cmds := updIf (fun c => match c.st with | .waiting x => go x | _ => false) (fun c => { c with st := .running }) s.cmds }

/-- A wait names an extent of an object, or a page of a PASID. -/
def XWait.names (a b : Nat) : XWait → Bool
  | .extent obj ext _ => obj.toNat == a && ext == b
  | .page pasid n => pasid == a && n == b

/-- FAULTING_LOAD_RETRY: an extent, or a page of a PASID, has been answered (R172, R291, R294). -/
def execFaultingLoadRetry (obj ext : Nat) (s : State) : Outc := .next (s.retry (XWait.names obj ext))

end Sys2Proof.Machine
end

