-- ==== Sys2Proof/Machine/Bulk.lean ====
section
/-! DEFINITION. Runs of bytes of an object, as matrix operations and engines read and write them: translated piece by piece
(R287, R293), read at their homes with the class of their root (R283; log 20). -/

namespace Sys2Proof.Machine

/-- A run of bytes cut at multiples of 4 KiB, the smallest unit that a translation covers. -/
def pieces : Nat → Nat → Nat → List (Nat × Nat)
  | 0, _, _ => []
  | fuel + 1, o, n =>
    if n == 0 then []
    else
      let k := min n (4096 - o % 4096)
      (o, k) :: pieces fuel (o + k) (n - k)

/-- The pieces of a run. -/
def piecesOf (o n : Nat) : List (Nat × Nat) := pieces (n / 4096 + 2) o n

/-- What becomes of a run's translation. -/
inductive Located where
  | at (ps : List (Loc × Nat)) (lines : List Nat)
  | wait (on : XWait)
  /-- a host translation is under way (R293) -/
  | pend
  | fail
  deriving DecidableEq, Repr

/-- A piece that begins within its object runs past the object's LENGTH (R287). -/
def State.pastEnd (s : State) (ctx : Nat) (w : Window) (o n : Nat) : Bool :=
  (ObjDesc.ofNat (s.newestNat (descLoc (s.objTable ctx) w.root.objid) 64)).len < o + n

/-- Translate the pieces of a run in order, up to the first that is missing or fails; every byte of one must lie within the object's
LENGTH (R287). -/
def State.locate (core ctx : Nat) (w : Window) (wr : Bool) (acc : FaultAcc) (launch : Word) (shadow : Bool) :
    List (Nat × Nat) → State → Located × State
  | [], s => (.at [] [], s)
  | (o, n) :: l, s =>
    match s.translate core ctx w o wr acc launch shadow with
    | (.fail, s1) => (.fail, s1)
    | (.wait on, s1) => (.wait on, s1)
    | (.at (.host _ _) _ _, s1) => (.pend, s1)
    | (.at loc lines _, s1) =>
      if s1.pastEnd ctx w o n then (.fail, s1)
      else match State.locate core ctx w wr acc launch shadow l s1 with
      | (.at ps ls, s2) => (.at ((loc, n) :: ps) (lines ++ ls), s2)
      | r => r

/-- The lines that a run of bytes at a place lies in. -/
def linesOf (loc : Loc) (n : Nat) : List Nat := nub ((List.range n).filterMap fun i => (loc.add i).line?)

/-- The bytes at a place, or the first line of it that gives poison (R175). -/
def State.readLoc (s : State) (loc : Loc) (n : Nat) : Except Nat (List Byte) :=
  match loc with
  | .regs off => .ok (s.regWindow off n)
  | .unbacked => .error noLine
  | .scratch _ _ _ | .weight _ _ => if s.badBytes loc n then .error noLine else .ok (s.rawRead loc n)
  | _ => match (linesOf loc n).find? s.badLine with
    | some line => .error line
    | none => .ok (s.newest loc n)

/-- The bytes of translated pieces. -/
def State.readPieces (s : State) : List (Loc × Nat) → Except Nat (List Byte)
  | [] => .ok []
  | (loc, n) :: l =>
    match s.readLoc loc n with
    | .error e => .error e
    | .ok bs => match s.readPieces l with
      | .error e => .error e
      | .ok r => .ok (bs ++ r)

/-- Reading pieces touches their lines at their homes, with a class and no hint (R283), and counts against the die of the issuing core,
line by line, by who supplies it, whose bytes leave its L2 (R297). -/
def State.readTouch (s : State) (die cls : Nat) (ps : List (Loc × Nat)) : State :=
  ps.foldl (fun s p => match p.1 with
    | .hostPa _ => s.countAt die 10 p.2
    | l => (linesOf l p.2).foldl (fun s line =>
        let n := ((List.range p.2).filter fun i => (l.add i).line? == some line).length
        let x := (s.owner? line).map (·.die)
        let s1 := match x with | some d => s.countOut d line (some die) n | none => s
        (s1.countIn die line x n).homeTouch line cls) s) s

/-- Lines of pieces whose data are not yet at hand (R381–R383). -/
def State.notReady (s : State) (ps : List (Loc × Nat)) : List Nat :=
  nub (ps.flatMap fun p => (linesOf p.1 p.2).filter fun line => !s.badLine line && !s.lineReady line false false)

/-- What a bulk read gives. -/
inductive Bulk where
  | ok (bytes : List Byte) (lines : List Nat)
  | wait (on : XWait)
  /-- a translation or a line is under way: the read is tried again -/
  | pend
  | fail
  | poison (line : Nat)
  deriving DecidableEq, Repr

/-- Read translated pieces, asking for what another package or a memory node holds. -/
def State.readAt (s : State) (core cls : Nat) (ps : List (Loc × Nat)) (lines : List Nat) : Bulk × State :=
  match s.notReady ps with
  | l :: ls => (.pend, (l :: ls).foldl (fun s line => s.wantLine (coreDie core) cls line false) s)
  | [] =>
    match s.readPieces ps with
    | .ok bs => (.ok bs lines, s.readTouch (coreDie core) cls ps)
    | .error line => (.poison line, s)

/-- Read a run of a root object. -/
def State.readBulk (s : State) (core ctx : Nat) (w : Window) (acc : FaultAcc) (launch : Word) (shadow : Bool) (o n : Nat) :
    Bulk × State :=
  match State.locate core ctx w false acc launch shadow (piecesOf o n) s with
  | (.fail, s1) => (.fail, s1)
  | (.wait on, s1) => (.wait on, s1)
  | (.pend, s1) => (.pend, s1)
  | (.at ps lines, s1) => s1.readAt core w.root.cls ps lines

/-- A window that names a root object by what a translation asks of it. -/
def rootWindow (obj : BitVec 64) (space home cls : Nat) : Window :=
  { root := { kind := 1, space, cls, home, rights := 0, base := 0, len := 0, objid := obj, bad := false }, handle := 0,
    named := 0, base := 0, len := 0, rights := 0, lines := [] }

/-- Bytes of a sheaf's live bank (R159, R160). -/
def State.scratchRead (s : State) (u off n : Nat) : List Byte :=
  match s.sheaf? u with | some h => s.rawRead (.scratch u h.bank off) n | none => List.replicate n 0

/-- Bytes of a sheaf's live bank hold poison (R324). -/
def State.scratchBad (s : State) (u off n : Nat) : Bool :=
  match s.sheaf? u with | some h => s.badBytes (.scratch u h.bank off) n | none => false

/-- Store bytes in a sheaf's live bank; nothing once the sheaf is gone. -/
def State.scratchWrite (s : State) (u off : Nat) (bs : List Byte) : State :=
  match s.sheaf? u with | some h => (s.rawWrite (.scratch u h.bank off) bs).healUnits (.scratch u h.bank off) bs.length | none => s

end Sys2Proof.Machine
end

