-- ==== Sys2Proof/Machine/Command.lean ====
section
/-! DEFINITION. Engine commands (R219–R227): their fields, the checks at acceptance (R220, R357), what a capability of a
command resolves to, declared counts (R224), completion entries (R227), and the inbound side of a queue register (R221). -/

namespace Sys2Proof.Machine

/-! ## Fields (R223–R226) -/

/-- Bits of a double of a unit. -/
def ufield (u : BitVec 256) (dbl lo len : Nat) : Nat := bitsOf u (64 * dbl + lo) len
/-- A flag of double 0. -/
def uflag (u : BitVec 256) (i : Nat) : Bool := u.getLsbD i
/-- KIND. -/
def uKind (u : BitVec 256) : Nat := ufield u 0 0 7
def uIrq (u : BitVec 256) : Bool := uflag u 7
def uCq (u : BitVec 256) : Bool := uflag u 8
def uBen (u : BitVec 256) : Bool := uflag u 9
/-- BAR. -/
def uBar (u : BitVec 256) : Nat := ufield u 0 10 4
def uShd (u : BitVec 256) : Bool := uflag u 14
def uScr (u : BitVec 256) : Bool := uflag u 15
/-- CTAG. -/
def uCtag (u : BitVec 256) : Nat := ufield u 0 16 8
/-- A capability in double `i`. -/
def uCap (u : BitVec 256) (i : Nat) : Dword := BitVec.ofNat 64 (ufield u i 0 64)
/-- LEN, for the kinds whose table leaves it. -/
def uLen (u : BitVec 256) : Nat := if uKind u == 6 then ufield u 0 24 32 else ufield u 0 24 40
/-- ROWS, ROWBYTES, SSTRIDE and DSTRIDE of a strided copy. -/
def uRows (u : BitVec 256) : Nat := ufield u 0 48 16
def uRowBytes (u : BitVec 256) : Nat := ufield u 0 24 24
def uSstride (u : BitVec 256) : Nat := ufield u 3 0 32
def uDstride (u : BitVec 256) : Nat := ufield u 3 32 32
/-- NROWS, FIRST, LIMIT and the value size of a CSR gather. -/
def uNrows (u : BitVec 256) : Nat := ufield u 0 48 16
def uFirst (u : BitVec 256) : Nat := ufield u 1 0 32
def uLimit (u : BitVec 256) : Nat := ufield u 0 24 16
def uVs (u : BitVec 256) : Nat := 2 * 2 ^ ufield u 0 40 2
/-- TARGETS of a multicast. -/
def uTargets (u : BitVec 256) : Nat := ufield u 3 0 64
/-- ETYPE and the element size of a reduce-copy. -/
def uEtype (u : BitVec 256) : Nat := ufield u 3 0 4
def uElem (u : BitVec 256) : Nat := if uEtype u == 2 || uEtype u == 3 then 8 else 4

/-- Bytes that a command writes, row by row where it has rows. -/
def uTotal (u : BitVec 256) : Nat := if uKind u == 2 then uRows u * uRowBytes u else uLen u

/-- The span of a strided side: from its first byte to its last. -/
def strideSpan (rows rowBytes stride : Nat) : Nat := if rows == 0 || rowBytes == 0 then 0 else (rows - 1) * stride + rowBytes

/-- A destination is scratchpad. -/
def uScratch (u : BitVec 256) : Bool := uScr u && [1, 2, 3, 4, 5, 0x10].contains (uKind u)

/-- The declared count for each barrier that the command decrements (R224). -/
def uDeclared (u : BitVec 256) : Nat :=
  if !uScratch u then 0 else if uKind u == 3 then uLimit u * (4 + uVs u) else uTotal u

/-! ## Check 1: reserved fields and KIND (R219, R223–R226, R357, R361, R363, R364) -/

/-- A double that names a destination: a capability, or an offset under SCR. -/
def dstFieldOk (u : BitVec 256) (i : Nat) : Bool := !uScr u || ufield u i 19 45 == 0

/-- The ranks a command's barriers stand in: every selected target of a multicast, else the issuing sheaf. -/
def State.targets (s : State) (u : BitVec 256) (h : Sheaf) : List Sheaf :=
  if uKind u == 4 then (s.stookOf h).filter fun g => (uTargets u).testBit (g.index % h.stook) else [h]

/-- The fields of one kind. -/
def kindFieldsOk (s : State) (u : BitVec 256) (h : Sheaf) : Bool :=
  match uKind u with
  | 1 => dstFieldOk u 2 && ufield u 3 0 64 == 0 && !(uShd u && uScr u)
  | 2 => dstFieldOk u 2 && uRowBytes u ≤ uDstride u && !(uShd u && uScr u)
  | 3 => uScr u && !uShd u && ufield u 0 42 6 == 0 && ufield u 0 40 2 != 3 && ufield u 1 32 8 == 0 && ufield u 2 0 16 == 0
      && ufield u 3 38 26 == 0
  | 4 => uScr u && !uShd u && dstFieldOk u 2 && h.stook != 0 && uTargets u != 0 && uTargets u < 2 ^ h.stook
  | 5 => dstFieldOk u 2 && ufield u 3 4 28 == 0 && uEtype u ≤ 4 && uLen u % uElem u == 0 && !(uScr u && uElem u == 8)
      && !(uShd u && uScr u)
  | 6 => !uScr u && uShd u && 1 ≤ uLen u
      && (match s.ctx? h.ctx with | some c => c.keys.any (·.slot == ufield u 0 56 8) | none => false)
  | 7 => !uScr u && !uShd u && ufield u 0 27 37 == 0 && 1 ≤ ufield u 0 24 3 && ufield u 0 24 3 ≤ 5 && ufield u 1 0 40 == 0
      && ufield u 2 0 64 == 0 && ufield u 3 0 64 == 0
  | 8 => !uScr u && !uShd u && ufield u 3 0 64 == 0 && uLen u % 128 == 0
  | 0x10 => !uShd u && dstFieldOk u 1
  | 0x11 => !uScr u && !uShd u && ufield u 2 0 32 == 0 && ufield u 3 0 40 == 0
  | 0x12 => !uScr u && !uShd u && ufield u 0 24 40 == 0 && ufield u 1 0 64 == 0 && ufield u 2 0 64 == 0 && ufield u 3 0 64 == 0
  | _ => false

/-- Check 1 of R220 for an endpoint of binding 1 (copy) or 2 (receive). -/
def State.wellFormedUnit (s : State) (bind : Nat) (u : BitVec 256) (decl : Bool) (h : Sheaf) : Bool :=
  let k := uKind u
  (if bind == 1 then 1 ≤ k && k ≤ 8 else 0x10 ≤ k && k ≤ 0x12)
    && (!uIrq u || uCq u)
    && kindFieldsOk s u h
    && (!uBen u || (s.targets u h).all fun g => match g.bars[uBar u]? with | some b => b.init | none => false)
    && (!decl || (uBen u && uScratch u))

/-! ## Checks 3 to 6 (R220, R357) -/

/-- What a command asks of one capability. -/
structure CapNeed where
  cap : Dword
  /-- it must name an entry of KIND 1 itself -/
  rootOnly : Bool
  bytes : Nat
  rights : List Right
  spaces : List Nat
  deriving DecidableEq, Repr

/-- A source or destination of some bytes. -/
def capNeed (cap : Dword) (bytes : Nat) (rights : List Right) (spaces : List Nat) : CapNeed :=
  { cap, rootOnly := false, bytes, rights, spaces }

/-- A capability that a handle field names, at offset 0. -/
def handleCap (h : Nat) : Dword := mkCap h 0

/-- The global destination of a kind, where it has one. -/
def dstNeed (u : BitVec 256) (i bytes : Nat) (rights : List Right) (spaces : List Nat) : List CapNeed :=
  if uScr u then [] else [capNeed (uCap u i) bytes rights spaces]

/-- What each kind asks, sources first (R357). -/
def capNeeds (u : BitVec 256) : List CapNeed :=
  let n := uLen u
  match uKind u with
  | 1 => capNeed (uCap u 1) n [.read] [0, 1, 2, 3, 4] :: dstNeed u 2 n [.write] [0, 1, 2, 3]
  | 2 => capNeed (uCap u 1) (strideSpan (uRows u) (uRowBytes u) (uSstride u)) [.read] [0, 1, 2, 3, 4]
      :: dstNeed u 2 (strideSpan (uRows u) (uRowBytes u) (uDstride u)) [.write] [0, 1, 2, 3]
  | 3 => [capNeed (handleCap (ufield u 1 40 24)) 0 [.read] [0, 1, 2, 3], capNeed (handleCap (ufield u 2 40 24)) 0 [.read] [0, 1, 2, 3],
      capNeed (handleCap (ufield u 2 16 24)) 0 [.read] [0, 1, 2, 3]]
  | 4 => [capNeed (uCap u 1) n [.read] [0, 1, 2, 3, 4]]
  | 5 => capNeed (uCap u 1) n [.read] [0, 1, 2, 3] :: dstNeed u 2 n [.atomic] [0, 2, 3]
  | 6 => [capNeed (uCap u 1) (n + 16) [.read] [1], capNeed (uCap u 2) n [.write, .publish] [0, 2, 3]]
  | 7 => [{ capNeed (handleCap (ufield u 1 40 24)) 0 [.publish] [0, 1, 2, 3] with rootOnly := true }]
  | 8 => [capNeed (uCap u 1) n [.read] [0], capNeed (uCap u 2) n [.write] [4]]
  | 0x10 => dstNeed u 1 n [.write] [0, 1, 2, 3]
  | 0x11 => [capNeed (uCap u 1) n [.read] [0, 1, 2, 3]]
  | _ => []

/-- Scratchpad areas a command writes: offset and bytes. -/
def scratchAreas (u : BitVec 256) : List (Nat × Nat) :=
  let d (i : Nat) := ufield u i 0 19
  let main : List (Nat × Nat) :=
    if !uScr u then []
    else match uKind u with
      | 2 => [(d 2, strideSpan (uRows u) (uRowBytes u) (uDstride u))]
      | 3 => [(d 3, 4 * uLimit u), (ufield u 3 19 19, uVs u * uLimit u)]
      | 0x10 => [(d 1, uLen u)]
      | _ => [(d 2, uLen u)]
  main ++ (if uKind u == 0x10 && uflag u (192 + 15) then [(16 * ufield u 3 0 15, 32)] else [])

/-- The alignment each kind requires (R357). -/
def unitAligned (u : BitVec 256) : Bool :=
  let d (i : Nat) := ufield u i 0 19
  match uKind u with
  | 1 => !uScr u || (d 2 % 4 == 0 && uLen u % 4 == 0)
  | 2 => !uScr u || (d 2 % 4 == 0 && uRowBytes u % 4 == 0 && uDstride u % 4 == 0)
  | 3 => d 3 % 4 == 0 && ufield u 3 19 19 % max 4 (uVs u) == 0
  | 4 => d 2 % 4 == 0 && uLen u % 4 == 0
  | 5 => capOffset (uCap u 1) % uElem u == 0 && (if uScr u then d 2 else capOffset (uCap u 2)) % uElem u == 0
  | 8 => capOffset (uCap u 1) % 128 == 0 && capOffset (uCap u 2) % 128 == 0
  | 0x10 => !uScr u || (d 1 % 4 == 0 && uLen u % 4 == 0)
  | _ => true

/-- Resolve a command's capabilities under its context's handle table (R144). -/
def State.resolveNeeds (s : State) (c : Ctx) : List CapNeed → Option (List Window)
  | [] => some []
  | n :: l =>
    match s.resolve c.htbase c.htlen (capHandle n.cap) with
    | .error _ => none
    | .ok w =>
      if n.rootOnly && (s.entry c.htbase (capHandle n.cap)).kind != 1 then none
      else (s.resolveNeeds c l).map (w :: ·)

/-- A resolved capability as an operand of the command. -/
def CapNeed.ref (n : CapNeed) (w : Window) : TileRef :=
  .mem w.root.objid w.root.space w.root.home w.root.cls (w.base + capOffset n.cap) n.cap

/-- The dies whose weight store a run of an object's extents names (R225). -/
def State.weightDies (s : State) (ctx : Nat) (w : Window) (off n : Nat) : List Nat :=
  nub ((piecesOf (w.base + off) n).filterMap fun p =>
    match s.lookup ctx w.root p.1 false with | .at (.weight d _) _ => some d | _ => none)

/-- The partitions a weight-store load concerns: that of its context, and every one where the context belongs to none. -/
def State.loadParts (s : State) (ctx : Nat) : List Part :=
  match s.ctx? ctx with
  | some c => if s.parts.any (·.num == c.part) then s.parts.filter (·.num == c.part) else s.parts
  | none => []

/-- A weight-store load finds a sheaf of a launch of the owning partition on a destination die (R367). -/
def State.weightBusy (s : State) (ctx : Nat) (dies : List Nat) : Bool :=
  s.sheafs.any fun h => dies.contains (coreDie h.core)
    && (match s.launch? h.launch with | some l => (s.loadParts ctx).any (·.num == l.part) | none => false)

/-- The endpoint number of a context (R368). -/
def State.endpointOf (s : State) (ctx : Nat) : Option (BitVec 24) :=
  (s.recv.endpoints.find? fun e => e.2.1 == s.fab.self && e.2.2 == ctx).map (·.1)

/-- The acceptance of an engine command: the places it resolved to, or the status that rejects it (R220, R225, R357, R365,
R367, R368). -/
def State.checkUnit (s : State) (bind : Nat) (u : BitVec 256) (decl : Bool) (h : Sheaf) :
    Except (BitVec 16) (List TileRef × List Nat) :=
  if !s.wellFormedUnit bind u decl h then .error 0x0002
  else if uKind u == 8 && !h.priv then .error 0x0003
  else
    match s.ctx? h.ctx with
    | none => .error 0x0013
    | some c =>
      let needs := capNeeds u
      match s.resolveNeeds c needs with
      | none => .error 0x0013
      | some ws =>
        let zs := needs.zip ws
        let room := 4096 * h.granules
        if zs.any (fun z => z.1.bytes != 0 && z.2.len < capOffset z.1.cap + z.1.bytes)
            || (scratchAreas u).any (fun a => a.2 != 0 && room < a.1 + a.2) then .error 0x0014
        else if zs.any fun z => !z.1.rights.all z.2.grants || !z.1.spaces.contains z.2.root.space then .error 0x0015
        else if !unitAligned u then .error 0x0016
        else
          let dst := if uScratch u then [TileRef.scratch (ufield u (if uKind u == 0x10 then 1 else if uKind u == 3 then 3 else 2) 0 19)]
            else []
          let out : List TileRef × List Nat := (zs.map (fun z => z.1.ref z.2) ++ dst, ws.map (·.len))
          if uKind u == 8
              && (match zs[1]? with | some z => s.weightBusy h.ctx (s.weightDies h.ctx z.2 (capOffset z.1.cap) z.1.bytes) | none => false) then
            .error 0x0005
          else if uKind u == 6
              && (match c.keys.find? (·.slot == ufield u 0 56 8) with | some k => ufield u 3 0 64 ≤ k.last.toNat | none => true) then
            .error 0x0008
          else if (uKind u == 0x10 || uKind u == 0x11) && (s.endpointOf h.ctx).isNone then .error 0x0012
          else .ok out

/-! ## The inbound side (R218, R221) -/

/-- Update one queue register of a sheaf. -/
def State.modQueue (s : State) (u q : Nat) (g : QueueReg → QueueReg) : State :=
  s.modSheaf u fun h => { h with queues := h.queues.mapIdx fun i r => if i == q then g r else r }

/-- An endpoint posts an entry: it enters the inbound side, or the endpoint holds it while the side is full (R221); an armed
fibre wakes (R214). -/
def State.postInbound (s : State) (u q : Nat) (e : BitVec 512) : State :=
  match (s.sheaf? u).bind fun h => h.queues[q]? with
  | none => s
  | some r =>
    if r.inHeld == [] && r.inb.length < 64 then
      (s.modQueue u q fun r => { r with inb := r.inb ++ [e] }).wakeQueue fun h i => h.uid == u && i == q
    else s.modQueue u q fun r => { r with inHeld := r.inHeld ++ [e] }

/-- Entries an endpoint holds enter as soon as there is room. -/
def State.refill (s : State) (u q : Nat) : State :=
  match (s.sheaf? u).bind fun h => h.queues[q]? with
  | none => s
  | some r =>
    match r.inHeld with
    | e :: l =>
      if r.inb.length < 64 then
        (s.modQueue u q fun r => { r with inb := r.inb ++ [e], inHeld := l }).wakeQueue fun h i => h.uid == u && i == q
      else s
    | [] => s

/-! ## Completion (R224, R227) -/

/-- A completion entry (R227) (DEDUCED; log 61). -/
def completionEntry (kind ctag : Nat) (status : BitVec 16) (bytes aux src tag : Nat) : BitVec 256 :=
  packBits 256 [(aux, 192), (src, 168), (tag, 128), (bytes % 2 ^ 40, 64), (kind % 128, 32), (ctag, 16), (status.toNat, 0)]

/-- The last decrement and the arrival of a command at one barrier, as one act; whether the arrival overflowed (R203, R204,
R224). -/
def State.engineArrive (s : State) (u n bytes : Nat) : State × Bool :=
  match s.bar? u n with
  | none => (s, false)
  | some b =>
    let ovf := b.arrived == b.expect
    ((s.modBar u n fun b => { b with
      pending := b.pending - BitVec.ofNat 40 bytes, arrived := if ovf then b.arrived else b.arrived + 1 }).tryComplete u n, ovf)

/-- The barriers of a command, by sheaf. -/
def State.cmdTargets (s : State) (c : Cmd) : List Nat :=
  match s.sheaf? c.sheaf with | some h => (s.targets c.unit h).map (·.uid) | none => []

/-- A command ends: its remaining decrement and its arrival, then its entry (R204, R224, R226). An arrival that waited on a
violated interval is never counted, and its decrement with it (R314) (DEDUCED; log 62). -/
def State.endCmd (s : State) (c : Cmd) (status : BitVec 16) (bytes aux src tag : Nat) : State :=
  let s0 : State := { s with cmds := s.cmds.filter (·.id != c.id) }
  let (s1, ovf) :=
    if uBen c.unit && !c.noArrival then
      (s.cmdTargets c).foldl (fun (p : State × Bool) u =>
        let (s2, o) := p.1.engineArrive u (uBar c.unit) (uDeclared c.unit - c.decremented)
        (s2, p.2 || o)) (s0, false)
    else (s0, false)
  let st : BitVec 16 := if status == 0 && ovf then 0x000A else status
  if uCq c.unit then
    let e := completionEntry (uKind c.unit) (uCtag c.unit) st bytes aux src tag
    let s2 := s1.postInbound c.sheaf c.q (e.setWidth 512)
    if uIrq c.unit then s2.raiseUser c.sheaf else s2
  else s1

end Sys2Proof.Machine
end

