-- ==== Sys2Proof/Machine/Matrix.lean ====
section
/-! DEFINITION. Matrix instructions and the matrix queue of a core (R178–R200): checks at issue, rows, the prologue of
`mma.w4` (R189), `scacc` (R190), ends and faults (R196–R199, R447). -/

namespace Sys2Proof.Machine

/-! ## Operands (R184–R186) -/

/-- M, N and K of a shape register (R184). -/
def shapeOf (v : Word) : Nat × Nat × Nat := (v.toNat % 2 ^ 8, v.toNat / 2 ^ 8 % 2 ^ 8, v.toNat / 2 ^ 16 % 2 ^ 10)

/-- A space-4 footprint lies in extents of the issuing die's weight store (R186, R287). -/
def State.weightHere (s : State) (ctx die : Nat) (root : Entry) (o len : Nat) : Bool :=
  (List.range (len / 2 ^ 18 + 2)).all fun i =>
    let x := if i == 0 then o else (o / 2 ^ 18 + i) * 2 ^ 18
    o + len ≤ x || (match s.lookup ctx root x false with | .at (.weight d _) _ => d == die | _ => false)

/-- The footprint of a capability operand (R186): alignment, handle, bounds, rights, and a weight-store extent here. -/
def State.capTile (s : State) (f : Fibre) (cap : Dword) (align stride len : Nat) : Except TrapInfo TileRef :=
  if capOffset cap % align != 0 || stride % 16 != 0 then .error (.cap cAlign cap)
  else
    match s.resolve f.inHtbase f.inHtlen (capHandle cap) with
    | .error c => .error (.cap c cap)
    | .ok w =>
      let o := w.base + capOffset cap
      if w.len < capOffset cap + len then .error (.cap cBounds cap)
      else if !w.grants .read then .error (.cap cRights cap)
      else if w.root.space == 4 && !s.weightHere (s.ctxOf f.key) (coreDie f.core) w.root o len then .error (.cap cTransl cap)
      else .ok (.mem w.root.objid w.root.space w.root.home w.root.cls o cap)

/-- The footprint of a scratchpad operand (R159, R186). -/
def scratchTile (h : Sheaf) (align off stride len : Nat) : Except TrapInfo TileRef :=
  if off % align != 0 || stride % 16 != 0 then .error (.plain cAlign)
  else if 4096 * h.granules < off + len then .error (.plain cBounds)
  else .ok (.scratch off)

/-- An operand named by a capability pair, or by a register that holds a scratchpad offset (R183). -/
def State.tileOf (s : State) (f : Fibre) (h : Sheaf) (scratch : Bool) (r : Reg) (stride len : Nat) : Except TrapInfo TileRef :=
  if scratch then scratchTile h 16 (f.reg r).toNat stride len else s.capTile f (f.pair r) 16 stride len

/-- Scratchpad bytes that an operand covers: rows of `len` bytes. -/
structure Tile where
  off : Nat
  rows : Nat
  stride : Nat
  len : Nat
  deriving DecidableEq, Repr

/-- A byte lies in a tile. -/
def Tile.has (t : Tile) (x : Nat) : Bool :=
  (List.range t.rows).any fun r => t.off + r * t.stride ≤ x && x < t.off + r * t.stride + t.len

/-- The words of a tile that other tiles touch (R195). -/
def Tile.overlapped (t : Tile) (others : List Tile) : List Nat :=
  (List.range t.rows).flatMap fun r => (List.range (t.len / 4)).filterMap fun j =>
    let x := t.off + r * t.stride + 4 * j
    if others.any fun o => (List.range 4).any fun i => o.has (x + i) then some x else none

/-- The tile of a scratchpad operand. -/
def TileRef.tile? (t : TileRef) (rows stride len : Nat) : List Tile :=
  match t with
  | .scratch off => [{ off, rows, stride, len }]
  | .mem _ _ _ _ _ _ => []

/-! ## Entering the queue (R178, R179) -/

/-- An operation of the elected fibre with the fields every kind has. -/
def MatOp.new (id : Nat) (s : State) (f : Fibre) (kind : MatKind) (ty : Ty) (m n k : Nat) : MatOp :=
  { id, core := f.core, sheaf := f.key.sheaf, ctx := s.ctxOf f.key, pc := f.pc, elected := f.key, inc := f.inc, gone := false, counted := [], kind, ty,
    pair := false, m, n, k, a := .scratch 0, b := .scratch 0, prm := .scratch 0, acc := 0, sa := 0, sb := 0, acs := 0, pst := 0,
    row := 0, started := false, claimed := false, held := none, stopped := false, bbuf := none, pbuf := [], taint := [] }

/-- An operation enters its core's queue and is counted by every member of the warp (R178, R179). -/
def State.enqueueMat (s : State) (w : Warp) (fsel : BitVec 2) (o : MatOp) : State :=
  let counted := w.members.filterMap fun k => (s.fib? k).map fun f => (k, f.selected fsel)
  let s1 := counted.foldl (fun s c => s.modFib c.1 (·.countFlags c.2)) s
  { s1 with matq := s1.matq ++ [{ o with counted }] }

/-- A matrix instruction: the elected fibre checks and creates the operation, the other members go on (R178, R186). -/
def matExec (i : Instr) (fsel : BitVec 2) (mk : Fibre → Sheaf → Nat → State → Except TrapInfo (Option MatOp)) (s : State) :
    Outc :=
  warpExec' i (fun _ => skipOn) (fun w k s =>
    if w.members.head? != some k then .next s
    else
      match s.fib? k, s.sheaf? k.sheaf with
      | some f, some h =>
        let (id, s1) := s.fresh
        match mk f h id s with
        | .error t => .trap t
        | .ok none => .next s
        | .ok (some o) => .next (s1.enqueueMat w fsel o)
      | _, _ => .next s) s

/-- A pair operation may be issued: on a leader whose follower is in service and of the context's partition (R180). -/
def State.pairOk (s : State) (core ctx : Nat) : Bool :=
  let f := s.coreSt (core + 1)
  isLeader core && !f.fenced && !f.lost && !s.rel.qmask.getLsbD (coreDie core)
    && (match (s.ctx? ctx).bind fun c => s.part? c.part with | some p => p.cores.contains (core + 1) | none => false)

/-- Limits of M, N and K (R184). -/
def mmaLimits (kind : MatKind) (pair : Bool) : Nat × Nat × Nat :=
  match kind with
  | .mmaBp => (128, 64, 512)
  | _ => (128, if pair then 128 else 64, 256)

/-- Bytes of a row of A and of a row of B (R185, R186). -/
def rowBytes (kind : MatKind) (n k : Nat) : Nat × Nat :=
  match kind with
  | .mmaBp => (k, n)
  | .mmaW4 => (2 * k, (n + 1) / 2)
  | _ => (2 * k, 2 * n)

/-- The `mma` forms at issue (R184, R180, R186): shape, pair legality, then A, B, PRM and the accumulator. -/
def State.mmaIssue (kind : MatKind) (pair : Bool) (o : MmaOps) (prm : Option Reg) (f : Fibre) (h : Sheaf) (id : Nat)
    (s : State) : Except TrapInfo (Option MatOp) := do
  let (m, n, k) := shapeOf (f.reg o.shp)
  let (lm, ln, lk) := mmaLimits kind pair
  if lm < m || ln < n || lk < k || (f.reg o.shp).toNat / 2 ^ 26 != 0 then .error (.plain cMatOperand)
  else if m == 0 || n == 0 || k == 0 then .ok none
  else if pair && !s.pairOk f.core (s.ctxOf f.key) then .error (.plain cMatState)
  else
    let sa := (f.reg o.str).toNat
    let sb := (f.reg (o.str + 1)).toNat
    let (ra, rb) := rowBytes kind n k
    let a ← s.tileOf f h o.asp o.a sa ((m - 1) * sa + ra)
    let b ← s.tileOf f h o.bsp o.b sb ((k - 1) * sb + rb)
    let p ← match prm with
      | some r => s.capTile f (f.pair r) 128 0 (384 * ((k + 31) / 32))
      | none => .ok (.scratch 0)
    let acc := (f.reg o.acc).toNat
    let acs := o.acs.toNat
    let _ ← scratchTile h 16 acc acs ((m - 1) * acs + 4 * n)
    let mine : Tile := { off := acc, rows := m, stride := acs, len := 4 * n }
    .ok (some { MatOp.new id s f kind o.ty m n k with
      pair, a, b, prm := p, acc, sa, sb, acs, taint := mine.overlapped (a.tile? m sa ra ++ b.tile? k sb rb) })

/-- `mma` (R187). -/
def execMma (fsel : BitVec 2) (pair : Bool) (o : MmaOps) (s : State) : Outc :=
  matExec (.mma fsel pair o) fsel (fun f h id s => s.mmaIssue .mma pair o none f h id) s
/-- `mma.w4` (R189). -/
def execMmaW4 (fsel : BitVec 2) (pair : Bool) (o : MmaOps) (prm : Reg) (s : State) : Outc :=
  matExec (.mmaW4 fsel pair o prm) fsel (fun f h id s => s.mmaIssue .mmaW4 pair o (some prm) f h id) s
/-- `mma.bp` (R188). -/
def execMmaBp (fsel : BitVec 2) (o : MmaOps) (s : State) : Outc :=
  matExec (.mmaBp fsel o) fsel (fun f h id s => s.mmaIssue .mmaBp false o none f h id) s

/-- `scacc` at issue (R184, R186): shape, then P, row scales, column scales and the accumulator. -/
def State.scaccIssue (clr : Bool) (t : Ty) (acc p sa sb shp : Reg) (acs pst : Nat) (f : Fibre) (h : Sheaf) (id : Nat)
    (s : State) : Except TrapInfo (Option MatOp) := do
  let m := (f.reg shp).toNat % 2 ^ 8
  let n := (f.reg shp).toNat / 2 ^ 8 % 2 ^ 8
  if 128 < m || 128 < n || (f.reg shp).toNat / 2 ^ 16 != 0 then .error (.plain cMatOperand)
  else if m == 0 || n == 0 then .ok none
  else
    let po := (f.reg p).toNat
    let ra := (f.reg sa).toNat
    let rb := (f.reg sb).toNat
    let ac := (f.reg acc).toNat
    let pt ← scratchTile h 16 po pst ((m - 1) * pst + 4 * n)
    let _ ← scratchTile h 4 ra 0 (4 * m)
    let _ ← scratchTile h 4 rb 0 (4 * n)
    let _ ← scratchTile h 16 ac acs ((m - 1) * acs + 4 * n)
    let tp : Tile := { off := po, rows := m, stride := pst, len := 4 * n }
    let tacc : Tile := { off := ac, rows := m, stride := acs, len := 4 * n }
    let scales : List Tile := [{ off := ra, rows := 1, stride := 0, len := 4 * m }, { off := rb, rows := 1, stride := 0, len := 4 * n }]
    .ok (some { MatOp.new id s f (.scacc clr) t m n 0 with
      a := pt, acc := ac, sa := ra, sb := rb, acs, pst
      taint := nub (tacc.overlapped (tp :: scales) ++ (if clr then tp.overlapped (tacc :: scales) else [])) })

/-- `scacc` (R190). -/
def execScacc (fsel : BitVec 2) (clr : Bool) (t : Ty) (acc p sa sb shp : Reg) (acs pst : BitVec 16) (s : State) : Outc :=
  matExec (.scacc fsel clr t acc p sa sb shp acs pst) fsel
    (fun f h id s => s.scaccIssue clr t acc p sa sb shp acs.toNat pst.toNat f h id) s

/-- `aclr` (R191): IMM32 holds the stride in 16-byte units. -/
def execAclr (fsel : BitVec 2) (d : Reg) (m n : BitVec 8) (stride : BitVec 16) (s : State) : Outc :=
  matExec (.aclr fsel d m n stride) fsel (fun f h id s => do
    let acs := 16 * stride.toNat
    let acc := (f.reg d).toNat
    let _ ← scratchTile h 16 acc acs ((m.toNat - 1) * acs + 4 * n.toNat)
    .ok (some { MatOp.new id s f .aclr .b32 m.toNat n.toNat 0 with acc, acs })) s

/-- What `mprog` writes (R192). -/
def State.mprogVal (s : State) (core u : Nat) : Word :=
  let q := (s.matQ core).filter (·.sheaf == u)
  match q.head? with
  | none => 0
  | some o => packBits 32 [(1, 31), (q.length, 24), (if o.held.isSome then 1 else 0, 23), (o.m, 8), (o.row, 0)]

/-- `mprog` (R192). -/
def execMprog (d : Reg) (s : State) : Outc :=
  warpExec (.mprog d) (fun k s =>
    match s.fib? k with
    | none => .next s
    | some f => .next (s.modFib k fun g => g.setReg d (s.mprogVal f.core k.sheaf))) s

/-! ## Arithmetic of a row (R98, R99, R185, R187–R191) -/

/-- Little-endian number of `n` bytes at an offset. -/
def natAt (bs : List Byte) (o n : Nat) : Nat := leNat ((bs.drop o).take n)

/-- b′ of `mma.w4`, as BF16 (R189). The manual names no sign for d = 0 under a negative scale: d is taken as +0, and the product is −0
(DESIGN CHOICE; log 76). -/
def w4Value (d : Int) (scale : Nat) : Nat :=
  match Fmt.bf16.value scale with
  | .nan => Fmt.bf16.nan
  | v => Fmt.bf16.round .rn ((FV.ofInt d).mul v)

/-- The format in which the elements of A, and of B as it enters the array, are read; none for integers. -/
def MatOp.fmt (o : MatOp) : Option Fmt :=
  match o.ty with
  | .bf16 => some .bf16
  | .f16 => some .f16
  | .f8a => some .f8a
  | .f8b => some .f8b
  | .s4 | .z4 => some .bf16
  | _ => none

/-- Bytes of a row of B in the operand buffer. -/
def MatOp.rb (o : MatOp) : Nat := (rowBytes o.kind o.n o.k).2

/-- The bits of b[k][n] as they enter the array, from the rows of B one after another (R185, R189). -/
def MatOp.bBits (o : MatOp) (b : List Byte) (k n : Nat) : Nat :=
  match o.kind with
  | .mmaBp => natAt b (k * o.rb + n) 1
  | .mmaW4 =>
    let nib (bs : List Byte) (base i : Nat) : Int := ival (tySigned o.ty) 4 (natAt bs (base + i / 2) 1 / 2 ^ (4 * (i % 2)))
    let g := k / 32
    w4Value (nib b (k * o.rb) n - nib o.pbuf (384 * g + 256) n) (natAt o.pbuf (384 * g + 2 * n) 2)
  | _ => natAt b (k * o.rb + 2 * n) 2

/-- The bits of a[m][k] in a row of A. -/
def MatOp.aBits (o : MatOp) (row : List Byte) (k : Nat) : Nat :=
  match o.kind with
  | .mmaBp => natAt row k 1
  | _ => natAt row (2 * k) 2

/-- One chunk added to an accumulator element (R98, R99). -/
def MatOp.chunk (o : MatOp) (row b : List Byte) (n c acc : Nat) : Nat :=
  let ks := (List.range 32).filterMap fun i => if 32 * c + i < o.k then some (32 * c + i) else none
  match o.fmt with
  | some f =>
    let terms := ks.map fun k => (f.value (o.aBits row k)).mul (f.value (o.bBits b k n))
    f32add acc (Fmt.f32.round .rn (FV.sum .rn terms))
  | none =>
    let sg := tySigned o.ty
    let sum : Int := (ks.map fun k => ival sg 8 (o.aBits row k) * ival sg 8 (o.bBits b k n)).foldl (· + ·) 0
    wrap 32 (acc + sum)

/-- An element of a row after its first `chunks` chunks. -/
def MatOp.elem (o : MatOp) (row b : List Byte) (n chunks acc : Nat) : Nat :=
  (List.range chunks).foldl (fun x c => o.chunk row b n c x) acc

/-- One element of `scacc` (R190). An .s32 product of 0 is taken as +0, so that a negative scale makes it −0 (DESIGN CHOICE; log 76). -/
def scaccElem (t : Ty) (p sa sb acc : Nat) : Nat :=
  let v := if t == .s32 then FV.ofInt (sval 32 p) else Fmt.f32.value p
  f32add acc (Fmt.f32.round .rn ((v.mul (Fmt.f32.value sa)).mul (Fmt.f32.value sb)))

/-- Chunks of a row (R98). -/
def MatOp.chunks (o : MatOp) : Nat := (o.k + 31) / 32

/-! ## Ends and faults (R178, R196–R199) -/

/-- Words that R195 leaves open take free values (log 17). -/
def State.freeWords (s : State) (u : Nat) (ws : List Nat) : State :=
  ws.foldl (fun s x => let (v, s1) := s.freeBits; s1.scratchWrite u x (leBytes 4 (v.toNat % 2 ^ 32))) s

/-- An operation leaves the queue: the counted members' flags fall, and the follower's array is released. -/
def State.endMat (s : State) (o : MatOp) : State :=
  let s1 := s.freeWords o.sheaf o.taint
  let s2 := { s1 with matq := s1.matq.filter (·.id != o.id) }
  o.counted.foldl (fun s c => s.completeFlags c.1 c.2) s2

/-- A trap that an operation delivers, about an extent of an object or about none, is pending for its elected fibre; where that has
ended, the context enters the faulted state (R198, R402, R447). A fibre that has since taken its identifier is not it. -/
def State.deliverMat (s : State) (o : MatOp) (t : TrapInfo) (about : BitVec 64 × Nat) : State :=
  if o.gone || (s.fib? o.elected).isNone then s.faultCtx o.ctx o.core about.1 about.2 0 o.pc t.code.toNat
  else s.modFib o.elected fun f => { f with pendTraps := f.pendTraps ++ [⟨t.code, t.info, o.pc, about.1, about.2⟩] }

/-- An operation is ended by a fault (R198, R199). -/
def State.failMat (s : State) (o : MatOp) (t : TrapInfo) (about : BitVec 64 × Nat) : State := (s.endMat o).deliverMat o t about

/-- The object and extent that the fault of an operand's read concerns: those of the first piece that cannot be translated or read; none
for a scratchpad tile (R402). -/
def State.faultsAt (s : State) (o : MatOp) (t : TileRef) (i n : Nat) : BitVec 64 × Nat :=
  match t with
  | .scratch _ => (0, 0)
  | .mem obj space home cls off _ =>
    let root := (rootWindow obj space home cls).root
    let bad (p : Nat × Nat) : Bool := match s.lookup o.ctx root p.1 false with
      | .at loc _ => (match s.readLoc loc p.2 with | .ok _ => false | .error _ => true)
      | _ => true
    (obj, s.extOf o.ctx root (((piecesOf (off + i) n).find? bad).getD (off + i, 0)).1)

/-- Update one matrix operation. -/
def State.modMat (s : State) (id : Nat) (g : MatOp → MatOp) : State := { s with matq := updIf (·.id == id) g s.matq }

/-! ## Reading operands (R194, R197) -/

/-- Whether a place's weight-store bank refreshes now (R157, R194). -/
def State.bankBusy (s : State) (t : TileRef) (i n : Nat) : Bool :=
  match t with
  | .mem _ space _ _ off _ =>
    space == 4 && (piecesOf (off + i) n).any fun p => weightBank p.1 == s.time / 1000 % 64
  | .scratch _ => false

/-- An earlier access of the elected fibre that the operation's reads follow: an acquire; a store to memory, where the operation
reads memory; any scratchpad access (R194). -/
def MatOp.waitsFor (m : MatOp) (mem : Bool) (x : MemOp) : Bool :=
  x.key == m.elected && x.inc == m.inc && x.id < m.id
    && (x.acquires || (match x.kind with
      | .lds | .sts | .stx => true
      | k => mem && k.writesMem))

/-- The accesses of the elected fibre that the operation's reads follow are all performed (R194). -/
def State.matOrdered (s : State) (m : MatOp) : Bool :=
  let mem := [m.a, m.b, m.prm].any fun t => match t with | .mem _ _ _ _ _ _ => true | .scratch _ => false
  !s.ops.any (m.waitsFor mem) && !s.side.any fun e => m.waitsFor mem e.op

/-- What a read of an operand gives: bytes, nothing yet, or the operation's end. -/
inductive OpndRead where
  | ok (bytes : List Byte)
  | later
  | hold (on : XWait)
  | fail (t : TrapInfo)
  deriving DecidableEq, Repr

/-- Read `n` bytes of an operand from byte `i` on. A trap of an operation that has failed carries INFO 0 (R231, R447). -/
def State.readOpnd (s : State) (o : MatOp) (t : TileRef) (i n : Nat) : OpndRead × State :=
  match t with
  | .scratch off =>
    (if s.scratchBad o.sheaf (off + i) n then .fail (.plain cPoison) else .ok (s.scratchRead o.sheaf (off + i) n), s)
  | .mem obj space home cls off _ =>
    if s.bankBusy t i n then (.later, s)
    else
      let l := match s.sheaf? o.sheaf with | some h => (match s.launch? h.launch with | some l => l.id | none => 0) | none => 0
      match s.readBulk o.core o.ctx (rootWindow obj space home cls) .matrix l false (off + i) n with
      | (.ok bs _, s1) => (.ok bs, s1)
      | (.wait on, s1) => (.hold on, s1)
      | (.pend, s1) => (.later, s1)
      | (.fail, s1) => (.fail (.plain cTransl), s1)
      | (.poison _, s1) => (.fail (.plain cPoison), s1)

/-- Continue with an operand's bytes, or hold or end the operation. -/
def State.withOpnd (s : State) (o : MatOp) (t : TileRef) (i n : Nat) (go : List Byte → State → State) : State :=
  match s.readOpnd o t i n with
  | (.ok bs, s1) => go bs s1
  | (.later, s1) => s1
  | (.hold on, s1) => s1.modMat o.id fun m => { m with held := some on, bbuf := none, pbuf := [] }
  | (.fail x, s1) => s1.failMat o x (s1.faultsAt o t i n)

/-! ## Rows -/

/-- The words of the accumulator's row `m`. -/
def State.accRow (s : State) (o : MatOp) : List Nat :=
  let bs := s.scratchRead o.sheaf (o.acc + o.row * o.acs) (4 * o.n)
  (List.range o.n).map fun n => natAt bs (4 * n) 4

/-- Write the accumulator's present row. -/
def State.putRow (s : State) (o : MatOp) (vs : List Nat) : State :=
  s.scratchWrite o.sheaf (o.acc + o.row * o.acs) (vs.flatMap (leBytes 4))

/-- The present row after its first `chunks` chunks have been added (R187, R188, R190, R191). -/
def State.rowDone (s : State) (o : MatOp) (a : List Byte) (chunks : Nat) : State :=
  match o.kind with
  | .aclr => if chunks == 0 then s else s.putRow o (List.replicate o.n 0)
  | .scacc clr =>
    if chunks == 0 then s
    else
      let p := s.scratchRead o.sheaf ((match o.a with | .scratch off => off | .mem _ _ _ _ _ _ => 0) + o.row * o.pst) (4 * o.n)
      let sa := natAt (s.scratchRead o.sheaf (o.sa + 4 * o.row) 4) 0 4
      let sb := s.scratchRead o.sheaf o.sb (4 * o.n)
      let vs := (s.accRow o).zipIdx.map fun x => scaccElem o.ty (natAt p (4 * x.2) 4) sa (natAt sb (4 * x.2) 4) x.1
      let s1 := s.putRow o vs
      if clr then
        match o.a with
        | .scratch off => s1.scratchWrite o.sheaf (off + o.row * o.pst) (List.replicate (4 * o.n) 0)
        | .mem _ _ _ _ _ _ => s1
      else s1
  | _ =>
    let b := o.bbuf.getD []
    s.putRow o ((s.accRow o).zipIdx.map fun x => o.elem a b x.2 chunks x.1)

/-- A machine check of the array or adders ends the operation and fences the core (R199, R319) (DEDUCED; log 47). -/
def State.matCheck (s : State) (o : MatOp) (follower : Bool) (source : Nat) : State :=
  let major := match o.kind with | .mma => 0xA0 | .mmaW4 => 0xA1 | .mmaBp => 0xA2 | .scacc _ => 0xA3 | .aclr => 0xA4
  (s.failMat o ⟨cMachine, 0, machineInfo major o.elected.quad o.elected.lane source⟩ (0, 0)).fenceCore
    (if follower then o.core + 1 else o.core)

/-- A mismatch that a recomputation corrected is reported to the die's monitor (R199, R325); its row key is not stated. -/
def State.stepCorrected (s : State) (o : MatOp) : State :=
  let (key, s1) := s.freeBits
  { s1 with agenda := ⟨0, .correctedError (coreDie o.core) key (some (coreCluster o.core % 24 / 6))⟩ :: s1.agenda }

/-- The unit that a check's outcome names is one that takes part in the operation: the checksum column for the `mma` forms, a
multiplier for `scacc`, a bank adder for either (R318, R320, R321). -/
def MatOp.mayFail (o : MatOp) (source : Nat) : Bool :=
  match o.kind with
  | .mma | .mmaW4 | .mmaBp => source == 1 || source == 2
  | .scacc _ => source == 2 || source == 3
  | .aclr => false

/-- The outcome of a row's checks, where it names a unit that takes part; any other outcome cannot happen, and the row passes. The bank
adders of a pair operation are the leader's (R193). -/
def MatOp.check (o : MatOp) (chk : StepCheck) : StepCheck :=
  match chk with
  | .pass => .pass
  | .once _ source => if o.mayFail source then chk else .pass
  | .twice follower source _ => if o.mayFail source && !(follower && o.pair && source != 1) then chk else .pass

/-- Accumulator, P or scale bytes of the present row that correction could not repair end the operation (R198, R324; log 75). -/
def State.rowPoisoned (s : State) (o : MatOp) : Bool :=
  s.scratchBad o.sheaf (o.acc + o.row * o.acs) (4 * o.n) && o.kind != .aclr
    || (match o.kind, o.a with
      | .scacc _, .scratch off => s.scratchBad o.sheaf (off + o.row * o.pst) (4 * o.n) || s.scratchBad o.sheaf (o.sa + 4 * o.row) 4
          || s.scratchBad o.sheaf o.sb (4 * o.n)
      | _, _ => false)

/-- A row with its data fetched: added whole, or ended by a machine check after a prefix of its chunks. -/
def State.finishRow (s : State) (o : MatOp) (a : List Byte) (chk : StepCheck) : State :=
  let all := match o.kind with | .scacc _ | .aclr => 1 | _ => o.chunks
  if s.rowPoisoned o then s.failMat o (.plain cPoison) (0, 0)
  else match o.check chk with
  | .pass => (s.rowDone o a all).modMat o.id fun m => { m with row := m.row + 1 }
  | .once _ _ => ((s.stepCorrected o).rowDone o a all).modMat o.id fun m => { m with row := m.row + 1 }
  | .twice follower source chunks => (s.rowDone o a (min chunks (all - 1))).matCheck o (follower && o.pair) source

/-- Fetch the present row of A and add it. -/
def State.runRow (s : State) (o : MatOp) (chk : StepCheck) : State :=
  match o.kind with
  | .scacc _ | .aclr => s.finishRow o [] chk
  | k => s.withOpnd o o.a (o.row * o.sa) (rowBytes k o.n o.k).1 fun a s => s.finishRow o a chk

/-- The rows of B that are not yet in the operand buffer are read, one after another; what has been read stays while one waits for
its bank's refresh or for its line (R185, R187, R194). -/
def State.loadRows (go : MatOp → State → State) : Nat → MatOp → State → State
  | 0, o, s => go o s
  | n + 1, o, s =>
    s.withOpnd o o.b ((o.k - (n + 1)) * o.sb) o.rb fun row s =>
      let o' := { o with bbuf := some (o.bbuf.getD [] ++ row) }
      State.loadRows go n o' (s.modMat o.id fun _ => o')

/-- B, and PRM of `mma.w4`, are read into the operand buffer before row 0 or a restart row (R187, R197). -/
def State.loadB (s : State) (o : MatOp) (go : MatOp → State → State) : State :=
  match o.kind with
  | .scacc _ | .aclr => go o s
  | k =>
    State.loadRows (fun o s =>
      if k == .mmaW4 && o.pbuf == [] then
        s.withOpnd o o.prm 0 (384 * o.chunks) fun p s =>
          let o' := { o with pbuf := p }
          go o' (s.modMat o.id fun _ => o')
      else go o s) (o.k - (o.bbuf.getD []).length / o.rb) o s

/-- The operation at the head of a core's queue, where its context runs and its sheaf stands (R179, R200); a fenced core goes on with
none (R319). -/
def State.matHead (s : State) (core : Nat) : Option MatOp :=
  if (s.coreSt core).fenced || !s.dieUp (coreDie core) then none
  else match (s.matQ core).head? with
  | none => none
  | some o => if s.ctxStopped o.ctx || o.held.isSome || (s.sheaf? o.sheaf).isNone then none else some o

/-- MATRIX_OP_START: the operation at the head of the queue begins; a pair operation claims its follower's array (R179,
R180). -/
def execMatrixOpStart (core : Nat) (s : State) : Outc :=
  match s.matHead core with
  | none => .next s
  | some o =>
    if o.started then .next s
    else .next (s.modMat o.id fun m => if o.pair then { m with claimed := true } else { m with started := true })

/-- FOLLOWER_CLAIM: once the follower's queue is empty its array is slaved to the leader, and the pair operation runs (R180). -/
def execFollowerClaim (core : Nat) (s : State) : Outc :=
  match s.matHead core with
  | none => .next s
  | some o =>
    if o.pair && o.claimed && !o.started && s.matQ (core + 1) == [] then .next (s.modMat o.id fun m => { m with started := true })
    else .next s

/-- The follower of a running pair operation has been fenced, which ends the operation (R199, R319). -/
def State.lostFollower (s : State) (o : MatOp) : Bool := o.pair && o.claimed && (s.coreSt (o.core + 1)).fenced

/-- MATRIX_ROW_COMPLETE: the present row's data are fetched and its chunks added, once the elected fibre's earlier accesses have been
performed (R187, R194, R197–R199). A pair operation whose follower has been fenced ends with a machine check (R319; log 47). -/
def execMatrixRowComplete (core : Nat) (chk : StepCheck) (s : State) : Outc :=
  match s.matHead core with
  | none => .next s
  | some o =>
    if s.lostFollower o then .next (s.matCheck o true 0)
    else if o.started && o.row < o.m && s.matOrdered o then .next (s.loadB o fun o s => s.runRow o chk) else .next s

/-- MATRIX_OP_COMPLETE: the last row is done; the counted flags fall and the entry frees (R178, R179). -/
def execMatrixOpComplete (core : Nat) (s : State) : Outc :=
  match s.matHead core with
  | none => .next s
  | some o => if o.started && o.row == o.m then .next (s.endMat o) else .next s

end Sys2Proof.Machine
end

