-- ==== Sys2Proof/Machine/Engine.lean ====
section
/-! DEFINITION. The copy engines (R310, R322, R323, R355–R367): a command starts, forms its next chunk of 4 KiB, the chunk
lands, and the command ends. The event of a command's kind starts it, forms its next chunk or ends it; ENGINE_CHUNK_LANDED
performs the writes of the chunk that has been formed. -/

namespace Sys2Proof.Machine

/-! ## Starting (R355) -/

/-- A sheaf stands on its core. -/
def State.standing (s : State) (u : Nat) : Bool := match s.sheaf? u with | some h => !h.saved | none => false

/-- An engine may work for a command: its die's links carry data, its context runs and its sheaf is not saved (R349, R356, R407). -/
def State.cmdRuns (s : State) (c : Cmd) : Bool := s.dieUp c.die && s.standing c.sheaf && !s.ctxStopped c.ctx

/-- A queued command is the oldest of its register, and the register's inbound side is not full (R219, R221). -/
def State.cmdHead (s : State) (c : Cmd) : Bool :=
  c.st == .queued && s.cmdRuns c
    && s.cmds.all (fun d => !(d.sheaf == c.sheaf && d.q == c.q && d.st == .queued && d.id < c.id))
    && ((s.sheaf? c.sheaf).bind fun h => h.queues[c.q]?).any fun r => r.inHeld == [] && decide (r.inb.length < 64)

/-- The rank of a register among those with commands waiting: served longest ago, then by core, sheaf slot and queue (R355). -/
def State.cmdRank (s : State) (c : Cmd) : Nat :=
  match s.sheaf? c.sheaf with
  | some h => ((match h.queues[c.q]? with | some r => r.served | none => 0) * 2 ^ 40) + (h.core * 2 ^ 20) + (h.slot * 16) + c.q
  | none => 0

/-- Commands of an engine in progress. -/
def State.inProgress (s : State) (die : Nat) (recv : Bool) : Nat :=
  (s.cmds.filter fun c => c.die == die && c.recv == recv && c.st != .queued && s.standing c.sheaf).length

/-- The engine starts this command next. -/
def State.mayStart (s : State) (c : Cmd) : Bool :=
  s.cmdHead c && s.inProgress c.die false < 16
    && (match minBy? s.cmdRank (s.cmds.filter fun d => d.die == c.die && !d.recv && s.cmdHead d) with
        | some d => d.id == c.id | none => false)

/-- A command starts. -/
def State.startCmd (s : State) (c : Cmd) : State :=
  (s.modCmd c.id fun c => { c with st := .running }).modQueue c.sheaf c.q fun r => { r with served := s.evno }

/-! ## Reading and placing -/

/-- The cache of a die's engines, by the core number of its service core (R288). -/
def Cmd.cache (c : Cmd) : Nat := 1536 + c.die

/-- A line of a revoked range (R386). -/
def State.revokedLine (s : State) (line : Nat) : Bool :=
  lineSpace line == 2 && s.coh.revoked.any fun r =>
    r.1 == line % 2 ^ 50 / 2 ^ 38 && r.2.1 < line % 2 ^ 38 * 128 + 128 && line % 2 ^ 38 * 128 < r.2.2

/-- The lines of translated pieces. -/
def pieceLines (ps : List (Loc × Nat)) : List Nat := ps.flatMap fun p => linesOf p.1 p.2

/-- What forming some of a chunk gives: pieces to write, the source bytes and where they lie, the translation lines, the first
source line. -/
inductive Formed where
  | ok (ps : List (Loc × List Byte)) (raw : List Byte) (src : List (Loc × Nat)) (xl : List Nat) (line : Nat)
  | wait (on : XWait)
  /-- a translation, a line or a bank's refresh is under way: it is tried again -/
  | pend
  | stop (code : BitVec 16)
  deriving DecidableEq, Repr

/-- A place lies in a bank of a weight store that refreshes now (R284). -/
def State.refreshes (s : State) (l : Loc) : Bool :=
  match l with | .weight _ a => weightBank a == s.time / 1000 % 64 | _ => false

/-- Read a run of a source (R356): bytes, places, translation lines and first line. A weight-store source is read from the engine's
own die (R287, R357), not while its bank refreshes (R284); `all` says that the runs read together reach every bank, of which
one always refreshes: their reads are then taken as one (log 17). -/
def State.readSource (s : State) (c : Cmd) (r : TileRef) (o n : Nat) (all : Bool) : Formed × State :=
  match r with
  | .scratch _ => (.stop 0x0014, s)
  | .mem obj space home cls off _ =>
    match State.locate c.cache c.ctx (rootWindow obj space home cls) false .engine 0 false (piecesOf (off + o) n) s with
    | (.fail, s1) => (.stop 0x000E, s1)
    | (.wait on, s1) => (.wait on, s1)
    | (.pend, s1) => (.pend, s1)
    | (.at ps lines, s1) =>
      if (pieceLines ps).any s1.revokedLine then (.stop 0x000B, s1)
      else if !all && ps.any fun p => s1.refreshes p.1 then (.pend, s1)
      else
        match s1.readAt c.cache cls ps lines with
        | (.ok bs xl, s2) => (.ok [] bs ps xl ((pieceLines ps).headD 0), s2)
        | (.wait on, s2) => (.wait on, s2)
        | (.pend, s2) => (.pend, s2)
        | (.fail, s2) => (.stop 0x000E, s2)
        | (.poison _, s2) => (.stop 0x000C, s2)

/-- Cut bytes among places. -/
def dealBytes : List (Loc × Nat) → List Byte → List (Loc × List Byte)
  | [], _ => []
  | (l, n) :: ps, bs => (l, bs.take n) :: dealBytes ps (bs.drop n)

/-- Where a run of the destination lies, with what is to be written there. -/
def State.placeDest (s : State) (c : Cmd) (r : TileRef) (o : Nat) (bs : List Byte) : Formed × State :=
  match r with
  | .scratch off => (.ok ((s.cmdTargets c).map fun u => (.scratch u false (off + o), bs)) [] [] [] 0, s)
  | .mem obj space home cls off _ =>
    match State.locate c.cache c.ctx (rootWindow obj space home cls) true .engine 0 (uShd c.unit) (piecesOf (off + o) bs.length) s with
    | (.fail, s1) => (.stop 0x000E, s1)
    | (.wait on, s1) => (.wait on, s1)
    | (.pend, s1) => (.pend, s1)
    | (.at ps lines, s1) => (.ok (dealBytes ps bs) [] [] lines 0, s1)

/-- Form the runs of a chunk: (source offset, destination offset, bytes), each transformed on its way. -/
def State.formRuns (c : Cmd) (src dst : TileRef) (xf : List Byte → List Byte) (all : Bool) : List (Nat × Nat × Nat) → State → Formed × State
  | [], s => (.ok [] [] [] [] 0, s)
  | (so, d, n) :: rest, s =>
    match s.readSource c src so n all with
    | (.ok _ bs at1 xl line, s1) =>
      match s1.placeDest c dst d (xf bs) with
      | (.ok ps _ _ xl2 _, s2) =>
        match State.formRuns c src dst xf all rest s2 with
        | (.ok ps3 raw3 at3 xl3 _, s3) => (.ok (ps ++ ps3) (bs ++ raw3) (at1 ++ at3) (nub (xl ++ xl2 ++ xl3)) line, s3)
        | r => r
      | r => r
    | r => r

/-- The runs of destination bytes [a, a + n) of a command of rows (R359). -/
def rowRuns (rowBytes ss ds : Nat) : Nat → Nat → Nat → List (Nat × Nat × Nat)
  | 0, _, _ => []
  | fuel + 1, a, n =>
    if n == 0 then []
    else
      let k := min n (rowBytes - a % rowBytes)
      (a / rowBytes * ss + a % rowBytes, a / rowBytes * ds + a % rowBytes, k) :: rowRuns rowBytes ss ds fuel (a + k) (n - k)

/-- The runs of a command's next chunk. -/
def Cmd.nextRuns (c : Cmd) : List (Nat × Nat × Nat) :=
  let n := min 4096 (uTotal c.unit - c.done)
  if uKind c.unit == 2 then rowRuns (uRowBytes c.unit) (uSstride c.unit) (uDstride c.unit) (n + 1) c.done n
  else [(c.done, c.done, n)]

/-! ## Forming (R356, R358–R362, R366) -/

/-- A command stops or waits; or its chunk is formed. -/
def State.formed (s : State) (c : Cmd) (f : Formed)
    (go : List (Loc × List Byte) → List Byte → List (Loc × Nat) → List Nat → Nat → Cmd → Cmd) : State :=
  match f with
  | .ok ps raw src xl line => s.modCmd c.id (go ps raw src xl line)
  | .wait on => s.modCmd c.id fun c => { c with st := .waiting on }
  | .pend => s
  | .stop code => s.modCmd c.id fun c => { c with last := some code }

/-- Runs of bytes by the keys under which they are held. -/
def State.keyRuns (s : State) (ps : List (Loc × List Byte)) : List (Nat × List Byte) :=
  ps.filterMap fun p => (s.keyOf p.1).map fun k => (k, p.2)

/-- The byte of the first run that holds a key. -/
def runAt (k : Nat) : List (Nat × List Byte) → Option Byte
  | [] => none
  | (b, bs) :: l => if b ≤ k && k < b + bs.length then bs[k - b]? else runAt k l

/-- The index, among the bytes of some runs one after another, of the byte with a key. -/
def runIndex (k : Nat) : Nat → List (Nat × List Byte) → Option Nat
  | _, [] => none
  | n, (b, bs) :: l => if b ≤ k && k < b + bs.length then some (n + (k - b)) else runIndex k (n + bs.length) l

/-- The bytes of a chunk where source and destination name overlapping locations: a byte whose source byte the command has written,
or writes with this chunk, is what that byte held when the command started, or what the command wrote to it (R243, R358;
log 17). -/
def State.overlapMix (s : State) (c : Cmd) (free : Nat) (src : List (Loc × Nat)) (raw : List Byte) (ps : List (Loc × List Byte)) :
    List Byte :=
  let keys := (src.flatMap fun p => (List.range p.2).map fun i => s.keyOf (p.1.add i)).toArray
  let undo := s.keyRuns c.undo
  let dst := s.keyRuns ps
  let pick (j : Nat) : Bool := Config.choice (2 ^ 64 * free + j) % 2 == 0
  let first := raw.zipIdx.map fun x => match ((keys.getD x.2 none).bind fun k => runAt k undo) with
    | some old => if pick x.2 then old else x.1
    | none => x.1
  let pass (below : Bool) (w : Array Byte) (j : Nat) : Array Byte := match (keys.getD j none).bind fun k => runIndex k 0 dst with
    | some i => if pick j || i == j || (i < j) != below then w else w.setIfInBounds j (w.getD i 0)
    | none => w
  let up := (List.range raw.length).foldl (pass true) first.toArray
  (((List.range raw.length).reverse).foldl (pass false) up).toList

/-- A command copies linearly or by rows. -/
def Cmd.copies (c : Cmd) : Bool := uKind c.unit == 1 || uKind c.unit == 2

/-- The runs of a command's next chunk reach every bank of a weight store, of which one always refreshes: they cannot be read at one
moment (R284; log 17). -/
def Cmd.allBanks (c : Cmd) (src : TileRef) : Bool :=
  match src with
  | .mem _ space _ _ off _ => space == 4 && 32 ≤ c.nextRuns.length
      && (List.range 64).all fun b => c.nextRuns.any fun r => (piecesOf (off + r.1) r.2.2).any fun p => weightBank p.1 == b
  | .scratch _ => false

/-- The next chunk of a linear or strided copy, a multicast, a reduce-copy or a weight-store load. -/
def State.formCopy (s : State) (c : Cmd) : State :=
  match c.refs with
  | src :: dst :: _ =>
    let (f, s1) := State.formRuns c src dst id (c.allBanks src) c.nextRuns s
    s1.choose.2.formed c f fun ps raw places xl line d => { d with
      chunk := if c.copies then dealBytes (ps.map fun p => (p.1, p.2.length)) (s1.overlapMix c s1.free places raw ps) else ps
      chunkLen := raw.length, xl, srcLine := line, srcs := places
      last := if c.done + raw.length == uTotal c.unit then some 0 else none }
  | _ => s

/-- The key slot of a decrypt. -/
def State.keySlot (s : State) (c : Cmd) : Option KeySlot :=
  (s.ctx? c.ctx).bind fun x => x.keys.find? (·.slot == ufield c.unit 0 56 8)

/-- The IV of a decrypt (R365). -/
def Cmd.iv (c : Cmd) (k : KeySlot) : List Nat := gcmIv k.fixed (uCap c.unit 3)

/-- The next chunk of a decrypt copy-in. The key slot is read anew for each chunk and for the tag: where it has been rewritten the new
key serves from there, and where it is gone the command ends with 0x0007 (R366; DESIGN CHOICE; log 90). -/
def State.formDecrypt (s : State) (c : Cmd) : State :=
  match c.refs, s.keySlot c with
  | src :: dst :: _, some k =>
    let (f, s1) := State.formRuns c src dst (gcmCrypt k.key (c.iv k) c.done) false c.nextRuns s
    s1.formed c f fun ps raw places xl line c => { c with
      chunk := ps, chunkLen := raw.length, xl, srcLine := line, srcs := places,
      ghashNext := BitVec.ofNat 128 (gcmHash k.key c.ghash.toNat raw) }
  | _, _ => s.modCmd c.id fun c => { c with last := some 0x0007 }

/-! ### The CSR gather (R360) -/

/-- Elements of successive rows: first element and how many. -/
def csrSegs : List Nat → List (Nat × Nat)
  | a :: b :: l => (a, b - a) :: csrSegs (b :: l)
  | _ => []

/-- Leave out the first n elements. -/
def dropElems : Nat → List (Nat × Nat) → List (Nat × Nat)
  | _, [] => []
  | n, (e, k) :: l => if k ≤ n then dropElems (n - k) l else (e + n, k - n) :: l

/-- The first n elements. -/
def takeElems : Nat → List (Nat × Nat) → List (Nat × Nat)
  | _, [] => []
  | n, (e, k) :: l => if n == 0 then [] else if k ≤ n then (e, k) :: takeElems (n - k) l else [(e, n)]

/-- How many elements. -/
def countElems (l : List (Nat × Nat)) : Nat := (l.map (·.2)).foldl (· + ·) 0

/-- The elements below a bound, up to the first beyond it. -/
def clipElems (m : Nat) : List (Nat × Nat) → List (Nat × Nat)
  | [] => []
  | (e, k) :: l => if e + k ≤ m then (e, k) :: clipElems m l else if e < m then [(e, m - e)] else []

/-- Read the runs of elements of one object. -/
def State.readElems (c : Cmd) (r : TileRef) (size : Nat) : List (Nat × Nat) → State → Formed × State
  | [], s => (.ok [] [] [] [] 0, s)
  | (e, k) :: l, s =>
    match s.readSource c r (size * e) (size * k) false with
    | (.ok _ bs at1 xl line, s1) =>
      match State.readElems c r size l s1 with
      | (.ok _ bs2 at2 xl2 _, s2) => (.ok [] (bs ++ bs2) (at1 ++ at2) (nub (xl ++ xl2)) line, s2)
      | x => x
    | x => x

/-- Elements of a step of a CSR gather: both areas stay within 4 KiB. -/
def csrStep (vs : Nat) : Nat := 4096 / max 4 vs

/-- What follows once the row pointers are read: `short` says that some lie beyond their object. -/
def State.formRows (s : State) (c : Cmd) (rp : List Nat) (short : Bool) (ci va : TileRef) (limCi limVa : Nat) : State :=
  let vs := uVs c.unit
  let rest := dropElems c.done (csrSegs rp)
  let want := takeElems (min (csrStep vs) (uLimit c.unit - c.done)) rest
  let got := clipElems (min (limCi / 4) (limVa / vs)) want
  let n := countElems got
  let last : Option (BitVec 16) :=
    if n < countElems want then some 0x0014
    else if countElems rest == n then some (if short then 0x0014 else 0)
    else if c.done + n == uLimit c.unit then some 0x0006
    else none
  let (f, s1) := State.readElems c ci 4 got s
  match f with
  | .ok _ ib at1 xl line =>
    let (g, s2) := State.readElems c va vs got s1
    s2.formed c g fun _ vb at2 xl2 _ c => { c with
      chunk := if n == 0 then [] else [(.scratch c.sheaf false (ufield c.unit 3 0 19 + 4 * c.done), ib),
        (.scratch c.sheaf false (ufield c.unit 3 19 19 + vs * c.done), vb)]
      chunkLen := n, xl := nub (xl ++ xl2), srcLine := line, srcs := at1 ++ at2, last }
  | _ => s1.formed c f fun _ _ _ _ _ c => c

/-- The next step of a CSR gather: the row pointers, then indices and values. -/
def State.formCsr (s : State) (c : Cmd) : State :=
  match c.refs, c.lens with
  | rp :: ci :: va :: _, lr :: lc :: lv :: _ =>
    let want := uNrows c.unit + 1
    let have' := min want (lr / 4 - uFirst c.unit)
    let (f, s1) := s.readSource c rp (4 * uFirst c.unit) (4 * have') false
    match f with
    | .ok _ bs _ _ _ =>
      s1.formRows c ((List.range have').map fun i => leNat ((bs.drop (4 * i)).take 4)) (have' < want) ci va lc lv
    | _ => s1.formed c f fun _ _ _ _ _ c => c
  | _, _ => s

/-- The next chunk of a command of any kind that writes chunks. -/
def State.formNext (s : State) (c : Cmd) : State :=
  match uKind c.unit with
  | 3 => s.formCsr c
  | 6 => s.formDecrypt c
  | _ => s.formCopy c

/-! ## Landing (R224, R310, R322, R323, R350, R356) -/

/-- Nothing translated through a line is in flight but what this command itself has formed (R289). -/
def State.xlatIdle (s : State) (line id : Nat) : Bool :=
  !(s.ops.any fun p => p.released && p.xl.contains line)
    && !(s.cmds.any fun c => c.id != id && c.chunk != [] && c.xl.contains line)

/-- The lines and part lines a chunk writes: line and whether all of it. -/
def chunkLines (ps : List (Loc × List Byte)) : List (Nat × Bool) :=
  ps.flatMap fun p => (splitLines p.1 p.2).filterMap fun x => x.1.line?.map fun l => (l, x.1.inLine == 0 && x.2.length == 128)

/-- Why the destination of a chunk takes nothing (R356, R384–R386). -/
def State.destBad (s : State) (c : Cmd) : Option (BitVec 16) :=
  let ls := chunkLines c.chunk
  let spoilt (p : Loc × List Byte) : Bool := match p.1 with
    | .scratch u _ off => uKind c.unit == 5 && s.scratchBad u off p.2.length
    | _ => false
  if ls.any fun l => s.revokedLine l.1 then some 0x000B
  else if ls.any fun l => s.gone l.1 then some 0x000D
  else if (ls.any fun l => s.poisoned l.1 && (!l.2 || uKind c.unit == 5)) || c.chunk.any spoilt then some 0x000C
  else none

/-- The class of a command's destination (R283). -/
def Cmd.dstCls (c : Cmd) : Nat := match c.refs.getLast? with | some (.mem _ _ _ cls _ _) => cls | _ => 0

/-- Lines of the destination that another package or a memory node must first give (R381–R383), or that are being fetched or
recalled. -/
def State.destWants (s : State) (c : Cmd) : List Nat :=
  (chunkLines c.chunk).filterMap fun l =>
    if s.lineReady l.1 true (l.2 && uKind c.unit != 5) && !(uKind c.unit == 5 && (s.coh.mshr.any (·.1 == l.1) || s.ops.any fun o =>
      o.recalling && o.loc.line? == some l.1)) then none else some l.1

/-- The engine of a die takes a line in M at its die L2, as one act: what is under way for the line is done first, and every other
copy goes (R276–R278, R362). -/
def State.ownNow (s : State) (die line cls : Nat) : State :=
  let r : CohReq := { die, line, kind := .rfo, cls, hint := .none }
  let s1 := s.quiesce line
  match s1.l2? die line with
  | some x => if x.st == .m || x.st == .e then s1 else ((s1.serveUpgrade r).quiesce line)
  | none =>
    let s2 := match (s1.l2Victim die line cls).2.2 with | some v => s1.quiesce v.line | none => s1
    let s3 := if s2.needsFill r then s2.hbmRead line cls .none else s2.touchLlc line cls .none
    ((s3.serveRfo r).keepTag line cls).quiesce line

/-- Bytes are written in a line that a die L2 holds in M (R214, R274, R362). -/
def State.l2Put (s : State) (die line off : Nat) (bs : List Byte) : State :=
  (s.modCoh fun c => { c with l2 := updIf (fun l => l.die == die && l.line == line) (fun l => { l with
    data := overlay l.data off bs, st := .m, l1 := [] }) c.l2 }).wakeLine line

/-- The lines of a reduce-copy's chunk are held in M at the engine's die L2 while they are written (R362); a translation line is
written at its home, as every write to one is (R289). -/
def State.putOwned (s : State) (holder : BitVec 16) (die cls : Nat) (loc : Loc) (bs : List Byte) : State :=
  (splitLines loc bs).foldl (fun s x => match x.1.line? with
    | some line =>
      if s.xlatLine line then (s.homeWriteLine holder true cls line x.1.inLine x.2).countOut die line none x.2.length
      else (s.ownNow die line cls).l2Put die line x.1.inLine x.2
    | none => s) s

/-- Bytes of a chunk reach their place. -/
def State.putPiece (s : State) (c : Cmd) (holder : BitVec 16) (loc : Loc) (bs : List Byte) : State :=
  match loc with
  | .scratch u _ off => s.scratchWrite u off bs
  | .hostPa _ => (s.rawWrite loc bs).countAt c.die 11 bs.length
  | .weight _ _ => (s.rawWrite loc bs).healUnits loc bs.length
  | .regs _ | .unbacked | .host _ _ | .hostUn _ _ => s
  | .dev _ | .peer _ _ | .pool _ _ =>
    let s1 := (linesOf loc bs.length).foldl (fun s l => if s.xlatLine l then s.retranslate l else s) s
    match loc.line? with
    | some line =>
      if uKind c.unit == 5 then s1.putOwned holder c.die c.dstCls loc bs
      else (s1.homeWrite holder true c.dstCls loc bs).countOut c.die line none bs.length
    | none => s1

/-- What a place holds now. -/
def State.holds (s : State) (loc : Loc) (n : Nat) : List Byte :=
  match loc with
  | .scratch u _ off => s.scratchRead u off n
  | l => s.newest l n

/-- Elements of bytes. -/
def elemsOf (size : Nat) (bs : List Byte) : List Nat :=
  (List.range (bs.length / size)).map fun i => leNat ((bs.drop (size * i)).take size)

/-- A double-precision pattern of a value. -/
def f64of (v : FV) : Nat := Fmt.f64.round .rn v
/-- Sum in double precision. -/
def f64add (a b : Nat) : Nat := f64of (FV.sum .rn [Fmt.f64.value a, Fmt.f64.value b])

/-- Whether a value is finite. -/
def FV.finite : FV → Bool
  | .num _ _ _ => true
  | _ => false

/-- |x|. -/
def FV.abs (v : FV) : FV := if v.isNeg then v.neg else v

/-- Σ (i + 1)·x of weighted double-precision terms, added in ascending i (R322) (DEDUCED; log 63). -/
def weighted (xs : List (Nat × FV)) : Nat :=
  xs.foldl (fun acc x => f64add acc (f64of ((FV.ofInt (x.1 + 1)).mul x.2))) 0

/-- The check of a chunk of .f32 (R322). -/
def floatPasses (bound : Nat) (d s r : List Nat) : Bool :=
  let v := Fmt.f32.value
  let at' (l : List Nat) (i : Nat) : FV := v (l.getD i 0)
  let idx := (List.range r.length).filter fun i => (at' d i).finite && (at' s i).finite && (at' r i).finite
  let sum (l : List Nat) : Nat := weighted (idx.map fun i => (i, at' l i))
  let mags := weighted (idx.map fun i => (i, Fmt.f64.value (f64of (FV.sum .rn [(at' d i).abs, (at' s i).abs]))))
  match v bound with
  | .nan => false
  | .num _ _ _ =>
    let diff := f64add (sum r) (f64of (Fmt.f64.value (f64add (sum d) (sum s))).neg)
    let lim := f64of ((v bound).abs.mul (Fmt.f64.value mags))
    !((Fmt.f64.value lim).lt (Fmt.f64.value diff).abs) && Fmt.f64.value diff != .nan && Fmt.f64.value lim != .nan
  | _ => true

/-- The check of a chunk of integers (R322). -/
def intPasses (signed : Bool) (w : Nat) (d s r : List Nat) : Bool :=
  let c (l : List Nat) : Int := (l.zipIdx.map fun x => (x.2 + 1 : Int) * ival signed w x.1).foldl (· + ·) 0
  wrap 64 (c r) == wrap 64 (c d + c s)

/-- A chunk's result and whether it passes (R322, R362). -/
def reduceChunk (etype bound : Nat) (old src : List Byte) : List Byte × Bool :=
  let size := if etype == 2 || etype == 3 then 8 else 4
  let d := elemsOf size old
  let x := elemsOf size src
  let r := List.zipWith (fun a b => if etype == 4 then f32add a b else (a + b) % 2 ^ (8 * size)) d x
  (r.flatMap (leBytes size), if etype == 4 then floatPasses bound d x r else intPasses (etype == 0 || etype == 2) (8 * size) d x r)

/-- The chunk lands: what is written, what it replaced, and the intervals it opened. -/
def State.putChunk (s : State) (c : Cmd) (holder : BitVec 16) (ps : List (Loc × List Byte)) : State :=
  let undo := if uKind c.unit == 6 || c.copies then ps.map fun p => (p.1, s.holds p.1 p.2.length) else []
  let s1 := ps.foldl (fun s p => s.putPiece c holder p.1 p.2) s
  let ivs := ps.flatMap fun p => match p.1 with | .scratch _ _ _ => [] | l => s1.writtenIvals l p.2.length
  s1.modCmd c.id fun c => { c with ivs := nub (c.ivs ++ ivs), undo := c.undo ++ undo }

/-- Bytes of a landed chunk by which each barrier decrements. -/
def Cmd.chunkBytes (c : Cmd) : Nat := if uKind c.unit == 3 then c.chunkLen * (4 + uVs c.unit) else c.chunkLen

/-- The chunk has landed: it counts, and decrements, unless it brings the command's last decrement, which comes with the arrival
(R224). -/
def State.chunkDone (s : State) (c : Cmd) : State :=
  let n := c.chunkBytes
  let dec := uBen c.unit && c.decremented + n < uDeclared c.unit
  let s1 := if dec then (s.cmdTargets c).foldl (fun s u => s.decrement u (uBar c.unit) n) s else s
  s1.modCmd c.id fun d => { d with
    done := d.done + c.chunkLen, chunk := [], chunkLen := 0, xl := [], ghash := c.ghashNext, struck := 0
    decremented := if dec then d.decremented + n else d.decremented }

/-- A chunk is given up, and the command stops there. -/
def State.stopChunk (s : State) (c : Cmd) (code : BitVec 16) : State :=
  s.modCmd c.id fun c => { c with chunk := [], chunkLen := 0, xl := [], last := some code }

/-- A mismatch that a second attempt corrected is reported to the die's monitor; its row key is not stated (R323, R325). -/
def State.chunkCorrected (s : State) (c : Cmd) (mismatches : Nat) : State :=
  if mismatches == 0 then s
  else
    let (key, s1) := s.freeBits
    { s1 with agenda := ⟨0, .correctedError c.die key none⟩ :: s1.agenda }

/-- The unit in whose name an engine writes (R307). -/
def Cmd.holder (c : Cmd) : BitVec 16 := if c.recv then hRecv c.die else hCopy c.die

/-- A LINE that names none: the source lies in host memory, in a weight store or with another package (log 17). -/
def noSource : Nat := 2 ^ 101

/-- The place of byte `j` among runs one after another. -/
def placeAt : Nat → List (Loc × Nat) → Option Loc
  | _, [] => none
  | j, (l, n) :: ps => if j < n then some (l.add j) else placeAt (j - n) ps

/-- Runs without their first `j` bytes. -/
def dropPlaces : Nat → List (Loc × Nat) → List (Loc × Nat)
  | _, [] => []
  | j, (l, n) :: ps => if n ≤ j then dropPlaces (j - n) ps else (l.add j, n - j) :: ps

/-- The destination lines and scratchpad units of a chunk: the index of the first byte that goes there, the place, and the bytes. -/
def chunkUnits : Nat → List (Loc × List Byte) → List (Nat × Loc × List Byte)
  | _, [] => []
  | i, (l, bs) :: ps => ((splitLines l bs).foldl (fun (acc : Nat × List (Nat × Loc × List Byte)) x =>
      (acc.1 + x.2.length, acc.2 ++ [(acc.1, x.1, x.2)])) (i, [])).2 ++ chunkUnits (i + bs.length) ps

/-- Where the 128-byte unit of a place begins. -/
def Loc.unit (l : Loc) : Loc :=
  match l with
  | .scratch u b off => .scratch u b (off / 128 * 128)
  | .hostPa a => .hostPa (a / 128 * 128)
  | .weight d a => .weight d (a / 128 * 128)
  | l => match l.line? with | some line => lineLoc line | none => l

/-- A whole 128-byte unit of the destination with some of its bytes written anew (R308, item 7; R310). -/
def State.mergedUnit (s : State) (l : Loc) (bs : List Byte) : List Byte := overlay (s.holds l.unit 128) l.inLine bs

/-- A second hash mismatch on a chunk is a violation whose LINE is the source line of the destination unit that differed, with the hash
of that unit as merged; which unit it is and what the other hash came to are not stated (R308, R310, R315; log 17). -/
def State.chunkViolation (s : State) (c : Cmd) : State :=
  let (got, s1) := s.freeBits
  let (pick, s2) := s1.choose
  let units := chunkUnits 0 c.chunk
  let u := units.getD (pick % units.length) (0, .unbacked, [])
  let line := match placeAt (u.1 % ((c.srcs.map (·.2)).foldl (· + ·) 0)) c.srcs with
    | some l => l.line?.getD noSource
    | none => c.srcLine
  (s2.stopChunk c 0x000C).violate
    { line, n := (s.dirOf line).interval, cause := 7, holder := c.holder, supplier := c.holder
      exp := lineHash (s.mergedUnit u.2.1 u.2.2), got }

/-- Words landed by a CSR gather that lie in both of its areas (R360). -/
def Cmd.overlapWords (c : Cmd) : List Nat :=
  if uKind c.unit != 3 then []
  else
    let idx := ufield c.unit 3 0 19
    let val := ufield c.unit 3 19 19
    let both (w : Nat) : Bool := idx ≤ w && w < idx + 4 * uLimit c.unit && val < w + 4 && w < val + uVs c.unit * uLimit c.unit
    nub (c.chunk.flatMap fun p => match p.1 with
      | .scratch _ _ off => ((List.range p.2.length).map fun i => (off + i) / 4 * 4).filter both
      | _ => [])

/-- The source of a chunk is read anew, and the chunk formed from it (R310, R323): the command as it then is, where it could be. -/
def State.reform (s : State) (c : Cmd) : State × Option Cmd :=
  let c0 := { c with chunk := [], chunkLen := 0, xl := [], last := none }
  let s1 := (s.modCmd c.id fun _ => c0).formNext c0
  (s1, match s1.cmd? c.id with | some d => if d.chunk == [] then none else some d | none => none)

/-- The formed chunk of a command that is not a reduce-copy lands; one whose hashes differed is first read anew, and a second
mismatch is a violation (R310). -/
def State.landCopy (s : State) (c : Cmd) (mismatches : Nat) : State :=
  let put (c : Cmd) (s : State) : State := (((s.putChunk c c.holder c.chunk).freeWords c.sheaf c.overlapWords).chunkDone c).chunkCorrected c mismatches
  if 2 ≤ mismatches then s.chunkViolation c
  else if mismatches == 0 then put c s
  else match s.reform c with
    | (s1, some d) => put d s1
    | (s1, none) => s1

/-- The result of a reduce-copy's chunk over what its destination holds, and whether it passes (R322). -/
def State.reduced (s : State) (c : Cmd) : List Byte × Bool :=
  reduceChunk (uEtype c.unit) (ufield c.unit 3 32 32) (c.chunk.flatMap fun p => s.holds p.1 p.2.length) (c.chunk.flatMap (·.2))

/-- The chunk of a reduce-copy is added, checked and applied as one act; one that fails is formed once more from a fresh read of its
source and destination (R322, R323, R362). -/
def State.landReduce (s : State) (c : Cmd) (mismatches : Nat) : State :=
  let put (c : Cmd) (n : Nat) (s : State) : State :=
    ((s.putChunk c c.holder (dealBytes (c.chunk.map fun p => (p.1, p.2.length)) (s.reduced c).1)).chunkDone c).chunkCorrected c n
  let stop (c : Cmd) (s : State) : State := (s.stopChunk c 0x000F).modCmd c.id fun d => { d with aux := BitVec.ofNat 64 (c.done / 4096) }
  if mismatches == 0 && (s.reduced c).2 then put c 0 s
  else match s.reform c with
    | (s1, some d) => if 2 ≤ mismatches || !(s1.reduced d).2 then stop d s1 else put d 1 s1
    | (s1, none) => s1

/-- ENGINE_CHUNK_LANDED: the writes of the formed chunk are performed (R350, R356), or the command stops there. -/
def execEngineChunkLanded (id mismatches : Nat) (s : State) : Outc :=
  match s.cmd? id with
  | none => .next s
  | some c =>
    if c.chunk == [] || c.recv || !s.dieUp c.die then .next s
    else if c.noArrival then .next (s.stopChunk c 0x000C)
    else
      match s.destBad c, s.destWants c with
      | some code, _ => .next (s.stopChunk c code)
      | none, l :: ls => .next ((l :: ls).foldl (fun s x => s.wantLine c.die c.dstCls x true) s)
      | none, [] =>
        if (chunkLines c.chunk).any fun l => s.xlatLine l.1 && !s.xlatIdle l.1 id then .next s
        else if uKind c.unit == 5 then .next (s.landReduce c (max c.struck mismatches))
        else .next (s.landCopy c (max c.struck mismatches))

/-! ## Publishing (R225, R290, R364) -/

/-- What an attempt to publish comes to: the status, and the line and interval of the descriptor's write. -/
inductive Published where
  | later
  | done (code : BitVec 16) (ivs : List (Nat × BitVec 32)) (s : State)
  deriving DecidableEq, Repr

/-- LIVE and SHADOW of an object change places in one write at the home, once nothing translated through the descriptor's
line is in flight, with the class of the object's capability (R283, R289, R290). -/
def State.publishObj (s : State) (c : Cmd) (obj : BitVec 64) : Published :=
  let dl := descLoc (s.objTable c.ctx) obj
  let d := ObjDesc.ofNat (s.newestNat dl 64)
  if d.gen != obj.toNat / 2 ^ 32 || d.kind == 0 || 6 ≤ d.kind || d.bad || d.shadow == 0 then .done 0x000E [] s
  else
    match dl.line? with
    | none => .done 0x000E [] s
    | some line =>
      if s.badLine line then .done 0x000C [] s
      else if !s.xlatIdle line c.id || !s.lineReady line true false then .later
      else
        let bs := leBytes 8 d.shadow ++ leBytes 8 d.live
        let s1 := ((s.retranslate line).homeWriteLine c.holder false c.dstCls line (dl.inLine + 24) bs).countOut c.die line none 16
        .done 0 [(line, (s1.dirOf line).interval)] s1

/-- The object of a reference. -/
def TileRef.objid : TileRef → Option (BitVec 64)
  | .mem obj _ _ _ _ _ => some obj
  | .scratch _ => none

/-- An earlier command of the register that writes the object's shadow extents is under way (R225, R364). -/
def State.shadowBefore (s : State) (c : Cmd) (obj : BitVec 64) : Bool :=
  s.cmds.any fun d => d.id < c.id && d.sheaf == c.sheaf && d.q == c.q && uShd d.unit && d.refs.any fun r => r.objid == some obj

/-- An earlier shadow command of the register on the object met a violation, and the line is still poisoned (R290, R364; log 77). -/
def State.stainedFor (s : State) (c : Cmd) (obj : BitVec 64) : Bool :=
  match (s.sheaf? c.sheaf).bind fun h => h.queues[c.q]? with
  | some r => r.stained.any fun x => x.1 == obj && s.poisoned x.2
  | none => false

/-- The accesses covered by the `qpush` that sent a publish are performed, and cleared, at SCOPE (R262, R364). -/
def State.covered (s : State) (c : Cmd) : Bool :=
  s.log.all fun e => !c.cover.contains e.seq || (e.metAt (scopeOf (ufield c.unit 0 24 3)) && s.entryCleared e)

/-! ## Ending -/

/-- BYTES of a command (R227). -/
def Cmd.bytes (c : Cmd) : Nat := if uKind c.unit == 3 then c.done * (4 + uVs c.unit) else c.done

/-- Placement no longer waits for a weight-store load (R367) (DEDUCED; log 50). -/
def State.freeWeight (s : State) (id : Nat) : State :=
  { s with parts := s.parts.map fun p => { p with wsHold := p.wsHold.filter (·.2 != id) } }

/-- A copy-engine command ends, once the checkers have cleared what it wrote (R205, R310, R312). -/
def State.finishCmd (s : State) (c : Cmd) (status : BitVec 16) : State :=
  (s.freeWeight c.id).endCmd c status c.bytes c.aux.toNat 0 0

/-- Everything a command wrote has been cleared. -/
def State.cmdCleared (s : State) (c : Cmd) : Bool := c.ivs.all fun i => s.ivalCleared i.1 i.2

/-- A command's arrival is a release at .sys: on a barrier object of that scope, or by a publish at it (R205, R251). -/
def State.sysActs (s : State) (c : Cmd) : Bool :=
  (uKind c.unit == 7 && ufield c.unit 0 24 3 == 5)
    || (uBen c.unit && (s.cmdTargets c).any fun u => (s.bar? u (uBar c.unit)).any fun b => b.scope == 5)

/-- What a command wrote is performed at the scope of its arrival: at .sys once every other package has acknowledged the loss of its
copies (R205, R257, R301, R382). -/
def State.cmdSpread (s : State) (c : Cmd) : Bool := !s.sysActs c || c.ivs.all fun i => s.remoteAcked i.1

/-- A publish at .sys waits until no package's acknowledgement is outstanding, since the shadow writes it covers may have called for
one (R257, R262). -/
def State.publishSpread (s : State) (c : Cmd) : Bool := !s.sysActs c || s.coh.remSh.all (!·.2.2)

/-- A command begins to wait for the checkers (R313). -/
def State.awaitClear (s : State) (c : Cmd) : State :=
  s.modCmd c.id fun c => { c with since := if c.since.isSome then c.since else some s.time }

/-- A command will end with a status, once the checkers have cleared what it wrote. -/
def State.endsWith (s : State) (c : Cmd) (code : BitVec 16) (ivs : List (Nat × BitVec 32)) : State :=
  s.modCmd c.id fun c => { c with last := some code, ivs := nub (c.ivs ++ ivs), since := none }

/-- Each shadow byte of a decrypt whose tag fails holds its earlier value or the decrypted one (R366; log 17). -/
def State.spoil (s : State) (c : Cmd) : State :=
  let put (s : State) (p : Loc × List Byte) (k : Nat) : State :=
    let now := s.holds p.1 p.2.length
    let mix := now.zipIdx.map fun x =>
      if Config.choice (2 ^ 64 * s.free + 4096 * k + x.2) % 2 == 0 then x.1 else p.2.getD x.2 0
    s.putPiece c c.holder p.1 mix
  (c.undo.zipIdx.foldl (fun s x => put s x.1 x.2) s).choose.2

/-- The tag of a decrypt is read and checked, and the object published (R365, R366). -/
def State.decryptEnd (s : State) (c : Cmd) : State :=
  match c.refs, s.keySlot c with
  | src :: dst :: _, some k =>
    let (f, s1) := s.readSource c src (uLen c.unit) 16 false
    match f with
    | .ok _ tag _ _ _ =>
      if tag == gcmTag k.key (c.iv k) c.ghash.toNat (uLen c.unit) then
        match dst.objid.map (s1.publishObj c) with
        | some (.done code ivs s2) => s2.endsWith c code ivs
        | some .later => s1
        | none => s1.endsWith c 0x000E []
      else (s1.spoil c).endsWith c 0x0007 (c.undo.flatMap fun p => s1.writtenIvals p.1 p.2.length)
    | _ => s1.formed c f fun _ _ _ _ _ c => c
  | _, _ => s.endsWith c 0x0007 []

/-- A publish takes effect once its turn has come and what it covers is performed at SCOPE (R225, R262, R364). -/
def State.publishEnd (s : State) (c : Cmd) : State :=
  match c.refs.head?.bind TileRef.objid with
  | none => s.endsWith c 0x000E []
  | some obj =>
    if s.shadowBefore c obj then s
    else if s.stainedFor c obj then s.endsWith c 0x000C []
    else if !s.covered c || !s.cmdCleared c || !s.publishSpread c then s.awaitClear c
    else match s.publishObj c obj with
      | .done code ivs s1 => s1.endsWith c code ivs
      | .later => s

/-- A running command with no chunk in flight goes on: it ends once the checkers have cleared what it wrote, or forms its next
chunk (R205, R310, R312). -/
def State.advanceCmd (s : State) (c : Cmd) : State :=
  match c.last with
  | some code => if (s.cmdCleared c && s.cmdSpread c) || c.noArrival then s.finishCmd c code else s.awaitClear c
  | none =>
    if !s.cmdRuns c then s
    else
      match uKind c.unit with
      | 6 => if c.done < uLen c.unit then s.formDecrypt c else if s.cmdCleared c then s.decryptEnd c else s.awaitClear c
      | 7 => s.publishEnd c
      | _ => s.formNext c

/-- The event of a command's kind: it starts, or goes on. -/
def State.engineStep (s : State) (kind id : Nat) : State :=
  match s.cmd? id with
  | none => s
  | some c =>
    if uKind c.unit != kind || c.recv then s
    else
      match c.st with
      | .queued =>
        if c.last.isSome then s.advanceCmd c
        else if s.mayStart c then (s.startCmd c).advanceCmd { c with st := .running } else s
      | .running => if c.chunk == [] then s.advanceCmd c else s
      | .landing | .waiting _ | .stopped => if c.last.isSome && c.chunk == [] then s.advanceCmd c else s

/-- LINEAR_COPY (R358). -/
def execLinearCopy (cmd : Nat) (s : State) : Outc := .next (s.engineStep 1 cmd)
/-- STRIDED_COPY (R359). -/
def execStridedCopy (cmd : Nat) (s : State) : Outc := .next (s.engineStep 2 cmd)
/-- CSR_GATHER (R360). -/
def execCsrGather (cmd : Nat) (s : State) : Outc := .next (s.engineStep 3 cmd)
/-- MULTICAST (R361). -/
def execMulticast (cmd : Nat) (s : State) : Outc := .next (s.engineStep 4 cmd)
/-- REDUCE_COPY (R362). -/
def execReduceCopy (cmd : Nat) (s : State) : Outc := .next (s.engineStep 5 cmd)
/-- DECRYPT_COPY_IN (R365, R366). -/
def execDecryptCopyIn (cmd : Nat) (s : State) : Outc := .next (s.engineStep 6 cmd)
/-- PUBLISH (R364). -/
def execPublish (cmd : Nat) (s : State) : Outc := .next (s.engineStep 7 cmd)
/-- WEIGHT_STORE_LOAD (R367). -/
def execWeightStoreLoad (cmd : Nat) (s : State) : Outc := .next (s.engineStep 8 cmd)

end Sys2Proof.Machine
end

