-- ==== Sys2Proof/Machine/Receive.lean ====
section
/-! DEFINITION. The receive engine (R226, R263, R368–R375): sends, postings and cancels, the matching of messages, the
landing of their payloads, pulls and placement reports. -/

namespace Sys2Proof.Machine

/-- Update the receive engine. -/
def State.modRecv (s : State) (g : Recv → Recv) : State := { s with recv := g s.recv }

/-! ## Ends of receive-engine commands (R226, R227, R373) -/

/-- A command of the receive engine ends: a posting's completion record goes to its sheaf's scratchpad first (R226). -/
def State.endRecv (s : State) (c : Cmd) (status : BitVec 16) (bytes aux src tag : Nat) : State :=
  let s1 :=
    if uKind c.unit == 0x10 && uflag c.unit (192 + 15) then
      s.scratchWrite c.sheaf (16 * ufield c.unit 3 0 15)
        (leBytes 32 (completionEntry (uKind c.unit) (uCtag c.unit) status bytes aux src tag).toNat)
    else s
  (s1.modRecv fun r => { r with
    postings := r.postings.filter (·.cmd != c.id)
    landing := r.landing.filter (·.1 != c.id) }).endCmd c status bytes aux src tag

/-- A send ends with a status (R374). -/
def State.endSend (s : State) (cmd : Nat) (status : BitVec 16) : State :=
  match s.cmd? cmd with | some c => s.endRecv c status 0 0 0 0 | none => s

/-! ## Matching (R226, R370, R372, R375) -/

/-- A message matches a posting (R226). -/
def Posting.matches (p : Posting) (m : Msg) : Bool :=
  (m.src ^^^ p.src) &&& p.smask == 0 && (m.tag ^^^ p.tag) &&& p.tmask == 0

/-- The posting of a post-receive command. -/
def postingOf (c : Cmd) : Posting :=
  { cmd := c.id, ctx := c.ctx, src := BitVec.ofNat 24 (ufield c.unit 3 40 24), smask := BitVec.ofNat 24 (ufield c.unit 3 16 24),
    tag := BitVec.ofNat 32 (ufield c.unit 2 32 32), tmask := BitVec.ofNat 32 (ufield c.unit 2 0 32) }

/-- Room for one more message in a context's unexpected queue (R372). -/
def State.unexpectedRoom (s : State) (ctx : Nat) (m : Msg) : Bool :=
  let q := (s.recv.unexpected.filter (·.1 == ctx)).map (·.2)
  let bytes := ((q.filter (·.eager)).map (·.len)).foldl (· + ·) 0
  q.length < 1024 && (!m.eager || bytes + m.len ≤ 4 * 2 ^ 20)

/-- The fate of a message goes back to its sender (R374, R378). -/
def State.report (s : State) (m : Msg) (status : BitVec 16) : State :=
  match m.sendCmd with
  | some c => s.modRecv fun r => { r with reports := r.reports ++ [(c, status)] }
  | none => s.sendPacket (mkPacket m.fromFn 0x0F 0 (m.src.toNat + status.toNat * 2 ^ 24) m.mtag [])

/-- The payload of a rendezvous message is asked for (R372, R373). -/
def State.pull (s : State) (m : Msg) (bytes : Nat) : State :=
  match m.sendCmd with
  | some c => s.modRecv fun r => { r with pulls := r.pulls ++ [(c, bytes, s.fab.self.toNat, m.mtag, m.dst)] }
  | none => s.sendPacket (mkPacket m.fromFn 0x0C 0 m.src.toNat m.mtag (leBytes 16 bytes))

/-- Nothing sent to a package arrives: it is lost, or no port reaches it (R376, R384). -/
def State.cannotReach (s : State) (fn : Nat) : Bool := s.fab.lostPkgs.contains fn || s.routePorts fn == []

/-- A message is delivered to a posting: it begins to land, and its payload is pulled where it has not travelled with it; a pull that
cannot reach the sender fails (R375). -/
def State.matchMsg (s : State) (cmd : Nat) (m : Msg) : State :=
  match s.cmd? cmd with
  | none => s
  | some c =>
    let s1 := (s.modRecv fun r => { r with
      postings := r.postings.filter (·.cmd != cmd), landing := r.landing ++ [(cmd, m, m.eager)] }).modCmd cmd fun c => { c with
      st := .running, msg := some m.id }
    if m.eager then s1
    else if m.sendCmd.isNone && s1.cannotReach m.fromFn then s1.endRecv c 0x000C 0 m.len m.src.toNat m.tag.toNat
    else s1.pull m (min m.len (uLen c.unit))

/-- A message joins a context's unexpected queue, which lies in its receive area (R372; log 78). -/
def State.enqueue (s : State) (ctx : Nat) (m : Msg) : State :=
  let s1 := s.modRecv fun r => { r with unexpected := r.unexpected ++ [(ctx, m)] }
  match s.ctx? ctx with
  | some c => if c.recvBase == 0 then s1 else s1.deviceArea c.recvBase (4 * 2 ^ 20)
  | none => s1

/-- One arrival at the matching unit (R370). -/
def State.arrival (s : State) (ctx : Nat) (m : Msg) : State :=
  match s.ctx? ctx with
  | none => s.report m 0x000D
  | some c =>
    let keep (s : State) : State :=
      if s.unexpectedRoom ctx m then (s.enqueue ctx m).report m 0
      else s.report m 0x0011
    if c.frozen then keep s
    else
      match s.recv.postings.find? fun p => p.ctx == ctx && p.matches m with
      | some p => (s.matchMsg p.cmd m).report m 0
      | none => keep s

/-- MESSAGE_ARRIVAL: the oldest message for a context comes to the matching unit (R370). -/
def execMessageArrival (ctx : Nat) (s : State) : Outc :=
  match s.recv.arriving.find? (·.1 == ctx) with
  | none => .next s
  | some a => .next ((s.modRecv fun r => { r with arriving := r.arriving.erase a }).arrival ctx a.2)

/-- On release each held message is taken in arrival order as one arrival (R375). -/
def State.rematch (s : State) (ctx : Nat) : State :=
  let held := (s.recv.unexpected.filter (·.1 == ctx)).map (·.2)
  held.foldl (fun s m =>
    match s.recv.postings.find? fun p => p.ctx == ctx && p.matches m with
    | some p => (s.modRecv fun r => { r with unexpected := r.unexpected.erase (ctx, m) }).matchMsg p.cmd m
    | none => s) s

/-- The command is the oldest of its register that the receive engine has not yet taken, and its context runs. -/
def State.recvHead (s : State) (c : Cmd) (kind : Nat) : Bool :=
  c.recv && uKind c.unit == kind && s.cmdHead c

/-- The posted-receive list of a context is full (R369). -/
def State.postsFull (s : State) (ctx : Nat) : Bool := 4096 ≤ (s.recv.postings.filter (·.ctx == ctx)).length

/-- POST_RECEIVE: a posting takes the earliest unexpected message that matches, or joins the list (R369, R370). -/
def execPostReceive (cmd : Nat) (s : State) : Outc :=
  match s.cmd? cmd with
  | none => .next s
  | some c =>
    if !s.recvHead c 0x10 then .next s
    else
      let p := postingOf c
      let s1 := s.modCmd cmd fun c => { c with st := .running }
      match s1.recv.unexpected.find? fun x => x.1 == c.ctx && p.matches x.2 with
      | some x => .next ((s1.modRecv fun r => { r with unexpected := r.unexpected.erase x }).matchMsg cmd x.2)
      | none => .next (if s.postsFull c.ctx then s else s1.modRecv fun r => { r with postings := r.postings ++ [p] })

/-- CANCEL_RECEIVES: every posting of the sheaf with the tag that no message has matched completes with 0x0009, the cancel
with 0 (R226). -/
def execCancelReceives (cmd : Nat) (s : State) : Outc :=
  match s.cmd? cmd with
  | none => .next s
  | some c =>
    if !s.recvHead c 0x12 then .next s
    else
      let gone := s.cmds.filter fun d => s.recv.postings.any (·.cmd == d.id) && d.sheaf == c.sheaf && uCtag d.unit == uCtag c.unit
      .next ((gone.foldl (fun s d => s.endRecv d 0x0009 0 0 0 0) s).endRecv c 0 0 0 0 0)

/-! ## Sends (R368, R371, R372, R374) -/

/-- Where an endpoint number lies: package and context. -/
def State.endpointAt (s : State) (e : BitVec 24) : Option (Nat × Nat) :=
  (s.recv.endpoints.find? (·.1 == e)).map fun x => (x.2.1.toNat, x.2.2)

/-- DEST of a send. -/
def sendDest (c : Cmd) : BitVec 24 := BitVec.ofNat 24 (ufield c.unit 3 40 24)

/-- An earlier send of the same source to the same destination has not yet gone, or, to another package, is not yet placed
(R371). -/
def State.sendBefore (s : State) (c : Cmd) (remote : Bool) : Bool :=
  s.cmds.any fun d => d.id < c.id && uKind d.unit == 0x11 && d.ctx == c.ctx && sendDest d == sendDest c
    && (d.msg.isNone || (remote && d.st == .running))

/-- The packets of a message: its header, with the first bytes of an eager payload, then the rest (R378; log 14). -/
def msgPackets (m : Msg) (dst : Nat) : List Packet :=
  let head := leBytes 16 (m.len + m.src.toNat * 2 ^ 40 + m.tag.toNat * 2 ^ 64)
  let n := (m.payload.length + 15) / 128
  (List.range (n + 1)).map fun i =>
    mkPacket dst 0x0B (if m.payload == [] then 0 else 2) m.dst.toNat m.mtag
      (if i == 0 then head ++ m.payload.take 112 else (m.payload.drop (112 + 128 * (i - 1))).take 128)

/-- The request tags of the sends under way. -/
def State.sendTags (s : State) : List Nat := (s.cmds.filter fun c => uKind c.unit == 0x11).filterMap (·.msg)

/-- The first request tag from a number on that no send under way carries: the first number counts the tags still to be tried. -/
def nextTag (used : List Nat) : Nat → Nat → Nat
  | 0, t => t % 2 ^ 16
  | n + 1, t => if used.contains (t % 2 ^ 16) then nextTag used n (t + 1) else t % 2 ^ 16

/-- A send's message goes to its destination's matching unit, under a request tag of its own (R378). -/
def State.dispatchMsg (s : State) (c : Cmd) (payload : List Byte) (srcs : List (Loc × Nat)) : State :=
  match s.endpointOf c.ctx with
  | none => s.endSend c.id 0x0012
  | some src =>
    let (id, s1) := s.fresh
    let tag := nextTag s.sendTags s.sendTags.length id
    let m : Msg := { id, src, dst := sendDest c, tag := BitVec.ofNat 32 (ufield c.unit 2 32 32), len := uLen c.unit,
                     eager := uLen c.unit ≤ 8192, payload, srcs, sendCmd := none, fromFn := s.fab.self.toNat,
                     mtag := BitVec.ofNat 16 tag }
    let s2 := s1.modCmd c.id fun c => { c with st := .running, msg := some tag }
    match s.endpointAt (sendDest c) with
    | none => s.endSend c.id 0x000D
    | some (pkg, ctx) =>
      if pkg == s.fab.self.toNat then
        if (s.ctx? ctx).isNone then s.endSend c.id 0x000D
        else s2.modRecv fun r => { r with arriving := r.arriving ++ [(ctx, { m with sendCmd := some c.id })] }
      else if s.cannotReach pkg then s.endSend c.id 0x000D
      else (msgPackets m pkg).foldl (fun s p => s.sendPacket p) s2

/-- SEND: an eager payload is read before anything is sent; of a longer message only the header goes (R372, R374). -/
def execSend (cmd : Nat) (s : State) : Outc :=
  match s.cmd? cmd with
  | none => .next s
  | some c =>
    let dest := s.endpointAt (sendDest c)
    let remote := match dest with | some x => x.1 != s.fab.self.toNat | none => false
    let may := uKind c.unit == 0x11 && (s.recvHead c 0x11 || (c.st == .running && c.msg.isNone && s.cmdRuns c)) && !s.sendBefore c remote
      && decide (s.sendTags.length < 2 ^ 16)
    if !may then .next s
    else if 8192 < uLen c.unit then .next (s.dispatchMsg c [] [])
    else
      match c.refs.head? with
      | none => .next s
      | some src =>
        match s.readSource c src 0 (uLen c.unit) false with
        | (.ok _ bs at1 _ _, s1) => .next (s1.dispatchMsg c bs at1)
        | (.wait on, s1) => .next (s1.modCmd cmd fun c => { c with st := .waiting on })
        | (.pend, s1) => .next s1
        | (.stop code, s1) => .next (s1.endSend cmd code)

/-- PLACEMENT_REPORT: the fate of a message reaches its sender; an eager send ends, and a rendezvous send that was not placed
(R374). -/
def execPlacementReport (cmd : Nat) (s : State) : Outc :=
  match s.recv.reports.find? (·.1 == cmd), s.cmd? cmd with
  | some r, some c =>
    let s1 := s.modRecv fun x => { x with reports := x.reports.erase r }
    if uLen c.unit ≤ 8192 || r.2 != 0 then .next (s1.endSend cmd r.2)
    else .next (s1.modCmd cmd fun c => { c with st := .landing })
  | some r, none => .next (s.modRecv fun x => { x with reports := x.reports.erase r })
  | none, _ => .next s

/-! ## Pulls (R372–R375) -/

/-- The payload of a pulled message reaches the landing unit, or cannot be had. -/
def State.pulled (s : State) (fromFn : Nat) (mtag : BitVec 16) (payload : Option (List Byte)) (srcs : List (Loc × Nat)) : State :=
  match s.recv.landing.find? fun l => l.2.1.mtag == mtag && l.2.1.fromFn == fromFn && !l.2.2 with
  | none => s
  | some (cmd, m, _) =>
    match payload with
    | some bs => s.modRecv fun r => { r with
        landing := updIf (·.1 == cmd) (fun l => (l.1, { l.2.1 with payload := bs, srcs }, true)) r.landing }
    | none => match s.cmd? cmd with
      | some c => s.endRecv c 0x000C 0 m.len m.src.toNat m.tag.toNat
      | none => s

/-- Pulled payload goes back to the side that asked, under the message's destination endpoint: a packet without payload says that it
cannot be had (R378; log 14). -/
def State.sendPulled (s : State) (fn : Nat) (tag : BitVec 16 × BitVec 24) (payload : Option (List Byte × List (Loc × Nat))) : State :=
  if fn == s.fab.self.toNat then s.pulled fn tag.1 (payload.map (·.1)) ((payload.map (·.2)).getD [])
  else
    match payload with
    | some (bs, _) => (List.range ((bs.length + 127) / 128)).foldl (fun s i =>
        s.sendPacket (mkPacket fn 0x0C 2 tag.2.toNat tag.1 ((bs.drop (128 * i)).take 128))) s
    | none => s.sendPacket (mkPacket fn 0x0C 0 tag.2.toNat tag.1 [])

/-- PULL_REQUEST: a rendezvous payload is read at the sending side, and its send ends (R372, R374, R375). -/
def execPullRequest (cmd : Nat) (s : State) : Outc :=
  match s.recv.pulls.find? (·.1 == cmd) with
  | none => .next s
  | some p =>
    let s0 := s.modRecv fun r => { r with pulls := r.pulls.erase p }
    match s.cmd? cmd with
    | none => .next (s0.sendPulled p.2.2.1 p.2.2.2 none)
    | some c =>
      if s.ctxFrozen c.ctx then .next s
      else
        match c.refs.head? with
        | none => .next (s0.sendPulled p.2.2.1 p.2.2.2 none)
        | some src =>
          match s.readSource c src 0 p.2.1 (62 * 4096 < p.2.1) with
          | (.ok _ bs at1 _ _, s1) =>
            let s2 := s1.modRecv fun r => { r with pulls := r.pulls.erase p }
            .next ((s2.sendPulled p.2.2.1 p.2.2.2 (some (bs, at1))).endSend cmd 0)
          | (.wait _, s1) | (.pend, s1) => .next s1
          | (.stop code, s1) =>
            let s2 := s1.modRecv fun r => { r with pulls := r.pulls.erase p }
            .next ((s2.sendPulled p.2.2.1 p.2.2.2 none).endSend cmd code)

/-! ## Landing (R310, R355, R356, R373) -/

/-- A landing unit works on at most 16 messages, the oldest matched first (R355). -/
def State.landingTurn (s : State) (c : Cmd) : Bool :=
  let mine := s.recv.landing.filter fun l => match s.cmd? l.1 with | some d => d.die == c.die | none => false
  (mine.take 16).any (·.1 == c.id)

/-- A message that has landed completes its posting, once the checkers have cleared what it wrote (R205, R373). -/
def State.finishLanding (s : State) (c : Cmd) (m : Msg) (code : BitVec 16) : State :=
  let st : BitVec 16 := if code == 0 && uLen c.unit < m.len then 0x0006 else code
  s.endRecv c st c.done m.len m.src.toNat m.tag.toNat

/-- The next chunk of a payload lands; one whose hashes differed is formed anew from the message, and a second mismatch is a
violation of the line that the payload was read from (R310, R373; log 17). -/
def State.landNext (s : State) (c : Cmd) (m : Msg) : State :=
  let total := min m.len (uLen c.unit)
  let bs := (m.payload.drop c.done).take (min 4096 (total - c.done))
  match c.refs.head? with
  | none => s
  | some dst =>
    match s.placeDest c dst c.done bs with
    | (.ok ps _ _ xl _, s1) =>
      let c1 := { c with
        chunk := ps, chunkLen := bs.length, xl, srcLine := noSource, srcs := dropPlaces c.done m.srcs
        last := if c.done + bs.length == total then some (0 : BitVec 16) else none }
      let s2 := s1.modCmd c.id fun _ => c1
      match s2.destBad c1, s2.destWants c1 with
      | some code, _ => s2.stopChunk c1 code
      | none, l :: ls => (l :: ls).foldl (fun s x => s.wantLine c.die c1.dstCls x true) s1
      | none, [] =>
        if (chunkLines ps).any fun l => s2.xlatLine l.1 && !s2.xlatIdle l.1 c.id then s1
        else if 2 ≤ c.struck then s2.chunkViolation c1
        else ((s2.putChunk c1 c1.holder ps).chunkDone c1).chunkCorrected c1 c.struck
    | (.pend, s1) => s1
    | (.wait on, s1) => s1.modCmd c.id fun c => { c with st := .waiting on }
    | (.stop code, s1) => s1.stopChunk c code

/-- MESSAGE_LANDING: a matched message's next chunk lands, or its posting completes (R373). -/
def execMessageLanding (msg : Nat) (s : State) : Outc :=
  match s.recv.landing.find? fun l => l.2.1.id == msg with
  | none => .next s
  | some (cmd, m, whole) =>
    match s.cmd? cmd with
    | none => .next s
    | some c =>
      if !s.landingTurn c then .next s
      else
        match c.last with
        | some code => if (s.cmdCleared c && s.cmdSpread c) || c.noArrival then .next (s.finishLanding c m code) else .next (s.awaitClear c)
        | none =>
          if !whole || s.ctxFrozen c.ctx || c.st != .running || !s.dieUp c.die then .next s
          else if min m.len (uLen c.unit) == 0 then .next (s.finishLanding c m 0)
          else .next (s.landNext c m)

end Sys2Proof.Machine
end

