-- ==== Sys2Proof/Machine/Queue.lean ====
section
/-! DEFINITION. Queue registers (R218–R222, R331): `qpush`, `qpop` and `qstat`, the endpoints' acceptance (R219, R220, R357,
R369, R393, R398), the completion of long-latency operations (R61, R155) and of held releases (R165). -/

namespace Sys2Proof.Machine

/-! ## Mailbox pairs (R391–R393) -/

/-- Entries of a pair's device-to-host FIFO that the host has not consumed. -/
def Mailbox.outstanding (m : Mailbox) : Nat := m.d2hAccepted - m.consumed

/-- A pair of a context. -/
def Ctx.mail (c : Ctx) (pair : Nat) : Mailbox := if pair == 0 then c.mail0 else c.mail1

/-- Update a pair. -/
def State.modMail (s : State) (ctx pair : Nat) (g : Mailbox → Mailbox) : State :=
  s.modCtx ctx fun c => if pair == 0 then { c with mail0 := g c.mail0 } else { c with mail1 := g c.mail1 }

/-- An entry is accepted for the host. -/
def State.mailOut (s : State) (ctx pair : Nat) (e : BitVec 512) : State :=
  s.modMail ctx pair fun m => { m with d2h := m.d2h ++ [e], d2hAccepted := m.d2hAccepted + 1 }

/-! ## Management commands as units (R398) -/

/-- Bits lo to hi inclusive. -/
def bitRange (lo hi : Nat) : Nat := 2 ^ (hi + 1) - 2 ^ lo

/-- The bits that doubles 1 to 3 of each command may have set; none for a MOP that is not listed (R398). -/
def mopMasks (mop : Nat) (d1 : Nat) : Option (Nat × Nat × Nat) :=
  let all := bitRange 0 63
  let master := if d1.testBit 63 then bitRange 63 63 + bitRange 0 5 else bitRange 0 23
  match mop with
  | 0x01 => some (bitRange 0 8, all, if d1.testBit 8 then all else bitRange 0 7)
  | 0x02 => some (bitRange 0 7, 0, 0)
  | 0x03 => some (bitRange 0 23, all, bitRange 0 24 + bitRange 32 63)
  | 0x04 | 0x05 => some (master, 0, 0)
  | 0x06 => some (bitRange 0 7, 0, 0)
  | 0x07 => some (bitRange 0 23, bitRange 0 7, all)
  | 0x08 => some (bitRange 0 23, all, all)
  | 0x09 => some (bitRange 0 24, all, all)
  | 0x0A => some (bitRange 0 2, bitRange 0 31, 0)
  | 0x0B => some (bitRange 0 32, all, 0)
  | 0x0C => some (bitRange 0 35 + bitRange 40 63, 0, 0)
  | 0x0D => some (bitRange 0 11 + bitRange 16 31, 0, 0)
  | 0x0E => some (bitRange 0 7, bitRange 0 31, 0)
  | 0x0F => some (bitRange 0 51, 0, 0)
  | 0x10 => some (bitRange 0 11, 0, 0)
  | 0x11 => some (all, 0, 0)
  | 0x12 => some (bitRange 0 2 + bitRange 8 8, 0, 0)
  | 0x13 => some (bitRange 0 2, 0, 0)
  | 0x14 => some (all, all, 0)
  | 0x15 => some (0, 0, 0)
  | 0x16 => some (bitRange 0 7, bitRange 0 7, 0)
  | _ => none

/-- MOP of a management command. -/
def uMop (u : BitVec 256) : Nat := ufield u 0 0 8

/-- CTAG of a management command (R398). -/
def uMopCtag (u : BitVec 256) : Nat := ufield u 0 8 8

/-- The reserved fields of a management command (R220, R398). -/
def mopFieldsOk (u : BitVec 256) : Bool :=
  let within (i m : Nat) : Bool := ufield u i 0 64 &&& m == ufield u i 0 64
  match mopMasks (uMop u) (ufield u 1 0 64) with
  | none => false
  | some (a, b, c) => ufield u 0 16 48 == 0 && within 1 a && within 2 b && within 3 c
      && (uMop u != 3 || ufield u 1 16 5 ≤ 16)

/-- The operands of a management command are aligned: the key block of MOP 0x0B at 16 bytes (R220, R398). -/
def mopAligned (u : BitVec 256) : Bool := uMop u != 0x0B || ufield u 2 0 4 == 0

/-- The status that rejects a management command of the privileged view, 0 for none. -/
def mopReject (u : BitVec 256) : BitVec 16 :=
  if !mopFieldsOk u then 0x0002 else if uMop u == 0x14 || uMop u == 0x15 then 0x0003 else if !mopAligned u then 0x0016 else 0

/-- After ready, a chiplet other than a compute die is quarantined: only MOP 0x04 and 0x05 are accepted until a package reset
(R409). -/
def State.crippled (s : State) : Bool := s.boot.stage == 8 && (s.boot.chiplets.drop 8).any (·.st == .quarantined)

/-- The device takes a management command: after ready, or in recovery MOP 0x14 and 0x15 (R409, R413, R414)
(DEDUCED; log 56). -/
def State.takesMop (s : State) (mop : Nat) : Bool :=
  if s.boot.stage == 15 then mop == 0x14 || mop == 0x15
  else s.boot.stage == 8 && (!s.crippled || mop == 0x04 || mop == 0x05)

/-- The address of the core map of MOP 0x01 (R398). -/
def uMap (u : BitVec 256) : Nat := ufield u 3 8 56 * 256

/-- The core map that a device command's MOP 0x01 reads at acceptance, in window 0, 1 or 2; none where it cannot be read
(R400). -/
def State.deviceMap (s : State) (u : BitVec 256) : Option (List Byte) :=
  let l := devLoc (uMap u)
  let held (i : Nat) : Bool := match (l.add i).line? with | some line => !s.poisoned line | none => false
  if uMap u < 3 * 2 ^ 40 && (List.range 192).all held then some (s.newest l 192) else none

/-! ## Acceptance (R219, R220) -/

/-- Units waiting in the outbound side of a binding. -/
def State.outWaiting (s : State) (h : Sheaf) (q : Nat) : Nat :=
  if h.bind q == 5 then (s.host.mq.filter fun m => m.back == some (h.uid, q)).length
  else (s.cmds.filter fun c => c.sheaf == h.uid && c.q == q && c.st == .queued).length

/-- Launches of a context that have not ended (R333). -/
def State.launchesHeld (s : State) (ctx : Nat) : Nat := (s.launches.filter (·.ctx == ctx)).length

/-- Free places of the outbound side (R218, R219, R333, R369, R393). -/
def State.freeOut (s : State) (h : Sheaf) (q : Nat) : Nat :=
  match h.bind q with
  | 3 | 4 => match s.ctx? h.ctx with | some c => 64 - (c.mail (h.bind q - 3)).outstanding | none => 0
  | 2 => if s.postsFull h.ctx then 0 else 32 - s.outWaiting h q
  | 6 => if 64 ≤ s.launchesHeld h.ctx then 0 else 32
  | _ => 32 - s.outWaiting h q

/-- An engine command that passed its checks is accepted (R219, R225, R365, R367); `cover` is what a publish covers (R262, R364). -/
def State.acceptCmd (s : State) (h : Sheaf) (q : Nat) (u : BitVec 256) (decl : Bool) (refs : List TileRef) (lens cover : List Nat) :
    State :=
  let (id, s1) := s.fresh
  let c : Cmd :=
    { id, die := coreDie h.core, recv := h.bind q == 2, sheaf := h.uid, q, ctx := h.ctx, unit := u, st := .queued, refs, lens,
      done := 0, chunk := [], chunkLen := 0, xl := [], srcLine := 0, last := none, noArrival := false, decremented := 0,
      aux := 0, ivs := [], ghash := 0, ghashNext := 0, undo := [], msg := none, since := none
      cover := if uKind u == 7 then cover else [], struck := 0 }
  let s2 := { s1 with cmds := s1.cmds ++ [c] }
  let s3 := if decl then (s2.targets u h).foldl (fun s g => s.declare g.uid (uBar u) (uDeclared u)) s2 else s2
  match uKind u with
  | 6 => s3.modCtx h.ctx fun x => { x with
      keys := updIf (·.slot == ufield u 0 56 8) (fun k => { k with last := uCap u 3 }) x.keys }
  | 8 =>
    if uLen u == 0 then s3.endCmd c 0 0 0 0 0
    else
      let dies := match refs[1]? with
        | some (.mem obj space home cls off _) => s.weightDies h.ctx (rootWindow obj space home cls) off (uLen u)
        | _ => []
      (s.loadParts h.ctx).foldl (fun s p => s.modPart p.num fun p => { p with wsHold := p.wsHold ++ dies.map fun d => (d, id) }) s3
  | 1 | 2 | 4 | 5 => if uTotal u == 0 then s3.endCmd c 0 0 0 0 0 else s3
  | _ => s3

/-- What an endpoint makes of a unit offered to it: the status, and the state after it (R219–R221, R331, R369, R393, R398). -/
def State.offer (s : State) (h : Sheaf) (q : Nat) (unit : BitVec 512) (decl : Bool) (cover : List Nat) : BitVec 16 × State :=
  let u : BitVec 256 := unit.setWidth 256
  match h.bind q with
  | 1 | 2 =>
    if s.freeOut h q == 0 then (0x0001, s)
    else
      match s.checkUnit (h.bind q) u decl h with
      | .error code => (code, s)
      | .ok (refs, lens) => (0, s.acceptCmd h q u decl refs lens cover)
  | 3 =>
    if s.freeOut h q == 0 then (0x0001, s)
    else if decl then (0x0002, s)
    else (0, s.mailOut h.ctx 0 unit)
  | 5 =>
    if s.freeOut h q == 0 then (0x0001, s)
    else if decl then (0x0002, s)
    else
      let code := mopReject u
      if code != 0 then (code, s)
      else if !s.takesMop (uMop u) then (0x0005, s)
      else (0, s.modHost fun x => { x with mq := x.mq ++ [{ unit := u, port := 0, back := some (h.uid, q), map := s.deviceMap u }] })
  | _ => (if s.freeOut h q == 0 then 0x0001 else 0x0003, s)

/-! ## `qpush` (R219) -/

/-- An operation of a lower lane of the same instruction has not yet had its turn (R219, R221). -/
def State.laneTurn (s : State) (o : MemOp) : Bool :=
  !(s.ops.any fun p => p.grp == o.grp && p.core == o.core && p.kind == o.kind && p.key != o.key && p.key.lane < o.key.lane)

/-- S is written, and the operation completes. -/
def State.finishPush (s : State) (o : MemOp) (h : Sheaf) (code : BitVec 16) : State :=
  let free := match s.sheaf? h.uid with | some g => s.freeOut g o.queue | none => 0
  let v : Word := BitVec.ofNat 32 (free * 2 ^ 16 + code.toNat)
  let s1 := s.modFib o.key fun f => match o.dst2 with | some r => f.setReg r v | none => f
  (s1.logRead o none).finishOp o

/-- The commit-log entries of a fibre's accesses before an operation of it: the cover set of a `qpush` (R252, R262). -/
def State.coverSet (s : State) (o : MemOp) : List Nat := (s.log.filter fun e => e.key == o.key && e.op != o.id).map (·.seq)

/-- A `qpush` is offered to its endpoint; a launch record waits for the distributor (LAUNCH_RECORD_ACCEPT). -/
def State.pushOp (s : State) (o : MemOp) : State :=
  match s.sheaf? o.key.sheaf with
  | none => s.finishOp o
  | some h =>
    if s.ctxFrozen h.ctx || !s.laneTurn o || h.bind o.queue == 6 then s
    else
      let (code, s1) := s.offer h o.queue o.unit o.decl (s.coverSet o)
      s1.finishPush o h code

/-- `qpush` for one fibre: the queue-binding trap, then the release at package scope (R165, R219). -/
def qpushRun (decl : Bool) (q : BitVec 4) (a x : Reg) (fsel : BitVec 2) (k : FKey) (s : State) : Act :=
  match s.fib? k, s.sheaf? k.sheaf with
  | some f, some h =>
    let b := h.bind q.toNat
    if b == 0 then .trap (.plain cQueue)
    else
      let (id, s1) := s.fresh
      let o : MemOp := { MemOp.blank id s f .qpush .b32 with
        ord := .rel, sc := .pkg, queue := q.toNat, decl, unit := BitVec.ofNat 512 (f.block a (pushBlock b)), dst2 := some x,
        flags := f.selected fsel, released := false }
      releasing k .pkg id (.push id) (fun s => .next (s.freeRelease id)) (s1.addOp o)
  | _, _ => .next s

/-- `qpush` (R219). -/
def execQpush (h : Hdr) (decl : Bool) (q : BitVec 4) (a x : Reg) (s : State) : Outc :=
  warpExec (.qpush h decl q a x) (qpushRun decl q a x h.fsel) s

/-! ## `qpop` (R221, R231, R394, R395) -/

/-- S of a pop that found nothing. -/
def popEmpty : Word := 0x80000000

/-- A pop completes: the block receives the entry, and S the entries left. -/
def State.finishPop (s : State) (o : MemOp) (e : Option (BitVec 512)) (left : Nat) : State :=
  let s1 := s.modFib o.key fun f =>
    let f1 := match e, o.dst with
      | some v, some d => f.setBlock d (o.size / 4) v.toNat
      | _, _ => f
    match o.dst2 with
    | some r => f1.setReg r (if e.isSome then BitVec.ofNat 32 left else popEmpty)
    | none => f1
  (s1.logRead o none).finishOp o

/-- ENTRY of a service entry (R394). -/
def svcKind (e : BitVec 256) : Nat := bitsOf e 61 3

/-- What a pop of a service entry loads into the popping fibre (R231, R394). -/
def Fibre.loadRecord (f : Fibre) (e : BitVec 256) : Fibre :=
  if svcKind e == 0 then f
  else
    let f1 := { f with ksCtx := BitVec.ofNat 24 (bitsOf e 104 24) }
    if svcKind e == 1 then
      { f1 with
        ksEpc := BitVec.ofNat 64 (bitsOf e 192 64), ksEcause := BitVec.ofNat 32 (bitsOf e 0 16 + bitsOf e 16 11 * 2 ^ 16),
        epcWritten := false }
    else f1

/-- A pop of a die's service queue: a body owed to the fibre, or the oldest entry; the bodies behind a header are then owed to
it (R394, R395). -/
def State.popService (s : State) (o : MemOp) (die : Nat) : State :=
  let q := s.svcQ die
  match q.owed.find? fun w => w.1 == o.key && w.2 != [] with
  | some (k, b :: rest) =>
    let s1 := s.setSvcQ { q with owed := (updIf (·.1 == k) (fun w => (w.1, rest)) q.owed).filter (·.2 != []) }
    s1.finishPop o (some (b.bits.setWidth 512)) (s1.svcQ die).taken
  | _ =>
    match q.entries with
    | [] => s.finishPop o none 0
    | e :: rest =>
      let n := if svcKind e.bits == 2 then bitsOf e.bits 96 8 else 0
      let q1 := { q with entries := rest.drop n, owed := if n == 0 then q.owed else q.owed ++ [(o.key, rest.take n)] }
      let s1 := (s.setSvcQ q1).modFib o.key fun f => f.loadRecord e.bits
      s1.finishPop o (some (e.bits.setWidth 512)) (s1.svcQ die).taken

/-- A pop takes the oldest entry of its inbound side (R221, R331, R392). -/
def State.popOp (s : State) (o : MemOp) : State :=
  match s.sheaf? o.key.sheaf with
  | none => s.finishOp o
  | some h =>
    if s.ctxFrozen h.ctx || !s.laneTurn o then s
    else
      match h.bind o.queue with
      | 3 => match s.ctx? h.ctx with
        | none => s.finishPop o none 0
        | some c => match c.mail0.h2d with
          | [] => s.finishPop o none 0
          | e :: l => (s.modMail h.ctx 0 fun m => { m with h2d := l }).finishPop o (some e) l.length
      | 4 => s.finishPop o none 0
      | 5 => s.popService o (coreDie h.core)
      | _ => match h.queues[o.queue]? with
        | none => s.finishPop o none 0
        | some r => match r.inb with
          | [] => s.finishPop o none 0
          | e :: l =>
            let s1 := (s.modQueue h.uid o.queue fun r => { r with inb := l }).refill h.uid o.queue
            let left := match (s1.sheaf? h.uid).bind fun g => g.queues[o.queue]? with | some r => r.inb.length | none => 0
            s1.finishPop o (some e) left

/-- `qpop` for one fibre. -/
def qpopRun (d : Reg) (q : BitVec 4) (x : Reg) (fsel : BitVec 2) (k : FKey) (s : State) : Act :=
  match s.fib? k, s.sheaf? k.sheaf with
  | some f, some h =>
    let b := h.bind q.toNat
    if b == 0 then .trap (.plain cQueue)
    else
      let (id, s1) := s.fresh
      .next (s1.addOp { MemOp.blank id s f .qpop .b32 with
        sc := .pkg, queue := q.toNat, size := 4 * popBlock b, dst := some d, dst2 := some x, flags := f.selected fsel })
  | _, _ => .next s

/-- `qpop` (R221). -/
def execQpop (h : Hdr) (d : Reg) (q : BitVec 4) (x : Reg) (s : State) : Outc := warpExec (.qpop h d q x) (qpopRun d q x h.fsel) s

/-! ## `qstat` (R222) -/

/-- Entries waiting in the inbound side. -/
def State.inWaiting (s : State) (h : Sheaf) (q : Nat) : Nat :=
  match h.bind q with
  | 3 | 4 => match s.ctx? h.ctx with | some c => (c.mail (h.bind q - 3)).h2d.length | none => 0
  | 5 => (s.svcQ (coreDie h.core)).taken
  | _ => match h.queues[q]? with | some r => r.inb.length | none => 0

/-- `qstat` (R222). -/
def execQstat (h : Hdr) (d : Reg) (q : BitVec 4) (s : State) : Outc :=
  warpExec (.qstat h d q) (fun k s =>
    match s.sheaf? k.sheaf with
    | none => .next s
    | some g =>
      if g.bind q.toNat == 0 then .trap (.plain cQueue)
      else .next (s.modFib k fun f =>
        f.setReg d (BitVec.ofNat 32 (s.freeOut g q.toNat * 2 ^ 16 + s.inWaiting g q.toNat % 2 ^ 16)))) s

/-! ## Completions -/

/-- LONG_LATENCY_COMPLETE: an outstanding operation that may be performed is performed (R61, R62, R155, R219, R221)
(DESIGN CHOICE; log 70). -/
def execLongLatencyComplete (op : Nat) (s : State) : Outc :=
  match s.op? op with
  | none => .next s
  | some o =>
    if !s.opReady o then .next s
    else
      match o.kind with
      | .qpush => .next (s.pushOp o)
      | .qpop => .next (s.popOp o)
      | _ => .next (s.performOp o)

/-- The violation that a fibre's release has come to wait on, if any (R314). -/
def State.releaseViolation (s : State) (k : FKey) : Option Violation :=
  (s.chk.ivals.filterMap (·.violated)).find? fun v => s.touched v k

/-- A fibre goes on after the instruction at which it was held. -/
def State.goOn (s : State) (k : FKey) : State := s.modFib k fun f => { f.advance with cond := .unbatched }

/-- What a release does once its conditions hold (R141, R165, R205, R217, R219, R230). -/
def State.releaseAct (s : State) (f : Fibre) (act : RelAct) : State :=
  match act with
  | .fence _ => (s.logDone f.key).goOn f.key
  | .access op | .push op => (s.freeRelease op).goOn f.key
  | .arrive n bytes swap d =>
    match arriveAct f.key n bytes swap d s with
    | .next s1 => s1.goOn f.key
    | .trap t => (s.dropRelease f.key act).takeTrap f.key t f.pc
    | _ => s
  | .svc id => (s.batchReleased id f.key).setCond f.key (.held (.svc id))
  | .sbar j => s.sbarReached f.key j
  | .spawn j => (s.startSpawned f.key.sheaf j).goOn f.key

/-- RELEASE_COMPLETE: a fibre held at a release, whose conditions hold, performs its act and goes on; one that waits on a
violated interval raises the containment trap (R27, R141, R165, R312, R314, R316). -/
def execReleaseComplete (u fid : Nat) (s : State) : Outc :=
  match s.fib? ⟨u, fid⟩ with
  | none => .next s
  | some f =>
    match f.cond with
    | .held (.release sc act _) =>
      let stuck := match s.ctx? (s.ctxOf f.key) with | some c => c.discarded.any (·.1 == f.key) | none => false
      if stuck || !s.standing u then .next s
      else
        match s.releaseViolation f.key with
        | some v => .next (s.contain v f sc act)
        | none =>
          let met := match act with
            | .fence kind => s.fenceMet f.key kind sc
            | _ => s.releaseMet f.key sc (act.op?.getD 0)
          .next (if met then s.releaseAct f act else s)
    | _ => .next s

end Sys2Proof.Machine
end

