-- ==== Sys2Proof/Machine/Preempt.lean ====
section
/-! DEFINITION. Contexts on a partition: slices and the waiting budget (R345–R347), the halt and the swap stores (R348–R354). An image is not copied: a saved sheaf's registers, scratchpad and control state stay in the
fields that hold them live, so that a landing in the image (R350) is a landing in them (log 30). -/

namespace Sys2Proof.Machine

/-! ## The halt (R348) -/

/-- A fibre has stopped: it stands at a clause boundary, waits or is held, or its core is fenced (R319, R348). -/
def State.fibreQuiet (s : State) (f : Fibre) : Bool :=
  (s.coreSt f.core).fenced || match f.cond with
    | .batched _ | .unbatched => f.clause == none
    | .waiting _ | .held _ | .ended => true

/-- An access to host memory that holds its fibre, or follows one that does, until a Page Request of its page is answered: it is saved as
held (R172, R293, R348); a plain store or reduction goes to the side log (R173). -/
def State.heldAtPage (s : State) (o : MemOp) : Bool :=
  !o.sideable && match o.loc with | .host pasid iova => s.pageOut pasid (iova / 4096) | _ => false

/-- A context has halted: its fibres have stopped, and its issued operations are complete, but for those held at a release or a page,
which are saved as held; a frozen context's offers to endpoints stay as they are (R45, R348). -/
def State.ctxQuiet (s : State) (ctx : Nat) : Bool :=
  let mine (u : Nat) : Bool := match s.sheaf? u with | some h => h.ctx == ctx && !h.saved | none => false
  s.fibres.all (fun f => !mine f.key.sheaf || s.fibreQuiet f)
    && s.ops.all fun o => !mine o.key.sheaf || !o.released || s.heldAtPage o
        || ((o.kind == .qpush || o.kind == .qpop) && s.ctxFrozen ctx)

/-- A context's sheafs are saved: the bytes of their banks go with them, its fibres leave their warps, its matrix operations are
stopped; what they leave free on their cores is refilled (R200, R339, R349). -/
def State.saveSheafs (s0 : State) (ctx : Nat) : State :=
  let mine (u : Nat) : Bool := match s0.sheaf? u with | some h => h.ctx == ctx && !h.saved | none => false
  let s := (s0.sheafs.filter fun h => h.ctx == ctx && !h.saved).foldl State.imageOut s0
  { s with
    sheafs := updIf (fun h => h.ctx == ctx && !h.saved) (fun h => { h with saved := true, savedAt := s.time }) s.sheafs
    fibres := updIf (fun f => mine f.key.sheaf) (fun f => match f.cond with | .batched _ => { f with cond := .unbatched } | _ => f) s.fibres
    warps := (s.warps.map fun w => { w with members := w.members.filter fun k => !mine k.sheaf }).filter (·.members != [])
    refills := nub (s.refills ++ (s.sheafs.filter fun h => h.ctx == ctx && !h.saved).map (·.core))
    matq := updIf (fun m => mine m.sheaf) (fun m => { m with stopped := true, started := false, claimed := false, bbuf := none, pbuf := [] }) s.matq }

/-- A saved sheaf can be restored: neither its core nor that of another sheaf of its stook is lost (R35, R319). -/
def State.restorable (s : State) (h : Sheaf) : Bool :=
  !(s.coreSt h.core).lost && (s.stookOf h).all fun g => !(s.coreSt g.core).lost

/-- The time for which a fibre has waited at a release does not count while it is saved (R316). -/
def Fibre.heldSince (f : Fibre) (away : Nat) : Fibre :=
  match f.cond with
  | .held (.release sc act since) => { f with cond := .held (.release sc act (since + away)) }
  | _ => f

/-- A moment from which R313 counts, moved by the time for which a sheaf was saved; one that fell into that time becomes the present
(R316). -/
def State.sinceBack (s : State) (t away : Nat) : Nat := min (t + away) s.time

/-- A context's sheafs are restored where they stood, with the bytes of their banks; sleepers wake; the time in which they were saved
counts for no clearance (R214, R316, R349, R350). -/
def State.restoreSheafs (s0 : State) (ctx : Nat) : State :=
  let hs := s0.sheafs.filter fun h => h.ctx == ctx && h.saved && s0.restorable h
  let back := hs.map (·.uid)
  let away (u : Nat) : Nat := match hs.find? (·.uid == u) with | some h => s0.time - h.savedAt | none => 0
  let s := hs.foldl State.imageIn s0
  { s with
    sheafs := updIf (fun h => back.contains h.uid) (fun h => { h with saved := false }) s.sheafs
    fibres := updIf (fun f => back.contains f.key.sheaf) (fun f =>
      (if f.cond == .waiting .mwait then f.wake else f).heldSince (away f.key.sheaf)) s.fibres
    matq := updIf (fun m => back.contains m.sheaf) (fun m => { m with stopped := false }) s.matq
    log := updIf (fun e => back.contains e.key.sheaf) (fun e => { e with since := s.sinceBack e.since (away e.key.sheaf) }) s.log
    owed := updIf (fun w => back.contains w.key.sheaf) (fun w => { w with since := s.sinceBack w.since (away w.key.sheaf) }) s.owed
    refills := nub (s.refills ++ hs.map (·.core)) }

/-- A new slice begins: what was written to ks.tslice and ks.wbudget takes effect (R42, R345, R346). -/
def State.newSlice (s : State) (ctx : Nat) : State :=
  s.modCtx ctx fun c => { c with
    sliceStart := s.time, sliceLen := 1000 * c.tslice.toNat, budget := 1000 * c.wbudget.toNat, charge := [] }

/-- The incoming context becomes resident (R353, R354). -/
def State.enter (s : State) (n : Nat) : State :=
  match s.part? n with
  | none => s
  | some p =>
    let s1 := s.modPart n fun p => { p with resident := p.incoming, incoming := none, halting := false }
    match p.incoming with
    | some c => ((s1.restoreSheafs c).newSlice c).retarget n
    | none => s1.retarget n

/-- The exchange is ordered on every core: a staged store takes part, and an empty one where nothing comes in or the core has an
image to save (R353, R354). -/
def State.exchange (s : State) (p : Part) (out : Option Nat) : State :=
  let s1 := match out with | some r => s.saveSheafs r | none => s
  let leaves (c : Nat) : Bool := match out with | some r => p.incoming.isNone || s1.hasImage r c | none => false
  let moved := p.cores.filter fun c => (s1.coreSt c).swap == .staged || leaves c
  let s2 := s1.modPart p.num fun p => { p with resident := none }
  if moved == [] then s2.enter p.num
  else moved.foldl (fun s c => s.setCore { s.coreSt c with swap := .exchanging, outgoing := out }) s2

/-- PARTITION_HALTED: every core has halted, its store staged or empty, and the exchange is ordered (R348, R353, R354). A
partition with no resident context is halted. -/
def execPartitionHalted (n : Nat) (s : State) : Outc :=
  match s.part? n with
  | none => .next s
  | some p =>
    let busy := p.cores.any fun c => (s.coreSt c).swap == .staging || (s.coreSt c).swap == .spilling || (s.coreSt c).swap == .exchanging
    let staged := match p.incoming with
      | some i => p.cores.all fun c => !s.hasImage i c || ((s.coreSt c).swap == .staged && (s.coreSt c).swapCtx == some i)
      | none => true
    if busy || !staged then .next s
    else
      match p.resident with
      | some r => .next (if p.halting && s.ctxQuiet r then s.exchange p (some r) else s)
      | none => .next (if p.incoming.isSome then s.exchange p none else s)

/-- The partition a core belongs to. -/
def State.partOf (s : State) (core : Nat) : Option Part := s.parts.find? fun p => p.cores.contains core

/-- EXCHANGE_COMPLETE: the store holds the outgoing image; after the last core the incoming context issues (R353, R354). -/
def execExchangeComplete (core : Nat) (s : State) : Outc :=
  let k := s.coreSt core
  if k.swap != .exchanging then .next s
  else
    let s1 := s.setCore { k with swap := .spilling, swapCtx := none }
    match s1.partOf core with
    | none => .next s1
    | some p => .next (if s1.exchanging p then s1 else s1.enter p.num)

/-- The image of a context on a core is written to its save area, in a layout that is not architectural: the bytes there are open
from now on (R352; log 78). Each image lies 1 MiB after the one before it, in the order of the cores of the partition as it
was made. -/
def State.spillImage (s : State) (ctx core : Nat) : State :=
  match s.ctx? ctx with
  | none => s
  | some c =>
    let j := ((s.madeCores c).filter (· < core)).length
    if c.saveBase == 0 || !(s.madeCores c).contains core then s else s.deviceArea (c.saveBase + j * 2 ^ 20) (2 ^ 20)

/-- SPILL_COMPLETE: the outgoing image lies in the save area (R352, R353). -/
def execSpillComplete (core : Nat) (s : State) : Outc :=
  let k := s.coreSt core
  if k.swap != .spilling then .next s
  else
    let s0 := match k.outgoing with | some c => s.spillImage c core | none => s
    let s1 := s0.setCore { k with swap := .empty, outgoing := none }
    match s1.partOf core with | some p => .next (s1.retarget p.num) | none => .next s1

/-- The save area of a context holds an image of a core in these lines (R352). -/
def State.imageLines (s : State) (ctx core : Nat) : List Nat :=
  match s.ctx? ctx with
  | none => []
  | some c =>
    if c.saveBase == 0 || !(s.madeCores c).contains core then []
    else (List.range 8192).map fun i => c.saveBase / 128 + ((s.madeCores c).filter (· < core)).length * 8192 + i

/-- Something else has been written to a saved image since its spill (R352). -/
def State.imageChanged (s : State) (lines : List Nat) : Bool :=
  s.areas.any (fun a => lines.head? == some (a.base / 128) && a.written != [])
    || s.coh.l2.any (fun c => lines.contains c.line && (c.st == .m || c.st == .o))
    || s.coh.llc.any fun c => lines.contains c.line && c.dirty

/-- A fibre's registers and residues are open. -/
def Fibre.opened (seed : Nat) (f : Fibre) : Fibre :=
  let v (i : Nat) : BitVec 64 := (Config.freeBits (2 ^ 64 * (seed + 1) + 2 ^ 32 * (f.key.fid + 1) + i)).setWidth 64
  { f with regs := f.regs.zipIdx.map fun x => (v x.2).setWidth 32, residues := f.residues.zipIdx.map fun x => v (2 ^ 16 + x.2) }

/-- The image of a context on a core is read back from its save area. Where something else was written into it, the bytes of its banks,
its registers and residues are open, for the layout is not architectural; where a line of it is poisoned, which units of its
banks hold that poison is open (R176, R352; log 78). -/
def State.readImage (s0 : State) (ctx core : Nat) : State :=
  let lines := s0.imageLines ctx core
  let hs := s0.sheafs.filter fun h => h.ctx == ctx && h.core == core && h.saved
  let mine (u : Nat) : Bool := hs.any (·.uid == u)
  let s1 : State := if !s0.imageChanged lines then s0 else
    { s0 with
      free := s0.free + 1
      sheafs := updIf (fun h => mine h.uid) (fun h => { h with
        free0 := some { seed := s0.free, written := [] }, free1 := some { seed := s0.free, written := [] } }) s0.sheafs
      fibres := updIf (fun f => mine f.key.sheaf) (Fibre.opened s0.free) s0.fibres }
  if !lines.any s1.poisoned then s1
  else
    let seed := s1.free
    hs.foldl (fun s h => (List.range (512 * h.granules)).foldl (fun s i =>
      let v := Config.freeBits (2 ^ 64 * (seed + 1) + i)
      let spoil (s : State) (bank : Bool) : State := match s.keyOf (.scratch h.uid bank (8 * i)) with
        | some k => s.addPoison (poisonUnit k)
        | none => s
      let s1 := if v.getLsbD 0 then spoil s h.bank else s
      if h.stook != 0 && v.getLsbD 1 then spoil s1 (!h.bank) else s1) s) { s1 with free := seed + 1 }

/-- FILL_COMPLETE: the incoming image has been read from the save area and lies in the store (R352, R353). -/
def execFillComplete (core : Nat) (s : State) : Outc :=
  let k := s.coreSt core
  if k.swap != .staging then .next s
  else
    let s1 := match k.swapCtx with | some c => s.readImage c core | none => s
    .next (s1.setCore { k with swap := .staged })

/-! ## Slices and the waiting budget (R345–R347) -/

/-- TIME_SLICE_EXPIRY (R345). -/
def execTimeSliceExpiry (n : Nat) (s : State) : Outc :=
  match s.part? n with
  | none => .next s
  | some p => match p.resident.bind s.ctx? with
    | none => .next s
    | some c =>
      if c.sliceLen == 0 || s.time < c.sliceStart + c.sliceLen || p.halting then .next s
      else
        match s.runHead p with
        | some h => .next (if s.ctxPrio c.id ≤ s.ctxPrio h then s.preempt n else s.newSlice c.id)
        | none => .next (s.newSlice c.id)

/-- Every live fibre of a context on a core is in `bwait` or `mwait`, and there is one (R346). -/
def State.allWait (s : State) (ctx core : Nat) : Bool :=
  let fs := s.fibres.filter fun f => f.core == core && s.ctxOf f.key == ctx
  fs != [] && fs.all fun f => match f.cond with | .waiting (.bwait _ _) | .waiting .mwait => true | _ => false

/-- Nanoseconds pass: sr.time counts, and on each core the resident context's waiting is counted (R39, R346). -/
def State.tick (s : State) (dt : Nat) : State :=
  let charged := s.parts.foldl (fun s p => match p.resident with
    | none => s
    | some r => p.cores.foldl (fun s c =>
        if s.allWait r c then
          s.modCtx r fun x => { x with
            charge := if x.charge.any (·.1 == c) then updIf (·.1 == c) (fun y => (y.1, y.2 + dt)) x.charge else x.charge ++ [(c, dt)] }
        else s) s) s
  { charged with time := s.time + dt }

/-- The waiting charge: the largest count over the cores (R346). -/
def Ctx.waitCharge (c : Ctx) : Nat := c.charge.foldl (fun m x => max m x.2) 0

/-- A snapshot entry of a fibre that waits or is held at a set instruction (R347). -/
def State.snapEntry (s : State) (f : Fibre) : Option (BitVec 256) :=
  let own : List (Nat × Nat) := [((s.launchId f.key).toNat, 64), (coreDie f.core, 48), (coreInDie f.core, 40), (f.slot, 16), (f.key.fid, 0)]
  match f.cond with
  | .waiting (.bwait n ph) =>
    let b := match s.bar? f.key.sheaf n with | some b => b.bits.toNat | none => 0
    some (packBits 256 ([(b, 128), (ph.toNat, 96), (1, 61), (n, 57)] ++ own))
  | .waiting .mwait =>
    let obj := match f.monitor with
      | some ⟨.line _ cap, _⟩ => cap.toNat
      | some ⟨.queue q, _⟩ => 2 ^ 64 + q
      | none => 0
    some (packBits 256 ([(obj, 128), (2, 61)] ++ own))
  | .held (.set j) | .held (.release _ (.sbar j) _) => some (packBits 256 ([(3, 61), (j, 51)] ++ own))
  | _ => none

/-- The snapshot of a context's synchronisation state goes to its snapshot area, its header to the host (R346, R347)
(DEDUCED; log 66). -/
def State.snapshot (s : State) (c : Ctx) : State :=
  let fs := sortBy (fun (f : Fibre) => f.core * 2048 + f.slot) (s.fibres.filter fun f => s.ctxOf f.key == c.id)
  let es := fs.filterMap s.snapEntry
  let hdr : BitVec 512 := packBits 512 [(s.time, 448), (c.waitCharge, 384), (es.length, 352), ((c.snapSeq + 1) % 2 ^ 32, 320), (c.id, 296), (0x0020, 0)]
  let s1 := s.modCtx c.id fun c => { c with snapSeq := c.snapSeq + 1 }
  (s1.areaWrite c (s.snapBase c) (leBytes 64 hdr.toNat ++ (es.take 2046).flatMap fun e => leBytes 32 e.toNat)).notice 3 c.id hdr

/-- WAITING_BUDGET_EXHAUSTED (R346). -/
def execWaitingBudgetExhausted (n : Nat) (s : State) : Outc :=
  match s.part? n with
  | none => .next s
  | some p => match p.resident.bind s.ctx? with
    | none => .next s
    | some c =>
      if c.budget == 0 || c.waitCharge ≤ c.budget || p.halting then .next s else .next ((s.snapshot c).preempt n)

/-! ## Fenced cores (R319, R330) -/

/-- CAPREP (R329). -/
def State.caprep (s : State) : Dword :=
  packBits 64 [(if s.rel.replreq then 1 else 0, 63), (s.rel.qmask.toNat, 48), (s.rel.lostCount % 2 ^ 16, 24),
    ((s.rel.spares.zipIdx.map fun x => x.1 * 2 ^ (3 * x.2)).foldl (· + ·) 0, 0)]

/-- REPLREQ is set and the host is told (R330, R404). -/
def State.replacement (s : State) : State :=
  let s1 : State := { s with rel := { s.rel with replreq := true } }
  s1.notice 5 0 (s1.caprep.setWidth 512)

/-- A core index is lost: the contexts of its sheafs enter the faulted state (R319, R330, R400). -/
def State.loseCore (s : State) (core : Nat) : State :=
  let ctxs := nub ((s.sheafs.filter (·.core == core)).map (·.ctx))
  let s1 := s.setCore { s.coreSt core with lost := true, swap := .empty, swapCtx := none, outgoing := none }
  let s2 : State := { s1 with
    parts := s1.parts.map fun p => { p with cores := p.cores.filter (· != core) }
    rel := { s1.rel with lostCount := s1.rel.lostCount + 1 } }
  (ctxs.foldl (fun s c => s.faultCtx c core 0 0 0 0 0x0181) s2).replacement

/-- SPARE_REMAP: once the fenced core's sheafs are saved, a spare takes its index, or the index is lost (R319). -/
def execSpareRemap (core : Nat) (s : State) : Outc :=
  let k := s.coreSt core
  let die := coreDie core
  if !k.fenced || k.lost || 1536 ≤ core || k.swap == .exchanging || s.sheafs.any (fun h => h.core == core && !h.saved) then .next s
  else
    match s.rel.spares[die]? with
    | some (x + 1) =>
      let s1 := s.setCore { k with fenced := false }
      .next { s1 with rel := { s1.rel with spares := s1.rel.spares.set die x }, refills := nub (s1.refills ++ [core]) }
    | _ => .next (s.loseCore core)

end Sys2Proof.Machine
end

