-- ==== Sys2Proof/Machine/Place.lean ====
section
/-! DEFINITION. The distributor: acceptance of launch records (R331–R333), what a sheaf demands of a core and where it fits
(R335–R337), placement and refill (R338–R342), the end of steps and launches (R37, R229, R334), retirement (R24). -/

namespace Sys2Proof.Machine

/-! ## Demands and fits (R335, R336) -/

/-- q_i: the identifiers below a quota that live on quadrant `i`. -/
def quadCount (quota i : Nat) : Nat := (quota + 3 - i) / 4

/-- The free gaps of a range of `cap` units above `pos`, given the used intervals in ascending order: start and length. -/
def gapsFrom (cap : Nat) : Nat → List (Nat × Nat) → List (Nat × Nat)
  | pos, [] => if pos < cap then [(pos, cap - pos)] else []
  | pos, (o, n) :: l => if pos < o then (pos, o - pos) :: gapsFrom cap (o + n) l else gapsFrom cap (max pos (o + n)) l

/-- The free gaps of a range. -/
def gaps (cap : Nat) (used : List (Nat × Nat)) : List (Nat × Nat) := gapsFrom cap 0 (sortBy (·.1) used)

/-- The lowest `n` windows of `g` units that lie in gaps. -/
def windowsIn (g n : Nat) (gs : List (Nat × Nat)) : List Nat :=
  (gs.flatMap fun x => (List.range (x.2 / g)).map fun i => x.1 + i * g).take n

/-- Register windows in use on a quadrant of a core. -/
def usedRegs (here : List Sheaf) (i : Nat) : List (Nat × Nat) :=
  here.flatMap fun h => (List.range h.quota).filterMap fun j => if j % 4 == i then some (h.windows.getD j 0, h.regs) else none

/-- Scratchpad granules in use on a core. -/
def usedGranules (here : List Sheaf) : List (Nat × Nat) :=
  here.flatMap fun h =>
    if h.granules == 0 then []
    else (h.baseLive / 4096, h.granules) :: (if h.stook == 0 then [] else [(h.baseShadow / 4096, h.granules)])

/-- Depths free at the quadrant and lane of the identifiers that are `r` modulo 128. -/
def freeDepths (here : List Sheaf) (r : Nat) : List Nat :=
  let used := here.flatMap fun h => (List.range h.quota).filterMap fun k => if k % 128 == r then some (h.depths.getD k 0) else none
  (List.range 16).filter fun d => !used.contains d

/-- Warp slots that sheafs of a core demand on a quadrant. -/
def usedWarps (here : List Sheaf) (i : Nat) : Nat := (here.map fun h => (quadCount h.quota i + 31) / 32).foldl (· + ·) 0

/-- Where a sheaf goes on a core. -/
structure Plan where
  slot : Nat
  depths : List Nat
  windows : List Nat
  live : Nat
  shadow : Nat
  deriving DecidableEq, Repr

/-- The lowest run of free granules that is long enough. -/
def findRun (n : Nat) (gs : List (Nat × Nat)) : Option Nat := if n == 0 then some 0 else (gs.find? fun x => n ≤ x.2).map (·.1)

/-- Where a sheaf of a kernel goes on a core that holds these sheafs; none where it does not fit (R336). -/
def planOn (here : List Sheaf) (d : Desc) : Option Plan :=
  let wins := (List.range 4).map fun i => windowsIn d.regs (quadCount d.quota i) (gaps 16384 (usedRegs here i))
  let windows := (List.range d.quota).filterMap fun j => (wins.getD (j % 4) [])[j / 4]?
  let depths := (List.range d.quota).filterMap fun j => (freeDepths here (j % 128))[j / 128]?
  let warps := (List.range 4).all fun i => usedWarps here i + (quadCount d.quota i + 31) / 32 ≤ 16
  let used := usedGranules here
  match (List.range 32).find? (fun i => !here.any (·.slot == i)), findRun d.granules (gaps 126 used) with
  | some slot, some live =>
    match (if d.stook == 0 then some 0 else findRun d.granules (gaps 126 ((live, d.granules) :: used))) with
    | some shadow =>
      if windows.length == d.quota && depths.length == d.quota && warps then some { slot, depths, windows, live, shadow } else none
    | none => none
  | _, _ => none

/-! ## The limiting resource (R337) -/

/-- The sheafs that fit on an empty core, by resource, in the order in which ties are decided: registers, fibre slots, warp
slots, scratchpad, sheaf slots. -/
def fitCounts (d : Desc) : List (Nat × Nat) :=
  let q := quadCount d.quota 0
  [(0, 16384 / (q * d.regs)), (1, 16 / ((d.quota + 127) / 128)), (2, 16 / ((q + 31) / 32))]
    ++ (if d.granules == 0 then [] else [(3, 126 / (d.granules * (if d.stook == 0 then 1 else 2)))]) ++ [(4, 32)]

/-- The limiting resource. -/
def limiting (d : Desc) : Nat := match minBy? (·.2) (fitCounts d) with | some x => x.1 | none => 4

/-- The least of some numbers. -/
def least (l : List Nat) : Nat := l.foldl min (2 ^ 20)

/-- A core's free units of a resource, over the quadrants and lanes that the launch uses. -/
def freeUnits (here : List Sheaf) (d : Desc) (r : Nat) : Nat :=
  let quads := (List.range 4).filter fun i => quadCount d.quota i != 0
  let sum (l : List (Nat × Nat)) : Nat := (l.map (·.2)).foldl (· + ·) 0
  match r with
  | 0 => least (quads.map fun i => 16384 - sum (usedRegs here i))
  | 1 => least ((List.range (min d.quota 128)).map fun j => (freeDepths here j).length)
  | 2 => least (quads.map fun i => 16 - usedWarps here i)
  | 3 => 126 - sum (usedGranules here)
  | _ => 32 - here.length

/-! ## Placement (R338, R341, R342) -/

/-- The sheafs that stand on a core. -/
def State.onCore (s : State) (core : Nat) : List Sheaf := s.sheafs.filter fun h => h.core == core && !h.saved

/-- A core is in service (R319). -/
def State.inService (s : State) (core : Nat) : Bool := !(s.coreSt core).fenced && !(s.coreSt core).lost

/-- A core holds a sheaf of another persistent launch (R342). -/
def State.otherPers (s : State) (l : Launch) (core : Nat) : Bool :=
  (s.onCore core).any fun h => h.launch != l.uid && (match s.launch? h.launch with | some m => m.desc.pers | none => false)

/-- The eligible cores of a die: in service, of the partition, no weight-store load under way on the die (R338, R367). -/
def State.eligible (s : State) (p : Part) (die : Nat) : List Nat :=
  if s.rel.qmask.getLsbD die || p.wsHold.any (·.1 == die) then []
  else sortBy id (p.cores.filter fun c => coreDie c == die && s.inService c)

/-- Where a launch's sheaf goes on a core: nowhere where another persistent launch's sheaf stands beside a persistent one's (R336,
R342). -/
def State.fitOn (s : State) (l : Launch) (core : Nat) : Option Plan :=
  if l.desc.pers && s.otherPers l core then none else planOn (s.onCore core) l.desc

/-- Among some cores in ascending order, the one with the most free units of the limiting resource on which a sheaf fits
(R338). -/
def State.bestCore (s : State) (l : Launch) (cores : List Nat) : Option (Nat × Plan) :=
  let r := limiting l.desc
  minBy? (fun (x : Nat × Plan) => 2 ^ 20 - freeUnits (s.onCore x.1) l.desc r)
    (cores.filterMap fun c => (s.fitOn l c).map fun p => (c, p))

/-- Sheaf `i` of a launch's present step is placed, with its initial fibres (R14, R20, R22, R26)
(DESIGN CHOICE; log 5). -/
def State.putSheaf (s : State) (l : Launch) (i : Nat) (c : Nat) (p : Plan) : State :=
  let (u, s1) := s.fresh
  let d := l.desc
  let h : Sheaf :=
    { uid := u, launch := l.uid, index := i, core := c, slot := p.slot, ctx := l.ctx, quota := d.quota, regs := d.regs,
      granules := d.granules, baseLive := 4096 * p.live, baseShadow := 4096 * p.shadow, bank := false, free0 := none, free1 := none
      stook := d.stook, priv := false, saved := false, savedAt := 0, bars := List.replicate 16 Barrier.initial, sets := []
      queues := d.qbind.map fun b => { bind := b, inb := [], inHeld := [], served := 0, stained := [] }
      uiPending := false, depths := p.depths, windows := p.windows }
  let fs := (List.range d.fibres).map fun j =>
    Fibre.initial ⟨u, j⟩ c (p.depths.getD j 0) (p.windows.getD j 0) d.regs (BitVec.ofNat 64 l.start) l.args
  let s2 := s1.clearScratch h
  { s2 with sheafs := s2.sheafs ++ [h], fibres := s2.fibres ++ fs }

/-- One sheaf on the best of some cores. -/
def State.placeSingle (s : State) (l : Launch) (i : Nat) (cores : List Nat) : Option State :=
  (s.bestCore l cores).map fun x => s.putSheaf l i x.1 x.2

/-- `n` sheafs on some cores, one after another. -/
def State.placeRun (l : Launch) (cores : List Nat) : Nat → Nat → State → Option State
  | 0, _, s => some s
  | n + 1, i, s => match s.placeSingle l i cores with
    | some s1 => State.placeRun l cores n (i + 1) s1
    | none => none

/-- A stook group goes whole into the cluster, among those where it fits, with the most free units on its eligible cores
(R341). -/
def State.placeGroup (s : State) (l : Launch) (i : Nat) (clusters pool : List Nat) : Option State :=
  let r := limiting l.desc
  let mine (k : Nat) : List Nat := pool.filter (coreCluster · == k)
  let total (k : Nat) : Nat := ((mine k).map fun c => freeUnits (s.onCore c) l.desc r).foldl (· + ·) 0
  let fits := (sortBy id (nub clusters)).filter fun k => (State.placeRun l (mine k) l.desc.stook i s).isSome
  (minBy? (fun k => 2 ^ 30 - total k) fits).bind fun k => State.placeRun l (mine k) l.desc.stook i s

/-- The next sheaf or group of a launch, on core `only` or its cluster where that is named (R338, R339, R341). -/
def State.placeAt (s : State) (p : Part) (l : Launch) (i : Nat) (only : Option Nat) : Option State :=
  let pool := s.eligible p (l.held.getD (i / l.sheafs) 8)
  let near := match only with | some c => pool.filter (· == c) | none => pool
  if l.desc.stook == 0 then s.placeSingle l i near else s.placeGroup l i (near.map coreCluster) pool

/-- How many sheafs are placed in one act (R341). -/
def Launch.unit (l : Launch) : Nat := max 1 l.desc.stook

/-- Sheafs of a step. -/
def Launch.total (l : Launch) : Nat := l.sheafs * l.held.length

/-- The first index at or after `i` whose die is not quarantined (R342). -/
def State.skipDead (s : State) (l : Launch) : Nat → Nat → Nat
  | 0, i => i
  | n + 1, i =>
    if i < l.total && s.rel.qmask.getLsbD (l.held.getD (i / l.sheafs) 8) then s.skipDead l n ((i / l.sheafs + 1) * l.sheafs) else i

/-- A whole step, one act after another, but for the sheafs of dies quarantined meanwhile. -/
def State.placeWhole (p : Part) (l : Launch) : Nat → Nat → State → Option State
  | 0, _, s => some s
  | n + 1, j, s =>
    let i := s.skipDead l 8 j
    if l.total ≤ i then some s
    else match s.placeAt p l i none with
      | some s1 => State.placeWhole p l n (i + l.unit) s1
      | none => none

/-- One act of placement for a running launch: a sheaf, a group, or a persistent launch's whole step in one pass (R338, R341,
R342). Sheafs of a die quarantined during the step are not placed. -/
def State.placeUnit (s : State) (p : Part) (l : Launch) (only : Option Nat) : Option State :=
  let i := s.skipDead l 8 l.next
  let done (n : Nat) (s : State) : State := s.modLaunch l.uid fun l => { l with next := n }
  if l.total ≤ i then some (done i s)
  else if l.desc.pers then (State.placeWhole p l l.total i s).map (done l.total)
  else (s.placeAt p l i only).map (done (i + l.unit))

/-! ## Steps (R37, R340, R342) -/

/-- A compute die is in service: attested, not quarantined, and not being reset (R330, R407, R410). -/
def State.dieInService (s : State) (d : Nat) : Bool :=
  (match s.boot.chiplets[d]? with | some c => c.st == .active | none => false) && !s.rel.qmask.getLsbD d
    && !s.boot.resets.any (·.die == d)

/-- Dies of a partition that are in service and not withheld (R342). -/
def State.available (s : State) (p : Part) : List Nat :=
  (List.range 8).filter fun d => p.dieMask.testBit d && !p.withhold.getLsbD d && s.dieInService d

/-- A step starts, once enough dies are available; a persistent launch's tables go to the cores of its held dies (R342), and
the read-only caches of those dies are emptied, at the start of a launch the instruction caches with them (R50, R156, R275). -/
def State.startStep (s : State) (p : Part) (l : Launch) : State :=
  let a := s.available p
  if a.length < l.minDies then s
  else
    let held := a.take l.maxDies
    let s1 : State := { s with
      roc := s.roc.filter fun r => !held.contains (coreDie r.core)
      ic := s.ic.filter fun r => l.step != 0 || !held.contains (coreDie r.core) }
    s1.modLaunch l.uid fun l => { l with
      phase := .running, held, next := 0
      scheds := l.scheds.map fun t => { t with core := 192 * held.getD t.rank 16 + t.idx } }

/-- The launches of a context in the order in which they are served (R340). -/
def State.launchOrder (s : State) (ctx : Nat) : List Launch := sortBy (fun (l : Launch) => 3 - l.prio) (s.launches.filter (·.ctx == ctx))

/-- The launch that is served: the first with a step to start or sheafs to place. -/
def State.served (s : State) (ctx : Nat) : Option Launch :=
  (s.launchOrder ctx).find? fun l => l.phase == .starting || l.next < l.total

/-- The context whose launches are placed: resident, not frozen, not about to leave (R344, R348). -/
def State.placing (p : Part) (s : State) : Option Nat :=
  match p.resident with
  | some r => if p.halting || s.ctxFrozen r then none else some r
  | none => none

/-- A launch's completion (R334). -/
def launchEntry (status : BitVec 16) (steps stray : Nat) (id : Word) (ctx : Nat) : BitVec 512 :=
  packBits 512 [(steps % 2 ^ 32, 192), (stray % 2 ^ 32, 160), (id.toNat, 128), (ctx, 104), (status.toNat, 0)]

/-- The completion of a launch is posted where its record came from (R334). -/
def State.postLaunch (s : State) (l : Launch) : State :=
  let e := launchEntry 0 (l.step + 1) l.stray l.id l.ctx
  match l.back with
  | .queue u q => s.postInbound u q e
  | .mailbox => s.mailOut l.ctx 1 e
  | .none => s

/-- Every sheaf of a launch's step has been placed and has retired. -/
def State.stepDone (s : State) (l : Launch) : Bool :=
  l.phase == .running && l.total ≤ l.next && !s.sheafs.any (·.launch == l.uid) && !s.ctxFrozen l.ctx

/-- A step ends: the next begins at the continuation, or the launch ends (R37, R229, R334). -/
def State.endStep (s : State) (l : Launch) : State :=
  match l.cont with
  | some c => s.modLaunch l.uid fun l => { l with phase := .starting, step := l.step + 1, start := c, cont := none, next := 0 }
  | none => ({ s with launches := s.launches.filter (·.uid != l.uid) }).postLaunch l

/-- The steps of a context's launches that are done end. -/
def State.endSteps (s : State) (ctx : Nat) : State :=
  (s.launches.filter (·.ctx == ctx)).foldl (fun s l => if s.stepDone l then s.endStep l else s) s

/-- A core is refilled with the next sheafs of the served launch, as long as each fits (R339). -/
def State.refillCore (p : Part) (uid core : Nat) : Nat → State → State
  | 0, s => s
  | n + 1, s => match s.launch? uid with
    | none => s
    | some l =>
      if l.phase == .starting || l.total ≤ l.next then s
      else match s.placeUnit p l (some core) with
        | some s1 => State.refillCore p uid core n s1
        | none => s

/-- Refills in ascending core index: each core on which resources have been freed takes the next sheafs of the launch that is served
at that moment; a core of a partition that places nothing is refilled when it places again (R339). -/
def State.refillAll (s : State) : State :=
  (sortBy id s.refills).foldl (fun s core => match s.partOf core with
    | none => s
    | some p => match State.placing p s with
      | none => { s with refills := nub (s.refills ++ [core]) }
      | some r => match s.served r with
        | none => s
        | some l => State.refillCore p l.uid core 64 s) { s with refills := [] }

/-- Time passes: what was freed at the moment that ends is refilled first (R339). -/
def State.elapse (s : State) (dt : Nat) : State := (if dt == 0 then s else s.refillAll).tick dt

/-- SHEAF_PLACEMENT: the distributor's turn at a partition: freed cores are refilled, steps that are done end, the scheduler looks at
the run queue, and the served launch starts its step or has its next sheafs placed (R338–R342, R344). -/
def execSheafPlacement (n : Nat) (s0 : State) : Outc :=
  let s := s0.refillAll
  match s.part? n with
  | none => .next s
  | some p =>
    let s1 := (match p.resident with | some r => s.endSteps r | none => s).reschedule n
    match s1.part? n with
    | none => .next s1
    | some p1 => match State.placing p1 s1 with
      | none => .next s1
      | some r => match s1.served r with
        | none => .next s1
        | some l => .next (if l.phase == .starting then s1.startStep p1 l else (s1.placeUnit p1 l none).getD s1)

/-! ## Retirement (R24, R37) -/

/-- An interval of a line is violated. -/
def State.violatedAt (s : State) (line : Nat) (n : BitVec 32) : Bool := (s.ival? line n).any (·.violated.isSome)

/-- A fibre's accesses are visible as a release at package scope makes them; one that waits on a violated interval never is
(R37, R314; log 32). -/
def State.settledAt (s : State) (e : Access) : Bool :=
  e.metAt .pkg && e.checked && (s.entryCleared e || e.interval.any (s.violatedAt e.line))

/-- A sheaf may retire: no fibre lives, no command or launch issued through its queue registers is outstanding, and what its
fibres did is performed (R24, R37, R334). -/
def State.mayRetire (s : State) (u : Nat) : Bool :=
  !s.fibres.any (·.key.sheaf == u) && !s.cmds.any (·.sheaf == u) && !s.ops.any (·.key.sheaf == u) && !s.side.any (·.op.key.sheaf == u)
    && !s.launches.any (fun l => match l.back with | .queue v _ => v == u | .mailbox | .none => false)
    && (s.log.all fun e => e.key.sheaf != u || s.settledAt e)
    && s.owed.all fun w => w.key.sheaf != u || s.ivalCleared w.line w.interval || s.violatedAt w.line w.interval

/-- SHEAF_RETIRE: a sheaf's resources are released at once, its matrix operations end, its step may end, and its core is to be
refilled: with the others freed at the same moment, in ascending core index (R24, R196, R339). -/
def execSheafRetire (u : Nat) (s : State) : Outc :=
  match s.sheaf? u with
  | none => .next s
  | some h =>
    if !s.mayRetire u then .next s
    else
      let s1 : State := { s with
        sheafs := s.sheafs.filter (·.uid != u), matq := s.matq.filter (·.sheaf != u), log := s.log.filter (·.key.sheaf != u)
        owed := s.owed.filter (·.key.sheaf != u), refills := if h.saved then s.refills else nub (s.refills ++ [h.core]) }
      .next (s1.endSteps h.ctx)

/-! ## Launch records (R331–R333) -/

/-- A kernel descriptor from its 512 bits. -/
def Desc.ofNat (v : Nat) : Desc :=
  let f (lo n : Nat) : Nat := v / 2 ^ lo % 2 ^ n
  { qbind := (List.range 16).map fun i => f (128 + 4 * i) 4, pers := f 111 1 == 1, stook := f 104 7, granules := f 97 7,
    regs := f 88 9, quota := f 76 12, fibres := f 64 12, entry := f 0 64 }

/-- The limits of R331. -/
def descOk (v len : Nat) : Bool :=
  let d := Desc.ofNat v
  v / 2 ^ 192 == 0 && v / 2 ^ 112 % 2 ^ 16 == 0 && d.qbind.all (· ≤ 6) && (d.stook == 0 || (2 ≤ d.stook && d.stook ≤ 64))
    && d.granules ≤ (if d.stook == 0 then 126 else 63) && d.regs % 8 == 0 && 8 ≤ d.regs && d.regs ≤ 256
    && 1 ≤ d.quota && d.quota ≤ 2048 && 1 ≤ d.fibres && d.fibres ≤ d.quota && d.entry % 8 == 0 && d.entry < len

/-- A launch record's fields (R332). -/
structure Record where
  sheafs : Nat
  table : Dword
  args : Dword
  desc : Dword
  id : Word
  prio : Nat
  maxDies : Nat
  minDies : Nat
  bad : Bool
  deriving DecidableEq, Repr

/-- A launch record from its 64 bytes; `bad` is a reserved field or KIND. -/
def Record.ofBits (b : BitVec 512) : Record :=
  let f (lo n : Nat) : Nat := bitsOf b lo n
  { sheafs := f 256 16, table := BitVec.ofNat 64 (f 192 64), args := BitVec.ofNat 64 (f 128 64), desc := BitVec.ofNat 64 (f 64 64),
    id := BitVec.ofNat 32 (f 32 32), prio := f 22 2, maxDies := f 18 4, minDies := f 14 4,
    bad := f 0 7 != 1 || f 7 7 != 0 || f 24 8 != 0 || f 272 240 != 0 }

/-- What comes of a check that may have to read: a status, or a value with the state that the reads left. -/
inductive Checked (α : Type) where
  | ok (a : α) (s : State)
  | wait (on : Option XWait) (s : State)
  | status (code : BitVec 16)

/-- A read of stage 3 in the name of a context: it waits, fails or gives the bytes and their places (R291, R333). -/
def State.readRecord (s : State) (core ctx : Nat) (w : Window) (off n : Nat) : Checked (List Byte × List (Loc × Nat)) :=
  match State.locate core ctx w false .engine 0 false (piecesOf (w.base + off) n) s with
  | (.fail, _) => .status 0x000E
  | (.wait on, s1) => .wait (some on) s1
  | (.pend, s1) => .wait none s1
  | (.at ps lines, s1) => match s1.readAt core w.root.cls ps lines with
    | (.ok bs _, s2) => .ok (bs, ps) s2
    | (.wait on, s2) => .wait (some on) s2
    | (.pend, s2) => .wait none s2
    | (.fail, _) => .status 0x000E
    | (.poison _, _) => .status 0x000C

/-- The place of byte `i` of translated pieces. -/
def locAt : List (Loc × Nat) → Nat → Loc
  | [], _ => .unbacked
  | (l, n) :: ps, i => if i < n then l.add i else locAt ps (i - n)

/-- The words of some bytes, each with its place. -/
def wordsOf (bs : List Byte) (ps : List (Loc × Nat)) : List (Word × Loc) :=
  (List.range (bs.length / 4)).map fun i => (BitVec.ofNat 32 (leNat ((bs.drop (4 * i)).take 4)), locAt ps (4 * i))

/-- The schedule tables named by the directory entries from number `e` on (R38, R342). -/
def State.readTables (core ctx : Nat) (w : Window) : Nat → List Dword → State → Checked (List Sched)
  | _, [], s => .ok [] s
  | e, x :: l, s =>
    let count := x.toNat / 2 ^ 32
    let off := 4 * (x.toNat % 2 ^ 32)
    if count == 0 || 65536 < count || w.len < off + 4 * count then .status 0x0002
    else match s.readRecord core ctx w off (4 * count) with
      | .status c => .status c
      | .wait on s1 => .wait on s1
      | .ok (bs, ps) s1 =>
        let tiles := wordsOf bs ps
        if tiles.any (·.1 == 0xFFFFFFFF#32) then .status 0x0002
        else match State.readTables core ctx w (e + 1) l s1 with
          | .ok ts s2 => .ok ({ rank := e / 192, idx := e % 192, core := 2048, tiles, cursor := 0 } :: ts) s2
          | r => r

/-- A persistent launch's schedule tables: the directory at the object's start, then each table. -/
def State.readSchedules (s : State) (core ctx dies : Nat) (w : Window) : Checked (List Sched) :=
  match s.readRecord core ctx w 0 (8 * 192 * dies) with
  | .status c => .status c
  | .wait on s1 => .wait on s1
  | .ok (bs, _) s1 =>
    State.readTables core ctx w 0 ((List.range (192 * dies)).map fun i => BitVec.ofNat 64 (leNat ((bs.drop (8 * i)).take 8))) s1

/-- One sheaf fits on an empty core, or a stook on an empty cluster of the partition's eligible cores (R333, R336, R341). -/
def State.fitsEmpty (s : State) (p : Part) (d : Desc) : Bool :=
  (planOn [] d).isSome
    && (d.stook == 0 ||
      let each := least ((fitCounts d).map (·.2))
      let cores := p.cores.filter fun c => s.inService c && !s.rel.qmask.getLsbD (coreDie c)
      (nub (cores.map coreCluster)).any fun k => d.stook ≤ each * (cores.filter (coreCluster · == k)).length)

/-- Code bytes by offset, those that are 0 left out. -/
def codeCells (bs : List Byte) : List Host.Cell := bs.zipIdx.filterMap fun x => if x.1 == 0 then none else some (x.2, x.1)

/-- Where the pieces of a code object lie, by offset. -/
def codePieces : Nat → List (Loc × Nat) → List (Nat × Nat × Loc)
  | _, [] => []
  | o, (l, n) :: ps => (o, n, l) :: codePieces (o + n) ps

/-- Where a byte of a code object lies when its launch begins; nowhere where its translation is not at hand (R50; log 64). -/
def State.codePlace (s : State) (ctx : Nat) (root : Entry) (o : Nat) : Loc :=
  match s.lookup ctx root o false with
  | .at (.host pasid iova) _ => match s.atc? pasid iova false with
    | some a => .hostPa (a.host + (iova - a.base))
    | none => .unbacked
  | .at loc _ => loc
  | .missing _ _ | .failed _ | .bad => .unbacked

/-- Stage 1 of R333. -/
def recordOk (r : Record) (p : Part) : Bool :=
  !r.bad && 1 ≤ r.sheafs && 1 ≤ r.minDies && r.minDies ≤ r.maxDies && r.maxDies ≤ 8
    && r.minDies ≤ ((List.range 8).filter p.dieMask.testBit).length

/-- The descriptor and the table (R333, stage 3); the code object is what fetch reads, as it stands now (R50). The bytes of the table's
directory are read, and bounded, only for a persistent launch (R220, R342; log 64). -/
def State.checkKernel (s : State) (core : Nat) (c : Ctx) (p : Part) (r : Record) (code : Window) (table : Option Window)
    (back : LaunchBack) : Checked Launch :=
  match s.readRecord core c.id code (capOffset r.desc) 64 with
  | .status x => .status x
  | .wait on s1 => .wait on s1
  | .ok (bs, _) s1 =>
    let v := leNat bs
    let d := Desc.ofNat v
    if d.pers && table.any fun w => w.len < 8 * 192 * r.maxDies then .status 0x0014
    else if !descOk v code.len || (d.stook != 0 && r.sheafs % d.stook != 0) || (d.pers && (r.minDies != r.maxDies || table.isNone)) then
      .status 0x0002
    else
      let tables : Checked (List Sched) := match d.pers, table with
        | true, some w => s1.readSchedules core c.id r.maxDies w
        | _, _ => .ok [] s1
      match tables with
      | .status x => .status x
      | .wait on s2 => .wait on s2
      | .ok scheds s2 =>
        if (!d.pers && r.table != 0) || !s2.fitsEmpty p d then .status 0x0002
        else if c.id != 0xFFFFFF && d.qbind.any (· == 5) then .status 0x0003
        else
          let ps := (piecesOf code.base code.len).map fun x => (s2.codePlace c.id code.root x.1, x.2)
          let (uid, s3) := s2.fresh
          .ok { uid, ctx := c.id, part := p.num, id := r.id, prio := r.prio, minDies := r.minDies, maxDies := r.maxDies,
                sheafs := r.sheafs, desc := d, args := r.args, table := r.table, codeCap := mkCap (capHandle r.desc) 0,
                codeLen := code.len, code := codeCells (ps.flatMap fun x => s2.newest x.1 x.2), codeMap := codePieces 0 ps, back
                phase := .starting, step := 0, start := d.entry, held := [], next := 0, cont := none, stray := 0, scheds } s3

/-- The three stages of R333 (DEDUCED; log 64). -/
def State.checkRecord (s : State) (core : Nat) (c : Ctx) (p : Part) (r : Record) (back : LaunchBack) : Checked Launch :=
  if !recordOk r p then .status 0x0002
  else if c.prioCeil < r.prio then .status 0x0003
  else
    let needs := [capNeed r.desc 64 [.exec] [0, 1, 2, 3], capNeed r.args 0 [.read] [0, 1, 2, 3]]
      ++ (if r.table == 0 then [] else [capNeed r.table 0 [.read] [0, 1, 2, 3]])
    match s.resolveNeeds c needs with
    | none => .status 0x0013
    | some ws =>
      let zs := needs.zip ws
      if zs.any fun z => z.1.bytes != 0 && z.2.len < capOffset z.1.cap + z.1.bytes then .status 0x0014
      else if zs.any fun z => !z.1.rights.all z.2.grants || !z.1.spaces.contains z.2.root.space then .status 0x0015
      else if capOffset r.desc % 64 != 0 then .status 0x0016
      else match ws with
        | code :: _ :: rest => s.checkKernel core c p r code rest.head? back
        | _ => .status 0x0013

/-- An accepted launch joins the context's launches, which may make the context runnable (R333, R344). -/
def State.addLaunch (s : State) (l : Launch) : State :=
  ({ s with launches := s.launches ++ [l] }).becameRunnable l.ctx (s.runnable l.ctx)

/-- The partition of a context, and a service core of its lowest die, in whose name the distributor reads for the host. -/
def State.distCore (p : Part) : Nat := 1536 + least ((p.cores.map coreDie) ++ [7])

/-- A record on mailbox pair 1 (R332–R334). -/
def State.acceptMail (s : State) (c : Ctx) (p : Part) (e : BitVec 512) (rest : List (BitVec 512)) : State :=
  let take (s : State) : State := s.modMail c.id 1 fun m => { m with h2d := rest }
  let r := Record.ofBits e
  match s.checkRecord (State.distCore p) c p r .mailbox with
  | .wait _ s1 => s1
  | .status code => (take s).mailOut c.id 1 (launchEntry code 0 0 r.id c.id)
  | .ok l s1 => (take s1).addLaunch l

/-- A record pushed on a queue register bound to the distributor (R219, R333); a context in no partition has no die in ks.part,
so that MINDIES exceeds their number. -/
def State.acceptPush (s : State) (o : MemOp) (h : Sheaf) (c : Ctx) (p : Part) : State :=
  if 64 ≤ s.launchesHeld c.id then s.finishPush o h 0x0001
  else if o.decl then s.finishPush o h 0x0002
  else
    match s.checkRecord (1536 + coreDie h.core) c p (Record.ofBits o.unit) (.queue h.uid o.queue) with
    | .wait _ s1 => s1
    | .status code => s.finishPush o h code
    | .ok l s1 => (s1.addLaunch l).finishPush o h 0

/-- An earlier record of the same queue register stands before this one (R333). -/
def State.recordBefore (s : State) (o : MemOp) : Bool :=
  s.ops.any fun x => x.kind == .qpush && x.key.sheaf == o.key.sheaf && x.queue == o.queue && x.id < o.id && s.opReady x

/-- LAUNCH_RECORD_ACCEPT (R333). -/
def execLaunchRecordAccept (src : LaunchSrc) (s : State) : Outc :=
  match src with
  | .mailbox ctx => match s.ctx? ctx with
    | none => .next s
    | some c => match s.part? c.part, c.mail1.h2d with
      | some p, e :: rest => .next (if 64 ≤ s.launchesHeld ctx then s else s.acceptMail c p e rest)
      | _, _ => .next s
  | .queue op => match s.op? op with
    | none => .next s
    | some o => match s.sheaf? o.key.sheaf with
      | none => .next s
      | some h =>
        if o.kind != .qpush || h.bind o.queue != 6 || !s.opReady o || !s.laneTurn o || s.ctxFrozen h.ctx || s.recordBefore o then .next s
        else match s.ctx? h.ctx with
          | none => .next (s.finishPush o h 0x0002)
          | some c => match s.part? c.part with
            | some p => .next (s.acceptPush o h c p)
            | none => .next (s.finishPush o h 0x0002)

end Sys2Proof.Machine
end

