-- ==== Sys2Proof/Machine/Master.lean ====
section
/-! DEFINITION. Releasing and killing a context (R375, R401–R403), and the writes to ks.frozen and ks.kill (R41, R42). -/

namespace Sys2Proof.Machine

/-- A context is released: every frozen state ends, fibres held on discarded side-log entries raise the translation-fault trap,
held messages arrive anew, and it may be runnable (R174, R344, R375, R401, R402). -/
def State.releaseCtx (s : State) (x : Nat) : State :=
  match s.ctx? x with
  | none => s
  | some c =>
    if !c.frozen then s
    else
      let s1 := s.modCtx x fun c => { c with frozen := false, faulted := false, discarded := [] }
      let s2 := c.discarded.foldl (fun s d => match s.fib? d.1 with
        | some f => match f.cond with
          | .held (.release _ act _) => s.abandonRelease d.1 act (.cap cTransl d.2)
          | _ => s
        | none => s) s1
      ((s2.rematch x).endSteps x).becameRunnable x (s.runnable x)

/-- Rendezvous messages that wait on a context's posting or in its unexpected queue. -/
def State.pendingMsgs (s : State) (x : Nat) : List Msg :=
  ((s.recv.unexpected.filter fun u => u.1 == x && !u.2.eager).map (·.2))
    ++ (s.recv.landing.filter fun l => !l.2.2 && (match s.cmd? l.1 with | some c => c.ctx == x | none => false)).map (·.2.1)

/-- The distributor and the receive engine give up what belongs to a context. -/
def State.dropRecv (s : State) (x : Nat) : State :=
  let ms := s.pendingMsgs x
  let s1 := ms.foldl (fun s m => s.report m 0x000D) s
  let mine (id : Nat) : Bool := match s.cmd? id with | some c => c.ctx == x | none => false
  s1.modRecv fun r => { r with
    postings := r.postings.filter (·.ctx != x)
    unexpected := r.unexpected.filter (·.1 != x)
    landing := r.landing.filter fun l => !mine l.1
    reports := r.reports.filter fun y => !mine y.1
    pulls := r.pulls.filter fun p => !ms.any fun m => m.sendCmd == some p.1 && m.mtag == p.2.2.2.1 }

/-- What stands for a context outside its sheafs: its images in swap stores and its place in its partition. -/
def State.dropResidency (s : State) (c : Ctx) : State :=
  let s1 : State := { s with
    parts := s.parts.map fun p =>
      let p1 := if p.resident == some c.id then { p with resident := none, halting := false } else p
      if p1.incoming == some c.id then { p1 with incoming := none } else p1
    cores := s.cores.map fun k =>
      if k.swapCtx == some c.id && k.swap != .exchanging then { k with swap := .empty, swapCtx := none }
      else if k.outgoing == some c.id && k.swap == .spilling then { k with swap := .empty, outgoing := none }
      else k }
  s1.reschedule c.part

/-- Every engine command of a killed context ends with status 0x0004, oldest first (R356, R403). Where its completion goes, a queue
register, a barrier or the scratchpad, goes with the context in the same act. -/
def State.endKilled (s : State) (x : Nat) : State :=
  (sortBy (·.id) (s.cmds.filter (·.ctx == x))).foldl (fun s d => (s.freeWeight d.id).endCmd d 0x0004 d.done 0 0 0) s

/-- A context is killed, as one act: its fibres, commands, postings, messages, launches and key slots go, and its resources
return to the distributor (R339, R375, R403). Its name is free, and a later context that takes it has another generation (R294). -/
def State.killCtx (s : State) (x : Nat) : State :=
  match s.ctx? x with
  | none => s
  | some c =>
    let us := (s.sheafs.filter (·.ctx == x)).map (·.uid)
    let freed := (s.sheafs.filter fun h => h.ctx == x && !h.saved).map (·.core)
    let s1 := (s.dropRecv x).endKilled x
    let s2 : State := { s1 with
      sheafs := s1.sheafs.filter (·.ctx != x)
      fibres := s1.fibres.filter fun f => !us.contains f.key.sheaf
      warps := (s1.warps.map fun w => { w with members := w.members.filter fun k => !us.contains k.sheaf }).filter (·.members != [])
      ops := s1.ops.filter fun o => !us.contains o.key.sheaf
      side := s1.side.filter (·.ctx != x)
      log := s1.log.filter fun e => !us.contains e.key.sheaf
      owed := s1.owed.filter fun e => !us.contains e.key.sheaf
      refills := nub (s1.refills ++ freed)
      matq := s1.matq.filter (·.ctx != x)
      batches := (s1.batches.map fun b => { b with lanes := b.lanes.filter fun l => !us.contains l.1.sheaf }).filter (·.lanes != [])
      cmds := s1.cmds.filter (·.ctx != x)
      launches := s1.launches.filter (·.ctx != x)
      ctxs := s1.ctxs.filter (·.id != x) }
    (s2.dropXc (·.ctx == x)).dropResidency c

/-- A write to ks.frozen: 0 releases the context that ks.ctx names, 1 has no effect; 0xFF_FFFF and a context that does not
exist are left alone (R41, R42, R401). -/
def execKsFrozenWrite (h : Hdr) (a : Reg) (s : State) : Outc :=
  warpExec (.ksFrozenWrite h a) (fun k s =>
    match s.fib? k with
    | none => .next s
    | some f => .next (if (f.reg a).getLsbD 0 || f.ksCtx == 0xFFFFFF then s else s.releaseCtx f.ksCtx.toNat)) s

/-- A write to ks.kill: 1 kills the context that ks.ctx names (R41, R42, R403). -/
def execKsKillWrite (h : Hdr) (a : Reg) (s : State) : Outc :=
  warpExec (.ksKillWrite h a) (fun k s =>
    match s.fib? k with
    | none => .next s
    | some f => .next (if !(f.reg a).getLsbD 0 || f.ksCtx == 0xFFFFFF then s else s.killCtx f.ksCtx.toNat)) s

end Sys2Proof.Machine
end

