-- ==== Sys2Proof/Machine/Host.lean ====
section
/-! DEFINITION. Host functions and TDIs (R387, R388, R401), the lease between two hosts (R389, R390), PF0's registers (R399,
R406, R413, R415), mailboxes (R391–R393), notices (R404) and management completions (R399). What a host writes to device
memory, to a mailbox or to MQ goes through its port's order, in HostMem. -/

namespace Sys2Proof.Machine

/-! ## Functions and TDIs (R387, R388, R401) -/

/-- A function of a port, as it stands. -/
def State.fnSt (s : State) (port fn : Nat) : Fn :=
  (s.host.fns.find? fun f => f.port == port && f.fn == fn).getD { port, fn, tdi := .unlocked, frozen := false, rejected := [] }

/-- Set a function. -/
def State.setFn (s : State) (f : Fn) : State := s.modHost fun h => { h with fns := putIf (fun g => g.port == f.port && g.fn == f.fn) f h.fns }

/-- The code of a function (R398, MOP 0x03): the port in bit 5, 0 for PF0 or 1–16 below. -/
def fnCode (port fn : Nat) : Nat := 32 * port + fn

/-- The contexts of the partition a function exposes: those of every partition in which it owns a context (R387). -/
def State.fnContexts (s : State) (port fn : Nat) : List Nat :=
  let parts := (s.ctxs.filter (·.fn == fnCode port fn)).map (·.part)
  (s.ctxs.filter fun c => parts.contains c.part).map (·.id)

/-- A host function is frozen: its TDI enters ERROR, and every context of its partition is frozen (R388, R401). PF0 has no
TDI. -/
def State.freezeFn (s : State) (port fn : Nat) : State :=
  let f := s.fnSt port fn
  if fn == 0 then s.setFn { f with frozen := true }
  else
    let s1 := s.setFn { f with frozen := true, tdi := .error }
    (s1.fnContexts port fn).foldl State.freezeCtx s1

/-- A host function is released, and with it the contexts that its TDI's ERROR had frozen (R388, R401). -/
def State.recoverFn (s : State) (port fn : Nat) : State :=
  let s1 := s.setFn { s.fnSt port fn with frozen := false, tdi := .unlocked, rejected := [] }
  (s1.fnContexts port fn).foldl State.releaseCtx s1

/-- A port is trained, and has power (R413, R415). -/
def State.portUp (s : State) (port : Nat) : Bool := !s.boot.railsOff && s.boot.pcieUp.getD port false

/-- A port's function is one that a port presents (R387). -/
def isFn (port fn : Nat) : Bool := port < 2 && fn ≤ 16

/-- The partitions whose contexts a function owns (R387). -/
def State.fnParts (s : State) (port fn : Nat) : List Nat := (s.ctxs.filter (·.fn == fnCode port fn)).map (·.part)

/-- A device address is a partition's: in its contexts' areas and handle tables, or where software has laid its memory (R388; log 38). -/
def State.partOwns (s : State) (n dpa : Nat) : Bool :=
  let within (base size : Nat) : Bool := base != 0 && base ≤ dpa && dpa < base + size
  Config.partitionMem n dpa || (s.ctxs.filter (·.part == n)).any fun c =>
    within c.saveBase (s.faultBase c + 4096 - c.saveBase) || within c.recvBase (4 * 2 ^ 20) || within c.htbase.toNat (32 * c.htlen)

/-- A request reaches the resources of a partition whose TDI is locked or runs through another function than that TDI's (R388). -/
def State.barred (s : State) (r : ReqId) (dpa n : Nat) : Bool :=
  (s.host.fns.filter fun f => f.fn != 0 && (f.tdi == .locked || f.tdi == .run)).any fun f => (s.fnParts f.port f.fn).any fun p =>
    !(s.fnParts r.port r.fn).contains p && (List.range n).any fun i => s.partOwns p (dpa + i)

/-- What becomes of a request as it arrives (R388, R390, R401, R409). -/
inductive Admit where
  | ok | late | rejected | refused
  deriving DecidableEq, Repr

/-- A port's requests are the old host's, or a function's are those of a frozen one (R390, R401). -/
def State.isLate (s : State) (port fn : Nat) : Bool := s.host.late.contains port || (s.fnSt port fn).frozen

/-- A request to a function's resources: while its TDI is locked or runs, only one with the T bit on a selective stream bound to it
is accepted; in ERROR none is (R388; log 38). After a quarantine outside the compute dies none is accepted (R409). -/
def State.reach (s : State) (r : ReqId) : Admit :=
  if s.isLate r.port r.fn then .late
  else if s.crippled then .refused
  else
    let f := s.fnSt r.port r.fn
    let bound := match r.stream with
      | some st => r.tbit && s.host.ides.any fun i => i.port == r.port && i.stream == st && i.tdi == some r.fn
      | none => false
    if f.tdi == .error || ((f.tdi == .locked || f.tdi == .run) && !bound) then .rejected else .ok

/-- LATEREJ of a port counts (R390, R399) (DEDUCED; log 54). -/
def State.countLate (s : State) (port : Nat) : State :=
  s.modHost fun h => if port == 0 then { h with laterej0 := (h.laterej0 + 1) % 2 ^ 64 } else { h with laterej1 := (h.laterej1 + 1) % 2 ^ 64 }

/-- MBXBAD counts (R399). -/
def State.countBad (s : State) : State := s.modHost fun h => { h with mbxbad := (h.mbxbad + 1) % 2 ^ 64 }

/-- More than 256 requests of a function have been rejected within a millisecond (R401). -/
def State.overLimit (s : State) (port fn : Nat) : Bool :=
  256 < ((s.fnSt port fn).rejected.filter fun t => s.time < t + 1000000).length

/-- A rejected request is remembered for a millisecond; one too many freezes its function (R401). -/
def State.countRejected (s : State) (port fn : Nat) : State :=
  let f := s.fnSt port fn
  let s1 := s.setFn { f with rejected := (f.rejected.filter fun t => s.time < t + 1000000) ++ [s.time] }
  if s1.overLimit port fn then s1.freezeFn port fn else s1

/-- A completion is returned to the host. -/
def State.hostReply (s : State) (r : HostReply) : State := { s with host := { s.host with replies := s.host.replies ++ [r] } }

/-- A posted request: late ones are discarded and counted, rejected ones discarded (R388, R390). -/
def State.posted (s : State) (r : ReqId) (go : State → State) : State :=
  if !s.portUp r.port then s
  else match s.reach r with
    | .ok => go s
    | .late => s.countLate r.port
    | .rejected => s.countRejected r.port r.fn
    | .refused => s

/-- A non-posted request: late ones are completed with Completer Abort, rejected ones with Unsupported Request (R388, R390). -/
def State.nonPosted (s : State) (r : ReqId) (go : State → State) : State :=
  if !s.portUp r.port then s
  else match s.reach r with
    | .ok => go s
    | .late => (s.countLate r.port).hostReply .aborted
    | .rejected => (s.countRejected r.port r.fn).hostReply .unsupported
    | .refused => s.hostReply .unsupported

/-- IDE_INTEGRITY_FAILURE: the TDI to which the stream is bound enters ERROR, and its function is frozen; a link stream is taken to be
PF0's (R388, R401; log 38). -/
def execIdeIntegrityFailure (port stream : Nat) (s : State) : Outc :=
  .next ((s.host.ides.filter fun i => i.port == port && i.stream == stream).foldl (fun s i => s.freezeFn port (i.tdi.getD 0)) s)

/-- REJECTED_REQUEST_LIMIT: more than 256 requests rejected within a millisecond (R401). -/
def execRejectedRequestLimit (port fn : Nat) (s : State) : Outc :=
  if s.overLimit port fn then .next (s.freezeFn port fn) else .next s

/-- TDISP_REQUEST: LOCK and START move a TDI on, STOP returns it to CONFIG_UNLOCKED from any state, which from ERROR releases the
frozen masters (R387, R388, R401). -/
def execTdispRequest (port fn : Nat) (req : TdispReq) (s : State) : Outc :=
  if !isFn port fn || fn == 0 then .next s
  else
    let f := s.fnSt port fn
    match req, f.tdi with
    | .lock, .unlocked => .next (s.setFn { f with tdi := .locked })
    | .start, .locked => .next (s.setFn { f with tdi := .run })
    | .stop, .locked | .stop, .run => .next (s.setFn { f with tdi := .unlocked })
    | .stop, .error => .next (s.recoverFn port fn)
    | _, _ => .next s

/-- LOCKED_CONFIGURATION_CHANGE (R388). -/
def execLockedConfigurationChange (port fn : Nat) (s : State) : Outc :=
  let t := (s.fnSt port fn).tdi
  .next (if t == .locked || t == .run then s.freezeFn port fn else s)

/-- IDE_KM_REQUEST: a stream is keyed and bound to a function, the link stream to none; a port has at most 16 selective streams
(R387). -/
def execIdeKmRequest (port stream : Nat) (tdi : Option Nat) (s : State) : Outc :=
  let others := s.host.ides.filter fun i => !(i.port == port && i.stream == stream)
  let full := tdi.isSome && 16 ≤ (others.filter fun i => i.port == port && i.tdi.isSome).length
  let valid := match tdi with | some fn => isFn port fn | none => port < 2
  .next (if full || !valid then s else s.modHost fun h => { h with ides := others ++ [{ port, stream, tdi }] })

/-- FUNCTION_LEVEL_RESET of a virtual function: a change to the configuration of a locked or running TDI; otherwise the count of its
rejected requests starts afresh (R387, R388). -/
def execFunctionLevelReset (port fn : Nat) (s : State) : Outc :=
  if !isFn port fn || fn == 0 then .next s
  else
    let f := s.fnSt port fn
    .next (if f.tdi == .locked || f.tdi == .run then s.freezeFn port fn else s.setFn { f with rejected := [] })

/-! ## Mailboxes (R391–R393) -/

/-- The context whose windows a request's slot names: one of the function itself; the windows of the other port's function of the same
number have moved to the port that holds the lease (R390, R391) (DEDUCED; log 53). -/
def State.windowCtx (s : State) (r : ReqId) (slot : Nat) : Option Ctx :=
  if r.port != s.host.active then none
  else (s.ctxs.find? fun c => c.fn == fnCode r.port r.fn && c.slot == slot).or
    (s.ctxs.find? fun c => c.fn == fnCode (1 - r.port) r.fn && c.slot == slot)

/-- The device writes to its own structures in host memory, through the port that holds the lease (R448). -/
def State.hostPut (s : State) (addr : Nat) (bs : List Byte) : State := s.rawWrite (.hostUn s.host.active addr) bs

/-- An interrupt is raised at the port that holds the lease (R390). -/
def State.interrupt (s : State) (i : Irq) : State := s.modHost fun h => { h with msix := h.msix ++ [(h.active, i)] }

/-- The status of a send (R392). -/
def Mailbox.sendStatus (m : Mailbox) (drop : Bool) : Nat :=
  (64 - m.h2d.length) + (if drop then 256 else 0) + m.h2dCount % 2 ^ 32 * 2 ^ 32

/-- A sheaf has a queue register bound to a pair of a context. -/
def Sheaf.bindsPair (h : Sheaf) (ctx pair : Nat) : Bool := h.ctx == ctx && h.queues.any fun q => q.bind == 3 + pair

/-- A well-formed send: an entry is accepted or dropped, the status written; an accepted one wakes and interrupts the sheafs bound to
the pair (R214, R235, R392). While MOP 0x09 names no status address, the entry is taken and no status is written (DESIGN CHOICE;
log 91). -/
def State.sendEntry (s : State) (c : Ctx) (pair : Nat) (e : BitVec 512) : State :=
  let m := c.mail pair
  let drop : Bool := 64 ≤ m.h2d.length
  let m1 := if drop then m else { m with h2d := m.h2d ++ [e], h2dCount := m.h2dCount + 1 }
  let s1 := s.modMail c.id pair fun _ => m1
  let s2 := if m.ring.isSome then s1.hostPut m.status (leBytes 8 (m1.sendStatus drop)) else s1
  if drop then s2
  else
    let s3 := s2.wakeQueue fun h q => h.ctx == c.id && h.bind q == 3 + pair
    (s3.sheafs.filter (·.bindsPair c.id pair)).foldl (fun s h => s.raiseUser h.uid) s3

/-- CONSUMER_INDEX_WRITE: an index beyond the producer index, or more than 64 behind it, is ignored and counted (R393). -/
def execConsumerIndexWrite (r : ReqId) (slot pair : Nat) (v : Word) (s : State) : Outc :=
  .next (s.posted r fun s =>
    match s.windowCtx r slot with
    | none => s
    | some c =>
      let m := c.mail (pair % 2)
      let behind := (BitVec.ofNat 32 m.produced - v).toNat
      if 64 < behind || m.produced < behind then s.countBad
      else s.modMail c.id (pair % 2) fun m => { m with consumed := m.produced - behind })

/-- MAILBOX_RING_WRITE: the oldest accepted entry goes to its slot of the ring, the producer index after it, and the pair's interrupt
is raised. Entries are held until ring and status are named and while the lease has expired (R390, R393). -/
def execMailboxRingWrite (ctx pair : Nat) (s : State) : Outc :=
  match s.ctx? ctx with
  | none => .next s
  | some c =>
    let m := c.mail pair
    match m.d2h, m.ring with
    | e :: rest, some ring =>
      if s.host.expired || 64 ≤ m.produced - m.consumed then .next s
      else
        let s1 := s.hostPut (ring + 64 * (m.produced % 64)) (leBytes 64 e.toNat)
        let s2 := s1.hostPut (m.status + 8) (leBytes 8 (m.produced + 1))
        .next ((s2.modMail ctx pair fun m => { m with d2h := rest, produced := m.produced + 1 }).interrupt (.pair ctx (pair % 2)))
    | _, _ => .next s

/-! ## The lease (R389, R390) -/

/-- The active port renews; a renewal by the old host is a late rejection (R389, R390). -/
def State.renewLease (s : State) (port : Nat) : State :=
  if s.isLate port 0 then s.countLate port
  else if port == s.host.active then s.modHost fun h => { h with renewed := s.time }
  else s

/-- RENEW (R389, R390, R409). -/
def execRenew (port : Nat) (s : State) : Outc := .next (if s.portUp port && !s.crippled then s.renewLease port else s)

/-- The other port takes over: translations go, what is outstanding with the host is asked again, rings wait for the new host to name
them, and a notice says so (R390, R404). -/
def State.takeOver (s : State) (port : Nat) : State :=
  let lost := if s.host.active == 0 then s.host.laterej0 else s.host.laterej1
  let s1 := s.modHost fun h => { h with
    active := port, expired := false, late := h.late.filter (· != port), renewed := s.time, atc := [], noticeRing := none }
  let sent := (s1.host.pri.filter (·.sent)).length
  let s2 := s1.modCoh fun c => { c with
    prireq := (c.prireq + sent) % 2 ^ 64, atsreq := (c.atsreq + s1.host.ats.length) % 2 ^ 64 }
  let s3 : State := { s2 with
    ctxs := s2.ctxs.map fun c => { c with mail0 := { c.mail0 with ring := none }, mail1 := { c.mail1 with ring := none } } }
  s3.notice 8 0 (packBits 512 [(lost % 2 ^ 32, 32), (port, 0)])

/-- A claim of a port takes effect: only while EXPIRED is 1, from the port that does not hold the lease, and not from a frozen PF0
(R389, R390, R401). -/
def State.claimable (s : State) (port : Nat) : Bool := port < 2 && port != s.host.active && s.host.expired && !(s.fnSt port 0).frozen

/-- CLAIM (R389, R390, R409): another than one that takes effect is a late request of an old host's, or has no effect. -/
def execClaim (port : Nat) (s : State) : Outc :=
  .next (if !s.portUp port || s.crippled then s else if s.claimable port then s.takeOver port else if s.isLate port 0 then s.countLate port else s)

/-- The lease has run out. -/
def State.leaseOver (s : State) : Bool := s.portUp s.host.active && !s.host.expired && s.host.renewed + s.host.period * 1000000 ≤ s.time

/-- The lease expires at the instant at which it has run out (R390). -/
def State.expireLease (s : State) : State :=
  if s.leaseOver then s.modHost fun h => { h with expired := true, late := nub (h.late ++ [h.active]) } else s

/-- LEASE_EXPIRY (R390). -/
def execLeaseExpiry (s : State) : Outc := .next s.expireLease

/-! ## PF0's registers (R389, R399, R406, R413, R415) -/

/-- The attestation register of a chiplet (R406). -/
def Chiplet.bits (c : Chiplet) : Nat :=
  let st := match c.st with
    | .off => 0 | .unverified => 1 | .challenging => 2 | .verified => 3 | .keyed => 4 | .active => 5 | .quarantined => 6
  c.passes.toNat * 2 ^ 16 + c.keygen.toNat * 2 ^ 8 + c.reason.toNat * 2 ^ 4 + st

/-- What a register of PF0 reads, 64 bits at an offset; the attestation registers and telemetry are 32-bit words, two to a double
(R399, R406, R415; log 18). -/
def State.pf0Read (s : State) (off : Nat) : Nat :=
  let h := s.host
  let att (i : Nat) : Nat := match s.boot.chiplets[i]? with | some c => c.bits | none => 0
  if off == 0x0000 then h.active * 2 ^ 63 + (if h.expired then 2 ^ 62 else 0) + h.period * 2 ^ 32
  else if off == 0x0008 then
    if s.boot.pcieUp.any id then
      s.boot.stage + (if s.boot.fail then 16 + s.boot.failChiplet * 256 else 0)
    else 0
  else if off == 0x0010 then h.pwrcap.toNat
  else if off == 0x0018 then h.mcrbase.toNat
  else if off == 0x0020 then h.mcrprod.toNat
  else if off == 0x0028 then h.mcrcons.toNat
  else if off == 0x0100 then h.laterej0
  else if off == 0x0108 then h.laterej1
  else if off == 0x0110 then h.mbxbad
  else if off == 0x0118 then h.nlost
  else if 0x2000 ≤ off && off < 0x2088 then att ((off - 0x2000) / 4) + att ((off - 0x2000) / 4 + 1) * 2 ^ 32
  else if 0x3000 ≤ off && off < 0x3100 then
    (Config.telemetry ((off - 0x3000) / 4) s.time).toNat + (Config.telemetry ((off - 0x3000) / 4 + 1) s.time).toNat * 2 ^ 32
  else 0

/-- A write to the lease register: PERIOD, RENEW and CLAIM (R389). -/
def State.writeLease (s : State) (port : Nat) (v : Dword) : State :=
  let period := bitsOf v 32 16
  if port == s.host.active then
    let s1 := if 1 ≤ period && period ≤ 1000 then s.modHost fun h => { h with period } else s
    if v.getLsbD 0 then s1.renewLease port else s1
  else if v.getLsbD 1 && s.host.expired then s.takeOver port
  else s

/-- A write to a register of PF0 by the port that holds the lease (R399). -/
def State.pf0Write (s : State) (off : Nat) (v : Dword) : State :=
  if off == 0x0010 then
    let w := bitsOf v 0 16
    if 1500 ≤ w && w ≤ 3000 then s.modHost fun h => { h with pwrcap := BitVec.ofNat 16 w } else s
  else if off == 0x0018 then s.modHost fun h => { h with mcrbase := (v >>> 12) <<< 12 }
  else if off == 0x0028 then s.modHost fun h => { h with mcrcons := v.setWidth 32 }
  else s

/-- REGISTER_WRITE: a write of 8 bytes to the management queue is malformed and counted; after a quarantine outside the compute dies no
register is written (R389, R399, R409). -/
def execRegisterWrite (port : Nat) (off : BitVec 16) (v : Dword) (s : State) : Outc :=
  if !s.portUp port || s.crippled then .next s
  else if off == 0 && v.getLsbD 1 && s.claimable port then .next (s.takeOver port)
  else if s.isLate port 0 then .next (s.countLate port)
  else if off == 0 then .next (s.writeLease port v)
  else if 0x1000 ≤ off.toNat && off.toNat < 0x1020 && port == s.host.active then .next s.countBad
  else .next (if port == s.host.active then s.pf0Write off.toNat v else s)

/-! ## The management queue (R398, R399) -/

/-- The device reads its own structures in host memory through a port; none where the host completes the read with an error (R448;
log 80). -/
def State.hostGet (s : State) (port addr n : Nat) : Option (List Byte) :=
  if Config.hostReadFails port addr s.time then none else some (s.rawRead (.hostUn port addr) n)

/-- A host command's completion waits for the ring (R227, R399). -/
def State.hostDone (s : State) (u : BitVec 256) (status : BitVec 16) (aux : Nat) : State :=
  s.modHost fun h => { h with completions := h.completions ++ [completionEntry (uMop u) (uMopCtag u) status 0 aux 0 0] }

/-- Host commands waiting in the queue. -/
def State.hostWaiting (s : State) : Nat := (s.host.mq.filter (·.back.isNone)).length

/-- A well-formed write to MQ: a full queue, a reserved field, an operand that is not aligned, or a command that is not yet or no longer
accepted is answered at once; otherwise the command is queued, its core map read (R220, R398–R400, R409, R413, R448). -/
def State.queueMop (s : State) (port : Nat) (u : BitVec 256) : State :=
  if 64 ≤ s.hostWaiting then s.hostDone u 0x0001 0
  else if !s.takesMop (uMop u) then s.hostDone u 0x0005 0
  else if !mopFieldsOk u then s.hostDone u 0x0002 0
  else if !mopAligned u then s.hostDone u 0x0016 0
  else s.modHost fun h => { h with
    mq := h.mq ++ [{ unit := u, port, back := none, map := s.hostGet port (uMap u) 192 }] }

/-- MANAGEMENT_COMPLETION: the oldest completion goes to its slot of the ring, MCRPROD counts it and vector 0 is raised; nothing is
written while no ring is set, while it is full, or while the lease has expired (R390, R399). -/
def execManagementCompletion (s : State) : Outc :=
  let h := s.host
  match h.completions with
  | [] => .next s
  | e :: rest =>
    if h.expired || h.mcrbase == 0 || (h.mcrprod - h.mcrcons).toNat == 64 then .next s
    else
      let s1 := s.hostPut (h.mcrbase.toNat + 32 * (h.mcrprod.toNat % 64)) (leBytes 32 e.toNat)
      .next ((s1.modHost fun h => { h with completions := rest, mcrprod := h.mcrprod + 1 }).interrupt (.pf 0))

/-- NOTICE: the oldest notice goes to its slot of the ring, and vector 1 is raised (R390, R399, R404)
(DESIGN CHOICE; log 55). -/
def execNotice (s : State) : Outc :=
  let h := s.host
  match h.notices, h.noticeRing with
  | n :: rest, some ring =>
    if h.expired then .next s
    else
      let s1 := s.hostPut (ring + 128 * (h.noticePos % 256)) (leBytes 128 n.toNat)
      .next ((s1.modHost fun h => { h with notices := rest, noticePos := h.noticePos + 1 }).interrupt (.pf 1))
  | _, _ => .next s

/-! ## Power (R415) -/

/-- POWER_CAP_THROTTLE: every quadrant of a die skips an issue cycle. No warp issues, and no count of R343 changes. -/
def execPowerCapThrottle (_die : Nat) (s : State) : Outc := .next s

end Sys2Proof.Machine
end

