-- ==== Sys2Proof/Machine/HostMem.lean ====
section
/-! DEFINITION. What a host sends through a port, in its order (R246, R266): reads, posted writes and AtomicOps to device memory, which
are served at the home slice (R279), mailbox entries (R392) and management commands (R399). An access waits while another package
holds the newest data of its line (R381, R382), a write to a translation line while accesses translated through it are in flight
(R289). -/

namespace Sys2Proof.Machine

/-- The host port becomes a reader of a line at its home, after every copy has been recalled (R279, R304, R308). -/
def State.hostReader (s : State) (port line : Nat) : State :=
  let s1 := (((s.recallAll line).ensureDir line).homeTouch line 0).grantReader line (hHost port)
  s1.rec1 .open line (s1.dirOf line).interval false (hHost port) (lineHash (s1.homeLine line))

/-- An address has a line, or is in the register window. -/
def backed (dpa : Nat) : Bool := match devLoc dpa with | .unbacked => false | _ => true

/-- What an AtomicOp writes over the old value, if anything (R387). -/
def pcieNew (op : PcieAtomic) (size old : Nat) (x y : Dword) : Option Nat :=
  let m := 2 ^ (8 * size)
  match op with
  | .fetchAdd => some ((old + x.toNat) % m)
  | .swap => some (x.toNat % m)
  | .cas => if old == x.toNat % m then some (y.toNat % m) else none

/-- An AtomicOp on a line runs in the atomic units of its home slice (R266, R279, R309). -/
def State.hostAtomic (s : State) (op : PcieAtomic) (line off n : Nat) (x y : Dword) : State :=
  let s1 := ((s.recallAll line).ensureDir line).homeTouch line 0
  let old := leNat (((s1.homeLine line).drop off).take n)
  let new := pcieNew op n old x y
  let s2 := s1.homeRmw 0 line (new.map fun v => fun d => overlay d off (leBytes n v)) true
  (if new.isSome && s2.xlatLine line then s2.snoopXlat line else s2).hostReply (.data (leBytes n old))

/-- A host access is performed (R266, R279), in replacement class 0, since nothing gives it one (DESIGN CHOICE; log 86). A read of poisoned data, or of an address that nothing backs, is completed with data
marked poisoned (DEDUCED; log 57). -/
def State.hostPerform (s0 : State) (a : HostAcc) : State :=
  let s := (a.lines.filter fun l => a.writes && s0.xlatLine l).foldl State.retranslate s0
  let bad := a.lines.any s.poisoned || (List.range a.size).any fun i => !backed (a.dpa + i)
  match a.kind with
  | .write d => s.homeWrite (hHost a.port) false 0 (devLoc a.dpa) d
  | .read n =>
    let s1 := a.lines.foldl (fun s l => s.hostReader a.port l) s
    if bad then s1.hostReply .poisoned
    else
      match devLoc a.dpa with
      | .regs off => s1.hostReply (.data (s1.regWindow off n))
      | l => s1.hostReply (.data (s1.newest l n))
  | .atomic op n x y =>
    if bad then s.hostReply .poisoned
    else match (devLoc a.dpa).line? with
      | none => s.hostReply (.data (leBytes n 0))
      | some line => s.hostAtomic op line (devLoc a.dpa).inLine n x y
  | .mail ctx pair e => match s.ctx? ctx with
    | some c => s.sendEntry c pair e
    | none => s
  | .mop u => s.queueMop a.port u

/-- A line keeps an access waiting: earlier requests to it wait at its slice or are under way (R279, R280), another package holds it, or
accesses translated through it are in flight (R289, R381). -/
def State.hostWaits (s : State) (a : HostAcc) (line : Nat) : Bool :=
  s.remoteHeld line || s.lineTaken line || (a.writes && s.xlatLine line && !s.xlatIdle line s.uid)

/-- A host access arrives: it goes behind what waits at its port, or for one of its lines (R246, R266). -/
def State.hostAccess (s : State) (a : HostAcc) : State :=
  let behind := s.coh.pend.any fun b => b.port == a.port || b.lines.any a.lines.contains
  if behind || a.lines.any (s.hostWaits a) then
    (a.lines.foldl State.askRemote s).modCoh fun c => { c with pend := c.pend ++ [a] }
  else s.hostPerform a

/-- Accesses that waited are tried again, oldest first. -/
def State.hostPump (s : State) : State := s.coh.pend.foldl State.hostAccess (s.modCoh fun c => { c with pend := [] })

/-! ## The events -/

/-- HOST_WRITE (R266, R279, R388). -/
def execHostWrite (r : ReqId) (dpa : BitVec 42) (data : List Byte) (s : State) : Outc :=
  .next (s.posted r fun s =>
    if s.barred r dpa.toNat data.length then s.countRejected r.port r.fn else s.hostAccess ⟨r.port, dpa.toNat, .write data⟩)

/-- A non-posted access to memory: to a locked partition's, through another function, it is an Unsupported Request (R388). -/
def State.hostAsk (s : State) (r : ReqId) (dpa n : Nat) (k : HostKind) : State :=
  if s.barred r dpa n then (s.countRejected r.port r.fn).hostReply .unsupported else s.hostAccess ⟨r.port, dpa, k⟩

/-- HOST_READ (R266, R279, R388). -/
def execHostRead (r : ReqId) (dpa : BitVec 42) (size : Nat) (s : State) : Outc :=
  .next (s.nonPosted r fun s => s.hostAsk r dpa.toNat size (.read size))

/-- HOST_ATOMICOP: FetchAdd, Swap and CAS of 32 and 64 bits, naturally aligned; any other is an Unsupported Request (R266, R387). -/
def execHostAtomicop (r : ReqId) (op : PcieAtomic) (dpa : BitVec 42) (size : Nat) (x y : Dword) (s : State) : Outc :=
  .next (s.nonPosted r fun s =>
    if (size == 4 || size == 8) && dpa.toNat % size == 0 then s.hostAsk r dpa.toNat size (.atomic op size x y)
    else s.hostReply .unsupported)

/-- MAILBOX_SEND: an entry goes behind the posted writes that its port sent before it (R266, R392). -/
def execMailboxSend (r : ReqId) (slot pair : Nat) (data : List Byte) (s : State) : Outc :=
  .next (s.posted r fun s =>
    match s.windowCtx r slot with
    | none => s
    | some c =>
      if data.length != 64 then s.countBad
      else s.hostAccess ⟨r.port, 0, .mail c.id (pair % 2) (BitVec.ofNat 512 (leNat data))⟩)

/-- MANAGEMENT_QUEUE_WRITE: a command goes behind the posted writes that its port sent before it (R246, R390, R399). -/
def execManagementQueueWrite (port : Nat) (data : List Byte) (s : State) : Outc :=
  if !s.portUp port then .next s
  else if s.isLate port 0 then .next (s.countLate port)
  else if port != s.host.active then .next s
  else if data.length != 32 then .next s.countBad
  else .next (s.hostAccess ⟨port, 0, .mop (BitVec.ofNat 256 (leNat data))⟩)

end Sys2Proof.Machine
end

