-- ==== Sys2Proof/Machine/Fabric.lean ====
section
/-! DEFINITION. Receiving on the Falby fabric (R377–R382), delivery contexts (R380), loss and revocation (R384–R386). What the
manual does not fix of payloads and packing is this package's own convention (log 14). -/

namespace Sys2Proof.Machine

/-! ## Loss (R384, R385) and revocation (R386) -/

/-- Copies of lines of other homes are discarded, dirty data with an error record each; what was under way for them ends, but for the
requests kept, and their intervals with it (R384–R386). -/
def State.discardLines (s : State) (p : Nat → Bool) (keep : Nat → Bool := fun _ => false) : State :=
  let l2 := s.coh.l2.filter fun l => p l.line
  let llc := s.coh.llc.filter fun l => p l.line
  let dirty := nub ((l2.filter fun l => l.st == .m || l.st == .o).map (·.line) ++ (llc.filter (·.dirty)).map (·.line))
  let hit (m : CohMsg) : Bool := match m with
    | .data _ l _ _ _ _ _ _ _ => p l
    | .inval _ l _ => p l
    | .recall _ l => p l
    | .ack _ _ l => p l
  let s1 := dirty.foldl (fun s l => s.errLog (.lostLine l)) s
  let s2 := s1.modCoh fun c => { c with
    l2 := c.l2.filter fun l => !p l.line
    llc := c.llc.filter fun l => !p l.line
    reqs := c.reqs.filter fun r => !p r.line || keep r.line
    mshr := c.mshr.filter fun m => !p m.1 || keep m.1
    msgs := c.msgs.filter fun m => !hit m
    dir := c.dir.filter fun d => !p d.line
    fetches := c.fetches.filter fun f => !p f.line || keep f.line
    peers := c.peers.filter fun x => !p x.line }
  { s2 with
    chk := { s2.chk with recs := s2.chk.recs.filter fun r => !p r.line, ivals := s2.chk.ivals.filter fun v => !p v.line }
    roc := s2.roc.filter fun r => !p r.line
    ic := s2.ic.filter fun r => !p r.line
    fibres := updIf (fun f => match f.monitor with | some ⟨.line l _, _⟩ => p l | _ => false) Fibre.wake s2.fibres }

/-- A line homed at a fabric number, of a space. -/
def homedAt (space fn line : Nat) : Bool := lineSpace line == space && line % 2 ^ 50 / 2 ^ 38 == fn

/-- A cached extent names a package: its entry holds that number (R286, R384). -/
def State.namesPeer (s : State) (fn : Nat) (x : XEntry) : Bool :=
  let d := ObjDesc.ofNat (s.newestNat (descLoc (s.objTable x.ctx) x.obj) 64)
  let e := s.newestNat (devLoc ((if x.shadow then d.shadow else d.live) + 8 * x.ext)) 8
  !x.handle && d.kind == 3 && e / 2 ^ 40 % 2 ^ 12 == fn

/-- The fabric port in whose name another package's accesses to a line stand (R307, R376, R381). -/
def State.fnPort (s : State) (fn line : Nat) : BitVec 16 :=
  let ps := s.routePorts fn
  hFabric (((linePort (line % 2 ^ 35) (planePorts 0 ps)).or (linePort (line % 2 ^ 35) (planePorts 1 ps))).getD 0)

/-- Once no die and no package holds a shared line, its entry is uncached (R277, R382). -/
def State.settleDir (s : State) (line : Nat) : State :=
  match s.dir? line with
  | some d => if d.st == .shared && d.sharers == [] && !s.remoteShared line then s.setDir { d with st := .uncached } else s
  | none => s

/-- The last acknowledgement of an invalidation by another package performs the writes at system scope (R301, R381). -/
def State.sysAck (s : State) (line : Nat) : State :=
  if s.remoteAcked line then
    { s with log := updIf (fun e => e.line == line && e.atPkg.isSome && e.atSys.isNone) (fun e => { e with atSys := some s.evno }) s.log }
  else s

/-- A lost package held a line as a reader: it is removed, its record is no longer due, and nothing waits for its acknowledgement any more
(R384). -/
def State.dropReader (s : State) (line : Nat) (port : BitVec 16) : State :=
  let others : Bool := (s.coh.remote ++ s.coh.remSh).any fun r => r.2.1 == line && s.fnPort r.1 line == port
  let s1 : State := if others then s else
    { s with chk := { s.chk with ivals := updIf (·.line == line) (fun v => { v with
        due := v.due.filter (· != port.toNat), readers := v.readers.filter (· != port.toNat) }) s.chk.ivals } }
  (s1.settleDir line).sysAck line

/-- A peer package is lost (R384): its lines here are orphaned, every cached extent that names it is translated anew, local lines
it held as writer are damaged intervals, those it read are no longer its, sends to it and pulls from it end (R374, R375). -/
def State.losePackage (s : State) (fn : Nat) : State :=
  let held := (s.coh.remote.filter (·.1 == fn)).map (·.2.1)
  let read := (s.coh.remSh.filter (·.1 == fn)).map fun r => (r.2.1, s.fnPort fn r.2.1)
  let stale := s.xc.filter (s.namesPeer fn)
  let s1 := (s.discardLines (homedAt 1 fn)).modCoh fun c => { c with
    orphans := nub (c.orphans ++ [fn]), remote := c.remote.filter (·.1 != fn), remSh := c.remSh.filter (·.1 != fn), parts := c.parts.filter (·.1 != fn) }
  let s2 := (stale.flatMap (·.lines)).foldl State.unmarkXlat { s1 with xc := s1.xc.filter fun x => !stale.contains x }
  let s3 := (s2.modFab fun f => { f with
    lostPkgs := nub (f.lostPkgs ++ [fn]), dctxs := f.dctxs.filter (·.fn != fn), waitq := f.waitq.filter (·.dst.toNat != fn) }).modRecv fun r =>
      { r with partials := r.partials.filter (·.1.fromFn != fn) }
  let s4 := read.foldl (fun s r => s.dropReader r.1 r.2) (held.foldl (fun s l => s.damaged l (s.fnPort fn l)) s3)
  let sends := s4.cmds.filter fun c => uKind c.unit == 0x11 && c.msg.isSome
    && (match s4.endpointAt (sendDest c) with | some e => e.1 == fn | none => false)
  let s5 := sends.foldl (fun s c => s.endSend c.id 0x000D) s4
  let pulls := s5.recv.landing.filter fun l => !l.2.2 && l.2.1.sendCmd.isNone && l.2.1.fromFn == fn
  (pulls.foldl (fun s l => s.pulled fn l.2.1.mtag none []) s5).hostPump

/-- A memory node is lost (R385). -/
def State.loseNode (s : State) (fn : Nat) : State :=
  (s.discardLines (homedAt 2 fn)).modCoh fun c => { c with lostNodes := nub (c.lostNodes ++ [fn]) }

/-- A pool line lies in a range of bytes of a node. -/
def inRange (fn lo hi line : Nat) : Bool := homedAt 2 fn line && lo < line % 2 ^ 38 * 128 + 128 && line % 2 ^ 38 * 128 < hi

/-- A range of a memory node is lost (R385). -/
def State.loseRange (s : State) (fn lo hi : Nat) : State :=
  (s.discardLines (inRange fn lo hi)).modCoh fun c => { c with lostRanges := c.lostRanges ++ [(fn, lo, hi)] }

/-- A fabric number names a package or a memory node: what cannot be reached is lost as either (R376, R384, R385). -/
def State.loseNumber (s : State) (fn : Nat) : State := (s.losePackage fn).loseNode fn

/-- LOSS_NOTICE (R384, R385). -/
def State.lossOf (s : State) (l : Loss) : State :=
  match l with
  | .package fn => s.losePackage fn
  | .node fn => s.loseNode fn
  | .range fn lo hi => s.loseRange fn lo hi

/-- LOSS_NOTICE (R384, R385). -/
def execLossNotice (l : Loss) (s : State) : Outc := .next (s.lossOf l)

/-- A read that waited for a line of an extent revoked meanwhile, which its node has served, completes (R386). -/
def State.readAnswered (s : State) (data : List Byte) (o : MemOp) : State :=
  let v := loadVal o.ty ((data.drop o.loc.inLine).take o.size)
  match o.kind with
  | .ld | .ldRo => ((s.logReadAt o none true true).deliver o v).finishOp o
  | .marm => ((s.logReadAt o none true true).deliver o v).finishMarm o noLine
  | .pref _ => s.finishOp o
  | _ => s

/-- The node's data serve the reads of the line that wait for them, and are not kept: later requests are revoked (R386). -/
def State.servedBefore (s : State) (f : Fetch) (data : List Byte) : State :=
  let s1 := (s.ops.filter fun o => o.loc.line? == some f.line && s.opReady o).foldl (fun s o => s.readAnswered data o) s
  s1.modCoh fun c => { c with
    fetches := c.fetches.filter (·.mtag != f.mtag), mshr := c.mshr.filter (·.1 != f.line), reqs := c.reqs.filter (·.line != f.line) }

/-- REVOCATION_NOTICE: cached lines of the range are poisoned, their dirty data discarded; later requests are revoked. What the
node has answered is used first, and what was asked of it before is still to be answered (R386). -/
def State.revoke (s0 : State) (fn lo hi : Nat) : State :=
  let s := (s0.coh.fetches.filter fun f => inRange fn lo hi f.line && f.op != 4 && f.used.isNone).foldl (fun s f => match f.answer with
    | some data => s.servedBefore f data
    | none => s) s0
  (s.discardLines (inRange fn lo hi) s.unanswered).modCoh fun c => { c with revoked := c.revoked ++ [(fn, lo, hi)] }

/-- REVOCATION_NOTICE (R386). -/
def execRevocationNotice (fn lo hi : Nat) (s : State) : Outc := .next (s.revoke fn lo hi)

/-! ## Acknowledgement, retransmission, teardown (R380) -/

/-- Packets that waited for a delivery context are offered again. -/
def State.drainWait (s : State) : State :=
  s.fab.waitq.foldl (fun s p => s.sendPacket p) (s.modFab fun f => { f with waitq := [] })

/-- A cumulative acknowledgement retires the packets up to a number. -/
def DCtx.acked (d : DCtx) (dseq : BitVec 16) : DCtx :=
  { d with unacked := d.unacked.filter fun u => 2 ^ 15 ≤ (dseq - u.1.dseq).toNat }

/-- Update the sending side of the delivery context of a pair and number. -/
def State.modTx (s : State) (fn : Nat) (num : BitVec 12) (g : DCtx → DCtx) : State :=
  s.modFab fun f => { f with dctxs := updIf (fun d => d.tx && d.fn == fn && d.num == num) g f.dctxs }

/-- DELIVERY_ACKNOWLEDGEMENT (R380). -/
def execDeliveryAcknowledgement (fn cls : Nat) (dctx : BitVec 12) (dseq : BitVec 16) (s : State) : Outc :=
  .next (s.modFab fun f => { f with
    dctxs := updIf (fun d => d.tx && d.fn == fn && d.cls == cls && d.num == dctx) (fun d => d.acked dseq) f.dctxs })

/-- The ports for a retransmission: another than the last where one exists, for a critical packet in each plane (R379, R380). -/
def State.otherPorts (s : State) (fn cls : Nat) (last : List Nat) : List Nat :=
  let other (ps : List Nat) : List Nat := match ps.find? fun p => !last.contains p with
    | some p => [p]
    | none => ps.take 1
  let ps := s.routePorts fn
  if cls == 0 then other (planePorts 0 ps) ++ other (planePorts 1 ps) else other ps

/-- RETRANSMIT_TIMEOUT: the oldest of the packets of a pair and class unacknowledged for 4 µs is sent again, a critical one on both
planes; the eighth retransmission unacknowledged makes the destination unreachable (R379, R380). -/
def execRetransmitTimeout (fn cls : Nat) (s : State) : Outc :=
  match s.txCtx fn cls with
  | none => .next s
  | some d => match d.unacked.find? fun u => u.2.1 + 4000 ≤ s.time with
    | none => .next s
    | some (p, _, tries, last) =>
      if 8 ≤ tries then .next ((s.modFab fun f => { f with unreachable := nub (f.unreachable ++ [fn]) }).loseNumber fn)
      else
        let ports := s.otherPorts fn cls last
        let again (u : Packet × Nat × Nat × List Nat) : Packet × Nat × Nat × List Nat :=
          if u.1.dseq == p.dseq then (p, s.time, tries + 1, ports) else u
        .next ((s.modTx fn d.num fun d => { d with unacked := d.unacked.map again, lastSent := s.time, ports }).transmit p ports)

/-- CONTEXT_TEARDOWN: contexts of a pair and class with nothing unacknowledged and nothing sent for 20 µs go, at either side, and
bursts that waited go on (R380). -/
def execContextTeardown (fn cls : Nat) (s : State) : Outc :=
  let idle (d : DCtx) : Bool := d.fn == fn && d.cls == cls && d.unacked == [] && d.early == [] && d.lastSent + 20000 ≤ s.time
  if s.fab.dctxs.any idle then .next ((s.modFab fun f => { f with dctxs := f.dctxs.filter fun d => !idle d }).drainWait) else .next s

/-! ## What a packet brings (R378, R381, R382) -/

/-- A response to a request. -/
def State.answer (s : State) (p : Packet) (op cls : Nat) (payload : List Byte) : State :=
  s.sendPacket (mkPacket p.src.toNat op cls p.addr.toNat p.mtag payload)

/-- The local line a request names. -/
def Packet.localLine (p : Packet) : Nat := p.addr.toNat % 2 ^ 35
/-- The line of the sender's that a packet names, in a space. -/
def Packet.homeLine (p : Packet) (space : Nat) : Nat :=
  space * 2 ^ 50 + p.src.toNat * 2 ^ 38 + p.addr.toNat % 2 ^ (if space == 1 then 35 else 38)

/-- A package is no longer a holder of a line. -/
def State.forget (s : State) (fn line : Nat) : State :=
  s.modCoh fun c => { c with
    remote := c.remote.filter fun r => !(r.1 == fn && r.2.1 == line), remSh := c.remSh.filter fun r => !(r.1 == fn && r.2.1 == line) }

/-- Another package than the sender holds the newest data of a line, or a copy to read. -/
def State.heldElsewhere (s : State) (p : Packet) : Bool := s.coh.remote.any fun r => r.2.1 == p.localLine && r.1 != p.src.toNat
def State.readElsewhere (s : State) (p : Packet) : Bool := s.coh.remSh.any fun r => r.2.1 == p.localLine && r.1 != p.src.toNat

/-- The home's record of what it has sent or taken goes to the sender of a request, under its tag (R308, item 6; R381). -/
def State.homeRecord (s : State) (p : Packet) (kind : RecKind) (writer : Bool) (h : Dword) : State :=
  let line := p.localLine
  let r : IRec := { hash := h, interval := (s.dirOf line).interval, line := 2 ^ 50 + s.fab.self.toNat * 2 ^ 38 + line, kind, writer,
                    holder := s.fnPort p.src.toNat line, hashb := 0 }
  s.answer p 0x0A 0 r.bytes

/-- A line's data go to the sender of a request, with the home's record of them. -/
def State.giveLine (s : State) (p : Packet) (data : List Byte) (writer : Bool) : State :=
  (s.answer p 0x08 2 data).homeRecord p .memfill writer (lineHash data)

/-- A read by another package: it takes the line alone where nothing holds it, and is a reader beside others (R277, R304, R382). -/
def State.remoteRead (s : State) (p : Packet) : State :=
  let line := p.localLine
  let fn := p.src.toNat
  let h := s.fnPort fn line
  let s0 := (((s.quiesce line).forget fn line).settleDir line |>.ensureDir line).homeTouch line 0
  let d := s0.dirOf line
  let alone : State :=
    let s1 := (s0.openIval line (some h) []).modCoh fun c => { c with remote := c.remote ++ [(fn, line, false)] }
    s1.giveLine p (s1.homeLine line) true
  let beside (s : State) (data : List Byte) : State :=
    (s.modCoh fun c => { c with remSh := c.remSh ++ [(fn, line, false)] }).giveLine p data false
  match d.st with
  | .uncached => alone
  | .shared => beside (s0.grantReader line h) (s0.homeLine line)
  | .exclusive | .owned => match s0.l2? d.owner line with
    | none => alone
    | some x => beside ((s0.shareOut line x [h]).countOut x.die line none 128) x.data

/-- A read for ownership or an upgrade by another package: it becomes the writer. A write to a translation line snoops (R289, R304,
R382). -/
def State.remoteOwn (s : State) (p : Packet) : State :=
  let line := p.localLine
  let fn := p.src.toNat
  let kept := p.op == 0x03 && s.coh.remSh.any fun r => r.1 == fn && r.2.1 == line && !r.2.2
  let s1 := ((((s.retranslate line).recallAll line).forget fn line).settleDir line).ensureDir line
  let s2 := ((if kept then s1 else s1.homeTouch line 0).openIval line (some (s.fnPort fn line)) []).modCoh fun c => { c with
    remote := c.remote ++ [(fn, line, false)] }
  let s3 := if s2.xlatLine line then s2.snoopXlat line else s2
  if kept then (s3.answer p 0x07 0 []).homeRecord p .memfill true (lineHash (s3.homeLine line)) else s3.giveLine p (s3.homeLine line) true

/-- A write-back by the package that held the line, of its own accord or because it was asked: the home takes its data, says so, and
its next grant opens an interval (R304, R308, R381, R382). -/
def State.remoteBack (s : State) (p : Packet) : State :=
  let line := p.localLine
  if s.coh.remote.any fun r => r.1 == p.src.toNat && r.2.1 == line then
    let data := p.payload.take 128
    let s1 := ((s.forget p.src.toNat line).homeStore line 0 data).wakeLine line
    let s2 := s1.setDir { s1.dirOf line with shut := true }
    (((if s2.xlatLine line then s2.snoopXlat line else s2).answer p 0x07 0 []).homeRecord p .memwrite false (lineHash data)).hostPump
  else s

/-- TYPE of an atomic packet. -/
def packetTy (n : Nat) : Option Ty := [Ty.s32, .s64, .z32, .z64, .f32, .b32, .b64].find? fun t => t.code.toNat == n

/-- The operation of an atomic packet by its major opcode and SUB (R71). -/
def packetRmw (major sub : Nat) (t : Ty) (old x y : Nat) : Option Nat :=
  let run (f : BitVec 3 → Option AtomOp) : Option Nat := (f (BitVec.ofNat 3 sub)).map fun op => atomNew op t old x
  match major with
  | 0x90 => run AtomOp.of90
  | 0x91 => run AtomOp.of91
  | 0x92 => if old == x then some y else none
  | 0x93 => run AtomOp.of93
  | 0x94 => run AtomOp.of94
  | _ => none

/-- One atomic of another package runs in the atomic units of the home slice (R169, R309, R381): payload byte 0 the operation's SUB,
byte 1 its major opcode, byte 2 its TYPE, byte 3 the offset in the line, bytes 8–15 and 16–23 its operands (log 14). -/
def State.remoteAtomic (s : State) (p : Packet) : State :=
  let line := p.localLine
  let b (i n : Nat) : Nat := leNat ((p.payload.drop i).take n)
  let off := b 3 1
  match packetTy (b 2 1) with
  | none => s
  | some t =>
    let size := t.bits / 8
    let m := 2 ^ t.bits
    let s1 := ((s.recallAll line).ensureDir line).homeTouch line 0
    let old := leNat (((s1.homeLine line).drop off).take size)
    let new := packetRmw (b 1 1) (b 0 1) t old (b 8 8 % m) (b 16 8 % m)
    let s2 := s1.homeRmw 0 line (new.map fun v => fun d => overlay d off (leBytes size v)) true
    (if new.isSome && s2.xlatLine line then s2.snoopXlat line else s2).answer p 0x08 2 (leBytes 16 old)

/-- How many operations of an atomic packet's group follow it: byte 4 of its payload (R170; log 14). -/
def Packet.more (p : Packet) : Nat := leNat ((p.payload.drop 4).take 1)

/-- An atomic packet: the group of one warp instruction runs in lane order, with nothing between, once it has arrived whole (R170). -/
def State.takeAtomic (s : State) (p : Packet) : State :=
  if p.more != 0 then s.modCoh fun c => { c with parts := c.parts ++ [(p.src.toNat, p)] }
  else
    let mine := (s.coh.parts.filter (·.1 == p.src.toNat)).map (·.2)
    let s1 := (s.modCoh fun c => { c with parts := c.parts.filter (·.1 != p.src.toNat) }).retranslate p.localLine
    (mine ++ [p]).foldl State.remoteAtomic ((s1.forget p.src.toNat p.localLine).settleDir p.localLine)

/-- The home of a peer line takes it back, or invalidates it: every copy here goes first, and dirty data go as a write-back, which is
the answer (R277, R381). -/
def State.peerRecall (s : State) (p : Packet) : State :=
  let line := p.homeLine 1
  let s1 := s.recallAll line
  match s1.llcTag? line with
  | some l => if l.full && l.dirty then s1.llcEvict l else (s1.llcEvict l).answer p 0x07 0 []
  | none => if s1.asked line (· == 4) then s1 else s1.answer p 0x07 0 []

/-- An acknowledgement of an invalidation by another package: the last one performs the writes at system scope (R301, R381). -/
def State.remoteAck (s : State) (p : Packet) : State :=
  let line := p.localLine
  let s0 := (s.modCoh fun c => { c with
    remote := c.remote.filter fun r => !(r.1 == p.src.toNat && r.2.1 == line && r.2.2)
    remSh := c.remSh.filter fun r => !(r.1 == p.src.toNat && r.2.1 == line && r.2.2) }).settleDir line
  (s0.sysAck line).hostPump

/-- A request outstanding with a home has a tag of its own; 0 is none. -/
def State.fetch? (s : State) (tag : BitVec 16) : Option Fetch := if tag == 0 then none else s.coh.fetches.find? (·.mtag == tag)

/-- A memory node answers a request that reached it after a revocation with a response without data: the line is revoked, before the
node's notice comes (R386; log 14). -/
def State.revokedAnswer (s : State) (f : Fetch) : State :=
  let a := f.line % 2 ^ 38 * 128
  let s1 := if f.op == 4 then s.errLog (.lostLine f.line) else s
  (s1.discardLines (· == f.line)).modCoh fun c => { c with revoked := c.revoked ++ [(lineFn f.line, a, a + 128)] }

/-- A memory node has taken a write-back: the package's writes up to its interval are performed at system scope (R301). -/
def State.nodeAck (s : State) (f : Fetch) : State :=
  match f.used with
  | some (n, _) =>
    if f.op != 4 || lineSpace f.line != 2 then s
    else { s with log := updIf (fun e => e.line == f.line && e.atPkg.isSome && e.atSys.isNone && e.interval.all fun i => i.toNat ≤ n.toNat)
                    (fun e => { e with atSys := some s.evno }) s.log }
  | none => s

/-- A home has answered a request: an atomic's old value, the data of a line, or leave to write it (R381, R383). -/
def State.homeAnswer (s0 : State) (f : Fetch) (payload : List Byte) (data : Bool) : State :=
  let s := s0.nodeAck f
  if data && payload == [] then s.revokedAnswer f
  else if data && f.memOp.isNone && s.revokedLine f.line then s.servedBefore f (payload.take 128)
  else match f.memOp with
    | some id => (s.modCoh fun c => { c with fetches := c.fetches.filter (·.mtag != f.mtag) }).atomicAnswer id f.line (leNat (payload.take 8))
    | none => s.modCoh fun c => { c with
        fetches := updIf (·.mtag == f.mtag) (fun f => { f with answer := some (payload.take 128) }) c.fetches }

/-- An interval record arrives: a home's about an answer, or another package's about a line of this one (R306, R308, R381). -/
def State.recordPacket (s : State) (p : Packet) : State :=
  match IRec.ofBytes p.payload, s.fetch? p.mtag with
  | none, _ => s
  | some r, some f =>
    let f1 := { f with fill := some (r.hash, r.interval, r.writer) }
    (s.modCoh fun c => { c with fetches := updIf (·.mtag == f.mtag) (fun _ => f1) c.fetches }).matchFetch f1
  | some r, none =>
    if r.kind == .memfill || r.kind == .memwrite then s
    else s.sendRec { r with line := p.localLine, holder := s.fnPort p.src.toNat p.localLine }

/-- A message has arrived whole, or a rendezvous header: it goes to the matching unit of its context (R368, R370). -/
def State.arriveMsg (s : State) (m : Msg) : State :=
  match s.endpointAt m.dst with
  | some (pkg, ctx) =>
    if pkg == s.fab.self.toNat then s.modRecv fun r => { r with arriving := r.arriving ++ [(ctx, m)] } else s.report m 0x000D
  | none => s.report m 0x000D

/-- A packet of a message: the header begins it, later packets bring the rest of an eager payload (log 14). -/
def State.messagePacket (s : State) (p : Packet) : State :=
  match s.recv.partials.find? fun x => x.1.fromFn == p.src.toNat && x.1.mtag == p.mtag with
  | some (m, left) =>
    let m1 := { m with payload := m.payload ++ p.payload.take (min 128 left) }
    if left ≤ 128 then (s.modRecv fun r => { r with partials := r.partials.erase (m, left) }).arriveMsg m1
    else s.modRecv fun r => { r with partials := updIf (· == (m, left)) (fun _ => (m1, left - 128)) r.partials }
  | none =>
    let h := leNat (p.payload.take 16)
    let len := h % 2 ^ 40
    let (id, s1) := s.fresh
    let eager : Bool := len ≤ 8192
    let m : Msg := { id, src := BitVec.ofNat 24 (h / 2 ^ 40), dst := BitVec.ofNat 24 p.addr.toNat, tag := BitVec.ofNat 32 (h / 2 ^ 64), len,
                     eager, payload := if eager then (p.payload.drop 16).take len else [], sendCmd := none, fromFn := p.src.toNat,
                     mtag := p.mtag }
    if eager && 112 < len then s1.modRecv fun r => { r with partials := r.partials ++ [(m, len - 112)] } else s1.arriveMsg m

/-- A pull request, or pulled payload: 128 bytes to a packet, an empty packet where it cannot be had (R372, R378; log 14). -/
def State.pullPacket (s : State) (p : Packet) : State :=
  if p.cls == 2 then
    match s.recv.landing.find? fun l => l.2.1.mtag == p.mtag && l.2.1.fromFn == p.src.toNat && !l.2.2 with
    | none => s
    | some (cmd, m, _) =>
      let want := match s.cmd? cmd with | some c => min m.len (uLen c.unit) | none => 0
      let bs := (m.payload ++ p.payload).take want
      if want ≤ bs.length then s.pulled p.src.toNat p.mtag (some bs) []
      else s.modRecv fun r => { r with landing := updIf (·.1 == cmd) (fun l => (l.1, { l.2.1 with payload := bs }, false)) r.landing }
  else if p.payload == [] then s.pulled p.src.toNat p.mtag none []
  else
    match s.cmds.find? fun c => uKind c.unit == 0x11 && c.msg == some p.mtag.toNat with
    | some c => s.modRecv fun r => { r with pulls := r.pulls ++ [(c.id, leNat (p.payload.take 16), p.src.toNat, p.mtag, p.addr.setWidth 24)] }
    | none => s.sendPulled p.src.toNat (p.mtag, p.addr.setWidth 24) none

/-- A placement report names a send by its message's tag (R374, R378). -/
def State.reportPacket (s : State) (p : Packet) : State :=
  match s.cmds.find? fun c => uKind c.unit == 0x11 && c.msg == some p.mtag.toNat with
  | some c => s.modRecv fun r => { r with reports := r.reports ++ [(c.id, BitVec.ofNat 16 (p.addr.toNat / 2 ^ 24))] }
  | none => s

/-- A notice of loss or revocation: payload byte 0 its kind, bytes 2–3 the number, bytes 8–15 and 16–23 a range (log 14). -/
def State.noticePacket (s : State) (p : Packet) : State :=
  let b (i n : Nat) : Nat := leNat ((p.payload.drop i).take n)
  match b 0 1 with
  | 0 => s.losePackage (b 2 2)
  | 1 => s.loseNode (b 2 2)
  | 2 => s.loseRange (b 2 2) (b 8 8) (b 16 8)
  | _ => s.revoke (b 2 2) (b 8 8) (b 16 8)

/-- What a home sends about a line has overtaken the answer to a request for it, and waits until that has been used. -/
def State.grantPending (s : State) (line : Nat) : Bool :=
  s.coh.fetches.any fun f => f.line == line && f.used.isNone && f.op.toNat ≤ 3 && ((s.peerLine? line).isNone || f.answer.isSome)

/-- A packet must wait: for another package's copy of the line it names, behind requests to the line that came before it, for accesses
translated through the line, or for an answer that it has overtaken (R277, R280, R289, R381, R382). -/
def State.mustWait (s : State) (p : Packet) : Bool :=
  let line := p.localLine
  let busy : Bool := s.lineTaken line || s.hostQueued line || (s.xlatLine line && !s.xlatIdle line s.uid)
  match p.op.toNat with
  | 0x01 => s.heldElsewhere p || s.lineTaken line || s.hostQueued line
  | 0x02 | 0x03 => s.heldElsewhere p || s.readElsewhere p || busy
  | 0x09 => p.more == 0 && (s.heldElsewhere p || s.readElsewhere p || busy)
  | 0x05 | 0x06 => s.grantPending (p.homeLine 1)
  | _ => false

/-- What a packet waits for is asked for. -/
def State.clearWay (s : State) (p : Packet) : State :=
  match p.op.toNat with
  | 0x01 => s.askRemote p.localLine
  | 0x02 | 0x03 | 0x09 => (s.askRemote p.localLine).invalSome p.localLine (· != p.src.toNat)
  | _ => s

/-- A packet takes effect. -/
def State.deliverPacket (s : State) (p : Packet) : State :=
  match p.op.toNat with
  | 0x01 => s.remoteRead p
  | 0x02 | 0x03 => s.remoteOwn p
  | 0x04 => s.remoteBack p
  | 0x05 | 0x06 => s.peerRecall p
  | 0x07 => match s.fetch? p.mtag with
    | some f => s.homeAnswer f [] false
    | none => if p.mtag == 0 then s.remoteAck p else s
  | 0x08 => match s.fetch? p.mtag with
    | some f => s.homeAnswer f p.payload true
    | none => s
  | 0x09 => s.takeAtomic p
  | 0x0A => s.recordPacket p
  | 0x0B => s.messagePacket p
  | 0x0C => s.pullPacket p
  | 0x0E => s.noticePacket p
  | 0x0F => s.reportPacket p
  | _ => s

/-! ## In order (R379, R380) -/

/-- The receiving side of a packet's delivery context. -/
def State.rxCtx (s : State) (p : Packet) : DCtx :=
  (s.fab.dctxs.find? fun d => !d.tx && d.fn == p.src.toNat && d.cls == p.cls.toNat && d.num == p.dctx).getD
    { fn := p.src.toNat, cls := p.cls.toNat, num := p.dctx, tx := false, txNext := 0, unacked := [], lastSent := s.time, rxNext := 0,
      early := [] }

/-- Set a receiving side. -/
def State.setRx (s : State) (d : DCtx) : State :=
  s.modFab fun f => { f with dctxs := putIf (fun x => !x.tx && x.fn == d.fn && x.cls == d.cls && x.num == d.num) d f.dctxs }

/-- Packets held for their turn are delivered in order; what one that must wait needs is asked for. -/
def State.pump : Nat → DCtx → State → State
  | 0, _, s => s
  | n + 1, d, s =>
    match d.early.find? (·.dseq == d.rxNext) with
    | none => s
    | some p =>
      if s.mustWait p then s.clearWay p
      else
        let d1 := { d with rxNext := d.rxNext + 1, early := d.early.filter (·.dseq != d.rxNext) }
        State.pump n d1 ((s.deliverPacket p).setRx d1)

/-- Every receiving side delivers what it can. -/
def State.pumpAll (s : State) : State :=
  (s.fab.dctxs.filter (!·.tx)).foldl (fun s d => State.pump (d.early.length + 1) d s) s

/-- The last packet delivered in order is acknowledged, outside every delivery context (R380). -/
def State.sendAck (s : State) (p : Packet) : State :=
  let d := s.rxCtx p
  if d.rxNext == 0 && d.early != [] then s
  else
    let q : Packet := { mkPacket p.src.toNat 0x0D 0 0 0 [] with src := s.fab.self, dctx := d.num, dseq := d.rxNext - 1 }
    s.transmit q (s.packetPorts p.src.toNat 0 0x0D 0)

/-- A packet has been received on a port. A copy of one already delivered is discarded: a critical one, the chaff copy, is only counted; for any
other the sender is told again what has been delivered. So is a copy of one held for its turn, which counts for nothing
(R378–R380). -/
def State.takePacket (s : State) (port : Nat) (p : Packet) : State :=
  if p.op == 0x0D then s.modTx p.src.toNat p.dctx fun d => d.acked p.dseq
  else
    let d := s.rxCtx p
    let ahead := (p.dseq - d.rxNext).toNat
    if 2 ^ 15 ≤ ahead then
      if p.cls == 0 then s.modPort port fun q => { q with chaff := q.chaff + 1 } else s.sendAck p
    else if d.early.any (·.dseq == p.dseq) then s
    else
      ((s.setRx { d with early := d.early ++ [p], lastSent := s.time }).pumpAll).sendAck p

/-! ## Flits (R377) -/

/-- The packets that some stream bytes hold, an error for each header with a reserved value, and the bytes of a packet not yet
whole. Zeros where a header would stand, or would begin, fill the rest of a flit (log 14). -/
def parseStream : Nat → List Byte → List (Option Packet) × List Byte
  | 0, bs => ([], bs)
  | fuel + 1, bs =>
    if bs.length < 16 then ([], if bs.all (· == 0) then [] else bs)
    else
      let h := leNat (bs.take 16)
      if h == 0 then ([], [])
      else
        let units := h / 2 ^ 16 % 2 ^ 8
        let n := if 8 < units then 16 else 16 + 16 * units
        if bs.length < n then ([], bs)
        else
          let (ps, rest) := parseStream fuel (bs.drop n)
          (Packet.ofHeader h (bs.drop 16) :: ps, rest)

/-- Each symbol that was corrected is reported to the I/O die's monitor, keyed by port and lane (R325, R377; log 14). -/
def State.flitCorrected (s : State) (port : Nat) (flit fixed : List Byte) : State :=
  let wrong := (List.range 256).filter fun i => flit.getD i 0 != fixed.getD i 0
  let key (i : Nat) : BitVec 64 := packBits 64 [(Config.flitArray.toNat, 56), (port, 40), (Config.flitLane i % 8, 0)]
  { s with agenda := wrong.map (fun i => ⟨0, .correctedError 32 (key i) none⟩) ++ s.agenda }

/-- The receiver asks for replay from the flit it expects (R377). -/
def State.askReplay (s : State) (port : Nat) : State := s.modPort port fun p => { (p.send s.time 3 []) with retryAsked := true }

/-- A link goes down: its traffic moves to the other ports of each route mask; a fabric number left without a port is lost
(R376, R377, R384). -/
def State.portDown (s : State) (port : Nat) : State :=
  match s.fab.ports[port]? with
  | none => s
  | some q =>
    if !q.up then s
    else
      let s1 := s.modPort port fun p => { p with up := false, replay := [], stream := [], fails := 0, retryAsked := false }
      let gone := (s1.fab.routes.filter fun r => r.2.getLsbD port && s1.routePorts r.1.toNat == []).map (·.1.toNat)
      let moved := s1.fab.dctxs.flatMap fun d => if d.tx then (d.unacked.filter (·.2.2.2.contains port)).map (·.1) else []
      gone.foldl State.loseNumber (moved.foldl (fun s p =>
        let ports := s.packetPorts p.dst.toNat p.cls p.op p.addr
        (s.modTx p.dst.toNat p.dctx fun d => { d with
          unacked := updIf (·.1.dseq == p.dseq) (fun u => (u.1, s.time, u.2.2.1, ports)) d.unacked, ports }).transmit p ports) s1)

/-- A kept flit carries a payload, and so has a number of its own. -/
def isPayloadFlit (f : BitVec 12 × List Byte) : Bool := leNat (f.2.take 4) / 2 ^ 28 == 1

/-- A retry request: the kept payload flits from the named number on are sent again, each once; 16 replays of one flit that fail in a row take the
link down (R377). -/
def State.retryFrom (s : State) (port : Nat) (fseq : BitVec 12) : State :=
  match s.fab.ports[port]? with
  | none => s
  | some q =>
    let n := if q.failSeq == fseq then q.fails + 1 else 1
    if 16 < n then s.portDown port
    else
      s.modPort port fun p =>
        let again := nub (p.replay.filter fun f => isPayloadFlit f && (f.1 - fseq).toNat < 2048)
        { p.queue s.time (256 * again.length) with
          failSeq := fseq, fails := n, replay := (p.replay ++ again).drop (p.replay.length + again.length - 256) }

/-- RETRY_REQUEST (R377). -/
def execRetryRequest (port : Nat) (fseq : BitVec 12) (s : State) : Outc := .next (s.retryFrom port fseq)

/-- LINK_DOWN (R377). -/
def execLinkDown (port : Nat) (s : State) : Outc := .next (s.portDown port)

/-- A payload flit in order: its bytes join the stream, and whole packets are received. -/
def State.takePayload (s : State) (port : Nat) (payload : List Byte) : State :=
  match s.fab.ports[port]? with
  | none => s
  | some q =>
    let (ps, rest) := parseStream 16 (q.stream ++ payload)
    let s1 := s.modPort port fun p => { p with stream := rest, rxNext := p.rxNext + 1, retryAsked := false }
    ps.foldl (fun s p => match p with
      | some p => if p.dst == s.fab.self then s.takePacket port p else s.modPort port fun q => { q with errors := q.errors + 1 }
      | none => s.modPort port fun q => { q with errors := q.errors + 1 }) s1

/-- A flit that has passed its CRC. -/
def State.takeFlit (s : State) (port : Nat) (b : List Byte) : State :=
  let h := leNat (b.take 4)
  let fseq : BitVec 12 := BitVec.ofNat 12 (h / 2 ^ 16)
  let s1 := s.modPort port fun p => { p with facked := BitVec.ofNat 12 (h / 2 ^ 4) }
  match h / 2 ^ 28 with
  | 0 | 2 => s1
  | 1 => match s1.fab.ports[port]? with
    | none => s1
    | some q =>
      if fseq == q.rxNext then s1.takePayload port ((b.drop 4).take 236)
      else if (fseq - q.rxNext).toNat < 2048 && !q.retryAsked then s1.askReplay port
      else s1
  | 3 => s1.retryFrom port fseq
  | _ => s.modPort port fun p => { p with errors := p.errors + 1 }

/-- FLIT_RECEIVE: a flit is corrected and checked; one that fails is discarded and asked for again (R377). -/
def execFlitReceive (port : Nat) (flit : List Byte) (s : State) : Outc :=
  match s.fab.ports[port]? with
  | none => .next s
  | some q =>
    if !q.up || flit.length != 256 then .next s
    else match fecCorrect flit with
      | none => .next (s.askReplay port)
      | some b =>
        let s1 := s.flitCorrected port flit b
        .next (if Config.crc64 (b.take 240) == BitVec.ofNat 64 (leNat ((b.drop 240).take 8)) then s1.takeFlit port b else s1.askReplay port)

end Sys2Proof.Machine
end

