-- ==== Sys2Proof/Machine/Ats.lean ====
section
/-! DEFINITION. Host translations (R293–R295): Translation Completions, Page Requests and their answers, invalidations. -/

namespace Sys2Proof.Machine

/-! ## Page Requests (R293) -/

/-- Page Requests wait in request order and are sent as the host's allocation allows; PRIREQ counts them (R293, R298). -/
def State.pumpPri (s : State) : State :=
  match s.host.pri.find? (!·.sent) with
  | none => s
  | some p =>
    if (s.host.pri.filter (·.sent)).length < Config.priAllocation then
      (s.modHost fun h => { h with pri := updIf (· == p) (fun p => { p with sent := true }) h.pri }).modCoh fun c => { c with
        prireq := (c.prireq + 1) % 2 ^ 64 }
    else s

/-- What a Translation Completion grants. -/
def grantAllows (g : AtsGrant) (p : PageReq) : Bool :=
  g.base ≤ p.page * 4096 && p.page * 4096 < g.base + g.size && (if p.wr then g.write else g.read)

/-- A translation is cached; the least recently used of 4,096 makes room (R293). -/
def State.cacheAtc (s : State) (pasid : Nat) (g : AtsGrant) : State :=
  s.modHost fun h =>
    let kept := if 4096 ≤ h.atc.length then h.atc.drop 1 else h.atc
    { h with atc := kept ++ [{ pasid, base := g.base, size := g.size, host := g.host, read := g.read, write := g.write }] }

/-- ATS_TRANSLATION_COMPLETION: a grant of the access needed is cached, a denial starts a Page Request (R293). -/
def execAtsTranslationCompletion (pasid iova : Nat) (grant : Option AtsGrant) (s : State) : Outc :=
  match s.host.ats.find? fun p => p.pasid == pasid && p.page == iova / 4096 with
  | none => .next s
  | some p =>
    let s1 := s.modHost fun h => { h with ats := h.ats.erase p }
    match grant with
    | some g =>
      if grantAllows g p then .next (s1.cacheAtc pasid g)
      else .next (s1.modHost fun h => { h with pri := h.pri ++ [{ p with sent := false }] }).pumpPri
    | none => .next (s1.modHost fun h => { h with pri := h.pri ++ [{ p with sent := false }] }).pumpPri

/-! ## Failed pages (R292, R294) -/

/-- Fibres held by a faulting access on a page raise the translation-fault trap. -/
def State.failFibres (s : State) (on : XWait) (live : Nat → Bool) : State :=
  s.fibres.foldl (fun s f => match f.cond with
    | .waiting (.fault x cap) => if x == on && live (s.ctxOf f.key) then s.takeTrap f.key (.cap cTransl cap) f.pc else s
    | _ => s) s

/-- Accesses that the I/O die holds for a page fail: a plain store as an entry of the side log, any other at its instruction (R172–R174,
R292, R293); a prefetch is dropped (R161). -/
def State.failHeld (s : State) (pasid page : Nat) (live : Nat → Bool) : State :=
  let hit (o : MemOp) : Bool := (match o.loc with | .host p v => p == pasid && v / 4096 == page | _ => false) && live (s.ctxOf o.key)
  (s.ops.filter hit).foldl (fun s o =>
    match o.kind with
    | .pref _ => s.finishOp o
    | _ =>
      if o.sideable then (s.dropOp o.id).logSide o (s.ctxOf o.key) o.hostRoot (.page pasid page)
      else (s.cancelOp o.id).asyncTrap o (.cap cTransl o.cap)) s

/-- Side-log entries that wait on a page are discarded, context by context. -/
def State.failSide (s : State) (on : XWait) (live : Nat → Bool) : State :=
  let es := s.side.filter fun e => e.on == on && live e.ctx
  (nub (es.map (·.ctx))).foldl (fun s c =>
    match es.filter (·.ctx == c) with
    | e :: l => s.discardSide (e :: l) e 0x000E
    | [] => s) s

/-- The object and extent of an operand of a matrix operation that lie on the page it is held on (R402). -/
def State.heldAbout (s : State) (o : MatOp) (on : XWait) : BitVec 64 × Nat :=
  let about (t : TileRef) (n : Nat) : List (BitVec 64 × Nat) := match t with
    | .scratch _ => []
    | .mem obj space home cls off _ =>
      let root := (rootWindow obj space home cls).root
      (piecesOf off n).filterMap fun p => match on, s.lookup o.ctx root p.1 false with
        | .page pasid page, .at (.host q v) _ => if q == pasid && v / 4096 == page then some (obj, s.extOf o.ctx root p.1) else none
        | _, _ => none
  (about o.a (o.m * o.sa) ++ about o.b (o.k * o.sb) ++ about o.prm (384 * o.chunks)).headD (0, 0)

/-- A command that waits on a page stops (R292, R374). -/
def State.failCmd (s : State) (c : Cmd) : State := if uKind c.unit == 0x11 then s.endSend c.id 0x000E else s.stopChunk c 0x000E

/-- Pulls whose payload waits on a page fail (R374). -/
def State.failPulls (s : State) (on : XWait) (live : Nat → Bool) : State :=
  s.recv.pulls.foldl (fun s p => match s.cmd? p.1 with
    | none => s
    | some c => match c.refs.head? with
      | none => s
      | some src => match (s.readSource c src 0 p.2.1 (62 * 4096 < p.2.1)).1 with
        | .wait x =>
          if x == on && live c.ctx then
            ((s.modRecv fun r => { r with pulls := r.pulls.erase p }).sendPulled p.2.2.1 p.2.2.2 none).endSend p.1 0x000E
          else s
        | _ => s) s

/-- Launch records whose reads wait on a page are rejected (R333). -/
def State.failRecords (s : State) (on : XWait) (live : Nat → Bool) : State :=
  let waits {α : Type} (r : Checked α) : Bool := match r with | .wait (some x) _ => x == on | _ => false
  let s1 := s.ctxs.foldl (fun s c => match s.part? c.part, c.mail1.h2d with
    | some p, e :: rest =>
      let r := Record.ofBits e
      if live c.id && waits (s.checkRecord (State.distCore p) c p r .mailbox) then
        (s.modMail c.id 1 fun m => { m with h2d := rest }).mailOut c.id 1 (launchEntry 0x000E 0 0 r.id c.id)
      else s
    | _, _ => s) s
  s.ops.foldl (fun s o =>
    match s.sheaf? o.key.sheaf with
    | none => s
    | some h => match s.ctx? h.ctx with
      | none => s
      | some c => match s.part? c.part with
        | none => s
        | some p =>
          if o.kind == .qpush && h.bind o.queue == 6 && live c.id && s.opReady o && !s.recordBefore o
              && waits (s.checkRecord (1536 + coreDie h.core) c p (Record.ofBits o.unit) (.queue h.uid o.queue)) then
            s.finishPush o h 0x000E
          else s) s1

/-- Every access of the live contexts that waits on a page fails (R292, R294). -/
def State.failPage (s : State) (pasid page : Nat) (live : Nat → Bool) : State :=
  let on := XWait.page pasid page
  let s1 := (((s.failRecords on live).failPulls on live).failHeld pasid page live).failSide on live
  let s2 := s1.failFibres on live
  let s3 := (s2.matq.filter fun o => o.held == some on && live o.ctx).foldl (fun s o => s.failMat o (.plain cTransl) (s.heldAbout o on)) s2
  (s3.cmds.filter fun c => c.st == .waiting on && live c.ctx).foldl State.failCmd s3

/-- PAGE_REQUEST_RESPONSE: applied to each waiting access whose context's generation matches; a response that matches none is
discarded and counted (R294). -/
def execPageRequestResponse (pasid iova : Nat) (success : Bool) (s : State) : Outc :=
  let discard (s : State) : State := s.modCoh fun c => { c with pridisc := (c.pridisc + 1) % 2 ^ 64 }
  match s.host.pri.find? fun p => p.sent && p.pasid == pasid && p.page == iova / 4096 with
  | none => .next (discard s)
  | some p =>
    let live := p.waiters.filter fun w => (s.ctx? w.1).any (·.gen == w.2)
    let drop (s : State) : State := s.modHost fun h => { h with pri := h.pri.erase p }
    if live == [] then .next (discard (drop s)).pumpPri
    else if success then
      .next (((drop s).modHost fun h => { h with ats := h.ats ++ [{ p with waiters := live }] }).modCoh fun c => { c with
        atsreq := (c.atsreq + 1) % 2 ^ 64 }).pumpPri
    else
      let s1 := s.failPage pasid p.page fun c => live.any (·.1 == c)
      .next (s1.modHost fun h => { h with pri := h.pri.filter fun x => !(x.pasid == pasid && x.page == p.page) }).pumpPri

/-! ## Invalidations (R295) -/

/-- Releasing operations that still wait and were translated through a removed translation start again from their
instructions. -/
def State.restartOps (s : State) (uses : Loc → Bool) : State :=
  (s.ops.filter fun o => uses o.loc && !o.released).foldl (fun s o => match s.fib? o.key with
    | some f => (s.abandonHold f).setCond f.key .unbatched
    | none => s) s

/-- ATS_INVALIDATION_REQUEST: every cached translation that overlaps goes; what still uses one is noted (R295). -/
def execAtsInvalidationRequest (pasid iova size : Nat) (s : State) : Outc :=
  let hit (a : Atc) : Bool := a.pasid == pasid && a.base < iova + size && iova < a.base + a.size
  let gone := s.host.atc.filter hit
  let uses (l : Loc) : Bool := match l with | .hostPa x => gone.any fun a => a.host ≤ x && x < a.host + a.size | _ => false
  let users := (s.ops.filter fun o => uses o.loc && o.released).map (·.id) ++ (s.cmds.filter fun c => c.chunk.any fun p => uses p.1).map (·.id)
  .next ((s.restartOps uses).modHost fun h => { h with
    atc := h.atc.filter fun a => !hit a, invals := h.invals ++ [(pasid, iova, size, users)] })

/-- INVALIDATION_COMPLETION: nothing uses a removed translation any more, and the completion is sent (R295). -/
def execInvalidationCompletion (s : State) : Outc :=
  let busy (id : Nat) : Bool := s.ops.any (·.id == id) || s.cmds.any fun c => c.id == id && c.chunk != []
  match s.host.invals.find? fun v => !v.2.2.2.any busy with
  | none => .next s
  | some v => .next (s.modHost fun h => { h with invals := h.invals.erase v, invalDone := h.invalDone + 1 })

end Sys2Proof.Machine
end

