-- ==== Sys2Proof/Machine/Reliability.lean ====
section
/-! DEFINITION. The reliability monitors (R325–R329), uncorrectable errors (R324) and the weight store's refresh (R284). -/

namespace Sys2Proof.Machine

/-- The kinds of chiplet (R405). -/
inductive ChipKind where
  | compute | base | cache | stack | io
  deriving DecidableEq, Repr

/-- A chiplet's kind, as its fuses hold it (R405). -/
def chipKind (i : Nat) : ChipKind := if i < 8 then .compute else if i < 12 then .base else if i < 20 then .cache else if i < 32 then .stack else .io

/-! ## Corrected errors (R325–R328) -/

/-- The multipliers of R325. -/
def bloomMul : List Nat := [0x9E3779B97F4A7C15, 0xC2B2AE3D27D4EB4F, 0x165667B19E3779F9, 0xD6E8FEB86659FD93]

/-- The four positions of a key (R325). -/
def bloomBits (key : Dword) : List Nat := bloomMul.map fun m => key.toNat * m % 2 ^ 64 / 2 ^ 48

/-- A filter holds every position of a key. -/
def inFilter (f : List Nat) (key : Dword) : Bool := (bloomBits key).all f.contains

/-- REPMAX, RATEMAX, AUTOREMAP and TRIALEN (R329). -/
def Monitor13.repMax (m : Monitor13) : Nat := bitsOf m.cfg 24 8
def Monitor13.rateMax (m : Monitor13) : Nat := bitsOf m.cfg 16 8
def Monitor13.autoRemap (m : Monitor13) : Bool := m.cfg.getLsbD 1
def Monitor13.trialEn (m : Monitor13) : Bool := m.cfg.getLsbD 0
/-- FROZEN of a rail domain. -/
def Monitor13.frozenDom (m : Monitor13) (j : Nat) : Bool := m.cfg.getLsbD (12 + j)

/-- Nanoseconds of a day, and of a trial window. -/
def dayNs : Nat := 86400000000000
def trialNs : Nat := 250000000

/-- The array of a row key: kind and instance. -/
def arrayOf (key : Dword) : Nat := key.toNat / 2 ^ 40

/-- A monitor of the package. -/
def State.mon? (s : State) (c : Nat) : Option Monitor13 := s.rel.mons.find? (·.chiplet == c)
/-- Update a monitor. -/
def State.modMon (s : State) (c : Nat) (g : Monitor13 → Monitor13) : State :=
  { s with rel := { s.rel with mons := updIf (·.chiplet == c) g s.rel.mons } }

/-- A domain is in a trial window (R327). -/
def Domain.inTrial (d : Domain) (now : Nat) : Bool := match d.trial with | some t => now < t + trialNs | none => false

/-- A margin error: it joins the margin list of 64 keys, and an array that reaches RATEMAX errors in one second freezes its
domain and steps the voltage back one notch (R327) (DESIGN CHOICE; log 65). -/
def Monitor13.marginError (m : Monitor13) (j : Nat) (key : Dword) (now : Nat) : Monitor13 :=
  let list := (m.margin.filter (·.1 != key)) ++ [(key, now, j)]
  let m1 := { m with margin := list.drop (list.length - 64) }
  match m1.domains[j]? with
  | none => m1
  | some d =>
    let errs := d.errs ++ [(arrayOf key, now)]
    let rate := (errs.filter fun e => e.1 == arrayOf key && now < e.2 + 1000000000).length
    if m.rateMax ≤ rate then
      { m1 with cfg := m1.cfg ||| BitVec.ofNat 32 (2 ^ (12 + j)), domains := m1.domains.set j { notches := d.notches - 1, trial := none, errs := [], frozeAt := some now } }
    else { m1 with domains := m1.domains.set j { d with errs } }

/-- A repeat adds one to its key's count; the least recently used of 256 entries makes room (R326). -/
def Monitor13.countRepeat (m : Monitor13) (key : Dword) : Monitor13 × Nat :=
  let n := match m.repeats.find? (·.1 == key) with | some x => x.2 + 1 | none => 1
  let rest := m.repeats.filter (·.1 != key)
  let kept := if 256 ≤ rest.length then rest.drop 1 else rest
  ({ m with repeats := kept ++ [(key, n)] }, n)

/-- A repeat (R326): past REPMAX the row is remapped where its array has a spare row, and a notice goes to the host; an array that is
found to have none left requests a replacement, once (R329, R330). -/
def State.repeatError (s : State) (m : Monitor13) (key : Dword) : State :=
  let (m1, n) := m.countRepeat key
  let s1 := s.modMon m.chiplet fun _ => m1
  if n ≤ m.repMax || !m.autoRemap then s1
  else if (m.remapped.filter fun k => arrayOf k == arrayOf key).length < Config.spareRows (arrayOf key) then
    (s1.modMon m.chiplet fun m => { m with
      repeats := m.repeats.filter (·.1 != key), remapped := m.remapped ++ [key] }).notice 4 0 (key.setWidth 512)
  else if m.spent.contains (arrayOf key) then s1
  else (s1.modMon m.chiplet fun m => { m with spent := m.spent ++ [arrayOf key] }).replacement

/-- A key of the margin list errs again within 24 hours, after its domain has been frozen (R328). -/
def Monitor13.marginRepeat (m : Monitor13) (key : Dword) (now : Nat) : Bool :=
  m.margin.any fun x => x.1 == key && now < x.2.1 + dayNs
    && (match (m.domains[x.2.2]?).bind (·.frozeAt) with | some t => x.2.1 ≤ t | none => false)

/-- CORRECTED_ERROR: a margin error during a trial window of its domain; a repeat; or a first occurrence, logged and set in the
current filter (R325–R328). -/
def execCorrectedError (mon : Nat) (key : Dword) (dom : Option Nat) (s : State) : Outc :=
  match s.mon? mon with
  | none => .next s
  | some m =>
    let trial := match dom with
      | some j => match m.domains[j]? with | some d => d.inTrial s.time | none => false
      | none => false
    if trial then .next (s.modMon mon fun m => m.marginError (dom.getD 0) key s.time)
    else if m.marginRepeat key s.time || inFilter m.filterA key || inFilter m.filterB key then .next (s.repeatError m key)
    else
      let add (f : List Nat) : List Nat := nub (f ++ bloomBits key)
      .next ((s.errLog (.first mon key)).modMon mon fun m =>
        if m.current then { m with filterB := add m.filterB } else { m with filterA := add m.filterA })

/-- The filters at a day: at each multiple of 24 hours that has passed, the filter that is not current is cleared and becomes current
(R326). -/
def Monitor13.aged (m : Monitor13) (day : Nat) : Monitor13 :=
  match day - m.lastAge with
  | 0 => m
  | 1 => if m.current then { m with filterA := [], current := false, lastAge := day } else { m with filterB := [], current := true, lastAge := day }
  | n + 2 => { m with filterA := [], filterB := [], current := m.current != (n % 2 == 1), lastAge := day }

/-- FILTER_AGEING: sr.time has passed a multiple of 24 hours (R326). -/
def execFilterAgeing (mon : Nat) (s : State) : Outc := .next (s.modMon mon fun m => m.aged (s.time / dayNs))

/-- MARGIN_TRIAL_WINDOW: the power controller lowers a compute die's domain by a notch for a trial window, while TRIALEN is 1 and
the domain is not frozen (R327). -/
def execMarginTrialWindow (mon dom : Nat) (s : State) : Outc :=
  match s.mon? mon with
  | none => .next s
  | some m => match m.domains[dom]? with
    | none => .next s
    | some d =>
      if 8 ≤ mon || !m.trialEn || m.frozenDom dom || d.inTrial s.time then .next s
      else .next (s.modMon mon fun m => { m with domains := m.domains.set dom { d with notches := d.notches + 1, trial := some s.time, errs := [] } })

/-- MARGIN_KEY_EXPIRY: a key that has not recurred within 24 hours leaves the list (R328). -/
def execMarginKeyExpiry (mon : Nat) (key : Dword) (s : State) : Outc :=
  .next (s.modMon mon fun m => { m with margin := m.margin.filter fun x => !(x.1 == key && x.2.1 + dayNs ≤ s.time) })

/-! ## Uncorrectable errors (R324) -/

/-- The major opcode of the instruction a fibre stands at, 0 where it stands at none. -/
def State.majorAt (s : State) (f : Fibre) : Nat :=
  match f.clause, s.launchOf f.key with
  | some _, some l => match instrAt (s.codeWord l) f.pc.toNat with | .ok i => majorOf i | .error _ => 0
  | _, _ => 0

/-- A fibre that reads a damaged register raises the machine check, and its core is fenced (R318, R319, R324). -/
def State.registerError (s : State) (f : Fibre) : State :=
  match f.cond with
  | .ended | .held .trap => s.fenceCore f.core
  | _ => ((s.abandonHold f).takeTrap f.key ⟨cMachine, 0, machineInfo (s.majorAt f) f.key.quad f.key.lane 0⟩ f.pc).fenceCore f.core

/-- A core's caches drop their copies of a line, which the next use of it fetches anew (R324). -/
def State.refetch (s : State) (core line : Nat) : State :=
  { (s.modCoh fun c => { c with
      l2 := updIf (·.line == line) (fun l => { l with l1 := l.l1.filter (·.core != core) }) c.l2 }) with
    roc := s.roc.filter fun r => !(r.core == core && r.line == line)
    ic := s.ic.filter fun r => !(r.core == core && r.line == line) }

/-- The unit of an array that holds a byte is poisoned (R324; log 75). -/
def State.spoilUnit (s : State) (l : Loc) : State := match s.keyOf l with | some k => s.addPoison (poisonUnit k) | none => s

/-- The fill of a line into a cache of a core fails its hash: the line is fetched anew; where that fails too, the interval that the
die L2 holds is violated (R311, R315). What the hash came to is not stated (log 17). -/
def State.badFill (s : State) (core line : Nat) (twice : Bool) : State :=
  match s.l2? (coreDie core) line with
  | none => s
  | some l =>
    let s1 := s.refetch core line
    if !twice then s1
    else
      let (got, s2) := s1.freeBits
      s2.violate { line, n := l.iv, cause := 4, holder := hCore core, supplier := hL2 l.die, exp := lineHash l.data, got }

/-- UNCORRECTABLE_ERROR (R324): a clean cache refetches its line, a register file raises the machine check, any other array gives
poison, which wakes fibres armed on the line (R214); or an upset spoils what a unit does next (R105, R309–R311), or a stack or cache die goes out of service (R330). -/
def execUncorrectableError (site : ErrSite) (s : State) : Outc :=
  match site with
  | .cleanCache core line => .next (s.refetch core line)
  | .registerFile u fid => match s.fib? ⟨u, fid⟩ with
    | some f => .next (s.registerError f)
    | none => .next s
  | .other line => .next ((s.addPoison line).wakeLine line)
  | .scratchpad core addr => .next (s.addPoison (poisonUnit (scratchKey core addr)))
  | .swapStore u bank off => match s.sheaf? u with
    | some h => .next (if h.saved then s.spoilUnit (.scratch u bank off) else s)
    | none => .next s
  | .weightStore die addr => .next (s.spoilUnit (.weight die addr))
  | .commitLog id => match s.op? id with
    | some o => .next (s.opPoisoned o)
    | none => .next s
  | .fill core line twice => .next (s.badFill core line twice)
  | .atomicUnits slice => .next (s.modCoh fun c => { c with atomUpset := nub (c.atomUpset ++ [slice]) })
  | .setResult u j fid twice => .next (s.modSet u j fun js => { js with upset := some (fid, twice) })
  | .landing cmd twice => .next (s.modCmd cmd fun c => { c with struck := if twice then 2 else 1 })
  | .service c => .next (if chipKind c == .cache || chipKind c == .stack then s.replacement else s)

/-- WEIGHT_STORE_REFRESH: the bank now refreshing is (sr.time div 1,000) mod 64 on every die, so that nothing beside sr.time
says which it is: sr.wsbank and each read of the store form it (R39, R157, R158, R284). -/
def execWeightStoreRefresh (_die : Nat) (s : State) : Outc := .next s

end Sys2Proof.Machine
end

