-- ==== Sys2Proof/Machine/Boot.lean ====
section
/-! DEFINITION. Chiplet identity and attestation (R405–R409), link keys (R408), the reset of one compute die (R410), firmware
images (R411, R412), bring-up (R413, R414), over-temperature (R415), package reset and power-on. -/

namespace Sys2Proof.Machine

/-- Update the bring-up state. -/
def State.modBoot (s : State) (g : Boot → Boot) : State := { s with boot := g s.boot }

/-- A chiplet. -/
def State.chiplet (s : State) (i : Nat) : Chiplet := s.boot.chiplets.getD i Chiplet.reset
/-- Update a chiplet. -/
def State.modChiplet (s : State) (i : Nat) (g : Chiplet → Chiplet) : State :=
  s.modBoot fun b => { b with chiplets := b.chiplets.zipIdx.map fun x => if x.2 == i then g x.1 else x.1 }

/-- The notice that a chiplet has been quarantined or re-attested (R404, R407). -/
def State.attestNotice (s : State) (i : Nat) : State := s.notice 6 0 (BitVec.ofNat 512 ((s.chiplet i).bits + i * 2 ^ 32))

/-! ## Quarantine (R311, R330, R409) -/

/-- Sheafs that are lost: their fibres, operations, commands and everything else of theirs go. -/
def State.dropSheafs (s : State) (us : List Nat) : State :=
  let mine (id : Nat) : Bool := match s.cmd? id with | some c => us.contains c.sheaf | none => false
  let s1 := s.modRecv fun r => { r with
    postings := r.postings.filter fun p => !mine p.cmd
    landing := r.landing.filter fun l => !mine l.1
    reports := r.reports.filter fun x => !mine x.1
    pulls := r.pulls.filter fun p => !mine p.1 }
  let s2 := (s1.cmds.filter fun c => us.contains c.sheaf).foldl (fun s d => s.freeWeight d.id) s1
  { s2 with
    sheafs := s2.sheafs.filter fun h => !us.contains h.uid
    fibres := s2.fibres.filter fun f => !us.contains f.key.sheaf
    warps := (s2.warps.map fun w => { w with members := w.members.filter fun k => !us.contains k.sheaf }).filter (·.members != [])
    ops := s2.ops.filter fun o => !us.contains o.key.sheaf
    side := s2.side.filter fun e => !us.contains e.op.key.sheaf
    log := s2.log.filter fun e => !us.contains e.key.sheaf
    owed := s2.owed.filter fun e => !us.contains e.key.sheaf
    matq := s2.matq.filter fun m => !us.contains m.sheaf
    batches := (s2.batches.map fun b => { b with lanes := b.lanes.filter fun l => !us.contains l.1.sheaf }).filter (·.lanes != [])
    cmds := s2.cmds.filter fun c => !us.contains c.sheaf }

/-- The lowest of the other dies that share a line. -/
def State.otherSharer (s : State) (d line : Nat) : Option Nat :=
  (minBy? id ((s.coh.l2.filter fun l => l.line == line && l.die != d && l.st == .s).map (·.die)))

/-- The lines of which a die is the writer, or the sole holder of the expected data (R311). -/
def State.dieDamages (s : State) (d : Nat) : List Nat :=
  nub ((s.coh.dir.filter fun e => e.writer == some d).map (·.line)
    ++ (s.coh.l2.filter fun l => l.die == d && (l.st == .m || (l.st == .o && (s.otherSharer d l.line).isNone))).map (·.line))

/-- Data newer than the slice's that a lost die owned and another die shares stay with that die, which owns them from now on
(DEDUCED; log 92). -/
def State.inherit (s : State) (d line : Nat) : State :=
  match s.l2? d line, s.dir? line, s.otherSharer d line with
  | some l, some e, some x =>
    if l.st == .o then
      (s.modCoh fun c => { c with l2 := updIf (fun y => y.die == x && y.line == line) (fun y => { y with st := .o }) c.l2 }).setDir
        { e with owner := x, sharers := e.sharers.filter (· != x) }
    else s
  | _, _, _ => s

/-- A die no longer holds anything: what is in flight to it is delivered first. -/
def State.emptyDie (s : State) (d : Nat) : State :=
  let lines := nub (s.coh.msgs.filterMap fun m => match m with
    | .data x l _ _ _ _ _ _ _ => if x == d then some l else none
    | .inval x l _ => if x == d then some l else none
    | .recall x l => if x == d then some l else none
    | .ack _ x l => if x == d then some l else none)
  let s1 := lines.foldl State.quiesce s
  s1.modCoh fun c => { c with
    reqs := c.reqs.filter (·.die != d), mshr := c.mshr.map fun m => (m.1, m.2.filter (·.die != d)) }

/-- A compute die is handled as quarantined (R311, R330, R342, R409): its damaged intervals are closed as violations, its copies and
its sheafs are lost, QMASK and REPLREQ are set. -/
def State.loseDie (s : State) (d : Nat) : State :=
  let s1 := s.emptyDie d
  let hurt := s1.dieDamages d
  let held := (s1.coh.l2.filter (·.die == d)).map (·.line)
  let s2 := hurt.foldl (fun s line => s.damaged line (hL2 d)) s1
  let s3 := held.foldl (fun s line => ((s.inherit d line).dropL2 d line).dirLeave d line (hurt.contains line)) s2
  let s4 := s3.dropSheafs ((s3.sheafs.filter fun h => coreDie h.core == d).map (·.uid))
  let s5 : State := { s4.dropXc (·.die == d) with
    rel := { s4.rel with qmask := s4.rel.qmask ||| BitVec.ofNat 8 (2 ^ d) }
    roc := s4.roc.filter fun r => coreDie r.core != d
    ic := s4.ic.filter fun r => coreDie r.core != d
    cores := updIf (fun k => coreDie k.core == d && k.swap != .exchanging)
      (fun k => { k with swap := .empty, swapCtx := none, outgoing := none }) s4.cores }
  (s5.parts.foldl (fun s p => s.reschedule p.num) s5).replacement

/-- A chiplet enters QUARANTINED (R407, R409). -/
def State.quarantine (s : State) (i : Nat) (reason : BitVec 4) : State :=
  let s1 := (s.modChiplet i fun c => { c with st := .quarantined, reason }).attestNotice i
  if i < 8 then (s1.modBoot fun b => { b with resets := b.resets.filter (·.die != i) }).loseDie i
  else if s.boot.stage < 8 then s1.modBoot fun b => { b with fail := true, failChiplet := i }
  else ((s1.ctxs.map (·.id)).foldl State.freezeCtx s1).replacement

/-! ## The service sheafs (R42, R44) -/

/-- Bytes of an image as a number. -/
def Image.field (i : Image) (at_ n : Nat) : Nat := leNat ((i.bytes.drop at_).take n)

/-- The service context (R42): it belongs to no partition. -/
def serviceContext (gen now : Nat) : Ctx :=
  let box : Mailbox := { h2d := [], h2dCount := 0, d2h := [], d2hAccepted := 0, produced := 0, consumed := 0, ring := none, status := 0 }
  { id := serviceCtx, gen, part := 256, slot := 256, fn := 0, prioCeil := 3, htbase := 0, htlen := 0, tslice := 0, wbudget := 0,
    flags := 0, frozen := false, faulted := false, saveBase := 0, recvBase := 0, keys := [], sliceStart := now, sliceLen := 0,
    budget := 0, charge := [], snapSeq := 0, faultPos := 0, mail0 := box, mail1 := box, runnableAt := now, discarded := [] }

/-- The service sheaf of a die is placed on its service core, with the firmware as its code (R44, R413; log 34). -/
def State.startService (s : State) (img : Image) (d : Nat) : State :=
  let k := Config.serviceKernel img.bytes
  let v := img.field k 64
  match (if descOk v img.bytes.length then planOn [] (Desc.ofNat v) else none) with
  | none => s
  | some p =>
    let (u, s1) := s.fresh
    let desc := Desc.ofNat v
    let l : Launch :=
      { uid := u, ctx := serviceCtx, part := 256, id := 0, prio := 0, minDies := 1, maxDies := 1, sheafs := 1, desc, args := 0
        table := 0, codeCap := 0, codeLen := img.bytes.length, code := codeCells img.bytes, codeMap := [], back := .none
        phase := .running, step := 0, start := desc.entry, held := [d], next := 1, cont := none, stray := 0, scheds := [] }
    let s2 : State := { s1 with launches := s1.launches ++ [l] }
    let s3 := s2.putSheaf l 0 (1536 + d) p
    { s3 with sheafs := updIf (·.launch == u) (fun h => { h with priv := true }) s3.sheafs }

/-- A die's service core, reset with its die, starts its service sheaf anew (R44, R410, R413; log 34). -/
def State.restartService (s : State) (d : Nat) : State :=
  if 8 ≤ d || (s.ctx? serviceCtx).isNone || s.sheafs.any (·.core == 1536 + d) then s
  else
    let s1 : State := { s with launches := s.launches.filter fun l => !(l.ctx == serviceCtx && l.held == [d]) }
    (s1.setCore { s1.coreSt (1536 + d) with halted := false }).startService s1.boot.run d

/-! ## Attestation (R406, R407) -/

/-- The root attests chiplets 0 to 31 from stage 2 on. -/
def State.attests (s : State) (i : Nat) : Bool := i < 32 && 2 ≤ s.boot.stage && s.boot.stage ≤ 8 && !s.boot.fail

/-- SIDEBAND_ANSWER (R407). -/
def execSidebandAnswer (i : Nat) (s : State) : Outc :=
  .next (if s.attests i && (s.chiplet i).st == .off then s.modChiplet i fun c => { c with st := .unverified } else s)

/-- ATTESTATION_BEGIN (R406, R407). -/
def execAttestationBegin (i : Nat) (s : State) : Outc :=
  .next (if s.attests i && (s.chiplet i).st == .unverified then
    s.modChiplet i fun c => { c with st := .challenging, challengedAt := s.time } else s)

/-- The serial number on a chiplet's certificate: the one it has presented, else that of its fuses (R405, R406). -/
def State.certSerial (s : State) (j : Nat) : BitVec 64 := (s.chiplet j).serial.getD (Config.fusedSerial j)

/-- REASON of a verdict: 0 where every condition of R406 holds. The serial number must be on no other chiplet's certificate, the
I/O die's own among them (R405). -/
def State.verdict (s : State) (i : Nat) (v : SpdmVerdict) : BitVec 4 :=
  let twin := (List.range 33).any fun j => j != i && s.certSerial j == v.serial
  if !v.chain then 1 else if !v.ed25519 then 2 else if !v.mldsa then 3 else if !v.measurement then 4
  else if twin then 6 else if v.revoked then 7 else 0

/-- SPDM_RESPONSE, within 100 ms (R406, R407). -/
def execSpdmResponse (i : Nat) (v : SpdmVerdict) (s : State) : Outc :=
  if !s.attests i || (s.chiplet i).st != .challenging || (s.chiplet i).challengedAt + 100000000 ≤ s.time then .next s
  else
    let r := s.verdict i v
    let s1 := s.modChiplet i fun c => { c with serial := some v.serial }
    .next (if r == 0 then s1.modChiplet i fun c => { c with st := .verified, passes := c.passes + 1, reason := 0 }
      else s1.quarantine i r)

/-- CHALLENGE_TIMEOUT: no response within 100 ms (R407). -/
def execChallengeTimeout (i : Nat) (s : State) : Outc :=
  let c := s.chiplet i
  if !s.attests i || c.st != .challenging || s.time < c.challengedAt + 100000000 then .next s
  else .next (if c.timedOut then s.quarantine i 5 else s.modChiplet i fun c => { c with st := .unverified, timedOut := true })

/-- A link's state: fresh generation-0 keys where nothing else is recorded (R408). -/
def State.link (s : State) (tx rx : Nat) : Link :=
  (s.boot.links.find? fun l => l.tx == tx && l.rx == rx).getD { tx, rx, gen := 0, roll := .idle, fails := [] }

/-- Set a link's state. -/
def State.setLink (s : State) (l : Link) : State :=
  s.modBoot fun b => { b with links := putIf (fun x => x.tx == l.tx && x.rx == l.rx) l b.links }

/-- KEY_EXCHANGE_COMPLETE: generation-0 keys at both ends of each of its links (R407). -/
def execKeyExchangeComplete (i : Nat) (s : State) : Outc :=
  if !s.attests i || s.boot.stage < 3 || (s.chiplet i).st != .verified then .next s
  else .next ((s.modChiplet i fun c => { c with st := .keyed, keygen := 0 }).modBoot fun b => { b with
    links := b.links.filter fun l => l.tx != i && l.rx != i })

/-- LINK_TRAINED: the chiplet is ACTIVE; a re-attestation sends a notice, and a die that MOP 0x12 reset returns to the partitions'
masks, its service sheaf started anew (R404, R407, R410). -/
def execLinkTrained (i : Nat) (s : State) : Outc :=
  if !s.attests i || s.boot.stage < 3 || (s.chiplet i).st != .keyed then .next s
  else
    let forced := s.boot.resets.any fun r => r.die == i && r.force
    let again := (s.chiplet i).again
    let s1 := (s.modChiplet i fun c => { c with st := .active, timedOut := false }).modBoot fun b => { b with
      resets := b.resets.filter (·.die != i) }
    let s2 : State := if forced then { s1 with rel := { s1.rel with qmask := s1.rel.qmask &&& ~~~BitVec.ofNat 8 (2 ^ i) } } else s1
    .next (if again then (s2.restartService i).attestNotice i else s2)

/-- A chiplet leaves ACTIVE (R407). -/
def State.deactivate (s : State) (i : Nat) : State :=
  s.modChiplet i fun c => { c with st := .unverified, again := true, timedOut := false }

/-- No step of a tenant's launch holds a die, and what had sheafs on it has been pre-empted and saved (R410). -/
def State.dieFree (s : State) (d : Nat) : Bool :=
  !s.dieHeld d && s.sheafs.all fun h => h.ctx == serviceCtx || h.saved || coreDie h.core != d

/-- CHIPLET_RESET: an ACTIVE chiplet is reset alone. A compute die is reset by MOP 0x12 once no step holds it and its contexts are saved,
after its L2 has written back its dirty lines; its service sheaf ends with it (R407, R410). -/
def execChipletReset (i : Nat) (s : State) : Outc :=
  if !s.attests i || (s.chiplet i).st != .active then .next s
  else if 8 ≤ i then .next (s.deactivate i)
  else if !s.boot.resets.any (·.die == i) || !s.dieFree i then .next s
  else
    let s1 := s.emptyDie i
    let s2 := ((s1.coh.l2.filter (·.die == i)).foldl State.returnCopy s1).dropXc (·.die == i)
    let s3 := s2.dropSheafs ((s2.sheafs.filter (·.core == 1536 + i)).map (·.uid))
    .next ({ s3 with
      roc := s3.roc.filter fun r => coreDie r.core != i, ic := s3.ic.filter fun r => coreDie r.core != i }.deactivate i)

/-! ## Link keys (R408) -/

/-- A link carries data: both its ends are ACTIVE (R407). -/
def State.linkUp (s : State) (tx rx : Nat) : Bool := tx != rx && (s.chiplet tx).st == .active && (s.chiplet rx).st == .active

/-- LINK_AUTH_FAILURE: the flit is discarded and replayed; the third failure within a millisecond sends the transmitting chiplet back
to UNVERIFIED (R407, R408). -/
def execLinkAuthFailure (tx rx : Nat) (s : State) : Outc :=
  if !s.linkUp tx rx then .next s
  else
    let l := s.link tx rx
    let fails := (l.fails.filter fun t => s.time < t + 1000000) ++ [s.time]
    let s1 := s.setLink { l with fails }
    .next (if 3 ≤ fails.length && tx < 32 then s1.deactivate tx else s1)

/-- A roll-over moves from one step to the next (R408). -/
def State.rollTo (s : State) (tx rx : Nat) (a b : Roll) : State :=
  let l := s.link tx rx
  if s.linkUp tx rx && l.roll == a then s.setLink { l with roll := b } else s

/-- KEY_ROLLOVER: the root sends key g + 1 to the receiver (R408, step 1; log 18). -/
def execKeyRollover (tx rx : Nat) (s : State) : Outc := .next (s.rollTo tx rx .idle .sentReceiver)
/-- ROLLOVER_RECEIVER_ACK: the receiver holds both keys, and the root sends key g + 1 to the transmitter (R408, steps 1, 2). -/
def execRolloverReceiverAck (tx rx : Nat) (s : State) : Outc := .next (s.rollTo tx rx .sentReceiver .sentTransmitter)
/-- SWITCH_FLIT (R408, step 3). -/
def execSwitchFlit (tx rx : Nat) (s : State) : Outc := .next (s.rollTo tx rx .sentTransmitter .switched)
/-- SWITCH_ACKNOWLEDGE (R408, step 4). -/
def execSwitchAcknowledge (tx rx : Nat) (s : State) : Outc := .next (s.rollTo tx rx .switched .acknowledged)

/-- KEY_ERASE: the transmitter's replay buffer holds no flit under key g any more, which this event stands for; both ends erase key g, and
KEYGEN advances (R406, R408, step 5) (DEDUCED; log 18, log 60). -/
def execKeyErase (tx rx : Nat) (s : State) : Outc :=
  let l := s.link tx rx
  if !s.linkUp tx rx || l.roll != .acknowledged then .next s
  else
    let g : BitVec 8 := BitVec.ofNat 8 (l.gen + 1)
    .next (((s.setLink { l with gen := l.gen + 1, roll := .idle }).modChiplet tx fun c => { c with keygen := g }).modChiplet rx fun c => { c with keygen := g })

/-! ## Firmware images (R411) -/

/-- SVN of an image. -/
def Image.svn (i : Image) : Nat := i.field 12 4

/-- An image that may be run: magic, length, zeros, both signatures, and an SVN not below the fused counter's (R411; log 12). -/
def Image.ok (i : Image) (svn : Nat) : Bool :=
  let n := i.field 16 8
  let signed := i.bytes.take 64 ++ (i.bytes.take n).drop 4096
  4096 ≤ n && n ≤ 2 ^ 28 && n ≤ i.bytes.length && i.field 0 8 == 0x5A46574C494D4B01 && i.field 24 40 == 0 && i.field 3437 659 == 0
    && Config.ed25519Verifies signed ((i.bytes.drop 64).take 64) && Config.mldsaVerifies signed ((i.bytes.drop 128).take 3309)
    && svn ≤ i.svn

/-! ## Bring-up (R413, R414) -/

/-- A stage begins. -/
def State.goStage (s : State) (n : Nat) : State := s.modBoot fun b => { b with stage := n, stageSince := s.time }

/-- The time limit of a stage in nanoseconds (R413). -/
def stageLimit (n : Nat) : Nat := 1000000000 * [0, 2, 4, 1, 3, 1, 2, 1].getD n 0

/-- Bring-up stands at a stage, within its time limit (R413). -/
def State.atStage (s : State) (n : Nat) : Bool :=
  s.boot.stage == n && !s.boot.fail && decide (s.time < s.boot.stageSince + stageLimit n)

/-- Recovery: the kindling stage trains PCIe itself (R414). -/
def State.recovery (s : State) : State :=
  ((s.goStage 15).modBoot fun b => { b with pcieUp := [true, true] }).modHost fun h => { h with active := 0, renewed := s.time }

/-- The I/O die, as the package root, is ACTIVE once its boot ROM has passed. -/
def State.rootUp (s : State) : State := s.modChiplet 32 fun c => { c with st := .active }

/-- KINDLING_STAGE: a valid flash image leads to stage 2, none to recovery (R411, R413, R414). -/
def execKindlingStage (s : State) : Outc :=
  if !s.atStage 1 then .next s
  else
    .next (if s.boot.current.ok s.boot.svn then (s.rootUp.modBoot fun b => { b with run := b.current }).goStage 2 else s.rootUp.recovery)

/-- Every chiplet the root attests has come as far as some states, or is a quarantined compute die. -/
def State.allChiplets (s : State) (ok : Att → Bool) : Bool :=
  (List.range 32).all fun i => ok (s.chiplet i).st || (i < 8 && (s.chiplet i).st == .quarantined)

/-- CHIPLET_ATTESTATION_STAGE (R413). -/
def execChipletAttestationStage (s : State) : Outc :=
  .next (if s.atStage 2 && s.allChiplets fun a => a == .verified || a == .keyed || a == .active then s.goStage 3 else s)

/-- LINK_TRAINING_STAGE (R413). -/
def execLinkTrainingStage (s : State) : Outc := .next (if s.atStage 3 && s.allChiplets (· == .active) then s.goStage 4 else s)

/-- A stage fails (R413). -/
def State.failStage (s : State) (chiplet : Nat) : State := s.modBoot fun b => { b with fail := true, failChiplet := chiplet }

/-- HBM_TRAINING_STAGE: all 12 stacks, or FAIL (R413). -/
def execHbmTrainingStage (up : BitVec 12) (s : State) : Outc :=
  if !s.atStage 4 then .next s
  else match (List.range 12).find? fun i => !up.getLsbD i with
    | none => .next (s.goStage 5)
    | some i => .next (s.failStage (20 + i))

/-- PCIE_TRAINING_STAGE: ACTIVE names the first port to finish, port 0 where both finish in the same cycle (R389, R413)
(DESIGN CHOICE; log 58). -/
def execPcieTrainingStage (up0 up1 : Bool) (first : Nat) (s : State) : Outc :=
  if !s.atStage 5 then .next s
  else
    let active := if up0 && up1 then (if first == 1 then 1 else 0) else if up1 then 1 else 0
    .next (((s.goStage 6).modBoot fun b => { b with pcieUp := [up0, up1] }).modHost fun h => { h with active, renewed := s.time })

/-- FALBY_TRAINING_STAGE: untrained ports stay down (R377, R413). -/
def execFalbyTrainingStage (up : BitVec 16) (s : State) : Outc :=
  if !s.atStage 6 then .next s
  else .next ((s.goStage 7).modFab fun f => { f with
    ports := f.ports.zipIdx.map fun x => { x.1 with up := up.getLsbD x.2 } })

/-- FIRMWARE_STAGE: the service sheafs of the attested dies start; where one cannot, the stage fails (R413) (DESIGN CHOICE; log 58). -/
def execFirmwareStage (s : State) : Outc :=
  if !s.atStage 7 || (s.ctx? serviceCtx).isSome then .next s
  else
    let (g, s1) := s.fresh
    let s2 : State := { s1 with ctxs := s1.ctxs ++ [serviceContext g s1.time] }
    let dies := (List.range 8).filter s2.dieInService
    let s3 := dies.foldl (fun s d => s.startService s.boot.run d) s2
    .next (match dies.find? fun d => !s3.sheafs.any (·.core == 1536 + d) with
      | some d => s3.modBoot fun b => { b with fail := true, failChiplet := d }
      | none => s3)

/-- READY: the fused counter rises to the running image's SVN (R412, R413). -/
def execReady (s : State) : Outc :=
  .next (if s.atStage 7 && (s.ctx? serviceCtx).isSome then
    (s.goStage 8).modBoot fun b => { b with svn := max b.svn b.run.svn } else s)

/-- BOOT_STAGE_TIMEOUT: a stage has passed its limit, with the action its row gives (R413). -/
def execBootStageTimeout (i : Nat) (s : State) : Outc :=
  let st := (s.chiplet i).st
  if s.boot.fail || s.boot.stage == 0 || 8 ≤ s.boot.stage || s.time < s.boot.stageSince + stageLimit s.boot.stage then .next s
  else
    match s.boot.stage with
    | 1 => .next s.rootUp.recovery
    | 2 =>
      if 32 ≤ i || st == .verified || st == .keyed || st == .active || st == .quarantined then .next s else .next (s.quarantine i 5)
    | 3 =>
      if 32 ≤ i || st == .active || st == .quarantined then .next s
      else if s.boot.retrained.contains i then .next (s.quarantine i 5)
      else .next (s.modBoot fun b => { b with retrained := b.retrained ++ [i], stageSince := s.time })
    | 5 => .next (s.goStage 6)
    | 6 => .next (s.goStage 7)
    | _ => .next (s.failStage i)

/-- What a package reset and power-on keep: inputs and counters of the model, memory (log 3), the module's wear (R326, R330), the
flash and the fuses (R411, R412). -/
def State.afresh (s : State) : State :=
  { State.reset with
    evno := s.evno, free := s.free, uid := s.uid, agenda := s.agenda, mem := s.mem, areas := s.areas
    cores := (s.cores.filter (·.lost)).map fun k => { k with halted := false, swap := .empty, swapCtx := none, outgoing := none }
    rel := { s.rel with
      qmask := 0, mons := s.rel.mons.map fun m => { Monitor13.reset m.chiplet with remapped := m.remapped, spent := m.spent, lastAge := m.lastAge } }
    boot := { State.reset.boot with current := s.boot.current, staged := s.boot.staged, svn := s.boot.svn } }

/-- POWER_ON: bring-up starts at stage 1, sr.time and the counters at 0 (R413). -/
def execPowerOn (s : State) : Outc :=
  .next { s.afresh with rel := { s.afresh.rel with mons := s.afresh.rel.mons.map fun m => { m with lastAge := 0 } } }

/-- PACKAGE_RESET: every chiplet returns to OFF and bring-up restarts at stage 1; sr.time, the counters since power-on, PASSES and
the sequence of context identifiers go on (R39, R42, R297, R399, R406, R407, R413). -/
def execPackageReset (s : State) : Outc :=
  let z := s.afresh
  .next { z with
    time := s.time, lastCtx := s.lastCtx
    coh := { z.coh with traffic := s.coh.traffic, pridisc := s.coh.pridisc, atsreq := s.coh.atsreq, prireq := s.coh.prireq }
    host := { z.host with
      laterej0 := s.host.laterej0, laterej1 := s.host.laterej1, mbxbad := s.host.mbxbad, nlost := s.host.nlost
      msix := s.host.msix, replies := s.host.replies }
    boot := { z.boot with
      stageSince := s.time, chiplets := s.boot.chiplets.map fun c => { Chiplet.reset with passes := c.passes } } }

/-- OVER_TEMPERATURE: at 105 °C every context is frozen, a notice goes out, and the rails are powered off: nothing runs, no
link and no port carries anything from then on (R415; log 59). -/
def execOverTemperature (i : Nat) (tenths : BitVec 16) (s : State) : Outc :=
  if tenths.toNat < 1050 || 33 ≤ i || s.boot.railsOff then .next s
  else
    let s1 := ((s.ctxs.map (·.id)).foldl State.freezeCtx s).notice 10 0 (packBits 512 [(tenths.toNat, 16), (i, 0)])
    .next ((s1.modBoot fun b => { b with railsOff := true }).modFab fun f => { f with ports := f.ports.map fun p => { p with up := false } })

end Sys2Proof.Machine
end

