-- ==== Sys2Proof/Machine/Convert.lean ====
section
/-! DEFINITION. Conversion, packing, residues and the per-lane dot products (R127–R131, R201). -/

namespace Sys2Proof.Machine

/-- `cvt` on the bits of a source type (R94, R95, R127): the bits of the destination type. -/
def cvtVal (md : Rnd) (dt src : Ty) (ftz : Bool) (a : Nat) : Nat :=
  match tyFmt src, tyFmt dt with
  | some sf, some df => df.write ftz md (sf.read ftz a)
  | some sf, none =>
    wrap dt.bits ((sf.read ftz a).toInt md (rangeLo (tySigned dt) dt.bits) (rangeHi (tySigned dt) dt.bits))
  | none, some df => df.write ftz md (FV.ofInt (ival (tySigned src) src.bits a))
  | none, none =>
    wrap dt.bits (clampInt (rangeLo (tySigned dt) dt.bits) (rangeHi (tySigned dt) dt.bits) (ival (tySigned src) src.bits a))

/-- Residue j of a residue register (R18). -/
def residue (e : Dword) (j : Nat) : Nat := e.toNat / 2 ^ (16 * j) % 2 ^ 16
/-- Replace residue j (R18). -/
def setResidue (e : Dword) (j v : Nat) : Dword :=
  BitVec.ofNat 64 (e.toNat - residue e j * 2 ^ (16 * j) + v % 2 ^ 16 * 2 ^ (16 * j))

/-- `cvt.ef` of one fibre (R101, R128). -/
def cvtEfFibre (md : Rnd) (dt : Ty) (d a : Reg) (e : BitVec 3) (j : BitVec 2) (f : Fibre) : Fibre :=
  let old := f.residues.getD e.toNat 0
  let (y, new) := cvtEfStep (fmtOf dt) md (f.reg a).toNat (residue old j.toNat)
  { f.put dt d y with residues := f.residues.set e.toNat (setResidue old j.toNat new) }

/-- `pack`: B with elements idx and idx + 1 replaced (R130). -/
def packVal (t : Ty) (idx a b c : Nat) : Nat :=
  let w := elemBits t
  ofElems w ((List.range t.lanes).map fun i =>
    if i == idx then a % 2 ^ w else if i == idx + 1 then c % 2 ^ w else elem w i b)

/-- `unpack` (R131). -/
def unpackVal (t : Ty) (idx a : Nat) : Nat :=
  let w := elemBits t
  let e := elem w idx a
  if tySigned t then wrap 32 (sval w e) else e

/-- The sign of an exact zero of a dot product: −0 when every term is −0; otherwise +0, or −0 under .rm (R100; log 21). -/
def dotZero (md : Rnd) (terms : List FV) (v : FV) : FV :=
  match v with
  | .num _ 0 _ => .num (terms.all FV.isNeg || md == .rm) 0 0
  | _ => v

/-- A floating-point dot product: exact products and one rounding (R100). -/
def dotFloat (t : Ty) (md : Rnd) (a b c : Nat) : Nat :=
  let f := fmtOf t
  let w := elemBits t
  let prods := (List.range t.lanes).map fun i => (f.value (elem w i a)).mul (f.value (elem w i b))
  let terms := prods ++ [Fmt.f32.value c]
  Fmt.f32.round md (dotZero md terms (FV.sum md terms))

/-- An integer dot product modulo 2^32 (R100). -/
def dotInt (t : Ty) (a b c : Nat) : Nat :=
  let w := elemBits t
  let sum : Int := ((List.range t.lanes).map fun i =>
    ival (tySigned t) w (elem w i a) * ival (tySigned t) w (elem w i b)).foldl (· + ·) 0
  wrap 32 (sum + c)

/-- A dot product of one fibre (R201). -/
def dotFibre (t : Ty) (md : Rnd) (d a b c : Reg) (f : Fibre) : Fibre :=
  let x := (f.reg a).toNat
  let y := (f.reg b).toNat
  let z := (f.reg c).toNat
  f.setReg d (BitVec.ofNat 32 (match tyFmt t with | some _ => dotFloat t md x y z | none => dotInt t x y z))

/-- `cvt` (R127). -/
def execCvt (h : Hdr) (md : Rnd) (dt src : Ty) (d a : Reg) (s : State) : Outc :=
  regExec (.cvt h md dt src d a) (fun s f => f.put dt d (cvtVal md dt src (s.ftz f.key) (f.get src a))) s
/-- `cvt.ef` (R101, R128). -/
def execCvtEf (h : Hdr) (md : Rnd) (dt : Ty) (d a : Reg) (e : BitVec 3) (j : BitVec 2) (s : State) : Outc :=
  regExec (.cvtEf h md dt d a e j) (fun _ => cvtEfFibre md dt d a e j) s
/-- `eclr` (R102, R129). -/
def execEclr (h : Hdr) (e : BitVec 3) (s : State) : Outc :=
  regExec (.eclr h e) (fun _ f => { f with residues := f.residues.set e.toNat 0 }) s
/-- `pack` (R130). -/
def execPack (h : Hdr) (t : Ty) (d a b c : Reg) (idx : BitVec 3) (s : State) : Outc :=
  regExec (.pack h t d a b c idx) (fun _ f =>
    f.setReg d (BitVec.ofNat 32 (packVal t idx.toNat (f.reg a).toNat (f.reg b).toNat (f.reg c).toNat))) s
/-- `unpack` (R131). -/
def execUnpack (h : Hdr) (t : Ty) (d a : Reg) (idx : BitVec 3) (s : State) : Outc :=
  regExec (.unpack h t d a idx) (fun _ f => f.setReg d (BitVec.ofNat 32 (unpackVal t idx.toNat (f.reg a).toNat))) s
/-- `dot2` (R100, R201). -/
def execDot2 (h : Hdr) (md : Rnd) (t : Ty) (d a b c : Reg) (s : State) : Outc :=
  regExec (.dot2 h md t d a b c) (fun _ => dotFibre t md d a b c) s
/-- `dot4` (R100, R201). -/
def execDot4 (h : Hdr) (md : Rnd) (t : Ty) (d a b c : Reg) (s : State) : Outc :=
  regExec (.dot4 h md t d a b c) (fun _ => dotFibre t md d a b c) s
/-- `dot8` (R100, R201). -/
def execDot8 (h : Hdr) (t : Ty) (d a b c : Reg) (s : State) : Outc :=
  regExec (.dot8 h t d a b c) (fun _ => dotFibre t .rn d a b c) s

end Sys2Proof.Machine
end

