-- ==== Sys2Proof/Machine/Mgmt.lean ====
section
/-! DEFINITION. Management commands (R398–R403, R410, R412): each takes the oldest command of the queue where its MOP is that
command's, takes effect, and completes with an entry in the layout of R227. -/

namespace Sys2Proof.Machine

/-- A command's outcome: its status, AUX, and the state after it. -/
abbrev MopResult := BitVec 16 × Nat × State

/-- A command that is refused has no effect. -/
def State.refuse (s : State) (status : BitVec 16) : MopResult := (status, 0, s)
/-- A command that was carried out. -/
def State.done (s : State) : MopResult := (0, 0, s)

/-- A command completes: to the completion ring, or to the service queue of the issuing die (R398, R399). -/
def State.mopDone (s : State) (e : MqEntry) (status : BitVec 16) (aux : Nat) : State :=
  match e.back with
  | none => s.hostDone e.unit status aux
  | some (u, _) => match s.sheaf? u with
    | some h => s.svcPush (coreDie h.core) [⟨completionEntry (uMop e.unit) (uMopCtag e.unit) status 0 aux 0 0, false⟩]
    | none => s

/-- The oldest command of the queue, where it has a given MOP, takes effect (R398); after a quarantine outside the compute dies only MOP 0x04
and 0x05 do, and any other completes as one that is not accepted (R409; log 56). -/
def State.mop (s : State) (n : Nat) (run : MqEntry → State → MopResult) : Outc :=
  match s.host.mq with
  | [] => .next s
  | e :: rest =>
    if uMop e.unit != n then .next s
    else if s.crippled && n != 0x04 && n != 0x05 then .next ((s.modHost fun h => { h with mq := rest }).mopDone e 0x0005 0)
    else
      let (status, aux, s1) := run e (s.modHost fun h => { h with mq := rest })
      .next (s1.mopDone e status aux)

/-- A double of a command. -/
def MqEntry.d (e : MqEntry) (i : Nat) : Nat := ufield e.unit i 0 64

/-- Bits of a double of a command. -/
def MqEntry.f (e : MqEntry) (i lo n : Nat) : Nat := ufield e.unit i lo n

/-! ## Partitions (R400) -/

/-- The cores a command asks for; none where it is malformed (R400). -/
def State.askedCores (s : State) (e : MqEntry) : Option (List Nat) :=
  let live (l : List Nat) : List Nat := l.filter fun c => !(s.coreSt c).lost
  let l :=
    if e.f 1 8 1 == 1 then
      if e.f 1 0 8 != 0 then [] else match e.map with
        | some bs => live ((List.range 1536).filter fun i => (bs.getD (i / 8) 0).getLsbD (i % 8))
        | none => []
    else live ((List.range 1536).filter fun i => (e.f 1 0 8).testBit (i / 192))
  if l == [] then none else some l

/-- CREATE_PARTITION: MOP 0x01 (R398, R400). -/
def execCreatePartition (s : State) : Outc :=
  s.mop 0x01 fun e s =>
    match s.askedCores e with
    | none => s.refuse 0x0002
    | some cores =>
      let taken := s.parts.any fun p => cores.any p.cores.contains
      match (List.range 256).find? fun n => !s.parts.any (·.num == n) with
      | none => s.refuse 0x0005
      | some n =>
        if taken then s.refuse 0x0005
        else
          let p : Part := { num := n, cores, made := cores, objTable := e.d 2, withhold := BitVec.ofNat 8 (e.f 3 0 8), resident := none,
                            incoming := none, halting := false, wsHold := [] }
          (0, n, { s with parts := s.parts ++ [p] })

/-- DESTROY_PARTITION: MOP 0x02 (R398). -/
def execDestroyPartition (s : State) : Outc :=
  s.mop 0x02 fun e s =>
    match s.part? (e.f 1 0 8) with
    | none => s.refuse 0x0002
    | some p =>
      if s.ctxs.any (·.part == p.num) then s.refuse 0x0005 else ({ s with parts := s.parts.filter (·.num != p.num) } : State).done

/-- SET_WITHHOLD_MASK: MOP 0x16, from the start of each launch's next step (R342, R398). -/
def execSetWithholdMask (s : State) : Outc :=
  s.mop 0x16 fun e s =>
    match s.part? (e.f 1 0 8) with
    | none => s.refuse 0x0002
    | some p => (s.modPart p.num fun p => { p with withhold := BitVec.ofNat 8 (e.f 2 0 8) }).done

/-- REQUEST_PREEMPTION: MOP 0x06 (R345, R398). -/
def execRequestPreemption (s : State) : Outc :=
  s.mop 0x06 fun e s => if (s.part? (e.f 1 0 8)).isNone then s.refuse 0x0002 else (s.preempt (e.f 1 0 8)).done

/-! ## Contexts (R42, R398, R401–R403) -/

/-- The next identifier above the last one assigned that names no existing context; after 0xFF_FFFE the sequence starts again at 1
(R42). -/
def State.nextCtx (s : State) : Nat → Nat → Nat
  | 0, x => x
  | n + 1, x =>
    let y := x % 0xFFFFFE + 1
    if (s.ctx? y).isSome then s.nextCtx n y else y

/-- A mailbox pair of a new context. -/
def Mailbox.fresh : Mailbox :=
  { h2d := [], h2dCount := 0, d2h := [], d2hAccepted := 0, produced := 0, consumed := 0, ring := none, status := 0 }

/-- CREATE_CONTEXT: MOP 0x03 (R42, R398). -/
def execCreateContext (s : State) : Outc :=
  s.mop 0x03 fun e s =>
    let htlen := e.f 3 0 25
    if (s.part? (e.f 1 0 8)).isNone || 17 ≤ e.f 1 16 5 || e.d 2 % 32 != 0 || 2 ^ 24 < htlen then s.refuse 0x0002
    else
      let id := s.nextCtx (s.ctxs.length + 1) s.lastCtx
      let (g, s1) := s.fresh
      let c : Ctx :=
        { id, gen := g, part := e.f 1 0 8, slot := e.f 1 8 8, fn := e.f 1 16 6, prioCeil := e.f 1 22 2
          htbase := BitVec.ofNat 64 (e.d 2), htlen, tslice := BitVec.ofNat 32 (e.f 3 32 32), wbudget := 0, flags := 0, frozen := false
          faulted := false, saveBase := 0, recvBase := 0, keys := [], sliceStart := s.time, sliceLen := 0, budget := 0, charge := []
          snapSeq := 0, faultPos := 0, mail0 := Mailbox.fresh, mail1 := Mailbox.fresh, runnableAt := s.time, discarded := [] }
      (0, id, { s1 with ctxs := s1.ctxs ++ [c], lastCtx := id })

/-- A context that a command names; none for the service context and for one that does not exist (R398). -/
def State.tenant (s : State) (id : Nat) : Option Ctx := if id == serviceCtx then none else s.ctx? id

/-- The function a command names. -/
def MqEntry.fnOf (e : MqEntry) : Nat × Nat := (e.f 1 5 1, e.f 1 0 5)

/-- A host function is killed: the contexts it owns are, and its requests are discarded from then on (R398, R401; log 35). -/
def State.killFn (s : State) (port fn : Nat) : State :=
  let s1 := (s.ctxs.filter (·.fn == fnCode port fn)).foldl (fun s c => s.killCtx c.id) s
  s1.freezeFn port fn

/-- KILL_CONTEXT: MOP 0x04 (R398, R403). -/
def execKillContext (s : State) : Outc :=
  s.mop 0x04 fun e s =>
    if e.f 1 63 1 == 1 then
      let (port, fn) := e.fnOf
      if isFn port fn then (s.killFn port fn).done else s.refuse 0x0002
    else match s.tenant (e.f 1 0 24) with
      | none => s.refuse 0x0002
      | some c => (s.killCtx c.id).done

/-- A host function is released: its TDI stays as it is until TDISP moves it (R388, R401). -/
def State.releaseFn (s : State) (port fn : Nat) : State := s.setFn { s.fnSt port fn with frozen := false, rejected := [] }

/-- RELEASE_FROZEN_MASTER: MOP 0x05 (R398, R401, R402). -/
def execReleaseFrozenMaster (s : State) : Outc :=
  s.mop 0x05 fun e s =>
    if e.f 1 63 1 == 1 then
      let (port, fn) := e.fnOf
      if isFn port fn then (s.releaseFn port fn).done else s.refuse 0x0002
    else match s.tenant (e.f 1 0 24) with
      | none => s.refuse 0x0002
      | some c => (s.releaseCtx c.id).done

/-- A write to a per-context register (R41, R42, R398). -/
def State.setKs (s : State) (x idx v : Nat) : Option State :=
  match idx with
  | 0x82 => if v % 32 == 0 then some (s.setHandles x fun c => { c with htbase := BitVec.ofNat 64 v }) else none
  | 0x84 => if v ≤ 2 ^ 24 then some (s.setHandles x fun c => { c with htlen := v }) else none
  | 0x85 => if v < 2 ^ 32 then some (s.modCtx x fun c => { c with tslice := BitVec.ofNat 32 v }) else none
  | 0x86 => if v < 2 ^ 32 then some (s.modCtx x fun c => { c with wbudget := BitVec.ofNat 32 v }) else none
  | 0x87 => if v < 2 then some (s.modCtx x fun c => { c with flags := BitVec.ofNat 32 v }) else none
  | 0x8D => if v < 2 then some (if v == 0 then s.releaseCtx x else s) else none
  | 0x8E => if v < 2 then some (if v == 1 then s.killCtx x else s) else none
  | _ => none

/-- SET_CONTEXT_REGISTERS: MOP 0x07 (R398). -/
def execSetContextRegisters (s : State) : Outc :=
  s.mop 0x07 fun e s =>
    match s.tenant (e.f 1 0 24) with
    | none => s.refuse 0x0002
    | some c => match s.setKs c.id (e.f 2 0 8) (e.d 3) with
      | none => s.refuse 0x0002
      | some s1 => s1.done

/-- SET_SAVE_FAULT_RECEIVE_AREAS: MOP 0x08 (R352, R372, R398). -/
def execSetSaveFaultReceiveAreas (s : State) : Outc :=
  s.mop 0x08 fun e s =>
    match s.ctx? (e.f 1 0 24) with
    | none => s.refuse 0x0002
    | some c => (s.modCtx c.id fun c => { c with saveBase := e.d 2, recvBase := e.d 3 }).done

/-- SET_MAILBOX_RINGS: MOP 0x09; what was held goes to the ring by MAILBOX_RING_WRITE (R393, R398). -/
def execSetMailboxRings (s : State) : Outc :=
  s.mop 0x09 fun e s =>
    match s.ctx? (e.f 1 0 24) with
    | none => s.refuse 0x0002
    | some c => (s.modMail c.id (e.f 1 24 1) fun m => { m with ring := some (e.d 2), status := e.d 3 }).done

/-- WRITE_KEY_SLOT: MOP 0x0B; the block is a 32-byte key and a 4-byte fixed field (R365, R398). -/
def execWriteKeySlot (s : State) : Outc :=
  s.mop 0x0B fun e s =>
    match s.ctx? (e.f 1 0 24) with
    | none => s.refuse 0x0002
    | some c =>
      let slot := e.f 1 24 8
      let l := devLoc (e.d 2)
      let held (i : Nat) : Bool := match (l.add i).line? with | some line => !s.poisoned line | none => false
      let keep (c : Ctx) : List KeySlot := c.keys.filter (·.slot != slot)
      if e.f 1 32 1 == 0 then (s.modCtx c.id fun c => { c with keys := keep c }).done
      else if e.d 2 % 16 != 0 then s.refuse 0x0016
      else if 3 * 2 ^ 40 ≤ e.d 2 || !(List.range 36).all held then s.refuse 0x0002
      else
        let k : KeySlot := { slot, key := BitVec.ofNat 256 (s.newestNat l 32), fixed := BitVec.ofNat 32 (s.newestNat (l.add 32) 4), last := 0 }
        (s.modCtx c.id fun c => { c with keys := keep c ++ [k] }).done

/-- SET_ENDPOINT: MOP 0x0C (R368, R398). -/
def execSetEndpoint (s : State) : Outc :=
  s.mop 0x0C fun e s =>
    let ep : BitVec 24 := BitVec.ofNat 24 (e.f 1 0 24)
    let pkg : BitVec 12 := BitVec.ofNat 12 (e.f 1 24 12)
    if pkg == s.fab.self && (s.ctx? (e.f 1 40 24)).isNone then s.refuse 0x0002
    else (s.modRecv fun r => { r with endpoints := putIf (·.1 == ep) (ep, pkg, e.f 1 40 24) r.endpoints }).done

/-! ## The package (R282, R314, R329, R376, R384, R397, R404) -/

/-- WRITE_REPLACEMENT_CLASS: MOP 0x0A; a zero WAYMASK is ignored, a WPOL of 3 keeps the old one (R282). The operand is the value of a
register, so its reserved bits 15:10 and 7:4 are written without effect (R10, DEDUCED; log 81). -/
def execWriteReplacementClass (s : State) : Outc :=
  s.mop 0x0A fun e s =>
    let mask := e.f 2 16 16
    let old := s.classOf (e.f 1 0 3)
    let x : ClassEntry :=
      { waymask := BitVec.ofNat 16 mask, wpol := if e.f 2 8 2 == 3 then old.wpol else BitVec.ofNat 2 (e.f 2 8 2),
        prot := BitVec.ofNat 2 (e.f 2 2 2), ins := BitVec.ofNat 2 (e.f 2 0 2) }
    if mask == 0 then s.done
    else (s.modCoh fun c => { c with classes := c.classes.set (e.f 1 0 3) x }).done

/-- WRITE_ROUTE_ENTRY: MOP 0x0D; a fabric number whose mask becomes empty is lost (R376, R384, R385). -/
def execWriteRouteEntry (s : State) : Outc :=
  s.mop 0x0D fun e s =>
    let fn : BitVec 12 := BitVec.ofNat 12 (e.f 1 0 12)
    let s1 := s.modFab fun f => { f with
      routes := putIf (·.1 == fn) (fn, BitVec.ofNat 16 (e.f 1 16 16)) f.routes, unreachable := f.unreachable.filter (· != fn.toNat) }
    (if e.f 1 16 16 == 0 && s.routeMask fn.toNat != 0 then s1.loseNumber fn.toNat else s1).done

/-- RMCFG after a write: FROZEN is cleared by ones, a NOTCH of 0 is ignored (R329). -/
def rmcfgWrite (old v : Nat) : Nat :=
  let notch := if v / 2 ^ 8 % 16 == 0 then old / 2 ^ 8 % 16 else v / 2 ^ 8 % 16
  let frozen := (old / 2 ^ 12 % 16) &&& (15 - v / 2 ^ 12 % 16)
  v / 2 ^ 16 * 2 ^ 16 + frozen * 2 ^ 12 + notch * 2 ^ 8 + v % 4

/-- WRITE_MONITOR_REGISTER: MOP 0x0E (R329, R398). The operand is the value of a register, so its reserved bits 7:2 are written without
effect (R10, DEDUCED; log 81). -/
def execWriteMonitorRegister (s : State) : Outc :=
  s.mop 0x0E fun e s =>
    match s.mon? (e.f 1 0 8) with
    | none => s.refuse 0x0002
    | some m => (s.modMon m.chiplet fun m => { m with cfg := BitVec.ofNat 32 (rmcfgWrite m.cfg.toNat (e.f 2 0 32)) }).done

/-- CLEAR_POISONED_LINE: MOP 0x0F; a line of an orphaned package stays poisoned (R306, R314, R384). -/
def execClearPoisonedLine (s : State) : Outc :=
  s.mop 0x0F fun e s =>
    if e.f 1 50 2 == 3 then s.refuse 0x0002
    else (s.modCoh fun c => { c with poison := c.poison.filter (· != e.f 1 0 52) }).done

/-- CLEAR_ORPHANED_PACKAGE: MOP 0x10 (R384, R398). -/
def execClearOrphanedPackage (s : State) : Outc :=
  s.mop 0x10 fun e s =>
    let fn := e.f 1 0 12
    ((s.modCoh fun c => { c with orphans := c.orphans.filter (· != fn) }).modFab fun f => { f with
      lostPkgs := f.lostPkgs.filter (· != fn) }).done

/-- SET_NOTICE_RING: MOP 0x11; held notices go to it by NOTICE (R404). -/
def execSetNoticeRing (s : State) : Outc :=
  s.mop 0x11 fun e s => (s.modHost fun h => { h with noticeRing := some (e.d 1), noticePos := 0 }).done

/-- RESET_COMPUTE_DIE: MOP 0x12. The die takes no further step; CHIPLET_RESET resets it once it is free. With FORCE it is handled as
quarantined at once, and reset (R409, R410). A die that is not ACTIVE, or is being reset, is refused as busy (log 36). -/
def execResetComputeDie (s : State) : Outc :=
  s.mop 0x12 fun e s =>
    let d := e.f 1 0 3
    let force := e.f 1 8 1 == 1
    if (s.chiplet d).st != .active || s.boot.resets.any (·.die == d) then s.refuse 0x0005
    else
      let s1 := s.modBoot fun b => { b with resets := b.resets ++ [{ die := d, force }] }
      (if force then (s1.loseDie d).deactivate d else s1).done

/-- RESTART_SERVICE_CORE: MOP 0x13; every fibre of the core goes on where it stood (R397). -/
def execRestartServiceCore (s : State) : Outc :=
  s.mop 0x13 fun e s =>
    let c := 1536 + e.f 1 0 3
    (s.setCore { s.coreSt c with halted := false }).done

/-! ## Firmware (R411, R412, R414) -/

/-- STAGE_FIRMWARE_IMAGE: MOP 0x14, from a host; in recovery an image that passes runs from stage 2 at once (R412, R414, R448). -/
def execStageFirmwareImage (s : State) : Outc :=
  s.mop 0x14 fun e s =>
    let n := e.d 2
    if n < 4096 || 2 ^ 28 < n then s.refuse 0x0002
    else
      let img : Image := { bytes := (s.hostGet e.port (e.d 1) n).getD [] }
      if !img.ok s.boot.svn then ((0x0002 : BitVec 16), 0, s.modBoot fun b => { b with staged := { bytes := [] } })
      else
        let s1 := s.modBoot fun b => { b with staged := img }
        (if s.boot.stage == 15 then (s1.modBoot fun b => { b with run := img }).goStage 2 else s1).done

/-- COMMIT_STAGED_FIRMWARE: MOP 0x15 exchanges the staged image and the current one; with none staged it is refused (R412;
log 37). -/
def execCommitStagedFirmware (s : State) : Outc :=
  s.mop 0x15 fun _ s =>
    if s.boot.staged.bytes == [] then s.refuse 0x0002
    else (s.modBoot fun b => { b with current := b.staged, staged := b.current }).done

end Sys2Proof.Machine
end

