-- ==== Sys2Proof/Machine/Dispatch.lean ====
section
/-! DEFINITION. One arm for every row of the opcode table: a direct call of its meaning. -/

namespace Sys2Proof.Machine

/-- The meaning of one instruction or event. -/
def exec (i : Instr) (s : State) : Host.Outcome State Fault Refusal :=
  match i with
  | .bootStageTimeout chiplet => Sys2Proof.Machine.execBootStageTimeout chiplet s
  | .challengeTimeout chiplet => Sys2Proof.Machine.execChallengeTimeout chiplet s
  | .retransmitTimeout fn cls => Sys2Proof.Machine.execRetransmitTimeout fn cls s
  | .contextTeardown fn cls => Sys2Proof.Machine.execContextTeardown fn cls s
  | .mailboxRingWrite ctx pair => Sys2Proof.Machine.execMailboxRingWrite ctx pair s
  | .powerOn => Sys2Proof.Machine.execPowerOn s
  | .packageReset => Sys2Proof.Machine.execPackageReset s
  | .kindlingStage => Sys2Proof.Machine.execKindlingStage s
  | .chipletAttestationStage => Sys2Proof.Machine.execChipletAttestationStage s
  | .linkTrainingStage => Sys2Proof.Machine.execLinkTrainingStage s
  | .firmwareStage => Sys2Proof.Machine.execFirmwareStage s
  | .ready => Sys2Proof.Machine.execReady s
  | .issueCycle core quad upset => Sys2Proof.Machine.execIssueCycle core quad upset s
  | .warpDissolution core quad => Sys2Proof.Machine.execWarpDissolution core quad s
  | .longLatencyComplete op => Sys2Proof.Machine.execLongLatencyComplete op s
  | .releaseComplete sheaf fid => Sys2Proof.Machine.execReleaseComplete sheaf fid s
  | .userInterruptEntry sheaf fid => Sys2Proof.Machine.execUserInterruptEntry sheaf fid s
  | .pendingMatrixTrap sheaf fid => Sys2Proof.Machine.execPendingMatrixTrap sheaf fid s
  | .serviceQueueAdmit die => Sys2Proof.Machine.execServiceQueueAdmit die s
  | .batchRecord batch => Sys2Proof.Machine.execBatchRecord batch s
  | .sideLogReplay core => Sys2Proof.Machine.execSideLogReplay core s
  | .faultingLoadRetry obj ext => Sys2Proof.Machine.execFaultingLoadRetry obj ext s
  | .translationLineWrite op => Sys2Proof.Machine.execTranslationLineWrite op s
  | .iadd h ty sat d a b => Sys2Proof.Machine.execIadd h ty sat d a b s
  | .iaddImm32 h ty sat d a imm => Sys2Proof.Machine.execIaddImm32 h ty sat d a imm s
  | .iaddImm64 h ty d a imm => Sys2Proof.Machine.execIaddImm64 h ty d a imm s
  | .isub h ty sat d a b => Sys2Proof.Machine.execIsub h ty sat d a b s
  | .isubImm32 h ty sat d a imm => Sys2Proof.Machine.execIsubImm32 h ty sat d a imm s
  | .isubImm64 h ty d a imm => Sys2Proof.Machine.execIsubImm64 h ty d a imm s
  | .imul h ty d a b => Sys2Proof.Machine.execImul h ty d a b s
  | .imulImm32 h ty d a imm => Sys2Proof.Machine.execImulImm32 h ty d a imm s
  | .imulh h ty d a b => Sys2Proof.Machine.execImulh h ty d a b s
  | .imad h ty d a b c => Sys2Proof.Machine.execImad h ty d a b c s
  | .iaddc h borrow d a b c => Sys2Proof.Machine.execIaddc h borrow d a b c s
  | .imin h ty d a b => Sys2Proof.Machine.execImin h ty d a b s
  | .iminImm32 h ty d a imm => Sys2Proof.Machine.execIminImm32 h ty d a imm s
  | .imax h ty d a b => Sys2Proof.Machine.execImax h ty d a b s
  | .imaxImm32 h ty d a imm => Sys2Proof.Machine.execImaxImm32 h ty d a imm s
  | .iabs h ty d a => Sys2Proof.Machine.execIabs h ty d a s
  | .ineg h ty d a => Sys2Proof.Machine.execIneg h ty d a s
  | .bAnd h ty d a b => Sys2Proof.Machine.execBAnd h ty d a b s
  | .bAndImm32 h ty d a imm => Sys2Proof.Machine.execBAndImm32 h ty d a imm s
  | .bAndImm64 h ty d a imm => Sys2Proof.Machine.execBAndImm64 h ty d a imm s
  | .bOr h ty d a b => Sys2Proof.Machine.execBOr h ty d a b s
  | .bOrImm32 h ty d a imm => Sys2Proof.Machine.execBOrImm32 h ty d a imm s
  | .bOrImm64 h ty d a imm => Sys2Proof.Machine.execBOrImm64 h ty d a imm s
  | .bXor h ty d a b => Sys2Proof.Machine.execBXor h ty d a b s
  | .bXorImm32 h ty d a imm => Sys2Proof.Machine.execBXorImm32 h ty d a imm s
  | .bXorImm64 h ty d a imm => Sys2Proof.Machine.execBXorImm64 h ty d a imm s
  | .bAndn h ty d a b => Sys2Proof.Machine.execBAndn h ty d a b s
  | .bAndnImm32 h ty d a imm => Sys2Proof.Machine.execBAndnImm32 h ty d a imm s
  | .bAndnImm64 h ty d a imm => Sys2Proof.Machine.execBAndnImm64 h ty d a imm s
  | .bNot h ty d a => Sys2Proof.Machine.execBNot h ty d a s
  | .shl h ty d a b => Sys2Proof.Machine.execShl h ty d a b s
  | .shlImm32 h ty d a n => Sys2Proof.Machine.execShlImm32 h ty d a n s
  | .shr h ty d a b => Sys2Proof.Machine.execShr h ty d a b s
  | .shrImm32 h ty d a n => Sys2Proof.Machine.execShrImm32 h ty d a n s
  | .sra h ty d a b => Sys2Proof.Machine.execSra h ty d a b s
  | .sraImm32 h ty d a n => Sys2Proof.Machine.execSraImm32 h ty d a n s
  | .rot h ty d a b => Sys2Proof.Machine.execRot h ty d a b s
  | .rotImm32 h ty d a n => Sys2Proof.Machine.execRotImm32 h ty d a n s
  | .bfx h ty d a pos len => Sys2Proof.Machine.execBfx h ty d a pos len s
  | .bfi h ty d a b pos len => Sys2Proof.Machine.execBfi h ty d a b pos len s
  | .popc h ty d a => Sys2Proof.Machine.execPopc h ty d a s
  | .clz h ty d a => Sys2Proof.Machine.execClz h ty d a s
  | .ctz h ty d a => Sys2Proof.Machine.execCtz h ty d a s
  | .brev h ty d a => Sys2Proof.Machine.execBrev h ty d a s
  | .icmp h cc ty d a b => Sys2Proof.Machine.execIcmp h cc ty d a b s
  | .icmpImm32 h cc ty d a imm => Sys2Proof.Machine.execIcmpImm32 h cc ty d a imm s
  | .sel h ty d a b c bit => Sys2Proof.Machine.execSel h ty d a b c bit s
  | .fadd h md ty d a b => Sys2Proof.Machine.execFadd h md ty d a b s
  | .faddImm32 h md ty d a imm => Sys2Proof.Machine.execFaddImm32 h md ty d a imm s
  | .faddImm64 h md d a imm => Sys2Proof.Machine.execFaddImm64 h md d a imm s
  | .fsub h md ty d a b => Sys2Proof.Machine.execFsub h md ty d a b s
  | .fsubImm32 h md ty d a imm => Sys2Proof.Machine.execFsubImm32 h md ty d a imm s
  | .fsubImm64 h md d a imm => Sys2Proof.Machine.execFsubImm64 h md d a imm s
  | .fmul h md ty d a b => Sys2Proof.Machine.execFmul h md ty d a b s
  | .fmulImm32 h md ty d a imm => Sys2Proof.Machine.execFmulImm32 h md ty d a imm s
  | .fmulImm64 h md d a imm => Sys2Proof.Machine.execFmulImm64 h md d a imm s
  | .ffma h md ty d a b c => Sys2Proof.Machine.execFfma h md ty d a b c s
  | .fmin h ty d a b => Sys2Proof.Machine.execFmin h ty d a b s
  | .fmax h ty d a b => Sys2Proof.Machine.execFmax h ty d a b s
  | .fcmp h cc ty d a b => Sys2Proof.Machine.execFcmp h cc ty d a b s
  | .fclass h ty d a => Sys2Proof.Machine.execFclass h ty d a s
  | .frnd h md ty d a => Sys2Proof.Machine.execFrnd h md ty d a s
  | .frcp h ty d a => Sys2Proof.Machine.execFrcp h ty d a s
  | .frsq h ty d a => Sys2Proof.Machine.execFrsq h ty d a s
  | .fsqrt h md ty d a => Sys2Proof.Machine.execFsqrt h md ty d a s
  | .fexp2 h ty d a => Sys2Proof.Machine.execFexp2 h ty d a s
  | .flog2 h ty d a => Sys2Proof.Machine.execFlog2 h ty d a s
  | .fsin h ty d a => Sys2Proof.Machine.execFsin h ty d a s
  | .fcos h ty d a => Sys2Proof.Machine.execFcos h ty d a s
  | .cvt h md dt src d a => Sys2Proof.Machine.execCvt h md dt src d a s
  | .cvtEf h md dt d a e j => Sys2Proof.Machine.execCvtEf h md dt d a e j s
  | .eclr h e => Sys2Proof.Machine.execEclr h e s
  | .pack h ty d a b c idx => Sys2Proof.Machine.execPack h ty d a b c idx s
  | .unpack h ty d a idx => Sys2Proof.Machine.execUnpack h ty d a idx s
  | .dot2 h md ty d a b c => Sys2Proof.Machine.execDot2 h md ty d a b c s
  | .dot4 h md ty d a b c => Sys2Proof.Machine.execDot4 h md ty d a b c s
  | .dot8 h ty d a b c => Sys2Proof.Machine.execDot8 h ty d a b c s
  | .sshfl h mode ty d a b c set => Sys2Proof.Machine.execSshfl h mode ty d a b c set s
  | .svote h mode d a bit word set => Sys2Proof.Machine.execSvote h mode d a bit word set s
  | .sred h op ty d a set => Sys2Proof.Machine.execSred h op ty d a set s
  | .sscan h op excl ty d a set => Sys2Proof.Machine.execSscan h op excl ty d a set s
  | .setCollectiveComplete sheaf set => Sys2Proof.Machine.execSetCollectiveComplete sheaf set s
  | .sjoin h lock d set => Sys2Proof.Machine.execSjoin h lock d set s
  | .sleave h set => Sys2Proof.Machine.execSleave h set s
  | .sbar h set => Sys2Proof.Machine.execSbar h set s
  | .bra h disp => Sys2Proof.Machine.execBra h disp s
  | .brx h a => Sys2Proof.Machine.execBrx h a s
  | .brxL h d a => Sys2Proof.Machine.execBrxL h d a s
  | .call h d disp => Sys2Proof.Machine.execCall h d disp s
  | .ret h a => Sys2Proof.Machine.execRet h a s
  | .fspawn h d a disp p => Sys2Proof.Machine.execFspawn h d a disp p s
  | .fend h => Sys2Proof.Machine.execFend h s
  | .ld h ord sc hint direct ty d a disp => Sys2Proof.Machine.execLd h ord sc hint direct ty d a disp s
  | .st h ord sc hint ty v a disp => Sys2Proof.Machine.execSt h ord sc hint ty v a disp s
  | .ldRo h hint ty d a disp => Sys2Proof.Machine.execLdRo h hint ty d a disp s
  | .lds h ty d a disp => Sys2Proof.Machine.execLds h ty d a disp s
  | .sts h ty v a disp => Sys2Proof.Machine.execSts h ty v a disp s
  | .ldw h ty d a disp => Sys2Proof.Machine.execLdw h ty d a disp s
  | .ldwNb h ty d a disp st => Sys2Proof.Machine.execLdwNb h ty d a disp st s
  | .stx h ty v a disp k => Sys2Proof.Machine.execStx h ty v a disp k s
  | .pref h lvl a disp => Sys2Proof.Machine.execPref h lvl a disp s
  | .cwb h a disp => Sys2Proof.Machine.execCwb h a disp s
  | .cinv h a disp => Sys2Proof.Machine.execCinv h a disp s
  | .cflush h a disp => Sys2Proof.Machine.execCflush h a disp s
  | .hoffImm32 h d a imm => Sys2Proof.Machine.execHoffImm32 h d a imm s
  | .hoffUnsigned h d a b => Sys2Proof.Machine.execHoffUnsigned h d a b s
  | .hoffSigned h d a b => Sys2Proof.Machine.execHoffSigned h d a b s
  | .hoffPair h d a b => Sys2Proof.Machine.execHoffPair h d a b s
  | .hoffImm64 h d a imm => Sys2Proof.Machine.execHoffImm64 h d a imm s
  | .hnarrow h d a b c mask => Sys2Proof.Machine.execHnarrow h d a b c mask s
  | .hinfo h d a => Sys2Proof.Machine.execHinfo h d a s
  | .fence h kind sc => Sys2Proof.Machine.execFence h kind sc s
  | .atom h op ord sc ty d a disp b => Sys2Proof.Machine.execAtom h op ord sc ty d a disp b s
  | .atomDecFloat h op ord sc ty d a disp b => Sys2Proof.Machine.execAtomDecFloat h op ord sc ty d a disp b s
  | .atomc h ord sc ty d a b c disp => Sys2Proof.Machine.execAtomc h ord sc ty d a b c disp s
  | .red h op ord sc ty b a disp => Sys2Proof.Machine.execRed h op ord sc ty b a disp s
  | .redFloat h op ord sc ty b a disp => Sys2Proof.Machine.execRedFloat h op ord sc ty b a disp s
  | .mma fsel pair o => Sys2Proof.Machine.execMma fsel pair o s
  | .mmaW4 fsel pair o prm => Sys2Proof.Machine.execMmaW4 fsel pair o prm s
  | .mmaBp fsel o => Sys2Proof.Machine.execMmaBp fsel o s
  | .scacc fsel clr ty acc p sa sb shp acs pst => Sys2Proof.Machine.execScacc fsel clr ty acc p sa sb shp acs pst s
  | .aclr fsel d m n stride => Sys2Proof.Machine.execAclr fsel d m n stride s
  | .mprog d => Sys2Proof.Machine.execMprog d s
  | .matrixOpStart core => Sys2Proof.Machine.execMatrixOpStart core s
  | .followerClaim core => Sys2Proof.Machine.execFollowerClaim core s
  | .matrixRowComplete core chk => Sys2Proof.Machine.execMatrixRowComplete core chk s
  | .matrixOpComplete core => Sys2Proof.Machine.execMatrixOpComplete core s
  | .binit h bar expect sc => Sys2Proof.Machine.execBinit h bar expect sc s
  | .barr h bar d => Sys2Proof.Machine.execBarr h bar d s
  | .barx h bar d b => Sys2Proof.Machine.execBarx h bar d b s
  | .bwait h bar p => Sys2Proof.Machine.execBwait h bar p s
  | .bphase h d bar => Sys2Proof.Machine.execBphase h d bar s
  | .bphaseCnt h d bar => Sys2Proof.Machine.execBphaseCnt h d bar s
  | .clswap h bar d => Sys2Proof.Machine.execClswap h bar d s
  | .marm h acq ty d a disp => Sys2Proof.Machine.execMarm h acq ty d a disp s
  | .marmQ h q => Sys2Proof.Machine.execMarmQ h q s
  | .mwait => Sys2Proof.Machine.execMwait s
  | .qpush h decl q a x => Sys2Proof.Machine.execQpush h decl q a x s
  | .qpop h d q x => Sys2Proof.Machine.execQpop h d q x s
  | .qstat h d q => Sys2Proof.Machine.execQstat h d q s
  | .tnext h d => Sys2Proof.Machine.execTnext h d s
  | .step h => Sys2Proof.Machine.execStep h s
  | .nop => Sys2Proof.Machine.execNop s
  | .yield => Sys2Proof.Machine.execYield s
  | .bkpt h code => Sys2Proof.Machine.execBkpt h code s
  | .halt => Sys2Proof.Machine.execHalt s
  | .svc h a num => Sys2Proof.Machine.execSvc h a num s
  | .trap h code => Sys2Proof.Machine.execTrap h code s
  | .ttrap h code => Sys2Proof.Machine.execTtrap h code s
  | .eret h c => Sys2Proof.Machine.execEret h c s
  | .eretEnd h c => Sys2Proof.Machine.execEretEnd h c s
  | .srd h d idx => Sys2Proof.Machine.execSrd h d idx s
  | .swr h idx a => Sys2Proof.Machine.execSwr h idx a s
  | .srFaultClear h a => Sys2Proof.Machine.execSrFaultClear h a s
  | .ksFrozenWrite h a => Sys2Proof.Machine.execKsFrozenWrite h a s
  | .ksKillWrite h a => Sys2Proof.Machine.execKsKillWrite h a s
  | .ksHtbaseWrite h len a => Sys2Proof.Machine.execKsHtbaseWrite h len a s
  | .uien h l a => Sys2Proof.Machine.execUien h l a s
  | .uidis => Sys2Proof.Machine.execUidis s
  | .launchRecordAccept src => Sys2Proof.Machine.execLaunchRecordAccept src s
  | .sheafPlacement part => Sys2Proof.Machine.execSheafPlacement part s
  | .sheafRetire sheaf => Sys2Proof.Machine.execSheafRetire sheaf s
  | .timeSliceExpiry part => Sys2Proof.Machine.execTimeSliceExpiry part s
  | .waitingBudgetExhausted part => Sys2Proof.Machine.execWaitingBudgetExhausted part s
  | .partitionHalted part => Sys2Proof.Machine.execPartitionHalted part s
  | .exchangeComplete core => Sys2Proof.Machine.execExchangeComplete core s
  | .spillComplete core => Sys2Proof.Machine.execSpillComplete core s
  | .fillComplete core => Sys2Proof.Machine.execFillComplete core s
  | .spareRemap core => Sys2Proof.Machine.execSpareRemap core s
  | .intervalRecord line => Sys2Proof.Machine.execIntervalRecord line s
  | .clearanceTimeout sheaf fid => Sys2Proof.Machine.execClearanceTimeout sheaf fid s
  | .reorderCheck core => Sys2Proof.Machine.execReorderCheck core s
  | .correctedError mon key dom => Sys2Proof.Machine.execCorrectedError mon key dom s
  | .filterAgeing mon => Sys2Proof.Machine.execFilterAgeing mon s
  | .marginTrialWindow mon dom => Sys2Proof.Machine.execMarginTrialWindow mon dom s
  | .marginKeyExpiry mon key => Sys2Proof.Machine.execMarginKeyExpiry mon key s
  | .uncorrectableError site => Sys2Proof.Machine.execUncorrectableError site s
  | .weightStoreRefresh die => Sys2Proof.Machine.execWeightStoreRefresh die s
  | .linearCopy cmd => Sys2Proof.Machine.execLinearCopy cmd s
  | .stridedCopy cmd => Sys2Proof.Machine.execStridedCopy cmd s
  | .csrGather cmd => Sys2Proof.Machine.execCsrGather cmd s
  | .multicast cmd => Sys2Proof.Machine.execMulticast cmd s
  | .reduceCopy cmd => Sys2Proof.Machine.execReduceCopy cmd s
  | .decryptCopyIn cmd => Sys2Proof.Machine.execDecryptCopyIn cmd s
  | .publish cmd => Sys2Proof.Machine.execPublish cmd s
  | .weightStoreLoad cmd => Sys2Proof.Machine.execWeightStoreLoad cmd s
  | .engineChunkLanded cmd mismatches => Sys2Proof.Machine.execEngineChunkLanded cmd mismatches s
  | .postReceive cmd => Sys2Proof.Machine.execPostReceive cmd s
  | .send cmd => Sys2Proof.Machine.execSend cmd s
  | .cancelReceives cmd => Sys2Proof.Machine.execCancelReceives cmd s
  | .messageArrival ctx => Sys2Proof.Machine.execMessageArrival ctx s
  | .messageLanding msg => Sys2Proof.Machine.execMessageLanding msg s
  | .pullRequest cmd => Sys2Proof.Machine.execPullRequest cmd s
  | .placementReport cmd => Sys2Proof.Machine.execPlacementReport cmd s
  | .flitReceive port flit => Sys2Proof.Machine.execFlitReceive port flit s
  | .retryRequest port fseq => Sys2Proof.Machine.execRetryRequest port fseq s
  | .linkDown port => Sys2Proof.Machine.execLinkDown port s
  | .read die line => Sys2Proof.Machine.execRead die line s
  | .readForOwnership die line => Sys2Proof.Machine.execReadForOwnership die line s
  | .upgrade die line => Sys2Proof.Machine.execUpgrade die line s
  | .writeBack die line => Sys2Proof.Machine.execWriteBack die line s
  | .invalidate die line => Sys2Proof.Machine.execInvalidate die line s
  | .recall die line => Sys2Proof.Machine.execRecall die line s
  | .acknowledgement die line => Sys2Proof.Machine.execAcknowledgement die line s
  | .dataResponse die line damage => Sys2Proof.Machine.execDataResponse die line damage s
  | .homeAtomic op agree => Sys2Proof.Machine.execHomeAtomic op agree s
  | .hbmFillComplete line => Sys2Proof.Machine.execHbmFillComplete line s
  | .deliveryAcknowledgement fn cls dctx dseq => Sys2Proof.Machine.execDeliveryAcknowledgement fn cls dctx dseq s
  | .lossNotice l => Sys2Proof.Machine.execLossNotice l s
  | .revocationNotice fn lo hi => Sys2Proof.Machine.execRevocationNotice fn lo hi s
  | .atsTranslationCompletion pasid iova grant => Sys2Proof.Machine.execAtsTranslationCompletion pasid iova grant s
  | .pageRequestResponse pasid iova success => Sys2Proof.Machine.execPageRequestResponse pasid iova success s
  | .atsInvalidationRequest pasid iova size => Sys2Proof.Machine.execAtsInvalidationRequest pasid iova size s
  | .invalidationCompletion => Sys2Proof.Machine.execInvalidationCompletion s
  | .hostWrite r dpa data => Sys2Proof.Machine.execHostWrite r dpa data s
  | .hostRead r dpa size => Sys2Proof.Machine.execHostRead r dpa size s
  | .hostAtomicop r op dpa size x y => Sys2Proof.Machine.execHostAtomicop r op dpa size x y s
  | .ideIntegrityFailure port stream => Sys2Proof.Machine.execIdeIntegrityFailure port stream s
  | .rejectedRequestLimit port fn => Sys2Proof.Machine.execRejectedRequestLimit port fn s
  | .mailboxSend r slot pair data => Sys2Proof.Machine.execMailboxSend r slot pair data s
  | .consumerIndexWrite r slot pair v => Sys2Proof.Machine.execConsumerIndexWrite r slot pair v s
  | .renew port => Sys2Proof.Machine.execRenew port s
  | .claim port => Sys2Proof.Machine.execClaim port s
  | .leaseExpiry => Sys2Proof.Machine.execLeaseExpiry s
  | .registerWrite port off v => Sys2Proof.Machine.execRegisterWrite port off v s
  | .managementQueueWrite port data => Sys2Proof.Machine.execManagementQueueWrite port data s
  | .managementCompletion => Sys2Proof.Machine.execManagementCompletion s
  | .notice => Sys2Proof.Machine.execNotice s
  | .createPartition => Sys2Proof.Machine.execCreatePartition s
  | .destroyPartition => Sys2Proof.Machine.execDestroyPartition s
  | .createContext => Sys2Proof.Machine.execCreateContext s
  | .killContext => Sys2Proof.Machine.execKillContext s
  | .releaseFrozenMaster => Sys2Proof.Machine.execReleaseFrozenMaster s
  | .requestPreemption => Sys2Proof.Machine.execRequestPreemption s
  | .setContextRegisters => Sys2Proof.Machine.execSetContextRegisters s
  | .setSaveFaultReceiveAreas => Sys2Proof.Machine.execSetSaveFaultReceiveAreas s
  | .setMailboxRings => Sys2Proof.Machine.execSetMailboxRings s
  | .writeReplacementClass => Sys2Proof.Machine.execWriteReplacementClass s
  | .writeKeySlot => Sys2Proof.Machine.execWriteKeySlot s
  | .setEndpoint => Sys2Proof.Machine.execSetEndpoint s
  | .writeRouteEntry => Sys2Proof.Machine.execWriteRouteEntry s
  | .writeMonitorRegister => Sys2Proof.Machine.execWriteMonitorRegister s
  | .clearPoisonedLine => Sys2Proof.Machine.execClearPoisonedLine s
  | .clearOrphanedPackage => Sys2Proof.Machine.execClearOrphanedPackage s
  | .setNoticeRing => Sys2Proof.Machine.execSetNoticeRing s
  | .resetComputeDie => Sys2Proof.Machine.execResetComputeDie s
  | .restartServiceCore => Sys2Proof.Machine.execRestartServiceCore s
  | .stageFirmwareImage => Sys2Proof.Machine.execStageFirmwareImage s
  | .commitStagedFirmware => Sys2Proof.Machine.execCommitStagedFirmware s
  | .setWithholdMask => Sys2Proof.Machine.execSetWithholdMask s
  | .tdispRequest port fn req => Sys2Proof.Machine.execTdispRequest port fn req s
  | .lockedConfigurationChange port fn => Sys2Proof.Machine.execLockedConfigurationChange port fn s
  | .ideKmRequest port stream tdi => Sys2Proof.Machine.execIdeKmRequest port stream tdi s
  | .functionLevelReset port fn => Sys2Proof.Machine.execFunctionLevelReset port fn s
  | .powerCapThrottle die => Sys2Proof.Machine.execPowerCapThrottle die s
  | .hbmTrainingStage up => Sys2Proof.Machine.execHbmTrainingStage up s
  | .pcieTrainingStage up0 up1 first => Sys2Proof.Machine.execPcieTrainingStage up0 up1 first s
  | .falbyTrainingStage up => Sys2Proof.Machine.execFalbyTrainingStage up s
  | .sidebandAnswer chiplet => Sys2Proof.Machine.execSidebandAnswer chiplet s
  | .attestationBegin chiplet => Sys2Proof.Machine.execAttestationBegin chiplet s
  | .spdmResponse chiplet v => Sys2Proof.Machine.execSpdmResponse chiplet v s
  | .keyExchangeComplete chiplet => Sys2Proof.Machine.execKeyExchangeComplete chiplet s
  | .linkTrained chiplet => Sys2Proof.Machine.execLinkTrained chiplet s
  | .chipletReset chiplet => Sys2Proof.Machine.execChipletReset chiplet s
  | .linkAuthFailure tx rx => Sys2Proof.Machine.execLinkAuthFailure tx rx s
  | .keyRollover tx rx => Sys2Proof.Machine.execKeyRollover tx rx s
  | .rolloverReceiverAck tx rx => Sys2Proof.Machine.execRolloverReceiverAck tx rx s
  | .switchFlit tx rx => Sys2Proof.Machine.execSwitchFlit tx rx s
  | .switchAcknowledge tx rx => Sys2Proof.Machine.execSwitchAcknowledge tx rx s
  | .keyErase tx rx => Sys2Proof.Machine.execKeyErase tx rx s
  | .overTemperature chiplet tenths => Sys2Proof.Machine.execOverTemperature chiplet tenths s

end Sys2Proof.Machine
end

