-- ==== Sys2Proof/Machine/Sched.lean ====
section
/-! DEFINITION. What happens next where the agenda says nothing, and how an instruction is placed where the next step
fetches it (log 1, log 6). -/

namespace Sys2Proof.Machine

/-- The quadrants with a live fibre on them. -/
def State.liveQuads (s : State) : List (Nat × Nat) := nub (s.fibres.map fun f => (f.core, f.key.quad))

/-- The events that complete an operation. -/
def MemOp.events (o : MemOp) : List Instr :=
  if o.kind.isRmw then [.longLatencyComplete o.id, .homeAtomic o.id true, .translationLineWrite o.id]
  else if o.kind.writesMem || o.kind == .hnarrow then [.longLatencyComplete o.id, .translationLineWrite o.id]
  else [.longLatencyComplete o.id]

/-- The events of a fibre held by a release, or with an interrupt or a trap pending. -/
def Fibre.events (f : Fibre) : List Instr :=
  List.flatten
    [match f.cond with
      | .held (.release _ _ _) => [.releaseComplete f.key.sheaf f.key.fid, .clearanceTimeout f.key.sheaf f.key.fid]
      | _ => [],
     if f.uiEn && f.uiPend then [.userInterruptEntry f.key.sheaf f.key.fid] else [],
     if f.pendTraps != [] then [.pendingMatrixTrap f.key.sheaf f.key.fid] else []]

/-- Events of the fibres: issue, dissolution, completions of operations and releases, interrupts and traps. -/
def State.fibreEvents (s : State) : List Instr :=
  List.flatten
    [s.liveQuads.flatMap fun q => [.issueCycle q.1 q.2 none, .warpDissolution q.1 q.2],
     s.ops.flatMap MemOp.events, s.fibres.flatMap Fibre.events,
     s.sheafs.flatMap fun h => h.sets.map fun j => .setCollectiveComplete h.uid j.id]

/-- Waits whose answer has come (R172, R291, R293). -/
def State.retryEvents (s : State) : List Instr :=
  let waits := (s.fibres.filterMap fun f => match f.cond with | .waiting (.fault on _) => some on | _ => none)
    ++ s.matq.filterMap (·.held) ++ (s.cmds.filterMap fun c => match c.st with | .waiting on => some on | _ => none)
  (nub waits).filterMap fun w =>
    if s.answered w then some (match w with
      | .extent obj ext _ => .faultingLoadRetry obj.toNat ext
      | .page pasid page => .faultingLoadRetry pasid page)
    else none

/-- The event of a request that waits at the directory; a fill of the slice alone is linked to its miss from the start. -/
def CohReq.event (r : CohReq) : List Instr :=
  match r.kind with
  | .read => [.read r.die r.line]
  | .rfo => [.readForOwnership r.die r.line]
  | .upgrade => [.upgrade r.die r.line]
  | .fill => []

/-- The events of a message under way between caches and directory. -/
def State.msgEvents (s : State) (m : CohMsg) : List Instr :=
  match m with
  | .data d l _ _ _ _ cl _ _ =>
    .dataResponse d l [] :: (match (s.l2Victim d l cl).2.2 with | some v => [.writeBack d v.line] | none => [])
  | .inval d l _ => [.invalidate d l]
  | .recall d l => [.recall d l]
  | .ack _ d l => [.acknowledgement d l]

/-- Events of the caches, the directory and the checkers. -/
def State.memoryEvents (s : State) : List Instr :=
  List.flatten
    [s.coh.reqs.flatMap CohReq.event, s.coh.msgs.flatMap s.msgEvents, s.coh.mshr.map fun m => .hbmFillComplete m.1,
     (nub (s.chk.recs.map (·.line))).map .intervalRecord,
     (nub ((s.log.filter fun e => !e.checked).map (·.core))).map .reorderCheck,
     (nub (s.side.map (·.core))).map .sideLogReplay]

/-- The event by which an engine works on a command. -/
def Cmd.event (c : Cmd) : List Instr :=
  if c.chunk != [] then [.engineChunkLanded c.id 0]
  else match (uKind c.unit, c.recv) with
    | (1, _) => [.linearCopy c.id]
    | (2, _) => [.stridedCopy c.id]
    | (3, _) => [.csrGather c.id]
    | (4, _) => [.multicast c.id]
    | (5, _) => [.reduceCopy c.id]
    | (6, _) => [.decryptCopyIn c.id]
    | (7, _) => [.publish c.id]
    | (8, _) => [.weightStoreLoad c.id]
    | (0x10, _) => [.postReceive c.id]
    | (0x11, _) => [.send c.id]
    | (0x12, _) => [.cancelReceives c.id]
    | _ => []

/-- The events of a matrix array. -/
def matrixEvents (c : Nat) : List Instr :=
  [.matrixOpStart c, .followerClaim c, .matrixRowComplete c .pass, .matrixOpComplete c]

/-- The timers of a delivery context. -/
def DCtx.events (d : DCtx) : List Instr :=
  if d.tx && d.unacked != [] then [.retransmitTimeout d.fn d.cls, .contextTeardown d.fn d.cls] else [.contextTeardown d.fn d.cls]

/-- Events of the matrix arrays, the engines, the receive engine and the fabric's timers. -/
def State.engineEvents (s : State) : List Instr :=
  List.flatten
    [(nub (s.matq.map (·.core))).flatMap matrixEvents, s.cmds.flatMap Cmd.event,
     (s.cmds.filter (·.since.isSome)).map fun c => .clearanceTimeout c.id 4096,
     (nub (s.recv.arriving.map (·.1))).map .messageArrival, s.recv.landing.map fun l => .messageLanding l.2.1.id,
     s.recv.pulls.map fun p => .pullRequest p.1, s.recv.reports.map fun r => .placementReport r.1,
     s.fab.dctxs.flatMap DCtx.events]

/-- The events of a partition. -/
def Part.events (p : Part) : List Instr :=
  [.sheafPlacement p.num, .partitionHalted p.num, .timeSliceExpiry p.num, .waitingBudgetExhausted p.num]

/-- The events of a core: its exchange with a bank, and the remapping of a fenced core. -/
def CoreSt.events (k : CoreSt) : List Instr :=
  List.flatten
    [match k.swap with
      | .exchanging => [.exchangeComplete k.core]
      | .spilling => [.spillComplete k.core]
      | .staging => [.fillComplete k.core]
      | _ => [],
     if k.fenced && !k.lost then [.spareRemap k.core] else []]

/-- Events of the scheduler and the distributor. -/
def State.schedulerEvents (s : State) : List Instr :=
  List.flatten
    [s.parts.flatMap Part.events, s.cores.flatMap CoreSt.events,
     (s.sheafs.filter fun h => !s.fibres.any fun f => f.key.sheaf == h.uid).map fun h => .sheafRetire h.uid,
     (s.ctxs.filter fun c => c.mail1.h2d != []).map fun c => .launchRecordAccept (.mailbox c.id),
     (s.ops.filter (·.kind == .qpush)).map fun o => .launchRecordAccept (.queue o.id),
     s.batches.map fun b => .batchRecord b.id,
     (s.svc.filter (·.waiting != [])).map fun q => .serviceQueueAdmit q.die]

/-- The event of the oldest management command (R398). -/
def mopEvent (mop : Nat) : List Instr :=
  match mop with
  | 0x01 => [.createPartition]
  | 0x02 => [.destroyPartition]
  | 0x03 => [.createContext]
  | 0x04 => [.killContext]
  | 0x05 => [.releaseFrozenMaster]
  | 0x06 => [.requestPreemption]
  | 0x07 => [.setContextRegisters]
  | 0x08 => [.setSaveFaultReceiveAreas]
  | 0x09 => [.setMailboxRings]
  | 0x0A => [.writeReplacementClass]
  | 0x0B => [.writeKeySlot]
  | 0x0C => [.setEndpoint]
  | 0x0D => [.writeRouteEntry]
  | 0x0E => [.writeMonitorRegister]
  | 0x0F => [.clearPoisonedLine]
  | 0x10 => [.clearOrphanedPackage]
  | 0x11 => [.setNoticeRing]
  | 0x12 => [.resetComputeDie]
  | 0x13 => [.restartServiceCore]
  | 0x14 => [.stageFirmwareImage]
  | 0x15 => [.commitStagedFirmware]
  | 0x16 => [.setWithholdMask]
  | _ => []

/-- The ring writes a context's mailboxes owe. -/
def Ctx.ringEvents (c : Ctx) : List Instr :=
  (if c.mail0.d2h != [] then [.mailboxRingWrite c.id 0] else [])
    ++ (if c.mail1.d2h != [] then [.mailboxRingWrite c.id 1] else [])

/-- Events of the I/O die: the lease, rings, notices, management commands, invalidations, timers of the monitors. -/
def State.hostEvents (s : State) : List Instr :=
  List.flatten
    [match s.host.mq with | e :: _ => mopEvent (uMop e.unit) | [] => [],
     if s.host.completions != [] then [.managementCompletion] else [],
     if s.host.notices != [] then [.notice] else [],
     s.ctxs.flatMap Ctx.ringEvents,
     if s.leaseOver then [.leaseExpiry] else [],
     if s.host.invals != [] then [.invalidationCompletion] else [],
     (s.rel.mons.filter fun m => m.lastAge < s.time / dayNs).map fun m => .filterAgeing m.chiplet]

/-- Steps of bring-up that wait for no answer from outside the I/O die, and its time limits. -/
def State.bootEvents (s : State) : List Instr :=
  if s.boot.fail then []
  else
    (match s.boot.stage with
      | 1 => [.kindlingStage]
      | 2 => [.chipletAttestationStage]
      | 3 => [.linkTrainingStage]
      | 7 => [.firmwareStage, .ready]
      | _ => [])
    ++ (if s.boot.stage < 8 && s.boot.stageSince + stageLimit s.boot.stage ≤ s.time then (List.range 33).map .bootStageTimeout else [])
    ++ ((List.range 32).filter fun i => (s.chiplet i).st == .challenging && (s.chiplet i).challengedAt + 100000000 ≤ s.time).map .challengeTimeout

/-- The events that may happen next where the agenda is empty (log 1) (DESIGN CHOICE; log 42). -/
def State.autoEvents (s : State) : List Instr :=
  List.flatten
    [s.fibreEvents, s.retryEvents, s.memoryEvents, s.engineEvents, s.schedulerEvents, s.hostEvents, s.bootEvents]

/-- The event that happens next where the agenda is empty: the candidates in rotation, one on with each nanosecond, so that none of
them is passed over for good (R47; log 1). -/
def State.autoEvent (s : State) : Option Instr :=
  let l := s.autoEvents
  l[s.time % l.length]?

/-- Time passes: the lease expires at its instant (R390), the filters age (R326), and what waits at the ports of the I/O die is tried
again (R266, R289, R382). -/
def State.passTime (s : State) (dt : Nat) : State :=
  let s1 := s.elapse dt
  if dt == 0 then s1
  else
    let s2 : State := s1.expireLease
    let s3 : State := { s2 with rel := { s2.rel with mons := s2.rel.mons.map fun m => m.aged (s2.time / dayNs) } }
    (if s3.coh.pend == [] then s3 else s3.hostPump).pumpAll

/-- Overwrite code bytes. -/
def Launch.patch (l : Launch) (off : Nat) (bs : List Byte) : Launch :=
  { l with code := Memory.writeN l.code off bs, codeMap := [], codeLen := max l.codeLen (off + bs.length) }

/-- The bytes of an instruction of `nbits` bits, zeros above. -/
def tableBytes (nbits w : Nat) : List Byte :=
  let v := w % 2 ^ nbits
  dwordBytes (BitVec.ofNat 64 v) ++ dwordBytes (BitVec.ofNat 64 (v / 2 ^ 64))

/-- A descriptor of one fibre with 256 registers. -/
def Desc.one : Desc :=
  { qbind := List.replicate 16 0, pers := false, stook := 0, granules := 0, regs := 256, quota := 1, fibres := 1, entry := 0 }

/-- A sheaf of one fibre for a placed instruction. -/
def Sheaf.one (uid launch : Nat) : Sheaf :=
  { uid, launch, index := 0, core := 0, slot := 0, ctx := 0, quota := 1, regs := 256, granules := 0, baseLive := 0,
    baseShadow := 0, bank := false, free0 := none, free1 := none, stook := 0, priv := false, saved := false, savedAt := 0, bars := List.replicate 16 Barrier.initial,
    sets := [], queues := (List.range 16).map fun _ => { bind := 0, inb := [], inHeld := [], served := 0, stained := [] }, uiPending := false,
    depths := [0], windows := [0] }

/-- A launch of one sheaf whose code is one clause of one instruction (flags A and B named f0 and f1). -/
def Launch.one (uid : Nat) (bs : List Byte) : Launch :=
  { uid, ctx := 0, part := 0, id := 0, prio := 0, minDies := 1, maxDies := 1, sheafs := 1, desc := Desc.one, args := 0,
    table := 0, codeCap := 0, codeLen := 8 + bs.length,
    code := Memory.writeN [] 0 (dwordBytes (ClauseHdr.toWord ⟨0, 0, 1, 1, false⟩) ++ bs), codeMap := [],
    back := .none, phase := .running, step := 0, start := 0, held := [0], next := 1, cont := none, stray := 0, scheds := [] }

/-- Place an instruction where the next step fetches it: in the code of the warp that issues, or, where none does, in a
new launch of one fibre that stands at it (log 6). -/
def State.placeWord (s : State) (nbits w : Nat) : State :=
  let bs := tableBytes nbits w
  match s.issue.bind fun is => s.warp? is.core is.quad is.slot with
  | some wp => s.modLaunch wp.launch fun l => l.patch (s.warpPc wp) bs
  | none =>
    let slot := (s.freeSlot 0 0).getD 0
    let u := s.uid
    let k : FKey := ⟨u, 0⟩
    let f : Fibre := { Fibre.initial k 0 0 0 256 8 0 with
      cond := .batched slot, clause := some ⟨0, 1, 8, 0, 1, false⟩ }
    { s with
      uid := u + 1, launches := s.launches ++ [Launch.one u bs], sheafs := s.sheafs ++ [Sheaf.one u u],
      fibres := s.fibres ++ [f],
      warps := s.warps ++ [{ core := 0, quad := 0, slot, members := [k], launch := u, age := s.evno, passed := 0,
                             skip := false, dissolve := false }],
      issue := some ⟨0, 0, slot, none⟩ }

end Sys2Proof.Machine
end

