-- ==== Sys2Proof/Machine/Step.lean ====
section
/-! DEFINITION. One step: the instruction a quadrant has chosen is fetched and executed; otherwise the next event of the
agenda happens, after the time it gives; otherwise an internal event that the state allows (log 1, log 2). -/

namespace Sys2Proof.Machine

/-- One step. -/
def step (s : State) : Host.Outcome State Fault Refusal :=
  let s0 := { s with evno := s.evno + 1 }
  match s0.issue with
  | some is =>
    match s0.fetch is with
    | some (.ok i) => exec i s0
    | some (.error _) => .next (s0.fetchTrap is)
    | none => .next { s0 with issue := none }
  | none =>
    match s0.agenda with
    | it :: rest => exec it.ev ({ s0 with agenda := rest }.passTime it.dt)
    | [] =>
      match s0.autoEvent with
      | some ev => exec ev (s0.passTime 1)
      | none => .next (s0.passTime 1)

/-- The state with an instruction stored where step fetches its next instruction. -/
def State.withFetchWord (s : State) (nbits w : Nat) : State := s.placeWord nbits w

end Sys2Proof.Machine
end

