-- ==== Sys2Proof/Safety.lean ====
section
/-! DEFINITION. What counts as a safe run, and the terms in which the statements speak of one instruction: a warp that is
about to execute it, how a fibre goes on, and states that differ only in how fibres are batched. -/

namespace Sys2Proof.Safety

open Sys2Proof.Machine

/-- The memory list is canonical (log 3). -/
def MemInv (s : State) : Prop := Memory.wf s.mem = true

/-- A step neither faults nor is refused. -/
def Steps (s : State) : Prop := ∃ t, step s = .next t

/-! ## A warp that executes -/

/-- A warp that the quadrant has chosen stands at instruction `i`, which may issue and for which the side log has room, and no upset
strikes it (R47, R173, R343). -/
structure Issuing (i : Instr) (s : State) (w : Warp) : Prop where
  issue : ∃ is, s.issue = some is ∧ is.upset = none ∧ s.warp? is.core is.quad is.slot = some w
  may : State.mayIssue { s with issue := none } i w = true
  room : s.sideFits i w = true

/-- The warp's only member `k` is fibre `f` of sheaf `h`, at instruction `i`; what the guard and the checks of R70 and R75
make of it is `p`. -/
structure AloneAt (p : Pre) (i : Instr) (s : State) (w : Warp) (k : FKey) (f : Fibre) (h : Sheaf) : Prop where
  issuing : Issuing i s w
  one : w.members = [k]
  fib : s.fib? k = some f
  sheaf : s.sheaf? k.sheaf = some h
  pre : preCheck i f h = p

/-- The warp's only member executes `i`: nothing of R70 and R75 keeps it from doing so. -/
abbrev Alone (i : Instr) (s : State) (w : Warp) (k : FKey) (f : Fibre) (h : Sheaf) : Prop := AloneAt .run i s w k f h

/-- The state in which the members execute: the choice is taken up, and a YIELD clause's last instruction marks the warp
(R58). -/
def started (s : State) (w : Warp) : State := ({ s with issue := none }).clauseYield w

/-- A member is about to execute an instruction of this size. -/
def atInstr (i : Instr) (s : State) (w : Warp) (k : FKey) : State :=
  (started s w).modFib k fun f => { f with clause := f.clause.map fun c => { c with size := isize i } }

/-- The fibre has executed the instruction with effect `g` and goes on with the following word. -/
def goesOn (i : Instr) (s : State) (w : Warp) (k : FKey) (g : State → State) : State :=
  (g (atInstr i s w k)).modFib k Fibre.advance

/-- The fibre has executed the instruction with effect `g` and stands at the clause header at `pc`. -/
def goesTo (i : Instr) (s : State) (w : Warp) (k : FKey) (pc : Dword) (g : State → State) : State :=
  (g (atInstr i s w k)).modFib k (·.jump pc)

/-- The fibre past the instruction it stands at: the program counter moves on by the instruction's size, and the clause has
one instruction less (R51, R52). -/
def pastInstr (i : Instr) (f : Fibre) : Fibre :=
  match f.clause with
  | none => f
  | some c =>
    { f with
      pc := f.pc + BitVec.ofNat 64 (isize i),
      clause := if c.left ≤ 1 then none else some { c with size := isize i, left := c.left - 1 } }

/-! ## How fibres are batched (R27–R30) -/

/-- A fibre that is in no warp and not ready to join one. -/
def Quiet (s : State) (k : FKey) : Prop :=
  (∀ w ∈ s.warps, k ∉ w.members) ∧ ∀ f ∈ s.fibres, f.key = k → f.cond ≠ .unbatched

/-- `t` is `s` but for the warps and for which fibres they hold; a fibre that is in no warp and not ready stays so. -/
structure Rebatched (s t : State) : Prop where
  rest : t = { s with fibres := t.fibres, warps := t.warps }
  fibres : List.Forall₂ (fun f g : Fibre => g = { f with cond := g.cond } ∧ (Quiet s f.key → g.cond = f.cond)) s.fibres t.fibres
  quiet : ∀ k, Quiet s k → ∀ w ∈ t.warps, k ∉ w.members

/-- Meaning `i` answers a next state that is `t` but for how fibres are batched. -/
def Executes (i : Instr) (s t : State) : Prop := ∃ u, exec i s = .next u ∧ Rebatched t u

end Sys2Proof.Safety
end

