-- ==== Sys2Proof/Certificates/Slice0/Obligations.lean ====
section
/-! DEFINITION. The statements for the provers, and under Sys2Proof.Claims the terms they are made of beside those of
Sys2Proof/Safety.lean. Each statement's docstring names the rules of spec/ it formalises, and the log entries behind any
part that is the model's choice. -/

namespace Sys2Proof.Claims

open Sys2Proof.Machine Sys2Proof.Safety

/-- Every byte of memory reads as before. -/
def MemKept (s t : State) : Prop := ∀ l n, t.rawRead l n = s.rawRead l n

/-- Every fibre but those of `ks` keeps its registers, residues, flags, program counter, interrupt and exception registers:
all but its condition and its monitor, which a wake may change (R214). -/
def OthersKept (ks : List FKey) (s t : State) : Prop :=
  ∀ j f, j ∉ ks → s.fib? j = some f → ∃ c m, t.fib? j = some { f with cond := c, monitor := m }

/-- Meaning `i` answers a next state of which `P` holds. -/
def Gives (i : Instr) (s : State) (P : State → Prop) : Prop := ∃ t, exec i s = .next t ∧ P t

/-! ## Register instructions -/

/-- A result: its type, the destination, and its bits. -/
abbrev Result := Ty × Reg × Nat

/-- The integer and logic group: the result for a fibre (R110–R120). -/
def integerResult (i : Instr) (f : Fibre) : Option Result :=
  match i with
  | .iadd _ t sat d a b => some (t, d, iaddVal false sat t (f.get t a) (f.get t b))
  | .iaddImm32 _ t sat d a imm => some (t, d, iaddVal false sat t (f.get t a) (immBits t imm))
  | .iaddImm64 _ t d a imm => some (t, d, iaddVal false false t (f.get t a) imm.toNat)
  | .isub _ t sat d a b => some (t, d, iaddVal true sat t (f.get t a) (f.get t b))
  | .isubImm32 _ t sat d a imm => some (t, d, iaddVal true sat t (f.get t a) (immBits t imm))
  | .isubImm64 _ t d a imm => some (t, d, iaddVal true false t (f.get t a) imm.toNat)
  | .imul _ t d a b => some (t, d, imulVal t (f.get t a) (f.get t b))
  | .imulImm32 _ t d a imm => some (t, d, imulVal t (f.get t a) (immBits t imm))
  | .imulh _ t d a b => some (t, d, imulhVal t (f.get t a) (f.get t b))
  | .imad _ t d a b c => some (t, d, imadVal t (f.get t a) (f.get t b) (f.get t c))
  | .iaddc _ borrow d a b c => some (.b64, d, iaddcVal borrow (f.reg a).toNat (f.reg b).toNat (f.reg c).toNat)
  | .imin _ t d a b => some (t, d, iminVal false t (f.get t a) (f.get t b))
  | .iminImm32 _ t d a imm => some (t, d, iminVal false t (f.get t a) (immBits t imm))
  | .imax _ t d a b => some (t, d, iminVal true t (f.get t a) (f.get t b))
  | .imaxImm32 _ t d a imm => some (t, d, iminVal true t (f.get t a) (immBits t imm))
  | .iabs _ t d a => some (t, d, iabsVal t (f.get t a))
  | .ineg _ t d a => some (t, d, inegVal t (f.get t a))
  | .bAnd _ t d a b => some (t, d, f.get t a &&& f.get t b)
  | .bAndImm32 _ t d a imm => some (t, d, f.get t a &&& immBits t imm)
  | .bAndImm64 _ t d a imm => some (t, d, f.get t a &&& imm.toNat)
  | .bOr _ t d a b => some (t, d, f.get t a ||| f.get t b)
  | .bOrImm32 _ t d a imm => some (t, d, f.get t a ||| immBits t imm)
  | .bOrImm64 _ t d a imm => some (t, d, f.get t a ||| imm.toNat)
  | .bXor _ t d a b => some (t, d, f.get t a ^^^ f.get t b)
  | .bXorImm32 _ t d a imm => some (t, d, f.get t a ^^^ immBits t imm)
  | .bXorImm64 _ t d a imm => some (t, d, f.get t a ^^^ imm.toNat)
  | .bAndn _ t d a b => some (t, d, logicVal .andn t.bits (f.get t a) (f.get t b))
  | .bAndnImm32 _ t d a imm => some (t, d, logicVal .andn t.bits (f.get t a) (immBits t imm))
  | .bAndnImm64 _ t d a imm => some (t, d, logicVal .andn t.bits (f.get t a) imm.toNat)
  | .bNot _ t d a => some (t, d, notVal t.bits (f.get t a))
  | .shl _ t d a b => some (t, d, shiftVal .shl t.bits (f.get t a) (f.reg b).toNat)
  | .shlImm32 _ t d a n => some (t, d, shiftVal .shl t.bits (f.get t a) n.toNat)
  | .shr _ t d a b => some (t, d, shiftVal .shr t.bits (f.get t a) (f.reg b).toNat)
  | .shrImm32 _ t d a n => some (t, d, shiftVal .shr t.bits (f.get t a) n.toNat)
  | .sra _ t d a b => some (t, d, shiftVal .sra t.bits (f.get t a) (f.reg b).toNat)
  | .sraImm32 _ t d a n => some (t, d, shiftVal .sra t.bits (f.get t a) n.toNat)
  | .rot _ t d a b => some (t, d, shiftVal .rot t.bits (f.get t a) (f.reg b).toNat)
  | .rotImm32 _ t d a n => some (t, d, shiftVal .rot t.bits (f.get t a) n.toNat)
  | .bfx _ t d a pos len => some (t, d, bfxVal t pos.toNat len.toNat (f.get t a))
  | .bfi _ t d a b pos len => some (t, d, bfiVal pos.toNat len.toNat (f.get t a) (f.get t b))
  | .popc _ t d a => some (.b32, d, popcVal t.bits (f.get t a))
  | .clz _ t d a => some (.b32, d, clzVal t.bits (f.get t a))
  | .ctz _ t d a => some (.b32, d, ctzVal t.bits (f.get t a))
  | .brev _ t d a => some (t, d, brevVal t.bits (f.get t a))
  | .icmp _ cc t d a b =>
    some (.b32, d, (maskOf (icondHolds cc (ival (tySigned t) t.bits (f.get t a)) (ival (tySigned t) t.bits (f.get t b)))).toNat)
  | .icmpImm32 _ cc t d a imm =>
    some (.b32, d, (maskOf (icondHolds cc (ival (tySigned t) t.bits (f.get t a)) (ival (tySigned t) t.bits (immBits t imm)))).toNat)
  | .sel _ t d a b c bit => some (t, d, if (f.reg c).getLsbD bit.toNat then f.get t a else f.get t b)
  | _ => none

/-- The floating-point group: the result for a fibre, FTZ as its context had it at the fibre's last clause boundary
(R95, R121–R126). -/
def floatResult (i : Instr) (f : Fibre) : Option Result :=
  let z := f.inFlags.getLsbD 0
  match i with
  | .fadd _ md t d a b => some (t, d, faddVal false t md z (f.get t a) (f.get t b))
  | .faddImm32 _ md t d a imm => some (t, d, faddVal false t md z (f.get t a) (immBits t imm))
  | .faddImm64 _ md d a imm => some (.f64, d, faddVal false .f64 md z (f.get .f64 a) imm.toNat)
  | .fsub _ md t d a b => some (t, d, faddVal true t md z (f.get t a) (f.get t b))
  | .fsubImm32 _ md t d a imm => some (t, d, faddVal true t md z (f.get t a) (immBits t imm))
  | .fsubImm64 _ md d a imm => some (.f64, d, faddVal true .f64 md z (f.get .f64 a) imm.toNat)
  | .fmul _ md t d a b => some (t, d, fmulVal t md z (f.get t a) (f.get t b))
  | .fmulImm32 _ md t d a imm => some (t, d, fmulVal t md z (f.get t a) (immBits t imm))
  | .fmulImm64 _ md d a imm => some (.f64, d, fmulVal .f64 md z (f.get .f64 a) imm.toNat)
  | .ffma _ md t d a b c => some (t, d, zipElems3 t (ffmaElem (fmtOf t) z md) (f.get t a) (f.get t b) (f.get t c))
  | .fmin _ t d a b => some (t, d, zipElems t (fminElem false (fmtOf t) z) (f.get t a) (f.get t b))
  | .fmax _ t d a b => some (t, d, zipElems t (fminElem true (fmtOf t) z) (f.get t a) (f.get t b))
  | .fcmp _ cc t d a b =>
    some (.b32, d, (maskOf (fcondHolds cc ((fmtOf t).read z (f.get t a)) ((fmtOf t).read z (f.get t b)))).toNat)
  | .fclass _ t d a => some (.b32, d, (fmtOf t).classOf (f.get t a))
  | .frnd _ md t d a => some (t, d, frndVal (fmtOf t) z md (f.get t a))
  | .frcp _ t d a => some (t, d, approxOp .rcp t (fmtOf t) z (f.get t a))
  | .frsq _ t d a => some (t, d, approxOp .rsq t (fmtOf t) z (f.get t a))
  | .fsqrt _ md t d a => some (t, d, fsqrtVal (fmtOf t) z md (f.get t a))
  | .fexp2 _ t d a => some (t, d, approxOp .exp2 t (fmtOf t) z (f.get t a))
  | .flog2 _ t d a => some (t, d, approxOp .log2 t (fmtOf t) z (f.get t a))
  | .fsin _ t d a => some (t, d, approxOp .sin t (fmtOf t) z (f.get t a))
  | .fcos _ t d a => some (t, d, approxOp .cos t (fmtOf t) z (f.get t a))
  | _ => none

/-- Conversion, packing and the per-lane dot products, but for `cvt.ef` and `eclr` (R127, R130, R131, R201). -/
def convertResult (i : Instr) (f : Fibre) : Option Result :=
  match i with
  | .cvt _ md dt src d a => some (dt, d, cvtVal md dt src (f.inFlags.getLsbD 0) (f.get src a))
  | .pack _ t d a b c idx => some (.b32, d, packVal t idx.toNat (f.reg a).toNat (f.reg b).toNat (f.reg c).toNat)
  | .unpack _ t d a idx => some (.b32, d, unpackVal t idx.toNat (f.reg a).toNat)
  | .dot2 _ md t d a b c | .dot4 _ md t d a b c =>
    some (.b32, d, match tyFmt t with
      | some _ => dotFloat t md (f.reg a).toNat (f.reg b).toNat (f.reg c).toNat
      | none => dotInt t (f.reg a).toNat (f.reg b).toNat (f.reg c).toNat)
  | .dot8 _ t d a b c =>
    some (.b32, d, match tyFmt t with
      | some _ => dotFloat t .rn (f.reg a).toNat (f.reg b).toNat (f.reg c).toNat
      | none => dotInt t (f.reg a).toNat (f.reg b).toNat (f.reg c).toNat)
  | _ => none

/-- The capability arithmetic: the result for a fibre in a state (R151, R153). -/
def capabilityResult (i : Instr) (s : State) (f : Fibre) : Option Result :=
  match i with
  | .hoffImm32 _ d a imm => some (.b64, d, (hoffVal (f.pair a) imm.toInt).toNat)
  | .hoffUnsigned _ d a b => some (.b64, d, (hoffVal (f.pair a) (f.reg b).toNat).toNat)
  | .hoffSigned _ d a b => some (.b64, d, (hoffVal (f.pair a) (f.reg b).toInt).toNat)
  | .hoffPair _ d a b => some (.b64, d, (hoffVal (f.pair a) (f.pair b).toInt).toNat)
  | .hoffImm64 _ d a imm => some (.b64, d, (hoffVal (f.pair a) imm.toInt).toNat)
  | .hinfo _ d a => some (.b64, d, (s.hinfoVal f (f.pair a)).toNat)
  | _ => none

/-- Instruction `i` on warp `w` completes. A member that executes it goes on with the following word, the destination of
`res` written and every other register kept; a member whose guard is false goes on with everything kept; every other fibre
keeps everything. A condition or monitor changes only by batching or by a wake, where another member's trap enters the
service queue. Beside fibres, warps, the service queue and the choice taken up, nothing of the machine changes: memory, the
caches, other registers and flags, the special and exception registers. -/
def RegisterOnly (i : Instr) (s : State) (w : Warp) (res : Fibre → Option Result) : Prop :=
  ∃ t, exec i s = .next t
    ∧ (∀ k f h r, w.members.count k = 1 → s.fib? k = some f → s.sheaf? k.sheaf = some h → preCheck i f h = .run → res f = some r →
        ∃ c m, t.fib? k = some { pastInstr i f with regs := (f.put r.1 r.2.1 r.2.2).regs, cond := c, monitor := m })
    ∧ (∀ k f h, w.members.count k = 1 → s.fib? k = some f → s.sheaf? k.sheaf = some h → preCheck i f h = .skip →
        ∃ c m, t.fib? k = some { pastInstr i f with cond := c, monitor := m })
    ∧ OthersKept w.members s t
    ∧ t = { s with issue := none, fibres := t.fibres, warps := t.warps, svc := t.svc }
    ∧ MemKept s t

/-- `RegisterOnly` for an instruction that writes more of a fibre than one register: `g` is all it does to the fibre. -/
def FibreOnly (i : Instr) (s : State) (w : Warp) (g : Fibre → Fibre) : Prop :=
  ∃ t, exec i s = .next t
    ∧ (∀ k f h, w.members.count k = 1 → s.fib? k = some f → s.sheaf? k.sheaf = some h → preCheck i f h = .run →
        ∃ c m, t.fib? k = some { pastInstr i (g f) with cond := c, monitor := m })
    ∧ (∀ k f h, w.members.count k = 1 → s.fib? k = some f → s.sheaf? k.sheaf = some h → preCheck i f h = .skip →
        ∃ c m, t.fib? k = some { pastInstr i f with cond := c, monitor := m })
    ∧ OthersKept w.members s t
    ∧ t = { s with issue := none, fibres := t.fibres, warps := t.warps, svc := t.svc }
    ∧ MemKept s t

/-! ## Warp instructions -/

/-- Every instruction that has an encoding is executed by warps; the other rows are events. -/
def isWarpInstr (i : Instr) : Bool := (encodeFields i).isSome

/-- The set collectives and `sbar`, whose members with a false guard take part in another way (R133). -/
def isSetInstr : Instr → Bool
  | .sshfl .. | .svote .. | .sred .. | .sscan .. | .sbar .. => true
  | _ => false

/-- Fibre `k` of a warp of its own traps at its instruction: nothing but what taking the trap changes is changed. -/
def TrapsWith (i : Instr) (s : State) (w : Warp) (k : FKey) (f : Fibre) (t : TrapInfo) : Prop :=
  Executes i s ((atInstr i s w k).takeTrap k t f.pc)

/-! ## Elements of operands -/

/-- Element `e` of an operand of a type; a scalar is its own element 0 (R88). -/
def lane (t : Ty) (e v : Nat) : BitVec (elemBits t) := BitVec.ofNat (elemBits t) (v / 2 ^ (elemBits t * e))

/-- The integer value of an element, signed or unsigned by type (R85). -/
def laneInt (t : Ty) (e v : Nat) : Int := if tySigned t then (lane t e v).toInt else (lane t e v).toNat

end Sys2Proof.Claims

open Sys2Proof Sys2Proof.Machine Sys2Proof.Safety Sys2Proof.Claims

/-! # Steps, decoding, reset -/

/-- A step runs the instruction that the chosen warp stands at, where it decodes; a word that no longer decodes traps in the
warp's members (R50, R55); with nothing chosen the agenda's head happens after its time has passed, then an internal event,
then time alone passes (log 1, log 2: how events are ordered is the model's choice). -/
def Obligations.StepRunsTheFetchedInstruction : Prop :=
  (∀ s is i, s.issue = some is → State.fetch { s with evno := s.evno + 1 } is = some (.ok i) →
    step s = exec i { s with evno := s.evno + 1 })
  ∧ (∀ s is e, s.issue = some is → State.fetch { s with evno := s.evno + 1 } is = some (.error e) →
    step s = .next (State.fetchTrap { s with evno := s.evno + 1 } is))
  ∧ (∀ s it rest, s.issue = none → s.agenda = it :: rest →
    step s = exec it.ev (State.passTime { s with evno := s.evno + 1, agenda := rest } it.dt))
  ∧ (∀ s ev, s.issue = none → s.agenda = [] → State.autoEvent { s with evno := s.evno + 1 } = some ev →
    step s = exec ev (State.passTime { s with evno := s.evno + 1 } 1))
  ∧ (∀ s, s.issue = none → s.agenda = [] → State.autoEvent { s with evno := s.evno + 1 } = none →
    step s = .next (State.passTime { s with evno := s.evno + 1 } 1))

/-- R50: the word fetched for a warp is the instruction at its lowest member's program counter in its launch's code, whose
bytes are those of the code object as it stood when the launch began, wherever the places of the 32-byte blocks at that address still
hold the bytes recorded then; a block that a store has changed since is fetched as it stood or as it stands. How a launch comes by
its recorded code, which of the two such a block is, and that memory must lie under it, are readings of the model's (log 6, log 17,
log 64). -/
def Obligations.FetchReadsTheCodeObject : Prop :=
  (∀ (s : State) (is : Issue) (w : Warp) (l : Launch) (k : FKey) (f : Fibre),
    s.warp? is.core is.quad is.slot = some w → s.launch? w.launch = some l →
    w.members.head? = some k → s.fib? k = some f → f.pc.toNat % 8 = 0 →
    let unchanged (b : Nat) : Prop := ∀ i < 32, ∀ loc, l.codeLoc (32 * b + i) = some loc →
      loc ≠ .unbacked ∧ (s.newest loc 1).headD 0 = Memory.read l.code (32 * b + i)
    unchanged (f.pc.toNat / 32) → unchanged ((f.pc.toNat + 8) / 32) →
    s.fetch is = some (decodeWord (leDword (Memory.readN l.code f.pc.toNat 8)) (leDword (Memory.readN l.code (f.pc.toNat + 8) 8))))
  ∧ ∀ (s : State) (l : Launch) (b : Nat), (∀ i < 32, l.codeLoc (32 * b + i) ≠ some .unbacked) →
    s.codeBlock l b = l.oldBlock b ∨ s.codeBlock l b = s.newBlock l b

/-- The worked words of R74 and of the chapters' encoding examples decode to the instructions they stand for. -/
def Obligations.WorkedWordsDecode : Prop :=
  decodeTableWord 64 0x60001810_20C1D081 = some (.fadd ⟨some ⟨false, 7, 3⟩, 0⟩ .rn .f32 4 2 3)
  ∧ decodeTableWord 64 0x60002020_30000089 = some (.fmul ⟨none, 0⟩ .rn .f32 6 4 4)
  ∧ decodeTableWord 64 0x301 = some .nop
  ∧ decodeTableWord 128 0x1_18000028_28000002 = some (.iaddImm32 ⟨none, 0⟩ .s32 false 5 5 1)
  ∧ decodeTableWord 128 0x40_38000050_480005C2 = some (.ld ⟨none, 1⟩ .plain .fib .none false .z32 9 10 64)
  ∧ decodeTableWord 64 0x18102820_40000061 = some (.icmp ⟨none, 0⟩ .lt .s32 8 4 5)
  ∧ decodeTableWord 128 0xB8_00000000_00027182 = some (.bra ⟨some ⟨true, 9, 0⟩, 0⟩ 0xB8)
  ∧ decodeTableWord 64 0 = none

/-- Decoding is the inverse of encoding, for every well-formed instruction that has an encoding, with every operand at every
value it admits. -/
def Obligations.DecodingInvertsEncoding : Prop :=
  ∀ (i : Instr) (lo hi : Dword), i.wf = true → encodeWord i = some (lo, hi) → decodeWord lo hi = .ok i

/-- What the decoder accepts is a well-formed instruction whose encoding is the very word, so that a reserved or unused bit
that is not zero is refused (R66, R71). -/
def Obligations.DecodingAcceptsOnlyEncodings : Prop :=
  ∀ (lo hi : Dword) (i : Instr), decodeWord lo hi = .ok i →
    i.wf = true ∧ ∃ h, encodeWord i = some (lo, h) ∧ (lo.extractLsb' 0 2 ≠ 1 → h = hi)

/-- Memory stays canonical over every step, whatever the state: addresses strictly rising, and no entry equal to what an
unlisted address reads as. -/
def Obligations.StepKeepsMemoryCanonical : Prop := ∀ s t, MemInv s → step s = .next t → MemInv t

/-- Memory is canonical after reset, with nothing listed, so that every byte reads as 0: what memory holds at reset is the
model's choice (log 3). -/
def Obligations.ResetMemoryIsCanonical : Prop := MemInv State.reset ∧ State.reset.mem = []

/-- No step of the model faults or is refused, from any state: every row of the table has an effect, or leaves the state as
it is where its conditions do not hold, which is the model's reading of an event that the state does not admit (log 1). -/
def Obligations.EveryStepAnswersANextState : Prop := ∀ s, ∃ t, step s = .next t

/-- R14, R22, R42, R282, R296, R399, R406 and the reset columns of their tables: the values the manual states for reset. Device
time and the register window's counters are zero, the registers of PF0 read their reset values, the replacement classes
hold theirs (R282), and the sequence of context identifiers starts at 1, none assigned yet (R42). -/
def Sys2Proof.Claims.ResetLeavesTheStatedValues : Prop :=
  State.reset.time = 0
  ∧ (∀ off n, ∀ b ∈ State.reset.regWindow off n, b = 0)
  ∧ State.reset.pf0Read 0x0010 = 3000
  ∧ (∀ off ∈ [0x0008, 0x0018, 0x0020, 0x0028, 0x0100, 0x0108, 0x0110, 0x0118], State.reset.pf0Read off = 0)
  ∧ (∀ i < 17, State.reset.pf0Read (0x2000 + 8 * i) = 0)
  ∧ (∀ c ∈ State.reset.coh.classes, c = { waymask := 0xFFFF, wpol := 0, prot := 0, ins := 2 })
  ∧ State.reset.coh.classes.length = 8
  ∧ State.reset.lastCtx = 0 ∧ State.reset.ctxs = [] ∧ State.reset.fibres = [] ∧ State.reset.launches = []

/-- R14 and R22: what a launch's fibre and a placed sheaf's barrier objects hold at first, for every register count that R15
allows. -/
def Sys2Proof.Claims.NewFibresAndBarriersStartAsStated : Prop :=
  (∀ (k : FKey) (core depth win regs : Nat) (pc args : Dword), 8 ≤ regs → regs ≤ 256 →
    let f := Fibre.initial k core depth win regs pc args
    f.pc = pc ∧ f.predReg = 2 ∧ f.reg 2 = 0xFFFFFFFF ∧ f.pair 0 = args ∧ f.regs.length = regs
      ∧ (∀ r : Reg, r.toNat < regs → r ≠ 0 → r ≠ 1 → r ≠ 2 → f.reg r = 0)
      ∧ (∀ e ∈ f.residues, e = 0) ∧ f.residues.length = 8 ∧ (∀ n ∈ f.flags, n = 0) ∧ f.flags.length = 12)
  ∧ Barrier.initial.bits = 0

/-- R14, R22, R42, R282, R296, R399, R406: the values the manual states for reset, and what a launch's fibres and a sheaf's barriers hold first. -/
def Obligations.ResetAndFirstValues : Prop := Claims.ResetLeavesTheStatedValues ∧ Claims.NewFibresAndBarriersStartAsStated

/-! # Register instructions -/

/-- R104, R107, R108, R110–R120: every form of the integer and logic group completes with its result in D, and changes
nothing else. -/
def Sys2Proof.Claims.IntegerGroupWritesItsResultOnly : Prop :=
  ∀ (i : Instr) (s : State) (w : Warp), (∃ f, (integerResult i f).isSome) → Issuing i s w → RegisterOnly i s w (integerResult i)

/-- R95, R104, R107, R108, R121–R126: every form of the floating-point group completes with its result in D, and changes
nothing else. -/
def Sys2Proof.Claims.FloatGroupWritesItsResultOnly : Prop :=
  ∀ (i : Instr) (s : State) (w : Warp), (∃ f, (floatResult i f).isSome) → Issuing i s w → RegisterOnly i s w (floatResult i)

/-- R104, R127, R130, R131, R201: `cvt`, `pack`, `unpack`, `dot2`, `dot4` and `dot8` complete with their result in D, and
change nothing else. -/
def Sys2Proof.Claims.ConvertGroupWritesItsResultOnly : Prop :=
  ∀ (i : Instr) (s : State) (w : Warp), (∃ f, (convertResult i f).isSome) → Issuing i s w → RegisterOnly i s w (convertResult i)

/-- R95, R104, R121–R127, R130, R131, R201: the floating-point, conversion, packing and dot groups complete with their result in D, and change
nothing else. -/
def Obligations.FloatAndConvertGroups : Prop := Claims.FloatGroupWritesItsResultOnly ∧ Claims.ConvertGroupWritesItsResultOnly

/-- R151, R153: the five forms of `hoff`, and `hinfo`, complete with their result in the pair D, and change nothing else. -/
def Sys2Proof.Claims.CapabilityGroupWritesItsResultOnly : Prop :=
  ∀ (i : Instr) (s : State) (w : Warp), (∃ f, (capabilityResult i s f).isSome) → Issuing i s w →
    RegisterOnly i s w (capabilityResult i s)

/-- R104–R120, R151, R153: the integer, logic and capability groups complete with their result in D, and change nothing else. -/
def Obligations.IntegerAndCapabilityGroups : Prop := Claims.IntegerGroupWritesItsResultOnly ∧ Claims.CapabilityGroupWritesItsResultOnly

/-- R18, R101, R128, R129: `cvt.ef` writes D and one residue, `eclr` clears one residue register; no other residue and no
other register changes. -/
def Obligations.ResidueInstructionsWriteOneResidueRegister : Prop :=
  (∀ (h : Hdr) (md : Rnd) (dt : Ty) (d a : Reg) (e : BitVec 3) (j : BitVec 2) (s : State) (w : Warp),
    Issuing (.cvtEf h md dt d a e j) s w →
    FibreOnly (.cvtEf h md dt d a e j) s w fun f =>
      let r := cvtEfStep (fmtOf dt) md (f.reg a).toNat (residue (f.residues.getD e.toNat 0) j.toNat)
      { f.put dt d r.1 with residues := f.residues.set e.toNat (setResidue (f.residues.getD e.toNat 0) j.toNat r.2) })
  ∧ (∀ (h : Hdr) (e : BitVec 3) (s : State) (w : Warp), Issuing (.eclr h e) s w →
    FibreOnly (.eclr h e) s w fun f => { f with residues := f.residues.set e.toNat 0 })
  ∧ ∀ (r x : Dword) (rs : List Dword) (e n : Nat) (j : Nat), e < rs.length → n ≠ e →
    (rs.set e x).getD n 0 = rs.getD n 0 ∧ (rs.set e x).getD e 0 = x
      ∧ ∀ m v, j < 4 → m < 4 → residue (setResidue r j v) m = (if m = j then v % 2 ^ 16 else residue r m)

/-- R110, R111: sums and differences are taken modulo 2^w in every element, `.sat` clamps the exact value to the range of the
element, and the minimum and maximum compare by type. -/
def Sys2Proof.Claims.SumsAndExtremesByElement : Prop :=
  ∀ (t : Ty) (a b e : Nat), e < t.lanes →
    lane t e (iaddVal false false t a b) = lane t e a + lane t e b
    ∧ lane t e (iaddVal true false t a b) = lane t e a - lane t e b
    ∧ laneInt t e (iaddVal false true t a b)
        = max (rangeLo (tySigned t) (elemBits t)) (min (rangeHi (tySigned t) (elemBits t)) (laneInt t e a + laneInt t e b))
    ∧ laneInt t e (iaddVal true true t a b)
        = max (rangeLo (tySigned t) (elemBits t)) (min (rangeHi (tySigned t) (elemBits t)) (laneInt t e a - laneInt t e b))
    ∧ laneInt t e (iminVal false t a b) = min (laneInt t e a) (laneInt t e b)
    ∧ laneInt t e (iminVal true t a b) = max (laneInt t e a) (laneInt t e b)

/-- R110, R112, R113: products modulo 2^w and their upper half, multiply-add, magnitude, negation, and the carry chain's pair
of sum and carry, or difference and borrow. -/
def Sys2Proof.Claims.ProductsAndCarriesAreExact : Prop :=
  (∀ (t : Ty) (a b c : Nat), t.int = true → a < 2 ^ t.bits → b < 2 ^ t.bits → c < 2 ^ t.bits →
    BitVec.ofNat t.bits (imulVal t a b) = BitVec.ofNat t.bits a * BitVec.ofNat t.bits b
    ∧ (∃ lo : Int, 0 ≤ lo ∧ lo < 2 ^ t.bits
        ∧ ival (tySigned t) t.bits a * ival (tySigned t) t.bits b = ival (tySigned t) t.bits (imulhVal t a b) * 2 ^ t.bits + lo)
    ∧ BitVec.ofNat t.bits (imadVal t a b c) = BitVec.ofNat t.bits a * BitVec.ofNat t.bits b + BitVec.ofNat t.bits c
    ∧ BitVec.ofNat t.bits (iabsVal t a) = (BitVec.ofNat t.bits a).abs
    ∧ BitVec.ofNat t.bits (inegVal t a) = -BitVec.ofNat t.bits a)
  ∧ ∀ a b c : Word,
    BitVec.ofNat 64 (iaddcVal false a.toNat b.toNat c.toNat)
        = a.setWidth 64 + b.setWidth 64 + (c &&& 1).setWidth 64
    ∧ BitVec.ofNat 64 (iaddcVal true a.toNat b.toNat c.toNat)
        = (if a.toNat < b.toNat + (c &&& 1).toNat then 1#32 else 0#32) ++ (a - b - (c &&& 1))

/-- R110–R113: the arithmetic results, element by element, exact before they wrap or clamp. -/
def Obligations.ExactIntegerResults : Prop := Claims.SumsAndExtremesByElement ∧ Claims.ProductsAndCarriesAreExact

/-- R114, R115: the logic instructions act on every bit, and the shifts take the whole unsigned amount: left and right shifts
give 0 from w places on, the arithmetic shift copies of the sign, the rotation goes by n mod w. -/
def Sys2Proof.Claims.LogicAndShiftsOnEveryBit : Prop :=
  ∀ (t : Ty) (a b n : Nat), t.bitsTy = true → a < 2 ^ t.bits → b < 2 ^ t.bits →
    BitVec.ofNat t.bits (logicVal .andn t.bits a b) = BitVec.ofNat t.bits a &&& ~~~BitVec.ofNat t.bits b
    ∧ BitVec.ofNat t.bits (notVal t.bits a) = ~~~BitVec.ofNat t.bits a
    ∧ BitVec.ofNat t.bits (shiftVal .shl t.bits a n) = BitVec.ofNat t.bits a <<< n
    ∧ BitVec.ofNat t.bits (shiftVal .shr t.bits a n) = BitVec.ofNat t.bits a >>> n
    ∧ BitVec.ofNat t.bits (shiftVal .sra t.bits a n) = (BitVec.ofNat t.bits a).sshiftRight n
    ∧ BitVec.ofNat t.bits (shiftVal .rot t.bits a n) = (BitVec.ofNat t.bits a).rotateLeft n

/-- R116–R119: fields extracted and inserted, bits counted and reversed, and the mask a comparison writes. -/
def Sys2Proof.Claims.FieldsAndCountsOfBits : Prop :=
  (∀ (t : Ty) (pos len a i : Nat), t.int32or64 = true → 1 ≤ len → pos + len ≤ t.bits → a < 2 ^ t.bits → i < t.bits →
    (bfxVal t pos len a).testBit i = (if i < len then a.testBit (pos + i) else tySigned t && a.testBit (pos + len - 1)))
  ∧ (∀ (t : Ty) (pos len a b i : Nat), t.bitsTy = true → 1 ≤ len → pos + len ≤ t.bits → a < 2 ^ t.bits → b < 2 ^ t.bits →
    i < t.bits →
    (bfiVal pos len a b).testBit i = (if pos ≤ i ∧ i < pos + len then a.testBit (i - pos) else b.testBit i))
  ∧ (∀ (t : Ty) (a : Nat), t.bitsTy = true → a < 2 ^ t.bits →
    popcVal t.bits a = ((List.range t.bits).countP fun i => a.testBit i)
    ∧ clzVal t.bits a ≤ t.bits ∧ (∀ i, i < t.bits → t.bits - clzVal t.bits a ≤ i → a.testBit i = false)
    ∧ (a ≠ 0 → clzVal t.bits a < t.bits ∧ a.testBit (t.bits - 1 - clzVal t.bits a) = true) ∧ (a = 0 → clzVal t.bits a = t.bits)
    ∧ ctzVal t.bits a ≤ t.bits ∧ (∀ i, i < ctzVal t.bits a → a.testBit i = false)
    ∧ (a ≠ 0 → ctzVal t.bits a < t.bits ∧ a.testBit (ctzVal t.bits a) = true) ∧ (a = 0 → ctzVal t.bits a = t.bits)
    ∧ ∀ i < t.bits, (brevVal t.bits a).testBit i = a.testBit (t.bits - 1 - i))
  ∧ ∀ c, maskOf c = if c then 0xFFFFFFFF else 0

/-- R151: `hoff` leaves the handle as it is and adds to the offset, exactly; a result outside the 40 bits gives the offset all
ones, which no access accepts. -/
def Sys2Proof.Claims.HoffAddsToTheOffset : Prop :=
  ∀ (cap : Dword) (x : Int),
    capHandle (hoffVal cap x) = capHandle cap
    ∧ (0 ≤ capOffset cap + x → capOffset cap + x < 2 ^ 40 → (capOffset (hoffVal cap x) : Int) = capOffset cap + x)
    ∧ (capOffset cap + x < 0 ∨ 2 ^ 40 ≤ capOffset cap + x → capOffset (hoffVal cap x) = 2 ^ 40 - 1)

/-- R114–R119, R151: the results on bits, and the offset that `hoff` gives. -/
def Obligations.BitAndOffsetResults : Prop := Claims.LogicAndShiftsOnEveryBit ∧ Claims.FieldsAndCountsOfBits ∧ Claims.HoffAddsToTheOffset

/-! # Guards, checks and traps -/

/-- R70: where the guard is false, the fibre stays in the warp and goes on with the following word, and the instruction changes
no register, flag, memory or engine state. The set instructions stand in MembersMatchTheirSetInstructions. -/
def Sys2Proof.Claims.AFalseGuardHasNoEffect : Prop :=
  (∀ (i : Instr) (g : Guard) (fsel : BitVec 2) (f : Fibre) (h : Sheaf), hdr? i = some ⟨some g, fsel⟩ → g.reg.toNat < h.regs →
    ((f.reg g.reg).getLsbD g.bit.toNat != g.inv) = false → preCheck i f h = .skip)
  ∧ ∀ (i : Instr) (s : State) (w : Warp) (k : FKey) (f : Fibre) (h : Sheaf), isWarpInstr i = true → isSetInstr i = false →
    AloneAt .skip i s w k f h → Executes i s (goesOn i s w k id)

/-- R39, R70, R73, R75 (steps 4 and 5): a privileged instruction traps in the unprivileged view before any register is looked
at; then the guard's register and each operand in order is held against the register count, the trap naming the lowest index
at or above it; an instruction that passes is executed, and one that does not has no effect but its trap. OPND for the index 256, which its 8 bits
hold as 0, and the eight registers of a queue register that is not bound are the model's choice (log 82). -/
def Sys2Proof.Claims.ChecksBeforeTheEffect : Prop :=
  (∀ i f h, (∀ g fsel, hdr? i ≠ some ⟨some g, fsel⟩) → privileged i = true → h.priv = false →
    preCheck i f h = .trap ⟨cPrivilege, 0, 0⟩)
  ∧ (∀ i f h g fsel, hdr? i = some ⟨some g, fsel⟩ → g.reg.toNat < h.regs → ((f.reg g.reg).getLsbD g.bit.toNat != g.inv) = true →
    privileged i = true → h.priv = false → preCheck i f h = .trap ⟨cPrivilege, 0, 0⟩)
  ∧ (∀ i f h g fsel, hdr? i = some ⟨some g, fsel⟩ → (privileged i = false ∨ h.priv = true) → h.regs ≤ g.reg.toNat →
    preCheck i f h = .trap ⟨cRegRange, g.reg, 0⟩)
  ∧ (∀ i f h, (∀ g fsel, hdr? i ≠ some ⟨some g, fsel⟩) → (privileged i = false ∨ h.priv = true) →
    (∀ o ∈ opnds h.bind i, o.1 + o.2 ≤ h.regs) → preCheck i f h = .run)
  ∧ (∀ i f h before o after, (∀ g fsel, hdr? i ≠ some ⟨some g, fsel⟩) → (privileged i = false ∨ h.priv = true) →
    opnds h.bind i = before ++ o :: after → (∀ x ∈ before, x.1 + x.2 ≤ h.regs) → h.regs < o.1 + o.2 →
    preCheck i f h = .trap ⟨cRegRange, BitVec.ofNat 8 (max o.1 h.regs), 0⟩)
  ∧ ∀ (i : Instr) (t : TrapInfo) (s : State) (w : Warp) (k : FKey) (f : Fibre) (h : Sheaf), isWarpInstr i = true →
    AloneAt (.trap t) i s w k f h → TrapsWith i s w k f t

/-- R39, R70, R73, R75: what a false guard and the checks before an effect leave. -/
def Obligations.GuardsAndChecksComeFirst : Prop := Claims.AFalseGuardHasNoEffect ∧ Claims.ChecksBeforeTheEffect

/-- R40, R231: an unprivileged fibre's trap writes sr.fault, holds the fibre out of its warp, and queues one record to its
die's service queue, whose fields are the trapping address, INFO, context, OPND, launch, kind 1, die, core, slot and code.
No register, residue, flag or byte of memory changes. -/
def Obligations.AnUnprivilegedTrapIsQueued : Prop :=
  (∀ (s : State) (k : FKey) (f : Fibre) (t : TrapInfo) (pc : Dword), s.fib? k = some f → s.isPriv k = false →
    let u := s.takeTrap k t pc
    (∃ m, u.fib? k = some { f with faultCode := t.code, faultOpnd := t.opnd, faultValid := true, cond := .held .trap, monitor := m })
    ∧ (∀ w ∈ u.warps, k ∉ w.members)
    ∧ (s.svcRoom (coreDie f.core) 1 = true →
        (u.svcQ (coreDie f.core)).entries = (s.svcQ (coreDie f.core)).entries ++ [⟨trapRecord s f t pc, false⟩])
    ∧ (s.svcRoom (coreDie f.core) 1 = false →
        (u.svcQ (coreDie f.core)).waiting = (s.svcQ (coreDie f.core)).waiting ++ [[⟨trapRecord s f t pc, false⟩]])
    ∧ OthersKept [k] s u ∧ MemKept s u
    ∧ u = { s with fibres := u.fibres, warps := u.warps, svc := u.svc })
  ∧ ∀ (s : State) (f : Fibre) (t : TrapInfo) (pc : Dword), f.core < 1544 → f.depth < 16 → s.ctxOf f.key < 2 ^ 24 →
    let r := trapRecord s f t pc
    r.extractLsb' 192 64 = pc ∧ r.extractLsb' 128 64 = t.info ∧ (r.extractLsb' 104 24).toNat = s.ctxOf f.key
      ∧ r.extractLsb' 96 8 = t.opnd ∧ r.extractLsb' 64 32 = s.launchId f.key ∧ r.extractLsb' 61 3 = 1 ∧ r.extractLsb' 51 10 = 0
      ∧ (r.extractLsb' 48 3).toNat = coreDie f.core ∧ (r.extractLsb' 40 8).toNat = coreInDie f.core ∧ r.extractLsb' 27 13 = 0
      ∧ (r.extractLsb' 16 11).toNat = f.slot ∧ r.extractLsb' 0 16 = t.code

/-- R232: a privileged fibre's trap saves the address in ks.epc and the code and slot in ks.ecause, and the fibre goes on at
ks.trapvec; it is not held, and nothing is queued. Whether sr.fault changes, R232 does not say; TrappingInstructionsAndEret
has the model's reading. -/
def Obligations.APrivilegedTrapGoesToItsVector : Prop :=
  ∀ (s : State) (k : FKey) (f : Fibre) (t : TrapInfo) (pc : Dword), s.fib? k = some f → s.isPriv k = true → f.depth < 16 →
    let u := s.takeTrap k t pc
    ∃ (e : Word) (code : Code) (opnd : BitVec 8) (valid : Bool), e.extractLsb' 0 16 = t.code ∧ (e.extractLsb' 16 11).toNat = f.slot
      ∧ e.extractLsb' 27 5 = 0
      ∧ u.fib? k = some { f with
          ksEpc := pc, ksEcause := e, pc := f.ksTrapvec, clause := none, cond := .unbatched
          faultCode := code, faultOpnd := opnd, faultValid := valid }
      ∧ (∀ w ∈ u.warps, k ∉ w.members) ∧ OthersKept [k] s u ∧ MemKept s u
      ∧ u = { s with fibres := u.fibres, warps := u.warps }

/-- R45, R232, R233: `bkpt` raises 0x010F with its code as INFO; `trap` and `ttrap` raise 0x8000 + code with the code as INFO, and
`ttrap`, in either view, also freezes the whole context and sends the record to the host. In the privileged view the record, which is
queued nowhere, goes to the host alone (log 93). A context that is frozen is marked so, whatever the run queue makes of it (R344). A
privileged trap leaves sr.fault as it is (log 39). -/
def Sys2Proof.Claims.TrappingInstructionsRaiseTheirCodes : Prop :=
  (∀ h code s w k f sh, Alone (.bkpt h code) s w k f sh → TrapsWith (.bkpt h code) s w k f ⟨0x010F, 0, code.setWidth 64⟩)
  ∧ (∀ h code s w k f sh, Alone (.trap h code) s w k f sh →
    TrapsWith (.trap h code) s w k f ⟨0x8000 + code.setWidth 16, 0, code.setWidth 64⟩)
  ∧ (∀ (s : State) (k : FKey) (f : Fibre) (t : TrapInfo) (pc : Dword), s.fib? k = some f → s.isPriv k = true →
    ∃ g, (s.takeTrap k t pc).fib? k = some g ∧ g.faultCode = f.faultCode ∧ g.faultOpnd = f.faultOpnd ∧ g.faultValid = f.faultValid)
  ∧ (∀ h code s w k f sh, Alone (.ttrap h code) s w k f sh →
    let t : TrapInfo := ⟨0x8000 + code.setWidth 16, 0, code.setWidth 64⟩
    Executes (.ttrap h code) s
      ((((atInstr (.ttrap h code) s w k).takeTrap k t f.pc).freezeCtx sh.ctx).notice 1 sh.ctx
        ((trapRecord s f t f.pc).setWidth 512)))
  ∧ ∀ (s : State) (x : Nat) (c : Ctx), s.ctx? x = some c → ∃ n, (s.freezeCtx x).ctx? x = some { c with frozen := true, runnableAt := n }

/-- R57, R234: `eret` resumes the fibre held in a trap that ks.ctx, core C of the issuing die and the slot of ks.ecause name, at
ks.epc, its clause kept unless ks.epc was written; `eret.end` ends it as `fend` would; without such a fibre, either raises the
illegal-instruction trap. -/
def Sys2Proof.Claims.EretResumesOrEndsTheHeldFibre : Prop :=
  (∀ h c s w k f sh g, Alone (.eret h c) s w k f sh → s.eretTarget f c = some g →
    (g.cond = .held .trap ∧ g.core = coreOfDie (coreDie f.core) ((f.reg c).toNat % 256) ∧ s.ctxOf g.key = f.ksCtx.toNat
      ∧ g.slot = f.ksEcause.toNat / 2 ^ 16 % 2 ^ 11)
    ∧ Executes (.eret h c) s (goesOn (.eret h c) s w k fun s => s.modFib g.key fun x => { x with
        pc := f.ksEpc, clause := if f.epcWritten then none else x.clause, cond := .unbatched }))
  ∧ (∀ h c s w k f sh g, Alone (.eretEnd h c) s w k f sh → s.eretTarget f c = some g →
    Executes (.eretEnd h c) s (goesOn (.eretEnd h c) s w k fun s => (s.dropPending g.key).endFibre g.key))
  ∧ (∀ h c s w k f sh, Alone (.eret h c) s w k f sh → s.eretTarget f c = none → TrapsWith (.eret h c) s w k f ⟨0x0100, 0, 0⟩)
  ∧ (∀ h c s w k f sh, Alone (.eretEnd h c) s w k f sh → s.eretTarget f c = none → TrapsWith (.eretEnd h c) s w k f ⟨0x0100, 0, 0⟩)
  ∧ ∀ (s : State) (f : Fibre) (c : Reg), 192 ≤ (f.reg c).toNat % 256 → (f.reg c).toNat % 256 ≠ 255 → s.eretTarget f c = none

/-- R45, R57, R233, R234: the instructions that trap, and the return from a trap. -/
def Obligations.TrappingInstructionsAndEret : Prop := Claims.TrappingInstructionsRaiseTheirCodes ∧ Claims.EretResumesOrEndsTheHeldFibre

/-! # Control transfers, fibre creation and ending -/

namespace Sys2Proof.Claims

/-- Where a transfer goes, and what it writes first (R138, R139). -/
def transferOf (i : Instr) (f : Fibre) : Option (Dword × (Fibre → Fibre)) :=
  match i with
  | .bra _ disp => some (f.pc + disp.signExtend 64, id)
  | .brx _ a | .ret _ a => some (f.pair a, id)
  | .brxL _ d a => some (f.pair a, fun x => x.setPair d (x.pc + 8))
  | .call _ d disp => some (f.pc + disp.signExtend 64, fun x => x.setPair d (x.pc + 16))
  | _ => none

end Sys2Proof.Claims

/-- R54, R138, R139: `bra`, `brx`, `brx.l`, `call` and `ret` go to their target, the link pair written by the linking forms;
a target at or beyond the code object's length, or one within it that is not a multiple of 8, traps in the transferring
instruction, which then has no effect. -/
def Obligations.TransfersGoToTheirTargets : Prop :=
  ∀ i s w k f h target link l, Alone i s w k f h → transferOf i f = some (target, link) → s.launchOf k = some l →
    (target.toNat % 8 = 0 → target.toNat < l.codeLen →
      Executes i s (goesTo i s w k target fun s => s.modFib k link))
    ∧ (target.toNat % 8 ≠ 0 → target.toNat < l.codeLen → TrapsWith i s w k f ⟨0x0100, 0, 0⟩)
    ∧ (l.codeLen ≤ target.toNat → TrapsWith i s w k f ⟨0x0104, 0, 0⟩)

/-- R26, R140, R141: `fspawn` makes the lowest free identifier below the quota a live fibre at its target, with the registers
R140 gives it, and writes the identifier to D; where none is free D is all ones; a target beyond the code object traps. The
spawner goes on where its release at sheaf scope is met, and is held where it is not. -/
def Obligations.FspawnCreatesTheLowestFreeFibre : Prop :=
  (∀ h d a disp p s w k f sh l, Alone (.fspawn h d a disp p) s w k f sh → s.launchOf k = some l →
    let target := f.pc + (disp.signExtend 64 <<< 3)
    let i : Instr := .fspawn h d a disp p
    (l.codeLen ≤ target.toNat → TrapsWith i s w k f ⟨0x0104, 0, 0⟩)
    ∧ (target.toNat < l.codeLen → s.freeFid sh = none →
        Executes i s (goesOn i s w k fun s => s.modFib k fun x => x.setReg d 0xFFFFFFFF))
    ∧ ∀ j, target.toNat < l.codeLen → s.freeFid sh = some j →
        (j < sh.quota ∧ s.fib? ⟨sh.uid, j⟩ = none ∧ ∀ n < j, s.fib? ⟨sh.uid, n⟩ ≠ none)
        ∧ (let spawned (s : State) : State :=
            State.modFib { s with fibres := s.fibres ++ [{ newFibre sh f j target l.args a p with inc := s.evno + 1 }] } k fun x => x.setReg d (BitVec.ofNat 32 j)
          (s.releaseMet k .shf 0 = true →
            Executes i s (goesOn i s w k fun s => (spawned s).startSpawned k.sheaf j))
          ∧ (s.releaseMet k .shf 0 = false →
            Executes i s ((spawned (atInstr i s w k)).setCond k (.held (.release .shf (.spawn j) s.time))))))
  ∧ ∀ (h : Sheaf) (f : Fibre) (j : Nat) (target args : Dword) (a p : Reg), 8 ≤ h.regs → h.regs ≤ 256 → p.toNat < h.regs →
    let g := newFibre h f j target args a p
    g.key = ⟨h.uid, j⟩ ∧ g.pc = target ∧ g.predReg = p ∧ (∀ e ∈ g.residues, e = 0) ∧ (∀ n ∈ g.flags, n = 0)
      ∧ ∀ r : Reg, r.toNat < h.regs → g.reg r = (if r = p then f.reg a else if r = 3 then BitVec.ofNat 32 f.key.fid
          else if r = 1 then (args >>> 32).setWidth 32 else if r = 0 then args.setWidth 32 else 0)

/-- R31, R142: `fend` takes the fibre out of its warp and of every set of its sheaf, discards the register writes of its
operations in flight, and ends it: at once where its flags are clear, else it stays ended until they are. -/
def Sys2Proof.Claims.FendEndsTheFibre : Prop :=
  (∀ h s w k f sh, Alone (.fend h) s w k f sh →
    Executes (.fend h) s (((atInstr (.fend h) s w k).dropPending k).endFibre k))
  ∧ ∀ (s : State) (k : FKey) (f : Fibre), s.fib? k = some f →
    let t := s.endFibre k
    ((∀ n ∈ f.flags, n = 0) → (∀ x ∈ s.fibres, x.key = k → x = f) → t.fib? k = none)
    ∧ ((∃ n ∈ f.flags, n ≠ 0) → t.fib? k = some { f with cond := .ended })
    ∧ (∀ v ∈ t.warps, k ∉ v.members)
    ∧ (∀ sh ∈ t.sheafs, sh.uid = k.sheaf → ∀ js ∈ sh.sets, ∀ m ∈ js.members, m.fid ≠ k.fid)
    ∧ (∀ o ∈ t.ops, o.key = k → o.dst = none ∧ o.dst2 = none)
    ∧ (∀ j, j ≠ k → t.fib? j = s.fib? j) ∧ MemKept s t

/-- R229: `step` ends its fibre, and records the address of the following clause header: the first of a step fixes the launch's
continuation, one that names the same address changes nothing, another is counted in STRAY. -/
def Sys2Proof.Claims.StepRecordsTheContinuation : Prop :=
  (∀ h s w k f sh, Alone (.step h) s w k f sh →
    Executes (.step h) s ((((atInstr (.step h) s w k).modLaunch sh.launch fun l => l.recordStep (f.pc.toNat + 8)).dropPending k).endFibre k))
  ∧ ∀ (l : Launch) (c : Nat),
    (l.cont = none → l.recordStep c = { l with cont := some c })
    ∧ (l.cont = some c → l.recordStep c = l)
    ∧ ∀ c0, l.cont = some c0 → c0 ≠ c → l.recordStep c = { l with stray := l.stray + 1 }

/-- R31, R142, R229: `fend` and `step` end their fibre; `step` records the launch's continuation. -/
def Obligations.FendAndStepEndTheFibre : Prop := Claims.FendEndsTheFibre ∧ Claims.StepRecordsTheContinuation

/-! # System instructions -/

/-- R74: the word of `nop`, whose only effect is that the fibre goes on with the following word; a word of zeros is a clause header with
LEN 0, so that a clause that starts at one raises the illegal-instruction trap at its address in every member. -/
def Obligations.NopAndZeroWords : Prop :=
  (∀ hi, decodeWord 0x301 hi = .ok .nop) ∧ encodeWord .nop = some (0x0000000000000301, 0)
  ∧ (∀ s w k f sh, Alone .nop s w k f sh → Executes .nop s (goesOn .nop s w k id))
  ∧ (∀ (word : Nat → Dword) (len pc : Nat), word pc = 0 → pc + 8 ≤ len → checkClause word len pc = .error ⟨0x0100, pc⟩)
  ∧ ∀ (s : State) (w : Warp) (pc : Nat),
      s.trapWarp w ⟨0x0100, pc⟩ = w.members.foldl (fun s k => s.takeTrap k ⟨0x0100, 0, 0⟩ (BitVec.ofNat 64 pc)) s

/-- R58, R239: `yield` marks its warp to be passed over in the next choice; `halt` halts the service
core and tells the host, and a halted core's quadrants issue nothing. -/
def Obligations.YieldAndHalt : Prop :=
  (∀ s w k f sh, Alone .yield s w k f sh →
    Executes .yield s (goesOn .yield s w k fun s => s.modWarp w.core w.quad w.slot fun v => { v with skip := true }))
  ∧ (∀ s w k f sh, Alone .halt s w k f sh → (s.coreSt f.core).halted = false →
    Executes .halt s (goesOn .halt s w k fun s =>
      (s.setCore { s.coreSt f.core with halted := true }).notice 9 0 (BitVec.ofNat 512 (coreDie f.core))))
  ∧ (∀ s w k f sh, Alone .halt s w k f sh → (s.coreSt f.core).halted = true → Executes .halt s (goesOn .halt s w k id))
  ∧ ∀ s core quad up, (s.coreSt core).halted = true → exec (.issueCycle core quad up) s = .next s

/-- R214, R235–R237: `uien` records handler and link and sets EN, taking over an interrupt that is pending for the sheaf;
`uidis` clears EN and keeps PEND; at a clause boundary with EN and PEND set the link pair takes the address of the clause at
which the fibre would resume, and the fibre goes to the handler with both bits clear. A raised interrupt reaches every live
fibre with EN, or else stays pending for the sheaf. -/
def Sys2Proof.Claims.UserInterruptsAreEnabledAndTaken : Prop :=
  (∀ h l a s w k f sh, Alone (.uien h l a) s w k f sh →
    Executes (.uien h l a) s (goesOn (.uien h l a) s w k fun s =>
      (s.modFib k fun x => { x with uiEn := true, uiHandler := f.pair a, uiLink := l, uiPend := f.uiPend || sh.uiPending }).modSheaf
        k.sheaf fun x => { x with uiPending := false }))
  ∧ (∀ s w k f sh, Alone .uidis s w k f sh →
    Executes .uidis s (goesOn .uidis s w k fun s => s.modFib k fun x => { x with uiEn := false }))
  ∧ (∀ (s : State) (u fid : Nat) (f : Fibre), s.fib? ⟨u, fid⟩ = some f → f.uiEn = true → f.uiPend = true → f.pendTraps = [] →
    f.clause = none → s.ctxHalted f.key = false → ((∃ n, f.cond = .batched n) ∨ f.cond = .unbatched) →
    Gives (.userInterruptEntry u fid) s fun t =>
      t.fib? ⟨u, fid⟩ = some { f.setPair f.uiLink f.pc with pc := f.uiHandler, uiEn := false, uiPend := false, cond := .unbatched }
      ∧ (∀ v ∈ t.warps, (⟨u, fid⟩ : FKey) ∉ v.members) ∧ OthersKept [⟨u, fid⟩] s t ∧ MemKept s t
      ∧ t = { s with fibres := t.fibres, warps := t.warps })
  ∧ ∀ (s : State) (u : Nat),
    ((∀ f ∈ s.fibres, f.key.sheaf = u → f.cond = .ended ∨ f.uiEn = false) →
      s.raiseUser u = s.modSheaf u fun h => { h with uiPending := true })
    ∧ ((∃ f ∈ s.fibres, f.key.sheaf = u ∧ f.cond ≠ .ended ∧ f.uiEn = true) →
      ∀ k f, s.fib? k = some f → ∃ g, (s.raiseUser u).fib? k = some g
        ∧ (k.sheaf = u ∧ f.cond ≠ .ended ∧ f.uiEn = true → g.uiPend = true)
        ∧ (k.sheaf ≠ u ∨ f.cond = .ended ∨ f.uiEn = false → g = f))

/-- R198, R447: the oldest trap pending from a matrix operation is taken at the fibre's next clause boundary, at the address
of the clause header there, and no longer pends. -/
def Sys2Proof.Claims.PendingMatrixTrapsAreTakenAtABoundary : Prop :=
  ∀ (s : State) (u fid : Nat) (f : Fibre) (t : PendTrap) (rest : List PendTrap), s.fib? ⟨u, fid⟩ = some f → f.pendTraps = t :: rest →
    f.clause = none → s.ctxHalted f.key = false → ((∃ n, f.cond = .batched n) ∨ f.cond = .unbatched) →
    exec (.pendingMatrixTrap u fid) s
      = .next ((s.modFib ⟨u, fid⟩ fun x => { x with pendTraps := rest }).takeTrap ⟨u, fid⟩ ⟨t.code, 0, t.info⟩ f.pc)

/-- R198, R214, R235–R237, R447: user interrupts and pending matrix traps, taken at clause boundaries. -/
def Obligations.BoundaryEntries : Prop := Claims.UserInterruptsAreEnabledAndTaken ∧ Claims.PendingMatrixTrapsAreTakenAtABoundary

/-- R39–R42, R238: `srd` writes the named register's value to D, a pair for the wide ones; each index reads what R39 and R41
say. On a service core sr.core and sr.cluster have no stated value and read the free value (log 17). -/
def Obligations.SpecialRegistersRead : Prop :=
  (∀ h d idx s w k f sh, Alone (.srd h d idx) s w k f sh → (idx = 0x05 ∨ idx = 0x06 → f.core < 1536) →
    Executes (.srd h d idx) s (goesOn (.srd h d idx) s w k fun s => s.modFib k fun x =>
      if srWide idx = some true then x.setPair d (BitVec.ofNat 64 (s.sreg f sh [k.lane] idx.toNat))
      else x.setReg d (BitVec.ofNat 32 (s.sreg f sh [k.lane] idx.toNat))))
  ∧ (∀ h d idx s w k f sh, Alone (.srd h d idx) s w k f sh → (idx = 0x05 ∨ idx = 0x06) → 1536 ≤ f.core →
    Executes (.srd h d idx) s (goesOn (.srd h d idx) s w k fun s =>
      { s.modFib k fun x => x.setReg d (BitVec.ofNat 32 (s.freeBits.1.toNat % 2 ^ 32)) with free := s.free + 1 }))
  ∧ ∀ (s : State) (f : Fibre) (sh : Sheaf) (lanes : List Nat), s.fib? f.key = some f →
    s.sreg f sh lanes 0x00 = f.key.fid ∧ s.sreg f sh lanes 0x01 = f.key.fid / 4 % 32 ∧ s.sreg f sh lanes 0x02 = f.key.fid % 4
    ∧ s.sreg f sh lanes 0x03 = 512 * (f.key.fid % 4) + 32 * f.depth + f.key.fid / 4 % 32 ∧ s.sreg f sh lanes 0x04 = sh.index
    ∧ (f.core < 1536 → s.sreg f sh lanes 0x05 = f.core ∧ s.sreg f sh lanes 0x06 = f.core / 8 ∧ s.sreg f sh lanes 0x07 = f.core / 192)
    ∧ (∀ l, s.launch? sh.launch = some l → s.sreg f sh lanes 0x08 = l.id.toNat ∧ s.sreg f sh lanes 0x09 = l.step
        ∧ s.sreg f sh lanes 0x0A = l.held.length
        ∧ (l.scheds = [] → s.sreg f sh lanes 0x0F = 0)
        ∧ ∀ t, l.scheds.find? (·.core == f.core) = some t → s.sreg f sh lanes 0x0F = t.cursor)
    ∧ s.sreg f sh lanes 0x0B = (s.fibres.filter (·.key.sheaf == sh.uid)).length
    ∧ s.sreg f sh lanes 0x0C = sh.quota ∧ s.sreg f sh lanes 0x0D = sh.regs ∧ s.sreg f sh lanes 0x0E = 4096 * sh.granules
    ∧ s.sreg f sh lanes 0x10 = s.time % 2 ^ 64 ∧ s.sreg f sh lanes 0x12 = s.time / 1000 % 64
    ∧ s.sreg f sh lanes 0x13 = f.faultCode.toNat * 2 ^ 16 + f.faultOpnd.toNat * 2 ^ 8 + (if f.faultValid then 1 else 0)
    ∧ s.sreg f sh lanes 0x14 = (if f.inFlags.getLsbD 0 then 1 else 0)
    ∧ s.sreg f sh lanes 0x15 = (if f.uiPend then 2 else 0) + (if f.uiEn then 1 else 0)
    ∧ s.sreg f sh lanes 0x16 = f.predReg.toNat ∧ s.sreg f sh [f.key.lane] 0x17 = 2 ^ f.key.lane
    ∧ ((∀ n ∈ f.flags, n ≤ 63) → f.flags.length = 12 →
        (∀ n < 5, s.sreg f sh lanes 0x18 / 2 ^ (6 * n) % 64 = f.flag n) ∧ (∀ n < 5, s.sreg f sh lanes 0x19 / 2 ^ (6 * n) % 64 = f.flag (5 + n))
        ∧ ∀ n < 2, s.sreg f sh lanes 0x1A / 2 ^ (6 * n) % 64 = f.flag (10 + n))
    ∧ s.sreg f sh lanes 0x80 = f.ksCtx.toNat ∧ s.sreg f sh lanes 0x88 = f.ksTrapvec.toNat ∧ s.sreg f sh lanes 0x8A = f.ksEpc.toNat
    ∧ s.sreg f sh lanes 0x8C = f.ksEcause.toNat ∧ s.sreg f sh lanes 0x8E = 0
    ∧ (∀ c, s.ctx? f.ksCtx.toNat = some c → s.sreg f sh lanes 0x82 = c.htbase.toNat ∧ s.sreg f sh lanes 0x84 = c.htlen
        ∧ s.sreg f sh lanes 0x85 = c.tslice.toNat ∧ s.sreg f sh lanes 0x86 = c.wbudget.toNat ∧ s.sreg f sh lanes 0x87 = c.flags.toNat
        ∧ s.sreg f sh lanes 0x8D = (if c.frozen then 1 else 0)
        ∧ ∀ p, s.part? c.part = some p → s.sreg f sh lanes 0x81 = p.dieMask)
    ∧ (s.ctx? f.ksCtx.toNat = none → ∀ idx ∈ [0x81, 0x82, 0x84, 0x85, 0x86, 0x87, 0x8D, 0x8E], s.sreg f sh lanes idx = 0)

/-- R6, R39–R42, R238: `swr` writes ks.ctx, ks.trapvec, ks.epc and ks.ecause of the issuing fibre, and the per-context
registers of the context that ks.ctx names; it ignores every register marked RO. A write to ks.htbase keeps bits 4:0 zero, a
value above 2^24 to ks.htlen is ignored, and both invalidate the context's cached handle entries. VALID of sr.fault is cleared
by writing 1, ks.frozen releases by 0, ks.kill kills by 1; neither reaches the service context. -/
def Sys2Proof.Claims.SpecialRegistersAreWritten : Prop :=
  (∀ h idx a s w k f sh, Alone (.swr h idx a) s w k f sh →
    let x := f.ksCtx.toNat
    let writes (g : State → State) : Prop := Executes (.swr h idx a) s (goesOn (.swr h idx a) s w k g)
    (idx = 0x80 → writes fun s => s.modFib k fun y => { y with ksCtx := (f.reg a).setWidth 24 })
    ∧ (idx = 0x85 → writes fun s => s.modCtx x fun c => { c with tslice := f.reg a })
    ∧ (idx = 0x86 → writes fun s => s.modCtx x fun c => { c with wbudget := f.reg a })
    ∧ (idx = 0x87 → writes fun s => s.modCtx x fun c => { c with flags := f.reg a &&& 1 })
    ∧ (idx = 0x88 → writes fun s => s.modFib k fun y => { y with ksTrapvec := f.pair a })
    ∧ (idx = 0x8A → writes fun s => s.modFib k fun y => { y with ksEpc := f.pair a, epcWritten := true })
    ∧ (idx = 0x8C → writes fun s => s.modFib k fun y => { y with ksEcause := f.reg a &&& 0x07FFFFFF })
    ∧ (idx ∉ [0x80, 0x85, 0x86, 0x87, 0x88, 0x8A, 0x8C] → writes id))
  ∧ (∀ h a s w k f sh, Alone (.srFaultClear h a) s w k f sh →
    Executes (.srFaultClear h a) s (goesOn (.srFaultClear h a) s w k fun s => s.modFib k fun y =>
      if (y.reg a).getLsbD 0 then { y with faultValid := false } else y))
  ∧ (∀ h a s w k f sh, Alone (.ksHtbaseWrite h false a) s w k f sh →
    Executes (.ksHtbaseWrite h false a) s (goesOn (.ksHtbaseWrite h false a) s w k fun s =>
      (s.dropXc (·.ctx == f.ksCtx.toNat)).modCtx f.ksCtx.toNat fun c => { c with htbase := f.pair a &&& ~~~31 }))
  ∧ (∀ h a s w k f sh, Alone (.ksHtbaseWrite h true a) s w k f sh →
    Executes (.ksHtbaseWrite h true a) s (goesOn (.ksHtbaseWrite h true a) s w k fun s =>
      if (f.reg a).toNat ≤ 2 ^ 24 then
        (s.dropXc (·.ctx == f.ksCtx.toNat)).modCtx f.ksCtx.toNat fun c => { c with htlen := (f.reg a).toNat }
      else s))
  ∧ (∀ (s : State) (x : Nat), (∀ y ∈ (s.dropXc (·.ctx == x)).xc, y.ctx ≠ x) ∧ ∀ y ∈ s.xc, y.ctx ≠ x → y ∈ (s.dropXc (·.ctx == x)).xc)
  ∧ (∀ h a s w k f sh, Alone (.ksFrozenWrite h a) s w k f sh →
    Executes (.ksFrozenWrite h a) s (goesOn (.ksFrozenWrite h a) s w k fun s =>
      if (f.reg a).getLsbD 0 = true ∨ f.ksCtx = 0xFFFFFF then s else s.releaseCtx f.ksCtx.toNat))
  ∧ ∀ h a s w k f sh, Alone (.ksKillWrite h a) s w k f sh →
    Executes (.ksKillWrite h a) s (goesOn (.ksKillWrite h a) s w k fun s =>
      if (f.reg a).getLsbD 0 = false ∨ f.ksCtx = 0xFFFFFF then s else s.killCtx f.ksCtx.toNat)

/-- R45, R344, R375, R401, R403: releasing a context ends its frozen and its faulted state. One with a launch that has not ended is
runnable again, from then on; its held messages are taken in arrival order, the first that a posting matches landing for the first
such posting, and where none matches all stay as they are. Killing one takes away its fibres, sheafs,
warps, commands, launches and queued matrix operations, and the context itself. Another context keeps all but its place in the
run queue, and no fibre of another is taken away, nor its registers changed; where no command of the context ends with it, every
such fibre is as before. -/
def Sys2Proof.Claims.ReleaseAndKillOfAContext : Prop :=
  (∀ (s : State) (x : Nat) (c : Ctx), s.ctx? x = some c → c.frozen = true → (∀ u ∈ s.recv.unexpected, u.1 ≠ x) →
    (∀ l ∈ s.launches, l.ctx ≠ x) →
    ∃ d, (s.releaseCtx x).ctx? x = some d ∧ d.frozen = false ∧ d.faulted = false ∧ d.discarded = [])
  ∧ (∀ (s : State) (x : Nat) (c : Ctx), s.ctx? x = some c → c.frozen = true → c.discarded = [] → (∀ u ∈ s.recv.unexpected, u.1 ≠ x) →
    (∃ l ∈ s.launches, l.ctx = x) →
    (∀ l ∈ s.launches, l.ctx = x → l.phase ≠ .running ∨ l.next < l.total ∨ ∃ h ∈ s.sheafs, h.launch = l.uid) →
    let t := s.releaseCtx x
    s.runnable x = false ∧ t.runnable x = true ∧ t.launches = s.launches
      ∧ ∃ d, t.ctx? x = some d ∧ d.frozen = false ∧ d.faulted = false ∧ d.discarded = [] ∧ d.runnableAt = s.time)
  ∧ (∀ (s : State) (x : Nat) (c : Ctx), s.ctx? x = some c → c.frozen = true →
    (∀ m p d, s.recv.unexpected.find? (·.1 == x) = some (x, m) → m.eager = true →
      s.recv.postings.find? (fun p => p.ctx == x && p.matches m) = some p → s.cmd? p.cmd = some d →
      let t := s.releaseCtx x
      (p.cmd, m, true) ∈ t.recv.landing ∧ ∀ q ∈ t.recv.postings, q.cmd ≠ p.cmd)
    ∧ ((∀ u ∈ s.recv.unexpected, u.1 = x → ∀ p ∈ s.recv.postings, p.ctx = x → p.matches u.2 = false) → (s.releaseCtx x).recv = s.recv))
  ∧ ∀ (s : State) (x : Nat) (c : Ctx), s.ctx? x = some c →
    let t := s.killCtx x
    t.ctx? x = none ∧ (∀ h ∈ t.sheafs, h.ctx ≠ x) ∧ (∀ l ∈ t.launches, l.ctx ≠ x) ∧ (∀ d ∈ t.cmds, d.ctx ≠ x)
      ∧ (∀ m ∈ t.matq, m.ctx ≠ x) ∧ (∀ p ∈ t.recv.postings, p.ctx ≠ x)
      ∧ (∀ h ∈ s.sheafs, h.ctx = x → ∀ f ∈ t.fibres, f.key.sheaf ≠ h.uid)
      ∧ (∀ y ≠ x, ∀ d, s.ctx? y = some d → ∃ n, t.ctx? y = some { d with runnableAt := n })
      ∧ (∀ f ∈ s.fibres, (∀ h ∈ s.sheafs, h.ctx = x → f.key.sheaf ≠ h.uid) → ∃ g ∈ t.fibres, g.key = f.key ∧ g.regs = f.regs)
      ∧ ((∀ d ∈ s.cmds, d.ctx ≠ x) → ∀ f ∈ s.fibres, (∀ h ∈ s.sheafs, h.ctx = x → f.key.sheaf ≠ h.uid) → f ∈ t.fibres)

/-- R6, R39–R42, R45, R238, R401, R403: special registers as they are written, and what the release and the kill of a context do. -/
def Obligations.SpecialRegisterWrites : Prop := Claims.SpecialRegistersAreWritten ∧ Claims.ReleaseAndKillOfAContext

/-- R38, R228: `tnext` writes the tile at the core's cursor and advances the cursor once; at the table's end, and in a launch
that is not persistent, it writes the end mark. A tile changed since the launch was accepted reads as either value (log 17). -/
def Obligations.TnextTakesTheNextTile : Prop :=
  (∀ h d s w k f sh l, Alone (.tnext h d) s w k f sh → s.launchOf k = some l →
    let ends : Prop := Executes (.tnext h d) s (goesOn (.tnext h d) s w k fun s => s.modFib k fun x => x.setReg d 0xFFFFFFFF)
    (l.scheds.find? (·.core == f.core) = none → ends)
    ∧ ∀ t, l.scheds.find? (·.core == f.core) = some t →
      (t.tiles.length ≤ t.cursor → ends)
      ∧ ∀ e, t.tiles[t.cursor]? = some e →
        Executes (.tnext h d) s (goesOn (.tnext h d) s w k fun s =>
          { ((s.modFib k fun x => x.setReg d (s.tile e)).modLaunch l.uid fun l => { l with
              scheds := updIf (·.core == f.core) (fun t => { t with cursor := t.cursor + 1 }) l.scheds }) with free := s.free + 1 }))
  ∧ ∀ (s : State) (e : Word × Loc),
    s.tile e = e.1 ∨ s.tile e = BitVec.ofNat 32 (s.newestNat e.2 4)

/-! # Memory instructions -/

namespace Sys2Proof.Claims

/-- What a memory instruction asks for, and its capability register (R154, R156, R162, R166–R168). -/
def accessOf (i : Instr) : Option (MemReq × Reg) :=
  match i with
  | .ld h ord sc hint direct t _ a disp =>
    some ({ MemReq.data .ld t h disp.toInt .read [0, 1, 2, 3] with ord, sc, hint, direct }, a)
  | .st h ord sc hint t _ a disp =>
    some ({ MemReq.data .st t h disp.toInt .write [0, 1, 2, 3] with ord, sc, hint, wr := true }, a)
  | .ldRo h hint t _ a disp => some ({ MemReq.data .ldRo t h disp.toInt .read [0, 1, 2, 3] with hint }, a)
  | .cwb h a disp => some ({ MemReq.data .cwb .none h disp.toInt .read [0, 1, 2, 3] with size := 1 }, a)
  | .cinv h a disp => some ({ MemReq.data .cinv .none h disp.toInt .write [0, 1, 2, 3] with size := 1 }, a)
  | .cflush h a disp => some ({ MemReq.data .cflush .none h disp.toInt .read [0, 1, 2, 3] with size := 1 }, a)
  | .atom h op ord sc t _ a disp _ => some (atomReq (.atom op) t ord sc h disp.toInt (hostAtomicOk false op t), a)
  | .atomDecFloat h op ord sc t _ a disp _ => some (atomReq (.atom op) t ord sc h disp.toInt (hostAtomicOk false op t), a)
  | .atomc h ord sc t _ a _ _ disp => some (atomReq .atomc t ord sc h disp.toInt true, a)
  | .red h op ord sc t _ a disp => some (atomReq (.red op) t ord sc h disp.toInt (hostAtomicOk true op t), a)
  | .redFloat h op ord sc t _ a disp => some (atomReq (.red op) t ord sc h disp.toInt (hostAtomicOk true op t), a)
  | _ => none

/-- The register that its result goes to, and the values it brings: of the `size` low bytes of each register. -/
def broughtBy (i : Instr) (f : Fibre) : Option Reg × Nat × Nat :=
  match i with
  | .ld _ _ _ _ _ _ d _ _ | .ldRo _ _ _ d _ _ => (some d, 0, 0)
  | .st _ _ _ _ t v _ _ => (none, f.get t v, 0)
  | .atom _ _ _ _ t d _ _ b | .atomDecFloat _ _ _ _ t d _ _ b => (some d, f.get t b, 0)
  | .atomc _ _ _ t d _ b c _ => (some d, f.get t b, f.get t c)
  | .red _ _ _ _ t b _ _ | .redFloat _ _ _ _ t b _ _ => (none, f.get t b, 0)
  | _ => (none, 0, 0)

/-- The operation that an access leaves outstanding at a place. -/
def IssuedAs (i : Instr) (r : MemReq) (k : FKey) (f : Fibre) (cap : Dword) (o : Nat) (loc : Loc) (op : MemOp) : Prop :=
  op.key = k ∧ op.core = f.core ∧ op.pc = f.pc ∧ op.kind = r.kind ∧ op.ty = r.ty ∧ op.ord = r.ord ∧ op.sc = r.sc
    ∧ op.hint = r.hint ∧ op.size = r.size ∧ op.loc = loc ∧ op.roff = o ∧ op.cap = effCap cap r.disp
    ∧ op.flags = f.selected r.fsel ∧ op.homeDone = false
    ∧ op.dst = (broughtBy i f).1 ∧ op.val = BitVec.ofNat 64 (broughtBy i f).2.1 ∧ op.val2 = BitVec.ofNat 64 (broughtBy i f).2.2

/-- A fibre whose completion flags count one operation more: the selected flags go up by one, the others stay. -/
def counting (f : Fibre) (fl : List Nat) : Fibre := { f with flags := (f.countFlags fl).flags }

/-- The maintenance of a line, which has a further effect on pool memory only (R162). -/
def maintains : Instr → Bool
  | .cwb .. | .cinv .. | .cflush .. => true
  | _ => false

/-- The handle's entries and the extent of an access stand in the core's caches, so that its translation reads no line (R288). -/
def Cached (s : State) (core ctx : Nat) (win : Window) (o : Nat) (shadow : Bool) : Prop :=
  (win.lines = [] ∨ ∃ y ∈ s.xc, y.die = coreDie core ∧ y.core = some core ∧ y.ctx = ctx ∧ y.handle = true
    ∧ y.obj = BitVec.ofNat 64 win.named ∧ y.ext = 0 ∧ y.shadow = false)
  ∧ ∃ y ∈ s.xc, y.die = coreDie core ∧ y.core = some core ∧ y.ctx = ctx ∧ y.handle = false ∧ y.obj = win.root.objid
    ∧ y.ext = s.extOf ctx win.root o ∧ y.shadow = shadow

/-- After what a translation has left, `u`, the instruction changes only fibres, warps, outstanding operations, the side log and the
commit log; no other fibre's registers and no byte of memory, and none at all where nothing had to be read for the translation. -/
def OnlyIssues (s u t : State) (k : FKey) (cached : Prop) : Prop :=
  t = { u with fibres := t.fibres, warps := t.warps, ops := t.ops, side := t.side, log := t.log, uid := t.uid }
    ∧ OthersKept [k] s t ∧ MemKept u t ∧ (cached → MemKept s t)

/-- The state after the caches have taken in what an access at `o` of a window resolved through, its lines among them. -/
def cachedFor (x : State) (f : Fibre) (sh : Sheaf) (win : Window) (o : Nat) (lines : List Nat) : State :=
  x.cacheXlat f.core sh.ctx win.named win.lines win.root.objid (x.extOf sh.ctx win.root o) false lines

end Sys2Proof.Claims

/-- R287, R288, R291, R293: a translation, with all that a miss brings about, wakes fibres and changes nothing else of one; it
touches the caches, their records and what they write back, the translation caches, the watch and the service queue of a missing
extent, the requests to the host, and, where a line's directory entry is allocated anew, the intervals that accesses and commands still
name of the line (log 45), and no other state. Where the core's caches hold the handle's entries and the extent, no
byte of memory is written back for it. -/
def Sys2Proof.Claims.WhatATranslationLeavesAlone : Prop :=
  ∀ (s : State) (core ctx : Nat) (win : Window) (o : Nat) (wr : Bool) (acc : FaultAcc) (launch : Word) (shadow : Bool),
    let t := (s.translate core ctx win o wr acc launch shadow).2
    t = { s with mem := t.mem, areas := t.areas, fibres := t.fibres, log := t.log, owed := t.owed, cmds := t.cmds, xc := t.xc, svc := t.svc
                 coh := t.coh, chk := t.chk, fab := t.fab, host := t.host }
    ∧ (∀ k f, s.fib? k = some f → ∃ c m, t.fib? k = some { f with cond := c, monitor := m } ∧ (f.cond ≠ .waiting .mwait → c = f.cond))
    ∧ (∀ e ∈ t.log, ∃ d ∈ s.log, e = { d with atPkg := e.atPkg, atSys := e.atSys, interval := e.interval })
    ∧ (∀ c ∈ t.cmds, ∃ d ∈ s.cmds, c = { d with ivs := c.ivs }) ∧ (∀ w ∈ t.owed, w ∈ s.owed)
    ∧ (Cached s core ctx win o shadow → t.mem = s.mem ∧ t.areas = s.areas)

/-- R19, R62, R145, R154–R156, R162, R165–R168, R173: a memory access that passes its checks and has its translation is issued:
one operation with the place, the values and the destination becomes outstanding, the selected flags count it, and the fibre
goes on with no register changed; one that releases holds its fibre there until its release conditions are met. A failing check
or translation traps, with the effective capability as INFO; a missing translation holds the fibre, but a plain store or
reduction enters the side log and the commit log, and its fibre goes on. Beside what the translation itself brings about
(WhatATranslationLeavesAlone) no byte of memory changes. The maintenance instructions have no effect after their checks
outside pool memory. A warp at a store or reduction for which the side log has no room stalls: the choice is taken up and nothing
else changes. Readings of the model's among these: a missing translation of pool memory holds a maintenance instruction's fibre
(log 74), the stall of the warp in place (log 72), the trap at the
instruction of a plain store or reduction that finds a failed translation as it issues (log 85), what is a wait on host memory (log 43), and the effective capability of an
address outside the 40 bits (log 22). -/
def Sys2Proof.Claims.AccessesIssueOneOperation : Prop :=
  (∀ i s w k f sh r a, Alone i s w k f sh → accessOf i = some (r, a) →
    let cap := f.pair a
    let x := atInstr i s w k
    let tr (win : Window) (o : Nat) : XOut × State :=
      x.translate f.core sh.ctx win o r.wr (if r.side then .store else .load) (s.launchId k) false
    let out (win : Window) (o : Nat) : XOut := (tr win o).1
    let left (win : Window) (o : Nat) : State := (tr win o).2
    let met (win : Window) (o : Nat) : Bool := !Machine.Order.rel r.ord || (left win o).releaseMet k r.sc s.uid
    let only (win : Window) (o : Nat) (t : State) : Prop := OnlyIssues s (left win o) t k (Cached x f.core sh.ctx win o false)
    (∀ t, x.checkAccess f cap r.disp r.size r.need r.spaces = .error t → TrapsWith i s w k f t)
    ∧ ∀ win o, x.checkAccess f cap r.disp r.size r.need r.spaces = .ok (win, o) →
      (maintains i = true → win.root.space ≠ 3 → Executes i s (goesOn i s w k id))
      ∧ ((maintains i = false ∨ win.root.space = 3) →
        (out win o = .fail → TrapsWith i s w k f ⟨0x0107, 0, effCap cap r.disp⟩)
        ∧ (∀ loc lines iova, out win o = .at loc lines iova →
          Gives i s fun t => ∃ op : MemOp, t.ops = s.ops ++ [op] ∧ op.id = s.uid ∧ IssuedAs i r k f cap o loc op ∧ only win o t
            ∧ (met win o = true → op.released = true
                ∧ ∃ c m, t.fib? k = some { counting (pastInstr i f) (f.selected r.fsel) with cond := c, monitor := m })
            ∧ (met win o = false → op.released = false ∧ (∀ v ∈ t.warps, k ∉ v.members)
                ∧ ∃ c m, t.fib? k = some { counting f (f.selected r.fsel) with
                    clause := c, monitor := m, cond := .held (.release r.sc (.access s.uid) s.time) }))
        ∧ ∀ on, out win o = .wait on →
          (r.side = false → Gives i s fun t => t.ops = s.ops ∧ only win o t ∧ (∀ v ∈ t.warps, k ∉ v.members)
            ∧ ∃ c m, t.fib? k = some { f with clause := c, monitor := m, cond := .waiting (.fault on (effCap cap r.disp)) })
          ∧ (r.side = true → Gives i s fun t => t.ops = s.ops ∧ only win o t
            ∧ (∃ e : SideEntry, t.side = s.side ++ [e] ∧ e.on = on ∧ e.ctx = sh.ctx
                ∧ (∃ loc, IssuedAs i r k f cap o loc e.op)
                ∧ ∃ y : Access, t.log = (left win o).log ++ [y] ∧ y.op = e.op.id ∧ y.key = k)
            ∧ ∃ c m, t.fib? k = some { counting (pastInstr i f) (f.selected r.fsel) with cond := c, monitor := m })))
  ∧ ∀ i s is w, (sideReq? i).isSome = true → s.issue = some is → s.warp? is.core is.quad is.slot = some w → s.sideFits i w = false →
    exec i s = .next { s with issue := none }

/-- R19, R62, R145, R154–R156, R162, R165–R168, R173, R287, R288, R291, R293: what the translation of an access leaves alone, and what
the access then leaves: one operation, a wait, an entry of the side log, or a trap. -/
def Obligations.MemoryAccessesAreIssued : Prop := Claims.WhatATranslationLeavesAlone ∧ Claims.AccessesIssueOneOperation

/-- R144, R145, R231: the checks of an access in order: the alignment of the effective address, the handle, the bounds of the window,
then the rights and the space; every trap carries the effective capability as INFO (R231), that of an address outside the 40 bits as
the model reads it (log 22), and an access that passes lands at the window's base plus its effective address. -/
def Obligations.AccessChecksComeInOrder : Prop :=
  ∀ (s : State) (f : Fibre) (cap : Dword) (disp : Int) (size : Nat) (need : Right) (spaces : List Nat), 0 < size →
    let ea : Int := capOffset cap + disp
    let trap (c : Code) : Except TrapInfo (Window × Nat) := .error ⟨c, 0, effCap cap disp⟩
    let checked := s.checkAccess f cap disp size need spaces
    (¬ (size : Int) ∣ ea → checked = trap 0x0106)
    ∧ ((size : Int) ∣ ea → ∀ c, s.resolve f.inHtbase f.inHtlen (capHandle cap) = .error c → checked = trap c ∧ (c = 0x0103 ∨ c = 0x0104))
    ∧ ((size : Int) ∣ ea → ∀ win, s.resolve f.inHtbase f.inHtlen (capHandle cap) = .ok win →
        (ea < 0 ∨ win.len < ea + size → checked = trap 0x0104)
        ∧ (0 ≤ ea → ea + size ≤ win.len →
          (win.grants need = false ∨ win.root.space ∉ spaces → checked = trap 0x0105)
          ∧ (win.grants need = true → win.root.space ∈ spaces → checked = .ok (win, win.base + ea.toNat))))

/-- R157–R161: `lds`, `sts` and `stx` check the offset's alignment, then its bounds; `stx` first that the sheaf belongs to a
stook, and last its rank; each leaves one operation on the scratchpad: `stx` on the storage that will be shown next, of the
sheaf of that rank, and nothing where that sheaf is no longer placed (the model's choice, log 73). `ldw` and `ldw.nb` leave one
operation on the weight store of the issuing die, `ldw.nb` one that writes the refresh status alone while the bank refreshes; a failing
check, and an extent that is missing, failed or on another die, trap. `pref` leaves one operation without a destination where
its checks pass and its extent is mapped, and else goes on with no effect. -/
def Obligations.ScratchpadAndWeightStoreAccesses : Prop :=
  (∀ i s w k f sh a disp t h d, Alone i s w k f sh →
    (i = .lds h t d a disp ∨ i = .sts h t d a disp) →
    let o : Int := (f.reg a).toNat + disp.toInt
    (¬ (tySize t : Int) ∣ o → TrapsWith i s w k f ⟨0x0106, 0, 0⟩)
    ∧ ((tySize t : Int) ∣ o → (o < 0 ∨ 4096 * sh.granules < o + tySize t) → TrapsWith i s w k f ⟨0x0104, 0, 0⟩)
    ∧ ((tySize t : Int) ∣ o → 0 ≤ o → o + tySize t ≤ 4096 * sh.granules → Gives i s fun u => ∃ op : MemOp, u.ops = s.ops ++ [op]
        ∧ op.key = k ∧ op.loc = .scratch k.sheaf false o.toNat ∧ op.size = tySize t ∧ op.flags = f.selected h.fsel
        ∧ (i = .lds h t d a disp → op.kind = .lds ∧ op.dst = some d)
        ∧ (i = .sts h t d a disp → op.kind = .sts ∧ op.val = BitVec.ofNat 64 (f.get t d))
        ∧ (∃ c, u.fib? k = some { counting (pastInstr i f) (f.selected h.fsel) with cond := c }) ∧ OthersKept [k] s u ∧ MemKept s u
        ∧ u = { s with issue := none, fibres := u.fibres, warps := u.warps, ops := u.ops, log := u.log, uid := u.uid }))
  ∧ (∀ h t v a disp kr s w k f sh, Alone (.stx h t v a disp kr) s w k f sh →
    let i : Instr := .stx h t v a disp kr
    let o : Int := (f.reg a).toNat + disp.toInt
    let peer : Option Sheaf := (s.stookOf sh).find? fun g => g.index % sh.stook == (f.reg kr).toNat
    (sh.stook = 0 → TrapsWith i s w k f ⟨0x010C, 0, 0⟩)
    ∧ (sh.stook ≠ 0 → ¬ (tySize t : Int) ∣ o → TrapsWith i s w k f ⟨0x0106, 0, 0⟩)
    ∧ (sh.stook ≠ 0 → (tySize t : Int) ∣ o →
        ((o < 0 ∨ 4096 * sh.granules < o + tySize t) → TrapsWith i s w k f ⟨0x0104, 0, 0⟩)
        ∧ (0 ≤ o → o + tySize t ≤ 4096 * sh.granules →
          (sh.stook ≤ (f.reg kr).toNat → TrapsWith i s w k f ⟨0x0104, 0, 0⟩)
          ∧ ((f.reg kr).toNat < sh.stook →
            (peer = none → Executes i s (goesOn i s w k id))
            ∧ ∀ g, peer = some g →
              Gives i s fun u => ∃ op : MemOp, u.ops = s.ops ++ [op] ∧ op.key = k ∧ op.kind = .stx ∧ op.loc = .scratch g.uid true o.toNat
                ∧ op.size = tySize t ∧ op.val = BitVec.ofNat 64 (f.get t v) ∧ op.flags = f.selected h.fsel
                ∧ (∃ c, u.fib? k = some { counting (pastInstr i f) (f.selected h.fsel) with cond := c }) ∧ OthersKept [k] s u ∧ MemKept s u
                ∧ u = { s with issue := none, fibres := u.fibres, warps := u.warps, ops := u.ops, log := u.log, uid := u.uid }))))
  ∧ (∀ i s w k f sh h t d a disp, Alone i s w k f sh →
    ((∃ x : Word, x.toInt = disp ∧ i = .ldw h t d a x) ∨ ∃ (x : BitVec 24) (st : Reg), x.toInt = disp ∧ i = .ldwNb h t d a x st) →
    let x := atInstr i s w k
    (∀ e, x.checkAccess f (f.pair a) disp (tySize t) .read [4] = .error e → TrapsWith i s w k f e)
    ∧ ∀ win o, x.checkAccess f (f.pair a) disp (tySize t) .read [4] = .ok (win, o) →
      (∀ die addr lines, x.lookup sh.ctx win.root o false = .at (.weight die addr) lines →
        (die ≠ coreDie f.core → TrapsWith i s w k f ⟨0x0107, 0, effCap (f.pair a) disp⟩)
        ∧ (die = coreDie f.core → Gives i s fun u => ∃ op : MemOp, u.ops = s.ops ++ [op] ∧ op.key = k ∧ op.loc = .weight die addr
            ∧ op.size = tySize t ∧ op.flags = f.selected h.fsel
            ∧ (∀ x, i = .ldw h t d a x → op.kind = .ldw ∧ op.dst = some d)
            ∧ (∀ x st, i = .ldwNb h t d a x st → op.kind = .ldwNb ∧ op.dst2 = some st
                ∧ (refreshing (o / 4096 % 64) s.time = true → op.dst = none ∧ op.val2 = 0x80000000#64 ||| BitVec.ofNat 64 (o / 4096 % 64))
                ∧ (refreshing (o / 4096 % 64) s.time = false → op.dst = some d ∧ op.val2 = 0))
            ∧ (∃ c m, u.fib? k = some { counting (pastInstr i f) (f.selected h.fsel) with cond := c, monitor := m })
            ∧ OnlyIssues s (cachedFor x f sh win o lines) u k (Cached x f.core sh.ctx win o false)))
      ∧ ((∀ die addr lines, x.lookup sh.ctx win.root o false ≠ .at (.weight die addr) lines) →
        TrapsWith i s w k f ⟨0x0107, 0, effCap (f.pair a) disp⟩))
  ∧ ∀ h lvl a disp s w k f sh, Alone (.pref h lvl a disp) s w k f sh →
    let i : Instr := .pref h lvl a disp
    let x := atInstr i s w k
    (∀ e, x.checkAccess f (f.pair a) disp.toInt 1 .read [0, 1, 2, 3] = .error e → Executes i s (goesOn i s w k id))
    ∧ ∀ win o, x.checkAccess f (f.pair a) disp.toInt 1 .read [0, 1, 2, 3] = .ok (win, o) →
      ((∀ loc lines, x.lookup sh.ctx win.root o false ≠ .at loc lines) → Executes i s (goesOn i s w k id))
      ∧ ∀ loc lines, x.lookup sh.ctx win.root o false = .at loc lines → Gives i s fun u => ∃ op : MemOp, u.ops = s.ops ++ [op]
        ∧ op.key = k ∧ op.kind = .pref lvl ∧ op.loc = loc ∧ op.size = 1 ∧ op.dst = none ∧ op.flags = f.selected h.fsel
        ∧ (∃ c m, u.fib? k = some { counting (pastInstr i f) (f.selected h.fsel) with cond := c, monitor := m })
        ∧ OnlyIssues s (cachedFor x f sh win o lines) u k (Cached x f.core sh.ctx win o false)

/-- R152, R163–R165, R213, R214, R300: `hnarrow` checks its parent, then the window asked for, then the slot, and nothing more of its
fibre issues while the derived entry is written; `fence` at .fib has no effect, and else completes once its conditions are met,
holding the fibre until then, and enters the commit log in every scope (R300); nothing more of a fibre issues after its `marm` until the line has been read and the monitor
armed; `marm.q` arms on a queue register at once; `mwait` waits for the monitor, and goes on where it has fired already or is
not armed. That INFO of hnarrow's traps is A (log 29), and that the warp issues nothing more while a member waits in it at `hnarrow` or
`marm` (log 72), are readings of the model's. -/
def Obligations.NarrowingFencesAndMonitors : Prop :=
  (∀ h d a b c mask s w k f sh, Alone (.hnarrow h d a b c mask) s w k f sh →
    let i : Instr := .hnarrow h d a b c mask
    let x := atInstr i s w k
    let n := (f.pair b).toNat
    let slot := (f.reg c).toNat % 2 ^ 24
    (∀ e, x.resolve f.inHtbase f.inHtlen (capHandle (f.pair a)) = .error e → TrapsWith i s w k f ⟨e, 0, f.pair a⟩)
    ∧ ∀ win, x.resolve f.inHtbase f.inHtlen (capHandle (f.pair a)) = .ok win →
      (win.len < capOffset (f.pair a) + n → TrapsWith i s w k f ⟨0x0104, 0, f.pair a⟩)
      ∧ (capOffset (f.pair a) + n ≤ win.len →
        let fits : Prop := slot ≠ 0 ∧ slot < f.inHtlen ∧ ((x.entry f.inHtbase slot).kind = 2 ∨ (x.entry f.inHtbase slot).kind = 3)
        (¬ fits → TrapsWith i s w k f ⟨0x0103, 0, f.pair a⟩)
        ∧ (fits → Gives i s fun t => ∃ op : MemOp, t.ops = s.ops ++ [op] ∧ op.key = k ∧ op.kind = .hnarrow ∧ op.dst = some d
            ∧ op.loc = entryLoc f.inHtbase slot ∧ op.size = 32 ∧ op.val2 = mkCap slot 0
            ∧ op.unit = (derivedEntry win.handle (win.base + capOffset (f.pair a)) n (win.rights &&& mask.toNat)).setWidth 512
            ∧ (∃ c, t.fib? k = some { pastInstr i f with cond := c }) ∧ (∀ j v, k ∈ v.members → t.mayIssue j v = false)
            ∧ OthersKept [k] s t ∧ MemKept s t
            ∧ t = { s with issue := none, fibres := t.fibres, warps := t.warps, ops := t.ops, uid := t.uid })))
  ∧ (∀ h kind sc s w k f sh, Alone (.fence h kind sc) s w k f sh →
    let i : Instr := .fence h kind sc
    (sc = .fib → Gives i s fun t => (∃ c, t.fib? k = some { pastInstr i f with cond := c }) ∧ OthersKept [k] s t ∧ MemKept s t
      ∧ t = { s with issue := none, fibres := t.fibres, warps := t.warps, log := t.log, uid := t.uid }
      ∧ ((∀ e ∈ s.log, e.key = k → e.op = 0 → e.returned.isSome = true) → ∃ e, t.log = s.log ++ [e]
          ∧ e.key = k ∧ e.kind = .fence kind ∧ e.sc = .fib ∧ e.pc = f.pc ∧ e.returned.isSome = true))
    ∧ (sc ≠ .fib →
      let met : Prop := if kind = .acq then
          (∀ e ∈ s.log, e.key = k → e.kind.reads = true → e.returned.isSome = true) ∧ (sc = .sys → s.maintained k = true)
        else s.releaseMet k sc 0 = true
      (met → Gives i s fun t => ∃ c, t.fib? k = some { pastInstr i f with cond := c } ∧ OthersKept [k] s t ∧ MemKept s t
        ∧ t = { s with issue := none, fibres := t.fibres, warps := t.warps, log := t.log, uid := t.uid })
      ∧ (¬ met → Gives i s fun t => (∃ c, t.fib? k = some { f with clause := c, cond := .held (.release sc (.fence kind) s.time) })
        ∧ (∀ v ∈ t.warps, k ∉ v.members) ∧ OthersKept [k] s t ∧ MemKept s t)))
  ∧ (∀ h acq t d a disp s w k f sh win o loc lines iova, Alone (.marm h acq t d a disp) s w k f sh →
    let i : Instr := .marm h acq t d a disp
    let x := atInstr i s w k
    x.checkAccess f (f.pair a) disp.toInt (tySize t) .read [0, 2] = .ok (win, o) →
    (x.translate f.core sh.ctx win o false .load (s.launchId k) false).1 = .at loc lines iova →
    Gives i s fun u => ∃ op : MemOp, u.ops = s.ops ++ [op] ∧ op.key = k ∧ op.kind = .marm ∧ op.dst = some d ∧ op.loc = loc ∧ op.size = tySize t
      ∧ op.ord = (if acq then .acq else .plain)
      ∧ (∃ c m, u.fib? k = some { pastInstr i f with cond := c, monitor := m }) ∧ (∀ j v, k ∈ v.members → u.mayIssue j v = false)
      ∧ OnlyIssues s (x.translate f.core sh.ctx win o false .load (s.launchId k) false).2 u k (Cached x f.core sh.ctx win o false))
  ∧ (∀ h acq t d a disp s w k f sh, Alone (.marm h acq t d a disp) s w k f sh →
    let i : Instr := .marm h acq t d a disp
    let x := atInstr i s w k
    let ec := effCap (f.pair a) disp.toInt
    (∀ e, x.checkAccess f (f.pair a) disp.toInt (tySize t) .read [0, 2] = .error e → TrapsWith i s w k f e)
    ∧ ∀ win o, x.checkAccess f (f.pair a) disp.toInt (tySize t) .read [0, 2] = .ok (win, o) →
      let tr := x.translate f.core sh.ctx win o false .load (s.launchId k) false
      (tr.1 = .fail → TrapsWith i s w k f ⟨0x0107, 0, ec⟩)
      ∧ ∀ on, tr.1 = .wait on → Gives i s fun u => u.ops = s.ops ∧ OnlyIssues s tr.2 u k (Cached x f.core sh.ctx win o false)
          ∧ (∀ v ∈ u.warps, k ∉ v.members)
          ∧ ∃ c m, u.fib? k = some { f with clause := c, monitor := m, cond := .waiting (.fault on ec) })
  ∧ (∀ h q s w k f sh, Alone (.marmQ h q) s w k f sh →
    (sh.bind q.toNat = 0 → TrapsWith (.marmQ h q) s w k f ⟨0x010A, 0, 0⟩)
    ∧ (sh.bind q.toNat ≠ 0 → Executes (.marmQ h q) s (goesOn (.marmQ h q) s w k fun s =>
        s.modFib k fun x => { x with monitor := some ⟨.queue q.toNat, false⟩ })))
  ∧ ∀ s w k f sh, Alone .mwait s w k f sh →
    (f.monitor = none → Executes .mwait s (goesOn .mwait s w k id))
    ∧ ∀ m, f.monitor = some m →
      (m.fired = true ∨ (f.uiEn = true ∧ f.uiPend = true) →
        Executes .mwait s (goesOn .mwait s w k fun s => s.modFib k fun x => { x with monitor := none }))
      ∧ (m.fired = false → (f.uiEn = false ∨ f.uiPend = false) →
        Executes .mwait s (((atInstr .mwait s w k).setCond k (.waiting .mwait)).modFib k Fibre.advance))

/-! # Barriers, sets, queue registers -/

namespace Sys2Proof.Claims

/-- A fibre arrives at barrier `n`, with bytes added and perhaps a swap asked for: the arrival is counted once the release at
the barrier's scope is met, unless it overflows, and D takes the phase it was counted in; until then the fibre is held. -/
def Arrives (i : Instr) (s : State) (w : Warp) (k : FKey) (f : Fibre) (n bytes : Nat) (swap : Bool) (d : Reg) (b : Barrier) : Prop :=
  let sc := scopeOf b.scope.toNat
  let x := (atInstr i s w k).logAct k .arrive sc
  (s.releaseMet k sc 0 = true → b.arrived = b.expect → TrapsWith i s w k f ⟨0x0109, 0, 0⟩)
  ∧ (s.releaseMet k sc 0 = true → b.arrived ≠ b.expect →
      Executes i s ((((((x.modBar k.sheaf n fun b => { b with
        pending := b.pending + BitVec.ofNat 40 bytes, arrived := b.arrived + 1, swap := b.swap || swap }).tryComplete k.sheaf n).modFib k
          fun y => y.setReg d b.phase).logDone k).modFib k Fibre.advance)))
  ∧ (s.releaseMet k sc 0 = false → Executes i s (x.setCond k (.held (.release sc (.arrive n bytes swap d) s.time))))

/-- A set instruction's set, and what one execution of it contributes. -/
def setOf (i : Instr) : Option (Nat × (Bool → Fibre → SetAct)) :=
  match i with
  | .sshfl _ mode t d a b c set => some (set.toNat, fun con f =>
      { kind := .shfl mode t, contributes := con, dst := d, a := BitVec.ofNat 64 (f.get t a), b := f.reg b,
        c := BitVec.ofNat 64 (f.get t c), bit := 0, word := 0 })
  | .svote _ mode d a bit word set => some (set.toNat, fun con f =>
      { kind := .vote mode, contributes := con, dst := d, a := BitVec.ofNat 64 (f.get .b32 a), b := 0, c := 0, bit := bit.toNat,
        word := word.toNat })
  | .sred _ op t d a set => some (set.toNat, fun con f =>
      { kind := .red op t, contributes := con, dst := d, a := BitVec.ofNat 64 (f.get t a), b := 0, c := 0, bit := 0, word := 0 })
  | .sscan _ op excl t d a set => some (set.toNat, fun con f =>
      { kind := .scan op excl t, contributes := con, dst := d, a := BitVec.ofNat 64 (f.get t a), b := 0, c := 0, bit := 0, word := 0 })
  | _ => none

/-- Set `j` of a fibre's sheaf, of which the fibre is a member. -/
def InSet (h : Sheaf) (k : FKey) (j : Nat) (js : JoinSet) : Prop := h.set? j = some js ∧ ∃ m ∈ js.members, m.fid = k.fid

end Sys2Proof.Claims

/-- R203, R211: the completion of a phase. With the arrivals expected and no byte pending, the phase advances modulo 2^32, the
arrivals start anew and every fibre waiting for an earlier phase goes on; else nothing happens. At cluster scope in a stook the
share becomes ready, and once the shares of all its sheafs are, all of them complete as one act, the two banks of each sheaf
exchanging roles where any arrival asked for it; the bytes of the new shadow banks are then open, each sheaf's from free values of
its own (log 17, log 27). -/
def Sys2Proof.Claims.PhasesCompleteTogether : Prop :=
  (∀ (s : State) (u n : Nat) (h : Sheaf) (b : Barrier), s.sheaf? u = some h → h.bars[n]? = some b → (b.scope ≠ 2 ∨ h.stook = 0) →
    ((b.arrived ≠ b.expect ∨ b.pending ≠ 0) → s.tryComplete u n = s)
    ∧ (b.arrived = b.expect → b.pending = 0 →
        (s.tryComplete u n).bar? u n = some { b with phase := b.phase + 1, arrived := 0 }
        ∧ (∀ j, j ≠ n → (s.tryComplete u n).bar? u j = s.bar? u j)
        ∧ (∀ v, v ≠ u → (s.tryComplete u n).sheaf? v = s.sheaf? v)
        ∧ (∀ k f p, s.fib? k = some f → f.cond = .waiting (.bwait n p) → k.sheaf = u → p ≠ b.phase + 1 →
            (s.tryComplete u n).fib? k = some { f with cond := .unbatched })
        ∧ ∀ k f, s.fib? k = some f → (∀ p, f.cond ≠ .waiting (.bwait n p)) → (s.tryComplete u n).fib? k = some f))
  ∧ ∀ (s : State) (u n : Nat) (h : Sheaf) (b : Barrier), s.sheaf? u = some h → h.bars[n]? = some b → b.scope = 2 → h.stook ≠ 0 →
    b.arrived = b.expect → b.pending = 0 → (s.sheafs.map (·.uid)).Nodup →
    let stook (g : Sheaf) : Bool := g.launch == h.launch && g.index / h.stook == h.index / h.stook
    let others := s.sheafs.filter fun g => stook g && g.uid != u
    let t := s.tryComplete u n
    ((others.any fun g => (g.bars[n]?).any fun c => !c.ready) = true →
        t = s.modBar u n fun b => { b with ready := true })
    ∧ ((others.all fun g => (g.bars[n]?).any (·.ready)) = true → others.length + 1 = h.stook →
        let swap := b.swap || others.any fun g => (g.bars[n]?).any (·.swap)
        t.sheafs = s.sheafs.map fun g => if stook g then shareDone n swap (s.free + g.index % 2 ^ 32) g else g)

/-- R203–R212: `binit` writes an object that no arrival or byte is pending on; `barr`, `barx` and `clswap` arrive, `barx` with
bytes and `clswap` with a request to exchange; `bwait` goes on where the phase has advanced and else waits; `bphase` and
`bphase.cnt` read the phase, and the expected and counted arrivals. An object not initialised raises the barrier-state trap, a
sheaf without a stook the exchange trap. -/
def Sys2Proof.Claims.BarrierInstructions : Prop :=
  ∀ (s : State) (w : Warp) (k : FKey) (f : Fibre) (sh : Sheaf) (hd : Hdr) (bar : BitVec 4) (b : Barrier), sh.bars[bar.toNat]? = some b →
    (∀ expect sc, Alone (.binit hd bar expect sc) s w k f sh →
      let i : Instr := .binit hd bar expect sc
      (b.init = true → (b.arrived ≠ 0 ∨ b.pending ≠ 0) → TrapsWith i s w k f ⟨0x0109, 0, 0⟩)
      ∧ ((b.init = false ∨ (b.arrived = 0 ∧ b.pending = 0)) →
        Executes i s (goesOn i s w k fun s => s.modBar k.sheaf bar.toNat fun b => { b with
          expect, scope := sc, arrived := 0, pending := 0, init := true })))
    ∧ (∀ d, Alone (.barr hd bar d) s w k f sh →
      (b.init = false → TrapsWith (.barr hd bar d) s w k f ⟨0x0109, 0, 0⟩)
      ∧ (b.init = true → Arrives (.barr hd bar d) s w k f bar.toNat 0 false d b))
    ∧ (∀ d a, Alone (.barx hd bar d a) s w k f sh →
      ((2 ^ 40 ≤ (f.pair a).toNat ∨ b.init = false) → TrapsWith (.barx hd bar d a) s w k f ⟨0x0109, 0, 0⟩)
      ∧ ((f.pair a).toNat < 2 ^ 40 → b.init = true → Arrives (.barx hd bar d a) s w k f bar.toNat (f.pair a).toNat false d b))
    ∧ (∀ d, Alone (.clswap hd bar d) s w k f sh →
      (sh.stook = 0 → TrapsWith (.clswap hd bar d) s w k f ⟨0x010C, 0, 0⟩)
      ∧ (sh.stook ≠ 0 → (b.init = false ∨ b.scope ≠ 2) → TrapsWith (.clswap hd bar d) s w k f ⟨0x0109, 0, 0⟩)
      ∧ (sh.stook ≠ 0 → b.init = true → b.scope = 2 → Arrives (.clswap hd bar d) s w k f bar.toNat 0 true d b))
    ∧ (∀ p, Alone (.bwait hd bar p) s w k f sh →
      let i : Instr := .bwait hd bar p
      (b.init = false → TrapsWith i s w k f ⟨0x0109, 0, 0⟩)
      ∧ (b.init = true → b.phase ≠ f.reg p → Executes i s (goesOn i s w k id))
      ∧ (b.init = true → b.phase = f.reg p →
        Executes i s (((atInstr i s w k).setCond k (.waiting (.bwait bar.toNat (f.reg p)))).modFib k Fibre.advance)))
    ∧ (∀ d, Alone (.bphase hd d bar) s w k f sh →
      (b.init = false → TrapsWith (.bphase hd d bar) s w k f ⟨0x0109, 0, 0⟩)
      ∧ (b.init = true → Executes (.bphase hd d bar) s (goesOn (.bphase hd d bar) s w k fun s => s.modFib k fun x => x.setReg d b.phase)))
    ∧ ∀ d, Alone (.bphaseCnt hd d bar) s w k f sh →
      (b.init = false → TrapsWith (.bphaseCnt hd d bar) s w k f ⟨0x0109, 0, 0⟩)
      ∧ (b.init = true → Executes (.bphaseCnt hd d bar) s
          (goesOn (.bphaseCnt hd d bar) s w k fun s => s.modFib k fun x => x.setReg d (b.expect ++ b.arrived)))

/-- R203–R212: barrier instructions, and the completion of a phase. -/
def Obligations.BarriersAndPhases : Prop := Claims.PhasesCompleteTogether ∧ Claims.BarrierInstructions

/-- R134–R137: what a contributing member of rank k receives from the n matched executions, in rank order. -/
def Sys2Proof.Claims.SetResultsByRank : Prop :=
  ∀ (ms : List SetAct) (k : Nat) (x : SetAct), ms[k]? = some x → x.contributes = true →
    let con := ms.filter (·.contributes)
    (∀ mode t, x.kind = .shfl mode t →
      let n := ms.length
      let g := if x.b.toNat % 2 ^ 16 = 0 then n else x.b.toNat % 2 ^ 16
      let src : Int := match mode with
        | .rank => x.b.toNat
        | .rot => ((k + x.b.toNat) % n : Nat)
        | .rev => (k : Int) - (k % g : Nat) + (g - 1 - (k % g : Nat))
        | .grp => (k : Int) - (k % g : Nat) + (x.b.toNat / 2 ^ 16 : Nat)
      (∀ y : SetAct, 0 ≤ src → ms[src.toNat]? = some y → y.contributes = true → setResult ms k x = some (t, y.a.toNat % 2 ^ t.bits))
      ∧ ((src < 0 ∨ (n : Int) ≤ src ∨ ∃ y, ms[src.toNat]? = some y ∧ y.contributes = false) →
          setResult ms k x = some (t, x.c.toNat % 2 ^ t.bits)))
    ∧ (∀ mode, x.kind = .vote mode → ms.length ≤ 2048 →
      let yes (y : SetAct) : Bool := y.contributes && y.a.getLsbD y.bit
      ∃ v, setResult ms k x = some (.b32, v)
        ∧ (mode = .count → v % 2 ^ 16 = ms.countP yes ∧ v / 2 ^ 16 = con.length)
        ∧ (mode = .mask → v < 2 ^ 32 ∧ ∀ j < 32, v.testBit j = (ms[32 * x.word + j]?).any yes)
        ∧ (mode = .first → (ms.any yes = false → v = 0xFFFFFFFF)
            ∧ ∀ j y, ms[j]? = some y → yes y = true → (∀ l z, l < j → ms[l]? = some z → yes z = false) → v = j)
        ∧ (mode = .same → v = if con.all yes ∨ ¬ con.any yes then 0xFFFFFFFF else 0))
    ∧ (∀ t, x.kind = .red .add t → t ≠ .f32 → ∃ v, setResult ms k x = some (t, v) ∧
        v % 2 ^ t.bits = (con.map fun y => y.a.toNat).sum % 2 ^ t.bits)
    ∧ (∀ t, x.kind = .red .and t → ∃ v, setResult ms k x = some (t, v) ∧
        ∀ j < t.bits, v.testBit j = con.all fun y => y.a.getLsbD j)
    ∧ (∀ t, x.kind = .red .or t → ∃ v, setResult ms k x = some (t, v) ∧
        ∀ j < t.bits, v.testBit j = con.any fun y => y.a.getLsbD j)
    ∧ ∀ op t, (x.kind = .scan op false t →
          setResult ms k x = setResult (ms.take (k + 1)) k { x with kind := .red op t })
      ∧ (x.kind = .scan op true t → (∀ y ∈ ms.take k, y.contributes = false) →
          setResult ms k x = some (t, redIdentity op t))
      ∧ (x.kind = .scan op true t → (∃ y ∈ ms.take k, y.contributes = true) →
          setResult ms k x = setResult (ms.take k) k { x with kind := .red op t })

/-- R32, R33, R132, R133, R217: a collective of a fibre that is no member raises the set trap. On a set that is not lockstep,
executing records the contribution and holds the fibre, a false guard records that it does not contribute and goes on; the match
completes once every member has one, each contributor with its result, or with the set trap where they disagree. A lockstep set
in one warp completes at once for all. `sbar` releases at sheaf scope first. When the trap of members that disagree is raised, and that a
member whose guard is false raises none, are the model's choice (log 26). -/
def Sys2Proof.Claims.MembersMatchTheirSetInstructions : Prop :=
  (∀ i s w k f sh j mk, Alone i s w k f sh → setOf i = some (j, mk) →
    ((∀ js, ¬ InSet sh k j js) → TrapsWith i s w k f ⟨0x010B, 0, 0⟩)
    ∧ ∀ js, InSet sh k j js →
      (js.lock = false → Executes i s (((atInstr i s w k).pushAct k j (mk true f)).setCond k (.held (.set j))))
      ∧ (js.lock = true → (∃ m ∈ js.members, m.fid ≠ k.fid) → Executes i s ((atInstr i s w k).setCond k (.held (.set j)))))
  ∧ (∀ i s w k f sh j mk, AloneAt .skip i s w k f sh → (setOf i = some (j, mk) ∨ ∃ h set, i = .sbar h set ∧ j = set.toNat ∧ mk = barAct) →
    ((∀ js, ¬ InSet sh k j js) → Executes i s (goesOn i s w k id))
    ∧ ∀ js, InSet sh k j js →
      (js.lock = false → Executes i s (goesOn i s w k fun s => s.pushAct k j (mk false f)))
      ∧ (js.lock = true → (∃ m ∈ js.members, m.fid ≠ k.fid) → Executes i s ((atInstr i s w k).setCond k (.held (.set j))))
      ∧ (js.lock = true → (∀ m ∈ js.members, m.fid = k.fid) → Executes i s (goesOn i s w k id)))
  ∧ (∀ i s w u sh j mk js, Issuing i s w → setOf i = some (j, mk) → s.sheaf? u = some sh → sh.set? j = some js → js.lock = true →
    (∀ m ∈ js.members, (⟨u, m.fid⟩ : FKey) ∈ w.members) → (∀ k ∈ w.members, k.sheaf = u ∧ ∃ m ∈ js.members, m.fid = k.fid) →
    let acts := js.members.filterMap fun m => (s.fib? ⟨u, m.fid⟩).map fun f => mk (preCheck i f sh == .run) f
    FibreOnly i s w fun f =>
      match setResult acts (js.members.findIdx (·.fid == f.key.fid)) (mk true f) with
      | some (t, v) => f.put t (mk true f).dst v
      | none => f)
  ∧ (∀ hd set s w k f sh, Alone (.sbar hd set) s w k f sh →
    let i : Instr := .sbar hd set
    let x := (atInstr i s w k).logAct k .sbar .shf
    ((∀ js, ¬ InSet sh k set.toNat js) → TrapsWith i s w k f ⟨0x010B, 0, 0⟩)
    ∧ ∀ js, InSet sh k set.toNat js →
      (s.releaseMet k .shf 0 = false → Executes i s (x.setCond k (.held (.release .shf (.sbar set.toNat) s.time))))
      ∧ (s.releaseMet k .shf 0 = true → js.lock = false →
          Executes i s ((x.pushAct k set.toNat (barAct true f)).setCond k (.held (.set set.toNat))))
      ∧ (s.releaseMet k .shf 0 = true → js.lock = true → (∀ m ∈ js.members, m.fid = k.fid) →
          Executes i s ((x.logDone k).modFib k Fibre.advance))
      ∧ (s.releaseMet k .shf 0 = true → js.lock = true → (∃ m ∈ js.members, m.fid ≠ k.fid) →
          Executes i s (x.setCond k (.held (.set set.toNat)))))
  ∧ ∀ (s : State) (u j : Nat) (h : Sheaf) (js : JoinSet), s.sheaf? u = some h → h.set? j = some js → js.lock = false →
    js.members ≠ [] → js.upset = none → (∀ m ∈ js.members, m.acts ≠ []) → (js.members.map (·.fid)).Nodup →
    let ms := js.members.filterMap (·.acts.head?)
    let agree := ∀ x ∈ ms, ∀ y ∈ ms, x.kind = y.kind
    Gives (.setCollectiveComplete u j) s fun t =>
      ((t.sheaf? u).bind (·.set? j)) = some { js with members := js.members.map fun m => { m with acts := m.acts.tail } }
      ∧ OthersKept (js.members.map fun m => ⟨u, m.fid⟩) s t ∧ MemKept s t
      ∧ ∀ rank m x f, js.members[rank]? = some m → m.acts.head? = some x → s.fib? ⟨u, m.fid⟩ = some f →
        (agree → x.contributes = true → t.fib? ⟨u, m.fid⟩ = some { (match setResult ms rank x with
            | some (ty, v) => f.put ty x.dst v
            | none => f).advance with cond := .unbatched })
        ∧ (agree → x.contributes = false → t.fib? ⟨u, m.fid⟩ = some f)
        ∧ (¬ agree → x.contributes = true → h.priv = false →
            ∃ mon, t.fib? ⟨u, m.fid⟩ = some { f with
              faultCode := 0x010B, faultOpnd := 0, faultValid := true, cond := .held .trap, monitor := mon })

/-- R32, R33, R132–R137, R217: the collectives' results by rank, and the matching of their executions. -/
def Obligations.SetInstructions : Prop := Claims.SetResultsByRank ∧ Claims.MembersMatchTheirSetInstructions

/-- R31, R215, R216: `sjoin` makes the set or joins it, D taking the number of members, unless the set is of the other kind, the
fibre is a member already, a lockstep set has a member of another quadrant or on its lane, or 32 members; it holds while a set
instruction is pending. `sleave` takes the fibre out, and the set with its last member. -/
def Obligations.JoiningAndLeavingSets : Prop :=
  (∀ hd lock d set s w k f sh, Alone (.sjoin hd lock d set) s w k f sh →
    let i : Instr := .sjoin hd lock d set
    (sh.set? set.toNat = none →
      Executes i s (goesOn i s w k fun s => (s.modSheaf k.sheaf fun h => { h with
        sets := h.sets ++ [{ id := set.toNat, lock, members := [{ fid := k.fid, acts := [] }] }] }).modFib k fun x => x.setReg d 1))
    ∧ ∀ js, sh.set? set.toNat = some js →
      let bad : Prop := js.lock ≠ lock ∨ (∃ m ∈ js.members, m.fid = k.fid)
        ∨ (lock = true ∧ ((∃ m ∈ js.members, m.fid % 4 ≠ k.fid % 4 ∨ m.fid / 4 % 32 = k.fid / 4 % 32) ∨ 32 ≤ js.members.length))
      (bad → TrapsWith i s w k f ⟨0x010B, 0, 0⟩)
      ∧ (¬ bad → (∃ m ∈ js.members, m.acts ≠ []) → Executes i s ((atInstr i s w k).setCond k (.held (.join set.toNat))))
      ∧ (¬ bad → (∀ m ∈ js.members, m.acts = []) → (∀ m ∈ js.members, ∀ g, s.fib? ⟨k.sheaf, m.fid⟩ = some g → ∀ c, g.cond ≠ .held c) →
        Executes i s (goesOn i s w k fun s => (s.modSet k.sheaf set.toNat fun js => js.add k.fid).modFib k fun x =>
          x.setReg d (BitVec.ofNat 32 (js.members.length + 1)))))
  ∧ (∀ (js : JoinSet) (fid : Nat), (js.members.map (·.fid)).Pairwise (· < ·) → (∀ m ∈ js.members, m.fid ≠ fid) →
    ((js.add fid).members.map (·.fid)).Pairwise (· < ·)
      ∧ ∀ m, m ∈ (js.add fid).members ↔ m ∈ js.members ∨ m = { fid, acts := [] })
  ∧ ∀ hd set s w k f sh, Alone (.sleave hd set) s w k f sh →
    let i : Instr := .sleave hd set
    ((∀ js, ¬ InSet sh k set.toNat js) → TrapsWith i s w k f ⟨0x010B, 0, 0⟩)
    ∧ ∀ js, InSet sh k set.toNat js → Executes i s (goesOn i s w k fun s => s.modSheaf k.sheaf fun h => { h with
        sets := (updIf (·.id == set.toNat) (fun j => { j with members := j.members.filter (·.fid != k.fid) }) h.sets).filter
          (fun j => j.members != []) })

/-- R218, R219, R221, R222, R230: `qpush` and `qpop` raise the queue-binding trap on an unbound register and else leave one
operation with the block's registers, `qpush` releasing at package scope first; `qstat` reads the free outbound and the waiting
inbound places; `svc` joins its fibre's four registers to the batch of its warp, releases at system scope and holds the
fibre. -/
def Sys2Proof.Claims.QueueInstructionsAreIssued : Prop :=
  (∀ h decl q a x s w k f sh, Alone (.qpush h decl q a x) s w k f sh →
    let i : Instr := .qpush h decl q a x
    (sh.bind q.toNat = 0 → TrapsWith i s w k f ⟨0x010A, 0, 0⟩)
    ∧ (sh.bind q.toNat ≠ 0 → Gives i s fun t => ∃ op : MemOp, t.ops = s.ops ++ [op] ∧ op.key = k ∧ op.kind = .qpush ∧ op.queue = q.toNat
        ∧ op.decl = decl ∧ op.dst = none ∧ op.dst2 = some x ∧ op.flags = f.selected h.fsel
        ∧ (∀ n < pushBlock (sh.bind q.toNat), op.unit.extractLsb' (32 * n) 32 = f.regs.getD (a.toNat + n) 0)
        ∧ op.unit.toNat < 2 ^ (32 * pushBlock (sh.bind q.toNat))
        ∧ OthersKept [k] s t ∧ MemKept s t
        ∧ t = { s with issue := none, fibres := t.fibres, warps := t.warps, ops := t.ops, log := t.log, uid := t.uid }
        ∧ (s.releaseMet k .pkg s.uid = true → op.released = true
            ∧ ∃ c, t.fib? k = some { counting (pastInstr i f) (f.selected h.fsel) with cond := c })
        ∧ (s.releaseMet k .pkg s.uid = false → op.released = false ∧ (∀ v ∈ t.warps, k ∉ v.members)
            ∧ ∃ c, t.fib? k = some { counting f (f.selected h.fsel) with
                clause := c, cond := .held (.release .pkg (.push s.uid) s.time) })))
  ∧ (∀ h d q x s w k f sh, Alone (.qpop h d q x) s w k f sh →
    let i : Instr := .qpop h d q x
    (sh.bind q.toNat = 0 → TrapsWith i s w k f ⟨0x010A, 0, 0⟩)
    ∧ (sh.bind q.toNat ≠ 0 → Gives i s fun t => ∃ op : MemOp, t.ops = s.ops ++ [op] ∧ op.key = k ∧ op.kind = .qpop ∧ op.queue = q.toNat
        ∧ op.size = 4 * popBlock (sh.bind q.toNat) ∧ op.dst = some d ∧ op.dst2 = some x ∧ op.flags = f.selected h.fsel
        ∧ (∃ c, t.fib? k = some { counting (pastInstr i f) (f.selected h.fsel) with cond := c })
        ∧ OthersKept [k] s t ∧ MemKept s t
        ∧ t = { s with issue := none, fibres := t.fibres, warps := t.warps, ops := t.ops, log := t.log, uid := t.uid }))
  ∧ (∀ h d q s w k f sh, Alone (.qstat h d q) s w k f sh →
    let i : Instr := .qstat h d q
    (sh.bind q.toNat = 0 → TrapsWith i s w k f ⟨0x010A, 0, 0⟩)
    ∧ (sh.bind q.toNat ≠ 0 → Executes i s (goesOn i s w k fun s => s.modFib k fun y =>
        y.setReg d (BitVec.ofNat 32 (s.freeOut sh q.toNat * 2 ^ 16 + s.inWaiting sh q.toNat % 2 ^ 16)))))
  ∧ ∀ h a num s w k f sh, Alone (.svc h a num) s w k f sh →
    let id := s.evno * 2 ^ 20 + w.core * 64 + w.quad * 16 + w.slot
    (∀ b ∈ s.batches, b.id ≠ id) →
    Gives (.svc h a num) s fun t => ∃ b : Batch, t.batches = s.batches ++ [b] ∧ b.id = id ∧ b.num = num ∧ b.pc = f.pc
      ∧ (∀ v ∈ t.warps, k ∉ v.members) ∧ OthersKept [k] s t ∧ MemKept s t
      ∧ t = { s with issue := none, fibres := t.fibres, warps := t.warps, log := t.log, uid := t.uid, batches := t.batches }
      ∧ ∃ v : BitVec 128, (∀ n < 4, v.extractLsb' (32 * n) 32 = f.regs.getD (a.toNat + n) 0)
        ∧ (s.releaseMet k .sys 0 = true → b.lanes = [(k, v, true)] ∧ ∃ c, t.fib? k = some { f with clause := c, cond := .held (.svc id) })
        ∧ (s.releaseMet k .sys 0 = false → b.lanes = [(k, v, false)]
            ∧ ∃ c, t.fib? k = some { f with clause := c, cond := .held (.release .sys (.svc id) s.time) })

/-- R218–R220, R230, R331, R393–R395, R398: what an endpoint makes of a unit offered to it, and how batches and waiting
records enter the service queue: a batch whole, once all its lanes have released and there is room, its fibres then going
on. Which management commands are not accepted now and get 0x0005 is the model's reading (log 56). -/
def Sys2Proof.Claims.QueuesTakeWhatTheyHaveRoomFor : Prop :=
  (∀ (s : State) (h : Sheaf) (q : Nat) (unit : BitVec 512) (decl : Bool) (cover : List Nat),
    let u : BitVec 256 := unit.setWidth 256
    (s.freeOut h q = 0 → s.offer h q unit decl cover = (0x0001, s))
    ∧ (s.freeOut h q ≠ 0 →
      (h.bind q = 4 → s.offer h q unit decl cover = (0x0003, s))
      ∧ ((h.bind q = 3 ∨ h.bind q = 5) → decl = true → s.offer h q unit decl cover = (0x0002, s))
      ∧ (h.bind q = 3 → decl = false → s.offer h q unit decl cover = (0, s.mailOut h.ctx 0 unit))
      ∧ (h.bind q = 5 → decl = false → mopReject u ≠ 0 → s.offer h q unit decl cover = (mopReject u, s))
      ∧ (h.bind q = 5 → decl = false → mopReject u = 0 → s.takesMop (uMop u) = false → s.offer h q unit decl cover = (0x0005, s))
      ∧ (h.bind q = 5 → decl = false → mopReject u = 0 → s.takesMop (uMop u) = true →
          s.offer h q unit decl cover = (0, { s with host := { s.host with
            mq := s.host.mq ++ [{ unit := u, port := 0, back := some (h.uid, q), map := s.deviceMap u }] } }))
      ∧ ((h.bind q = 1 ∨ h.bind q = 2) → ∀ code, s.checkUnit (h.bind q) u decl h = .error code → s.offer h q unit decl cover = (code, s))))
  ∧ (∀ (s : State) (id : Nat) (b : Batch) (f : Fibre) (l : FKey × BitVec 128 × Bool) (ls : List (FKey × BitVec 128 × Bool)),
    s.batches.find? (·.id == id) = some b → b.lanes = l :: ls → s.fib? l.1 = some f → (∀ m ∈ b.lanes, m.2.2 = true) →
    (b.lanes.map (·.1)).Nodup → s.svcRoom (coreDie f.core) (1 + (b.lanes.length + 1) / 2) = true →
    Gives (.batchRecord id) s fun t =>
      (∃ bodies : List SvcEntry, (t.svcQ (coreDie f.core)).entries
          = (s.svcQ (coreDie f.core)).entries ++ ⟨batchHeader s b f, false⟩ :: bodies
        ∧ bodies.length = (b.lanes.length + 1) / 2
        ∧ ∀ n m, b.lanes[n]? = some m → (bodies[n / 2]?).map (fun e => e.bits.extractLsb' (128 * (n % 2)) 128) = some m.2.1)
      ∧ (∀ c ∈ t.batches, c.id ≠ id)
      ∧ (∀ m ∈ b.lanes, ∀ g, s.fib? m.1 = some g →
          ∃ mon, t.fib? m.1 = some { g.advance with cond := .unbatched, monitor := mon })
      ∧ OthersKept (b.lanes.map (·.1)) s t ∧ MemKept s t)
  ∧ ∀ (s : State) (die : Nat) (g : List SvcEntry) (rest : List (List SvcEntry)), (s.svcQ die).waiting = g :: rest →
    (s.svcQ die).taken + g.length ≤ 1024 →
    Gives (.serviceQueueAdmit die) s fun t =>
      t.svcQ die = { s.svcQ die with entries := (s.svcQ die).entries ++ g, waiting := rest }
      ∧ (∀ d ≠ die, t.svcQ d = s.svcQ d) ∧ OthersKept [] s t ∧ MemKept s t

/-- R23, R38, R218–R222, R228: the queue instructions, as issued and as the queues answer them. -/
def Obligations.QueueInstructionsAndQueues : Prop := Claims.QueueInstructionsAreIssued ∧ Claims.QueuesTakeWhatTheyHaveRoomFor

/-! # Completions -/

namespace Sys2Proof.Claims

/-- Operation `o` is no longer outstanding, every other one still is, its flags have fallen and `g` is all else that became of
its fibre's registers; no other fibre's changed. -/
def Completed (s t : State) (o : MemOp) (g : Fibre → Fibre) : Prop :=
  (∀ p, p ∈ t.ops ↔ p ∈ s.ops ∧ p.id ≠ o.id)
    ∧ (∀ f, s.fib? o.key = some f → f.cond ≠ .ended → ∃ c m, t.fib? o.key = some { (g f).uncountFlags o.flags with cond := c, monitor := m })
    ∧ OthersKept [o.key] s t

/-- The fibre with a loaded value in the operation's destination. -/
def loaded (o : MemOp) (v : Nat) (f : Fibre) : Fibre := match o.dst with | some d => f.put o.ty d v | none => f

/-- The copies of other lines and of other dies hold what they held. -/
def OtherLinesKept (die line : Nat) (s t : State) : Prop :=
  ∀ d l, (d ≠ die ∨ l ≠ line) → (t.l2? d l).map (·.data) = (s.l2? d l).map (·.data)

end Sys2Proof.Claims

/-- R150, R155, R157–R160, R166–R169, R171, R176, R296: what a ready operation does when it is performed. A load delivers the bytes
of its place widened by its type, of a DRAM line used through one window the bytes of the line (R269); a store replaces exactly its bytes; an atomic at the die L2 writes its new value over the old
one, which it delivers; all of them end, and their flags fall. Without the line, or without the right to write it, the line is
asked for, where no access of a host waits for it, and the operation stays. -/
def Obligations.MemoryOperationsArePerformed : Prop :=
  ∀ (s : State) (id : Nat) (o : MemOp), s.op? id = some o → s.opReady o = true →
    let die := coreDie o.core
    (∀ line (data : List Byte), s.aliases line = [] →
      s.opBytes o line data = (List.range o.size).map fun i => data.getD (o.loc.inLine + i) 0)
    ∧ (∀ line, o.loc.line? = some line → s.badLine line = false →
      (∀ x, o.kind = .ld → s.l2? die line = some x → Gives (.longLatencyComplete id) s fun t =>
        Completed s t o (loaded o (loadVal o.ty (s.opBytes o line x.data))) ∧ MemKept s t
          ∧ ∀ d l, (t.l2? d l).map (·.data) = (s.l2? d l).map (·.data))
      ∧ (o.kind = .ld → s.l2? die line = none → s.requested die line = false → s.ingress line < 128 → s.hostAhead line = false →
        exec (.longLatencyComplete id) s
          = .next { s with coh := { s.coh with reqs := s.coh.reqs ++ [⟨die, line, .read, o.cls, o.hint⟩] } })
      ∧ (∀ x, o.kind = .st → s.xlatLine line = false → s.l2? die line = some x → (x.st = .m ∨ x.st = .e) →
        Gives (.longLatencyComplete id) s fun t => Completed s t o (fun f => f) ∧ MemKept s t ∧ OtherLinesKept die line s t
          ∧ ∃ y, t.l2? die line = some y ∧ y.st = .m ∧ y.data = overlay x.data o.loc.inLine (leBytes o.size o.val.toNat))
      ∧ (∀ x, o.kind = .st → s.xlatLine line = false → s.l2? die line = some x → (x.st = .s ∨ x.st = .o) → s.requested die line = false →
        s.ingress line < 128 → s.hostAhead line = false →
        exec (.longLatencyComplete id) s
          = .next { s with coh := { s.coh with reqs := s.coh.reqs ++ [⟨die, line, .upgrade, o.cls, o.hint⟩] } })
      ∧ (∀ x, o.kind.isRmw = true → o.homeDone = false → o.atL2 = true → s.xlatLine line = false → s.groupOf o = [o] →
        s.l2? die line = some x → (x.st = .m ∨ x.st = .e) → Gives (.longLatencyComplete id) s fun t =>
          let old := leNat (s.opBytes o line x.data)
          Completed s t o (loaded o old) ∧ MemKept s t ∧ OtherLinesKept die line s t
            ∧ ∃ y, t.l2? die line = some y
              ∧ y.data = (match o.rmw old with
                  | some v => overlay x.data o.loc.inLine (leBytes o.size v)
                  | none => x.data)))
    ∧ (∀ u sh off h, o.loc = .scratch u sh off → s.sheaf? u = some h →
      let l : Loc := .scratch u (h.bank != sh) off
      (o.kind = .lds → s.badBytes l o.size = false → Gives (.longLatencyComplete id) s fun t =>
        Completed s t o (loaded o (loadVal o.ty (s.rawRead l o.size))) ∧ MemKept s t)
      ∧ ((o.kind = .sts ∨ o.kind = .stx) → MemInv s → o.size ≤ 8 → Gives (.longLatencyComplete id) s fun t =>
        Completed s t o (fun f => f) ∧ t.rawRead l o.size = leBytes o.size o.val.toNat
          ∧ ∀ m : Loc, (∀ i < o.size, s.keyOf m ≠ s.keyOf (l.add i)) → t.rawRead m 1 = s.rawRead m 1))
    ∧ (∀ a, o.loc = .hostPa a →
      (o.kind = .ld → Gives (.longLatencyComplete id) s fun t =>
        Completed s t o (loaded o (loadVal o.ty (s.rawRead o.loc o.size))) ∧ MemKept s t)
      ∧ (o.kind = .st → MemInv s → Gives (.longLatencyComplete id) s fun t =>
        Completed s t o (fun f => f) ∧ t.rawRead o.loc o.size = leBytes o.size o.val.toNat
          ∧ ∀ m : Loc, (∀ i < o.size, s.keyOf m ≠ s.keyOf (o.loc.add i)) → t.rawRead m 1 = s.rawRead m 1))
    ∧ (∀ off, o.loc = .regs off → o.kind = .ld → Gives (.longLatencyComplete id) s fun t =>
        Completed s t o (loaded o (loadVal o.ty (s.regWindow off o.size))) ∧ MemKept s t)
    ∧ (∀ d a, o.loc = .weight d a → o.kind = .ldw → s.rel.qmask.getLsbD d = false → s.badBytes o.loc o.size = false →
      (s.time / 1000 % 64 = o.roff / 4096 % 64 → exec (.longLatencyComplete id) s = .next s)
      ∧ (s.time / 1000 % 64 ≠ o.roff / 4096 % 64 → Gives (.longLatencyComplete id) s fun t =>
        Completed s t o (loaded o (loadVal o.ty (s.rawRead o.loc o.size))) ∧ MemKept s t))
    ∧ ∀ sh, s.sheaf? o.key.sheaf = some sh → s.ctxFrozen sh.ctx = false → s.laneTurn o = true → (s.ops.map (·.id)).Nodup →
      (o.kind = .qpush → sh.bind o.queue ≠ 6 → ∀ x, o.dst2 = some x →
        let r := s.offer sh o.queue o.unit o.decl (s.coverSet o)
        exec (.longLatencyComplete id) s = .next (((r.2.modFib o.key fun f => f.setReg x (BitVec.ofNat 32
          ((match r.2.sheaf? sh.uid with | some g => r.2.freeOut g o.queue | none => 0) * 2 ^ 16 + r.1.toNat))).logRead o none).finishOp o))
      ∧ (o.kind = .qpop → ∀ d x r, o.dst = some d → o.dst2 = some x → sh.bind o.queue ∉ [3, 4, 5] → sh.queues[o.queue]? = some r →
        (r.inb = [] → Gives (.longLatencyComplete id) s fun t =>
          Completed s t o (fun f => f.setReg x 0x80000000) ∧ MemKept s t ∧ t.sheafs = s.sheafs)
        ∧ ∀ e rest, r.inb = e :: rest → r.inHeld = [] → Gives (.longLatencyComplete id) s fun t =>
          Completed s t o (fun f => (f.setBlock d (o.size / 4) e.toNat).setReg x (BitVec.ofNat 32 rest.length)) ∧ MemKept s t)

/-- R165, R205, R217, R219, R230: a fibre held at a release whose conditions hold and that waits on no violated interval performs its
act: a fence and a releasing access go on, the access free to take effect; an arrival is counted; a lane of `svc` waits for its
batch; a new fibre starts. Where the conditions do not hold yet, nothing happens. -/
def Obligations.ReleasesCompleteOnceMet : Prop :=
  ∀ (s : State) (u fid : Nat) (f : Fibre) (sh : Sheaf) (sc : Scope) (act : RelAct) (since : Nat), s.fib? ⟨u, fid⟩ = some f →
    f.cond = .held (.release sc act since) → s.sheaf? u = some sh → sh.saved = false → s.releaseViolation f.key = none →
    (∀ c, s.ctx? sh.ctx = some c → ∀ d ∈ c.discarded, d.1 ≠ f.key) →
    let met : Bool := match act with
      | .fence .acq => s.readsBack f.key && (sc != .sys || s.maintained f.key)
      | .fence _ => s.releaseMet f.key sc 0
      | _ => s.releaseMet f.key sc (act.op?.getD 0)
    let gone (t : State) : Prop := t.fib? ⟨u, fid⟩ = some { f.advance with cond := .unbatched }
    (met = false → exec (.releaseComplete u fid) s = .next s)
    ∧ (met = true →
      (∀ kind, act = .fence kind → Gives (.releaseComplete u fid) s fun t => gone t ∧ OthersKept [f.key] s t ∧ MemKept s t
        ∧ t = { s with fibres := t.fibres, log := t.log })
      ∧ (∀ op o, (act = .access op ∨ act = .push op) → s.op? op = some o → Gives (.releaseComplete u fid) s fun t =>
          gone t ∧ t.op? op = some { o with released := true } ∧ OthersKept [f.key] s t ∧ MemKept s t
          ∧ t = { s with fibres := t.fibres, ops := t.ops })
      ∧ (∀ n bytes swap d b, act = .arrive n bytes swap d → sh.bars[n]? = some b →
          (b.arrived ≠ b.expect → exec (.releaseComplete u fid) s = .next (((((s.modBar u n fun b => { b with
            pending := b.pending + BitVec.ofNat 40 bytes, arrived := b.arrived + 1, swap := b.swap || swap }).tryComplete u n).modFib f.key
              fun y => y.setReg d b.phase).logDone f.key).modFib f.key fun y => { y.advance with cond := .unbatched }))
          ∧ (b.arrived = b.expect → exec (.releaseComplete u fid) s
              = .next ((s.dropRelease f.key act).takeTrap f.key ⟨0x0109, 0, 0⟩ f.pc)))
      ∧ (∀ id, act = .svc id → Gives (.releaseComplete u fid) s fun t => t.fib? ⟨u, fid⟩ = some { f with cond := .held (.svc id) }
          ∧ (∀ b ∈ t.batches, b.id = id → ∀ l ∈ b.lanes, l.1 = f.key → l.2.2 = true) ∧ OthersKept [f.key] s t ∧ MemKept s t)
      ∧ (∀ j js, act = .sbar j → sh.set? j = some js → Gives (.releaseComplete u fid) s fun t =>
          t.fib? ⟨u, fid⟩ = some { f with cond := .held (.set j) } ∧ OthersKept [f.key] s t ∧ MemKept s t)
      ∧ ∀ j g, act = .spawn j → j ≠ fid → s.fib? ⟨u, j⟩ = some g → g.cond = .held .spawn → Gives (.releaseComplete u fid) s fun t =>
          gone t ∧ t.fib? ⟨u, j⟩ = some { g with cond := .unbatched } ∧ OthersKept [f.key, ⟨u, j⟩] s t ∧ MemKept s t)

/-- R152, R169, R170, R172–R174, R279, R280, R289, R291, R300, R312: an `hnarrow`, a store to a translation line and an atomic on one are
performed at the home, once nothing stands in their way, with every cached entry of the line gone after a write; an atomic at the
home, in its turn among the requests to the line (R280), first has every copy recalled, and is then executed there; an entry of the side log whose turn has come and whose
translation stands becomes an operation again; what waited for an extent or a page goes on once it is answered, and nothing
else does. -/
def Obligations.HomeWritesAndRetries : Prop :=
  (∀ (s : State) (id line : Nat) (o : MemOp), s.op? id = some o → o.loc.line? = some line → o.homeDone = false →
    s.opReady o = true → s.xlatBusy line o = false → s.remoteHeld line = false → s.lineReady line true false = true →
    s.badLine line = false →
    (o.kind = .hnarrow → exec (.translationLineWrite id) s
        = .next (let t := s.xlatWrite o line (leBytes 32 o.unit.toNat)
                 ((t.owe o.key line (t.dirOf line).interval s.time).setDst o).finishOp o))
    ∧ (o.kind = .st → s.xlatLine line = true → exec (.translationLineWrite id) s
        = .next (let t := s.xlatWrite o line (leBytes o.size o.val.toNat)
                 (t.logHome o line (some (t.dirOf line).interval)).finishOp o))
    ∧ (o.kind.isRmw = true → s.xlatLine line = true → s.groupOf o = [o] → exec (.translationLineWrite id) s = .next (s.xlatRmw line o))
    ∧ ∀ bs, ∀ x ∈ (s.xlatWrite o line bs).xc, line ∉ x.lines)
  ∧ (∀ (s : State) (id line : Nat) (o : MemOp) (agree : Bool), s.op? id = some o → o.loc.line? = some line → o.kind.isRmw = true →
    o.homeDone = false → o.atL2 = false → s.badLine line = false → s.xlatLine line = false → (∀ p ∈ s.groupOf o, s.opReady p = true) →
    s.remoteHeld line = false →
    let turn : Prop := (∃ p ∈ s.groupOf o, p.recalling = true) ∨ (s.hostQueued line = false ∧ ∀ q ∈ s.coh.reqs, q.line ≠ line)
    (¬ turn → exec (.homeAtomic id agree) s = .next s)
    ∧ (turn → ∀ x ∈ s.coh.l2, x.line = line → s.lineBusy line = false → s.sliceMisses line < 64 → Gives (.homeAtomic id agree) s fun t =>
      (.recall x.die line) ∈ t.coh.msgs ∧ MemKept s t ∧ t.coh.l2 = s.coh.l2)
    ∧ (turn → (∀ x ∈ s.coh.l2, x.line ≠ line) → (s.modOp id fun p => { p with recalling := false }).lineBusy line = false →
      (∀ m ∈ s.coh.mshr, m.1 ≠ line) → s.groupOf o = [o] → lineSpace line = 0 → exec (.homeAtomic id agree) s
        = .next (State.homeOp (s.modOp id fun p => { p with recalling := false }) line agree o)))
  ∧ (∀ (s : State) (core : Nat) (e : SideEntry), (s.side.filter (·.core == core)).find? s.mayReplay = some e →
    exec (.sideLogReplay core) s = .next (s.replay e)
    ∧ ∀ loc lines, s.side.filter e.with = [e] → s.lookup e.ctx e.root e.op.roff false = .at loc lines → (∀ p v, loc ≠ .host p v) →
      let u := s.cacheXlat e.core e.ctx 0 [] e.obj (s.extOf e.ctx e.root e.op.roff) false lines
      u.lookup e.ctx e.root e.op.roff false = .at loc lines →
      let v := State.replayOne { u with uid := u.uid + 1 } u.uid e loc lines none
      s.replay e = v ∧ v.ops = u.ops ++ [{ e.op with loc, xl := lines, iova := none, replay := u.uid + 1 }]
      ∧ v.side = u.side.erase e ∧ v.fibres = u.fibres ∧ MemKept u v)
  ∧ ∀ (s : State) (obj ext : Nat), Gives (.faultingLoadRetry obj ext) s fun t =>
      (∀ k f on cap, s.fib? k = some f → f.cond = .waiting (.fault on cap) → XWait.names obj ext on = true → s.answered on = true →
        t.fib? k = some { f with cond := .unbatched })
      ∧ (∀ k f, s.fib? k = some f →
        (∀ on cap, f.cond = .waiting (.fault on cap) → XWait.names obj ext on = false ∨ s.answered on = false) → t.fib? k = some f)
      ∧ (∀ m ∈ t.matq, ∀ on, m.held = some on → XWait.names obj ext on = false ∨ s.answered on = false)
      ∧ (∀ c ∈ t.cmds, ∀ on, c.st = .waiting on → XWait.names obj ext on = false ∨ s.answered on = false)
      ∧ MemKept s t ∧ t = { s with fibres := t.fibres, matq := t.matq, cmds := t.cmds }

/-! # Matrix operations -/

namespace Sys2Proof.Claims

/-- What a matrix instruction makes of its elected fibre's registers: the selected flags, and the trap, nothing, or the operation
that enters the queue (R183–R191). -/
def matrixOf (i : Instr) : Option (BitVec 2 × (Fibre → Sheaf → Nat → State → Except TrapInfo (Option MatOp))) :=
  match i with
  | .mma fsel pair o => some (fsel, fun f h id s => s.mmaIssue .mma pair o none f h id)
  | .mmaW4 fsel pair o prm => some (fsel, fun f h id s => s.mmaIssue .mmaW4 pair o (some prm) f h id)
  | .mmaBp fsel o => some (fsel, fun f h id s => s.mmaIssue .mmaBp false o none f h id)
  | .scacc fsel clr t acc p sa sb shp acs pst =>
    some (fsel, fun f h id s => s.scaccIssue clr t acc p sa sb shp acs.toNat pst.toNat f h id)
  | .aclr fsel d m n stride => some (fsel, fun f h id s =>
    match scratchTile h 16 (f.reg d).toNat (16 * stride.toNat) ((m.toNat - 1) * (16 * stride.toNat) + 4 * n.toNat) with
    | .error t => .error t
    | .ok _ => .ok (some { MatOp.new id s f .aclr .b32 m.toNat n.toNat 0 with acc := (f.reg d).toNat, acs := 16 * stride.toNat }))
  | _ => none

end Sys2Proof.Claims

/-- R178–R180, R183–R186, R192: a matrix instruction is checked for its elected fibre, the one of lowest lane; it traps, or has no
effect where a dimension is 0, or its operation enters the core's queue and is counted in the selected flags of every member.
`mprog` reads the row progress of the sheaf's oldest operation and how many it has queued. -/
def Sys2Proof.Claims.MatrixInstructionsEnterTheirQueue : Prop :=
  (∀ i s w k ks f sh fsel mk, Issuing i s w → matrixOf i = some (fsel, mk) → w.members = k :: ks → w.members.Nodup →
    s.fib? k = some f → s.sheaf? k.sheaf = some sh → preCheck i f sh = .run →
    (∀ o, mk f sh s.uid (atInstr i s w k) = .ok (some o) → Gives i s fun t =>
      t.matq = s.matq ++ [{ o with counted := w.members.filterMap fun j => (s.fib? j).map fun g => (j, g.selected fsel) }]
      ∧ (∀ j g h, j ∈ w.members → s.fib? j = some g → s.sheaf? j.sheaf = some h → (preCheck i g h = .run ∨ preCheck i g h = .skip) →
          ∃ c m, t.fib? j = some { counting (pastInstr i g) (g.selected fsel) with cond := c, monitor := m })
      ∧ OthersKept w.members s t ∧ MemKept s t)
    ∧ (ks = [] → mk f sh s.uid (atInstr i s w k) = .ok none → Executes i s (goesOn i s w k id))
    ∧ ∀ t, ks = [] → mk f sh s.uid (atInstr i s w k) = .error t → TrapsWith i s w k f t)
  ∧ (∀ (kind : MatKind) (pair : Bool) (o : MmaOps) (prm : Option Reg) (f : Fibre) (h : Sheaf) (id : Nat) (s : State),
    let m := (f.reg o.shp).toNat % 2 ^ 8
    let n := (f.reg o.shp).toNat / 2 ^ 8 % 2 ^ 8
    let k := (f.reg o.shp).toNat / 2 ^ 16 % 2 ^ 10
    let maxN := if kind = .mmaBp ∨ pair = false then 64 else 128
    let maxK := if kind = .mmaBp then 512 else 256
    let good : Prop := m ≤ 128 ∧ n ≤ maxN ∧ k ≤ maxK ∧ (f.reg o.shp).toNat / 2 ^ 26 = 0
    (¬ good → s.mmaIssue kind pair o prm f h id = .error ⟨0x010E, 0, 0⟩)
    ∧ (good → (m = 0 ∨ n = 0 ∨ k = 0) → s.mmaIssue kind pair o prm f h id = .ok none)
    ∧ (good → m ≠ 0 → n ≠ 0 → k ≠ 0 → pair = true → s.pairOk f.core (s.ctxOf f.key) = false →
        s.mmaIssue kind pair o prm f h id = .error ⟨0x010D, 0, 0⟩)
    ∧ ∀ op, s.mmaIssue kind pair o prm f h id = .ok (some op) → good ∧ op.m = m ∧ op.n = n ∧ op.k = k ∧ op.kind = kind ∧ op.ty = o.ty
        ∧ op.pair = pair ∧ op.acc = (f.reg o.acc).toNat ∧ op.acs = o.acs.toNat ∧ op.row = 0 ∧ op.elected = f.key ∧ op.pc = f.pc
        ∧ op.core = f.core ∧ op.sheaf = f.key.sheaf ∧ op.started = false)
  ∧ ∀ d s w k f sh, Alone (.mprog d) s w k f sh →
    let q := (s.matQ f.core).filter (·.sheaf == k.sheaf)
    ∃ v : Word, Executes (.mprog d) s (goesOn (.mprog d) s w k fun s => s.modFib k fun x => x.setReg d v)
      ∧ (q = [] → v = 0)
      ∧ ∀ o rest, q = o :: rest → o.m < 2 ^ 8 → o.row < 2 ^ 8 → q.length < 2 ^ 7 →
        v.getLsbD 31 = true ∧ (v.extractLsb' 24 7).toNat = q.length ∧ v.getLsbD 23 = o.held.isSome ∧ (v.extractLsb' 8 8).toNat = o.m
          ∧ (v.extractLsb' 0 8).toNat = o.row ∧ v.extractLsb' 16 7 = 0

/-- R98, R99, R178–R180, R187–R191, R197: the operation at the head of a core's queue starts, a pair operation once its follower's
queue is empty; each row is accumulated whole, `scacc` and `aclr` likewise, the row progress counting it, no byte outside the
accumulator's row (and P's, under `scacc.clr`) changing, once the elected fibre's earlier accesses are performed and with no soft
error in the bytes read; after the last row the entry leaves and the counted flags fall. Sums of
INT8 products are exact modulo 2^32. -/
def Sys2Proof.Claims.MatrixOperationsRunByRows : Prop :=
  (∀ (s : State) (core : Nat) (o : MatOp), s.matHead core = some o →
    (o.started = false → o.pair = false → exec (.matrixOpStart core) s = .next { s with
      matq := s.matq.map fun m => if m.id = o.id then { m with started := true } else m })
    ∧ (o.started = false → o.pair = true → exec (.matrixOpStart core) s = .next { s with
      matq := s.matq.map fun m => if m.id = o.id then { m with claimed := true } else m })
    ∧ (o.pair = true → o.claimed = true → o.started = false → s.matQ (core + 1) = [] → exec (.followerClaim core) s = .next { s with
      matq := s.matq.map fun m => if m.id = o.id then { m with started := true } else m })
    ∧ (o.pair = true → o.claimed = true → o.started = false → s.matQ (core + 1) ≠ [] → exec (.followerClaim core) s = .next s)
    ∧ (o.started = true → o.row = o.m → o.taint = [] → Gives (.matrixOpComplete core) s fun t =>
      (∀ m, m ∈ t.matq ↔ m ∈ s.matq ∧ m.id ≠ o.id) ∧ MemKept s t
      ∧ (∀ k fl f, o.counted = [(k, fl)] → s.fib? k = some f → f.cond ≠ .ended → t.fib? k = some (f.uncountFlags fl))
      ∧ ∀ k, (∀ c ∈ o.counted, c.1 ≠ k) → t.fib? k = s.fib? k)
    ∧ ∀ h, o.started = true → o.row < o.m → s.sheaf? o.sheaf = some h → MemInv s → s.lostFollower o = false →
      s.matOrdered o = true → s.rowPoisoned o = false → o.n ≤ 128 →
      let l (off : Nat) : Loc := .scratch o.sheaf h.bank off
      let next (t : State) : Prop := t.matq = s.matq.map fun m => if m.id = o.id then { m with row := m.row + 1 } else m
      let accOnly (t : State) : Prop := ∀ m : Loc, (∀ j < 4 * o.n, s.keyOf m ≠ s.keyOf (l (o.acc + o.row * o.acs + j))) → t.rawRead m 1 = s.rawRead m 1
      (o.kind = .aclr → Gives (.matrixRowComplete core .pass) s fun t => next t ∧ t.accRow o = List.replicate o.n 0 ∧ accOnly t)
      ∧ (∀ p, o.kind = .scacc false → o.a = .scratch p → Gives (.matrixRowComplete core .pass) s fun t => next t ∧ accOnly t
          ∧ t.accRow o = (s.accRow o).zipIdx.map fun x => scaccElem o.ty
              (leNat (s.rawRead (l (p + o.row * o.pst + 4 * x.2)) 4)) (leNat (s.rawRead (l (o.sa + 4 * o.row)) 4))
              (leNat (s.rawRead (l (o.sb + 4 * x.2)) 4)) x.1)
      ∧ ∀ off b, (o.kind = .mma ∨ o.kind = .mmaW4 ∨ o.kind = .mmaBp) → o.bbuf = some b → b.length = o.k * o.rb → 0 < o.rb →
        (o.kind = .mmaW4 → o.pbuf ≠ []) → o.a = .scratch off → s.scratchBad o.sheaf (off + o.row * o.sa) (rowBytes o.kind o.n o.k).1 = false →
        let a := s.rawRead (l (off + o.row * o.sa)) (rowBytes o.kind o.n o.k).1
        Gives (.matrixRowComplete core .pass) s fun t => next t ∧ accOnly t
          ∧ t.accRow o = (s.accRow o).zipIdx.map fun x => (List.range ((o.k + 31) / 32)).foldl (fun y c => o.chunk a b x.2 c y) x.1)
  ∧ ∀ (o : MatOp) (row b : List Byte) (n acc : Nat), o.kind = .mmaBp → (o.ty = .s8 ∨ o.ty = .z8) → acc < 2 ^ 32 →
    let sg := o.ty == .s8
    (o.elem row b n o.chunks acc : Int) = (acc + ((List.range o.k).map fun k =>
      ival sg 8 (row.getD k 0).toNat * ival sg 8 (b.getD (k * o.rb + n) 0).toNat).sum) % 2 ^ 32

/-- R178–R200: the matrix instructions and the operations they queue. -/
def Obligations.MatrixOperations : Prop := Claims.MatrixInstructionsEnterTheirQueue ∧ Claims.MatrixOperationsRunByRows

/-! # Issue and scheduling -/

/-- R29, R30, R47, R51, R55, R239, R319, R343: each cycle of a quadrant forms at most one warp and chooses one that is ready: with none
passed over more than 64 times, the one at the lowest program counter, of equals that in the lowest slot, warps that yielded left
aside while another is ready. The chosen warp's next instruction is executed by the next step; at a clause start its members enter
the clause, or, a warp of one, trap at the word that is wrong. A halted, fenced or lost core issues nothing. A quadrant starved 64 times
dissolves its oldest warp at its next clause boundary. A clause whose lines stand in the core's instruction cache starts with
nothing else of the machine's memory touched. The order among equals at one program counter is the model's choice (log 23), and which
word of a clause is reported its reading (log 40). -/
def Obligations.QuadrantsChooseTheirNextWarp : Prop :=
  (∀ (s : State) (core quad : Nat) (up : Option (Nat × Bool)),
    (s.coreRuns core = false → exec (.issueCycle core quad up) s = .next s)
    ∧ (s.coreRuns core = true →
      let s0 := ((s.liftHolds core quad).formLockstep core quad).formWarp core quad
      let ready := (s0.quadWarps core quad).filter s0.warpReady
      let pool := if ready.any (fun v => !v.skip) then ready.filter (fun v => !v.skip) else ready
      (ready = [] → Gives (.issueCycle core quad up) s fun t => t.issue = s.issue ∧ t.fibres = s0.fibres ∧ MemKept s t)
      ∧ ∀ w ∈ pool, (∀ v ∈ pool, v.passed ≤ 64) →
        (∀ v ∈ pool, v ≠ w → s0.warpPc w < s0.warpPc v ∨ (s0.warpPc w = s0.warpPc v ∧ w.slot < v.slot)) →
        (s0.atBoundary w = false → Gives (.issueCycle core quad up) s fun t =>
          t.issue = some ⟨core, quad, w.slot, up⟩ ∧ t.fibres = s0.fibres ∧ MemKept s t)
        ∧ ∀ l, s0.atBoundary w = true → s0.launch? w.launch = some l →
          (∀ h, checkClause (s0.codeWord l) l.codeLen (s0.warpPc w) = .ok h → Gives (.issueCycle core quad up) s fun t =>
            t.issue = some ⟨core, quad, w.slot, up⟩)
          ∧ (∀ h, checkClause (s0.codeWord l) l.codeLen (s0.warpPc w) = .ok h →
            (∀ off line, (l.codeLoc off).bind Loc.line? = some line → ∃ x ∈ s.ic, x.core = core ∧ x.line = line) →
            Gives (.issueCycle core quad up) s fun t =>
            t.issue = some ⟨core, quad, w.slot, up⟩ ∧ MemKept s t
            ∧ (∀ k ∈ w.members, ∀ f, s0.fib? k = some f → ∃ g, t.fib? k = some g ∧ g.pc = BitVec.ofNat 64 (s0.warpPc w + 8) ∧ g.regs = f.regs
                ∧ g.flags = f.flags ∧ g.cond = f.cond
                ∧ g.clause = some ⟨s0.warpPc w, h.len.toNat, 8, h.flagA.toNat, h.flagB.toNat, h.yield⟩
                ∧ ∀ c, s0.ctx? l.ctx = some c → g.inFlags = c.flags ∧ g.inHtbase = c.htbase ∧ g.inHtlen = c.htlen)
            ∧ ∀ k, k ∉ w.members → t.fib? k = s0.fib? k)
          ∧ ∀ e, checkClause (s0.codeWord l) l.codeLen (s0.warpPc w) = .error e → Gives (.issueCycle core quad up) s fun t =>
            t.issue = s.issue ∧ MemKept s t ∧ OthersKept w.members s0 t
            ∧ ∀ k f, w.members = [k] → s0.fib? k = some f → s0.isPriv k = false →
                ∃ m, t.fib? k = some { f with faultCode := e.code, faultOpnd := 0, faultValid := true, cond := .held .trap, monitor := m }))
  ∧ ∀ (s : State) (core quad : Nat) (q : QuadSt) (w : Warp), s.quads.find? (fun q => q.core == core && q.quad == quad) = some q →
    w ∈ s.warps → w.core = core → w.quad = quad → (∀ v ∈ s.warps, v.core = core → v.quad = quad → v ≠ w → w.age < v.age ∧ v.slot ≠ w.slot) →
    (q.starved < 64 → exec (.warpDissolution core quad) s = .next s)
    ∧ (64 ≤ q.starved → s.atBoundary w = true → Gives (.warpDissolution core quad) s fun t =>
        (∀ k ∈ w.members, ∀ f, s.fib? k = some f → t.fib? k = some { f with cond := .unbatched }) ∧ (∀ v ∈ t.warps, ∀ k ∈ w.members, k ∉ v.members)
        ∧ MemKept s t)
    ∧ (64 ≤ q.starved → s.atBoundary w = false → Gives (.warpDissolution core quad) s fun t =>
        t.warps = s.warps.map (fun v => if v = w then { w with dissolve := true } else v) ∧ t.fibres = s.fibres ∧ MemKept s t)

/-- R37, R219, R331–R334: a launch record is checked in its stages; a refused one is answered with the status of the first check
that fails, an accepted one joins its context's launches. How far a stage of the check goes, and the entry's bound below the code
object's length among it, is the model's reading (log 64). -/
def Obligations.LaunchRecordsAreAcceptedOrAnswered : Prop :=
  (∀ (s : State) (x : Nat) (c : Ctx) (p : Part) (e : BitVec 512) (rest : List (BitVec 512)), s.ctx? x = some c → s.part? c.part = some p →
    c.mail1.h2d = e :: rest → s.launchesHeld x < 64 →
    let r := Record.ofBits e
    let took (s : State) : State := s.modCtx x fun c => { c with mail1 := { c.mail1 with h2d := rest } }
    (∀ code, s.checkRecord (State.distCore p) c p r .mailbox = .status code → exec (.launchRecordAccept (.mailbox x)) s
      = .next ((took s).modCtx x fun c => { c with mail1 := { c.mail1 with
          d2h := c.mail1.d2h ++ [launchEntry code 0 0 r.id x], d2hAccepted := c.mail1.d2hAccepted + 1 } }))
    ∧ (∀ l u, s.checkRecord (State.distCore p) c p r .mailbox = .ok l u → exec (.launchRecordAccept (.mailbox x)) s
      = .next (State.becameRunnable { took u with launches := u.launches ++ [l] } l.ctx ((took u).runnable l.ctx))))
  ∧ (∀ (s : State) (id : Nat) (o : MemOp) (h : Sheaf) (c : Ctx) (p : Part), s.op? id = some o → s.sheaf? o.key.sheaf = some h →
    o.kind = .qpush → h.bind o.queue = 6 → s.opReady o = true → s.laneTurn o = true → s.ctxFrozen h.ctx = false →
    s.recordBefore o = false → s.ctx? h.ctx = some c → s.part? c.part = some p →
    let r := s.checkRecord (1536 + coreDie h.core) c p (Record.ofBits o.unit) (.queue h.uid o.queue)
    (64 ≤ s.launchesHeld c.id → exec (.launchRecordAccept (.queue id)) s = .next (s.finishPush o h 0x0001))
    ∧ (s.launchesHeld c.id < 64 → o.decl = true → exec (.launchRecordAccept (.queue id)) s = .next (s.finishPush o h 0x0002))
    ∧ (s.launchesHeld c.id < 64 → o.decl = false →
      (∀ code, r = .status code → exec (.launchRecordAccept (.queue id)) s = .next (s.finishPush o h code))
      ∧ ∀ l u, r = .ok l u → exec (.launchRecordAccept (.queue id)) s
          = .next ((State.becameRunnable { u with launches := u.launches ++ [l] } l.ctx (u.runnable l.ctx)).finishPush o h 0)))
  ∧ ∀ (s : State) (core : Nat) (c : Ctx) (p : Part) (r : Record) (back : LaunchBack),
    let dies := ((List.range 8).filter fun d => p.dieMask.testBit d).length
    ((r.bad = true ∨ r.sheafs = 0 ∨ r.minDies = 0 ∨ r.maxDies < r.minDies ∨ 8 < r.maxDies ∨ dies < r.minDies) →
      s.checkRecord core c p r back = .status 0x0002)
    ∧ (r.bad = false → 1 ≤ r.sheafs → 1 ≤ r.minDies → r.minDies ≤ r.maxDies → r.maxDies ≤ 8 → r.minDies ≤ dies → c.prioCeil < r.prio →
      s.checkRecord core c p r back = .status 0x0003)
    ∧ ∀ l u, s.checkRecord core c p r back = .ok l u → l.ctx = c.id ∧ l.part = p.num ∧ l.id = r.id ∧ l.prio = r.prio ∧ l.prio ≤ c.prioCeil
        ∧ l.sheafs = r.sheafs ∧ l.minDies = r.minDies ∧ l.maxDies = r.maxDies ∧ l.args = r.args ∧ l.phase = .starting ∧ l.step = 0
        ∧ l.start = l.desc.entry ∧ l.desc.entry % 8 = 0 ∧ l.desc.entry < l.codeLen ∧ l.cont = none ∧ l.stray = 0 ∧ l.back = back
        ∧ 1 ≤ l.desc.fibres ∧ l.desc.fibres ≤ l.desc.quota ∧ l.desc.quota ≤ 2048 ∧ 8 ≤ l.desc.regs ∧ l.desc.regs ≤ 256

/-- R14, R22, R24, R37, R335–R339, R342: a step starts once enough dies are available and holds the lowest of them; the next sheaf goes to the
core with the most free units of the limiting resource, with its initial fibres at the step's start; a sheaf retires once nothing
of it is outstanding, its resources are free at once, and its core is among those to be refilled first. -/
def Obligations.StepsStartAndSheafsArePlaced : Prop :=
  (∀ (s : State) (n : Nat), exec (.sheafPlacement n) s = exec (.sheafPlacement n) s.refillAll)
  ∧ (∀ (s : State) (n r : Nat) (p : Part) (l : Launch), s.part? n = some p → p.resident = some r → p.halting = false → s.ctxFrozen r = false →
    s.refills = [] → (s.endSteps r).reschedule n = s → s.served r = some l →
    (l.phase = .starting →
      ((s.available p).length < l.minDies → exec (.sheafPlacement n) s = .next s)
      ∧ (l.minDies ≤ (s.available p).length → Gives (.sheafPlacement n) s fun t =>
        (∀ m, s.launch? l.uid = some m → ∃ x, t.launch? l.uid = some x ∧ x.phase = .running ∧ x.held = (s.available p).take l.maxDies ∧ x.next = 0
          ∧ x.step = m.step ∧ x.start = m.start)
        ∧ (∀ x ∈ t.roc, coreDie x.core ∉ (s.available p).take l.maxDies)
        ∧ (∀ x ∈ t.ic, x ∈ s.ic ∧ (l.step = 0 → coreDie x.core ∉ (s.available p).take l.maxDies))
        ∧ t = { s with launches := t.launches, roc := t.roc, ic := t.ic }))
    ∧ (l.phase = .running → l.desc.pers = false → l.desc.stook = 0 → l.next < l.total →
      (∀ i < l.total, s.rel.qmask.getLsbD (l.held.getD (i / l.sheafs) 8) = false) → ∀ core plan,
      s.bestCore l (s.eligible p (l.held.getD (l.next / l.sheafs) 8)) = some (core, plan) → Gives (.sheafPlacement n) s fun t =>
        (∃ h : Sheaf, t.sheafs = s.sheafs ++ [h] ∧ h.uid = s.uid ∧ h.launch = l.uid ∧ h.index = l.next ∧ h.core = core ∧ h.slot = plan.slot
          ∧ h.ctx = l.ctx ∧ h.quota = l.desc.quota ∧ h.regs = l.desc.regs ∧ h.granules = l.desc.granules ∧ h.priv = false ∧ h.saved = false
          ∧ h.sets = [] ∧ h.bars = List.replicate 16 Barrier.initial)
        ∧ (∃ new : List Fibre, t.fibres = s.fibres ++ new ∧ new.length = l.desc.fibres
          ∧ ∀ (j : Nat) (f : Fibre), new[j]? = some f → f.key = ⟨s.uid, j⟩ ∧ f.core = core ∧ f.pc = BitVec.ofNat 64 l.start ∧ f.regs.length = l.desc.regs ∧ f.cond = .unbatched)
        ∧ (∀ m, s.launch? l.uid = some m → t.launch? l.uid = some { m with next := l.next + 1 })
        ∧ (MemInv s → ∀ m : Loc, (∀ b o, m ≠ .scratch s.uid b o) →
            (∀ k, s.keyOf m = some k → inScratch core (4096 * plan.live) (4096 * l.desc.granules) k = false) → t.rawRead m 1 = s.rawRead m 1)))
  ∧ (∀ (s : State) (p : Part) (d : Nat) (l : Launch), ∀ core plan, s.bestCore l (s.eligible p d) = some (core, plan) →
    core ∈ p.cores ∧ coreDie core = d ∧ s.inService core = true ∧ planOn (s.onCore core) l.desc = some plan
    ∧ (l.desc.pers = true → s.otherPers l core = false)
    ∧ ∀ c q, c ∈ s.eligible p d → s.fitOn l c = some q →
      freeUnits (s.onCore c) l.desc (limiting l.desc) ≤ freeUnits (s.onCore core) l.desc (limiting l.desc))
  ∧ ∀ (s : State) (u : Nat) (h : Sheaf), s.sheaf? u = some h → u < s.uid →
    ((∃ f ∈ s.fibres, f.key.sheaf = u) ∨ (∃ c ∈ s.cmds, c.sheaf = u) ∨ (∃ o ∈ s.ops, o.key.sheaf = u) → exec (.sheafRetire u) s = .next s)
    ∧ (s.mayRetire u = true → Gives (.sheafRetire u) s fun t => t.sheaf? u = none ∧ (∀ m ∈ t.matq, m.sheaf ≠ u) ∧ (∀ e ∈ t.log, e.key.sheaf ≠ u)
        ∧ (∀ f ∈ t.fibres, f.key.sheaf ≠ u) ∧ (∀ e ∈ t.owed, e.key.sheaf ≠ u) ∧ (h.saved = false → h.core ∈ t.refills)
        ∧ ∀ m : Loc, (∀ b o, m ≠ .scratch u b o) → t.rawRead m 1 = s.rawRead m 1)

/-- R319, R344–R348, R352–R354: at the end of a time slice the resident context gives way to one of its priority or above, or starts
another slice; one that has used its waiting budget is halted, its snapshot written and reported; a partition that has halted
exchanges its contexts through the cores' swap stores, whose states follow one another; an image that nothing has been written to and no
poison lies in comes back from the save area as it was (R352; what any other gives is the model's choice, log 78); and a fenced core's
index goes to a spare, or is lost. -/
def Obligations.ContextsAreExchanged : Prop :=
  (∀ (s : State) (n x : Nat) (p : Part) (c : Ctx), s.part? n = some p → p.resident = some x → s.ctx? x = some c →
    (c.sliceLen = 0 ∨ s.time < c.sliceStart + c.sliceLen ∨ p.halting = true → exec (.timeSliceExpiry n) s = .next s)
    ∧ (c.sliceLen ≠ 0 → c.sliceStart + c.sliceLen ≤ s.time → p.halting = false →
      (∀ y, s.runHead p = some y → s.ctxPrio x ≤ s.ctxPrio y → exec (.timeSliceExpiry n) s = .next (s.preempt n))
      ∧ ((∀ y, s.runHead p = some y → s.ctxPrio y < s.ctxPrio x) → exec (.timeSliceExpiry n) s = .next (s.modCtx x fun c => { c with
          sliceStart := s.time, sliceLen := 1000 * c.tslice.toNat, budget := 1000 * c.wbudget.toNat, charge := [] })))
    ∧ (c.budget = 0 ∨ c.waitCharge ≤ c.budget ∨ p.halting = true → exec (.waitingBudgetExhausted n) s = .next s)
    ∧ (c.budget ≠ 0 → c.budget < c.waitCharge → p.halting = false → exec (.waitingBudgetExhausted n) s = .next ((s.snapshot c).preempt n))
    ∧ (p.halting = false → ∀ q, (s.preempt n).part? n = some q → q.halting = true ∧ q.resident = some x)
    ∧ (p.halting = true → s.preempt n = s.retarget n))
  ∧ (∀ (s : State) (n : Nat) (p : Part) (x y : Nat), s.part? n = some p → p.resident = some x → p.incoming = some y → p.halting = true →
    s.ctxQuiet x = true → (∀ c ∈ p.cores, (s.coreSt c).swap = .empty) → (∀ c ∈ p.cores, s.hasImage y c = false) →
    ((∀ c ∈ p.cores, (s.saveSheafs x).hasImage x c = false) → Gives (.partitionHalted n) s fun t =>
      t = (State.modPart (s.saveSheafs x) p.num fun p => { p with resident := none }).enter p.num
      ∧ ((∀ h ∈ s.sheafs, h.ctx ≠ x ∧ h.ctx ≠ y) → MemKept s t))
    ∧ ((∃ c ∈ p.cores, (s.saveSheafs x).hasImage x c = true) → Gives (.partitionHalted n) s fun t =>
      t.part? n = some { p with resident := none } ∧ t.sheafs = (s.saveSheafs x).sheafs
      ∧ ∀ c ∈ p.cores, if (s.saveSheafs x).hasImage x c then (t.coreSt c).swap = .exchanging ∧ (t.coreSt c).outgoing = some x
          else (t.coreSt c).swap = .empty))
  ∧ (∀ (s : State) (core : Nat),
    ((s.coreSt core).swap ≠ .exchanging → exec (.exchangeComplete core) s = .next s)
    ∧ ((s.coreSt core).swap ≠ .spilling → exec (.spillComplete core) s = .next s)
    ∧ ((s.coreSt core).swap ≠ .staging → exec (.fillComplete core) s = .next s)
    ∧ ((s.coreSt core).swap = .staging →
        let filled := match (s.coreSt core).swapCtx with | some c => s.readImage c core | none => s
        exec (.fillComplete core) s = .next (filled.setCore { s.coreSt core with swap := .staged }))
    ∧ (∀ c, s.imageChanged (s.imageLines c core) = false → (∀ l ∈ s.imageLines c core, s.poisoned l = false) → s.readImage c core = s)
    ∧ (∀ p, (s.coreSt core).swap = .exchanging → (s.setCore { s.coreSt core with swap := .spilling, swapCtx := none }).partOf core = some p →
        let t := s.setCore { s.coreSt core with swap := .spilling, swapCtx := none }
        exec (.exchangeComplete core) s = .next (if t.exchanging p then t else t.enter p.num))
    ∧ ((s.coreSt core).swap = .spilling →
        let spilled := match (s.coreSt core).outgoing with | some c => s.spillImage c core | none => s
        let t := spilled.setCore { s.coreSt core with swap := .empty, outgoing := none }
        exec (.spillComplete core) s = .next (match t.partOf core with | some p => t.retarget p.num | none => t)))
  ∧ ∀ (s : State) (core n : Nat), (s.coreSt core).fenced = true → (s.coreSt core).lost = false → core < 1536 → (s.coreSt core).swap ≠ .exchanging →
    (∀ h ∈ s.sheafs, h.core = core → h.saved = true) → s.rel.spares[coreDie core]? = some n →
    (0 < n → Gives (.spareRemap core) s fun t => (t.coreSt core).fenced = false ∧ t.rel.spares = s.rel.spares.set (coreDie core) (n - 1)
        ∧ core ∈ t.refills ∧ t = { s with cores := t.cores, rel := t.rel, refills := t.refills })
    ∧ (n = 0 → Gives (.spareRemap core) s fun t => (t.coreSt core).lost = true ∧ t.rel.lostCount = s.rel.lostCount + 1 ∧ t.rel.replreq = true
        ∧ ∀ p ∈ t.parts, core ∉ p.cores)

/-! # Coherence, checkers, reliability -/

namespace Sys2Proof.Claims

/-- The slice may serve die `die`'s request for a line now: the line's oldest, with nothing of the line in flight, no other package
holding it, and no miss of it under way (R280, R381). -/
def ServesNext (s : State) (die line : Nat) (kind : ReqKind) (r : CohReq) : Prop :=
  s.nextReq line = some r ∧ r.die = die ∧ r.kind = kind ∧ s.remoteHeld line = false ∧ s.coh.mshr.any (·.1 == line) = false

/-- Line data on their way to the requester, granted in a state. -/
def Sends (t : State) (r : CohReq) (st : LineSt) (bytes : List Byte) (acks : List Nat) : Prop :=
  ∃ iv src, CohMsg.data r.die r.line st bytes iv acks r.cls r.hint src ∈ t.coh.msgs

end Sys2Proof.Claims

/-- R275–R280, R381: a read of a line that no die holds is granted E, or S where the line is a peer's that the package may not write
(R381), of a shared one S; a line that its only holder has written is supplied by
that holder, which keeps it shared; a read for ownership takes every other copy; an upgrade makes the requester's copy writable
at once and sends the invalidations. A request whose data the slice lacks takes a miss-status register, unless an older miss of
the slice waits for one, and is served when the data arrive; under no-allocate the slice then keeps no data (R283). That a modified
line supplied by its holder becomes Shared at both, the slice taking the data, is the model's reading (log 24). -/
def Obligations.TheDirectoryServesRequests : Prop :=
  (∀ (s : State) (die line : Nat) (r : CohReq), r.line = line →
    (∀ d, ServesNext s die line .read r → s.dir? line = some d → (s.llc? line).isSome = true →
      (d.st = .uncached → s.mayOwn line = true → Gives (.read die line) s fun t => Sends t r .e (s.homeLine line) [] ∧ (t.dirOf line).st = .exclusive
          ∧ (t.dirOf line).owner = die ∧ t.coh.reqs = s.coh.reqs.erase r ∧ t.coh.l2 = s.coh.l2 ∧ MemKept s t)
      ∧ (d.st = .uncached → s.mayOwn line = false → Gives (.read die line) s fun t => Sends t r .s (s.homeLine line) []
          ∧ (t.dirOf line).st = .shared ∧ (t.dirOf line).sharers = [die] ∧ t.coh.l2 = s.coh.l2 ∧ MemKept s t)
      ∧ (d.st = .shared → Gives (.read die line) s fun t => Sends t r .s (s.homeLine line) [] ∧ (t.dirOf line).st = .shared
          ∧ die ∈ (t.dirOf line).sharers ∧ (∀ x ∈ d.sharers, x ∈ (t.dirOf line).sharers) ∧ t.coh.l2 = s.coh.l2 ∧ MemKept s t)
      ∧ (∀ x, d.st = .exclusive → s.l2? d.owner line = some x → x.st = .m → Gives (.read die line) s fun t =>
          Sends t r .s x.data [] ∧ (t.dirOf line).st = .shared ∧ d.owner ∈ (t.dirOf line).sharers ∧ die ∈ (t.dirOf line).sharers
          ∧ ∃ y, t.l2? d.owner line = some y ∧ y.st = .s ∧ y.data = x.data))
    ∧ (∀ d, ServesNext s die line .rfo r → s.mayOwn line = true → s.dir? line = some d → (s.llc? line).isSome = true → (∀ l ∈ s.coh.l2, l.line = line → l.acks = []) →
      ((d.st = .uncached ∨ d.st = .shared) → Gives (.readForOwnership die line) s fun t =>
          Sends t r .m (s.homeLine line) (d.sharers.filter (· ≠ die)) ∧ (t.dirOf line).owner = die
          ∧ ∀ x ∈ d.sharers, x ≠ die → CohMsg.inval x line (some die) ∈ t.coh.msgs)
      ∧ (∀ x, (d.st = .exclusive ∨ d.st = .owned) → s.l2? d.owner line = some x → Gives (.readForOwnership die line) s fun t =>
          (∃ acks, Sends t r .m x.data acks) ∧ (t.dirOf line).owner = die ∧ t.l2? x.die line = none))
    ∧ (∀ x d, ServesNext s die line .upgrade r → s.mayOwn line = true → s.l2? die line = some x → s.dir? line = some d →
      (∀ l ∈ s.coh.l2, l.line = line → l.acks = []) → Gives (.upgrade die line) s fun t =>
        (∃ y, t.l2? die line = some y ∧ y.st = .m ∧ y.data = x.data ∧ y.acks = nub (d.others die)) ∧ (t.dirOf line).owner = die
        ∧ ∀ o ∈ d.others die, CohMsg.inval o line (some die) ∈ t.coh.msgs)
    ∧ (ServesNext s die line .read r → s.llc? line = none → s.fromSlice r = true → s.sliceMisses line < 64 → s.olderMiss r = false →
      exec (.read die line) s
        = .next (State.fetchLine { s with coh := { s.coh with reqs := s.coh.reqs.erase r, mshr := s.coh.mshr ++ [(line, [r])] } } line false))
    ∧ (ServesNext s die line .read r → s.llc? line = none → s.fromSlice r = true → (64 ≤ s.sliceMisses line ∨ s.olderMiss r = true) →
      exec (.read die line) s = .next s)
    ∧ (lineSpace line = 0 → ∀ u w, State.fetchLine u line w = u))
  ∧ ∀ (s : State) (line : Nat) (r : CohReq) (rest : List CohReq) (d : DirEntry), s.coh.mshr.find? (·.1 == line) = some (line, r :: rest) →
    r.line = line → lineSpace line = 0 → s.dir? line = some d → d.st = .uncached → d.sharers = [] → s.llc? line = none → (r.kind = .read ∨ r.kind = .rfo) →
    (∀ l ∈ s.llcSetOf line, l.line = line) →
    Gives (.hbmFillComplete line) s fun t =>
      Sends t r (if r.kind = .read then .e else .m) (s.rawRead (lineLoc line) 128) []
      ∧ (∀ m ∈ t.coh.mshr, m.1 ≠ line) ∧ t.coh.reqs = rest ++ s.coh.reqs ∧ MemKept s t
      ∧ ((s.classOf r.cls).wpol = 2 → t.llc? line = none)
      ∧ ((s.classOf r.cls).wpol ≠ 2 → ∃ x, t.llc? line = some x ∧ x.data = s.rawRead (lineLoc line) 128 ∧ x.dirty = false)

/-- R276–R279, R311: data that have arrived are held in the state granted, exactly as received; an invalidated copy goes and its
acknowledgement is sent to the writer; a recalled or written-back copy goes, its dirty data taken by the home, so that no byte
changes; acknowledgements count off the copy they were sent for, and with the last of a line its writes, and those that reads of it
returned, are performed at the package. That an invalidation takes an O copy as it takes an S copy, and leaves an M or E copy standing,
is the model's reading (log 45). -/
def Obligations.CopiesComeAndGo : Prop :=
  (∀ (s : State) (die line : Nat) (st : LineSt) (bs : List Byte) (iv : BitVec 32) (cls : Nat) (hint : Hint) (src : Option Nat),
    s.firstTo die line = some (.data die line st bs iv [] cls hint src) → (s.l2Victim die line cls).2.2 = none → s.l2? die line = none →
    (∀ dmg, Gives (.dataResponse die line dmg) s fun t => ∃ y, t.l2? die line = some y ∧ y.st = st ∧ y.iv = iv ∧ y.l1 = []
      ∧ (dmg = [] → y.data = bs) ∧ (∀ n b, dmg = [(n, b)] → y.data = bs.set n (bs.getD n 0 ^^^ b))
      ∧ t.coh.msgs = s.coh.msgs.erase (.data die line st bs iv [] cls hint src) ∧ MemKept s t))
  ∧ (∀ (s : State) (die line : Nat) (back : Option Nat), s.firstTo die line = some (.inval die line back) → Gives (.invalidate die line) s fun t =>
      (∀ x, s.l2? die line = some x → (x.st = .s ∨ x.st = .o) → t.l2? die line = none)
      ∧ (∀ x, s.l2? die line = some x → (x.st = .m ∨ x.st = .e) → t.l2? die line = some x)
      ∧ (∀ w, back = some w → CohMsg.ack die w line ∈ t.coh.msgs) ∧ MemKept s t
      ∧ ∀ d l, (d ≠ die ∨ l ≠ line) → t.l2? d l = s.l2? d l)
  ∧ (∀ (s : State) (die line : Nat) (x : L2Line), s.l2? die line = some x → x.acks = [] → (∀ y ∈ s.coh.l2, y.line = line → y = x) →
    (s.classOf x.cls).wpol = 0 → (s.llc? line).isSome = true →
    let back (t : State) : Prop := t.l2? die line = none ∧ MemKept s t
      ∧ (x.st = .m → t.homeLine line = x.data) ∧ (x.st = .e ∨ x.st = .s → t.homeLine line = s.homeLine line)
      ∧ ∀ d l, (d ≠ die ∨ l ≠ line) → t.l2? d l = s.l2? d l
    ((x.st = .m ∨ x.st = .o) → s.lineBusy line = false → Gives (.writeBack die line) s back)
    ∧ (s.firstTo die line = some (.recall die line) → Gives (.recall die line) s fun t => back t ∧ t.coh.msgs = s.coh.msgs.erase (.recall die line)))
  ∧ ∀ (s : State) (src die line : Nat) (x : L2Line), s.coh.msgs.find? (fun m => match m with | .ack _ d l => d == die && l == line | _ => false)
      = some (.ack src die line) → s.l2? die line = some x → Gives (.acknowledgement die line) s fun t =>
        t.l2? die line = some { x with acks := x.acks.erase src } ∧ t.coh.msgs.length + 1 = s.coh.msgs.length ∧ MemKept s t
        ∧ (t.lineSpread line = true → ∀ e ∈ t.log, e.line = line → (e.atDie.isSome = true ∨ e.returned.isSome = true) → e.atPkg.isSome = true)

/-- R302, R303, R308, R313: the home's checker takes the oldest record of a line that it can match: an OPEN whose hash is the expected
one is no longer due, one that differs is a violation of cause 0, and a record of a unit that has no such role in the interval, or that names an interval it
may not name, one of cause 1; an interval not cleared 10 µs after a release, or an engine's arrival or publish, began to wait for it is
one of cause 6; the reorder
checker marks the only entry of a log once it has settled, and an interval still uncleared when it leaves is owed (R312). EXPHASH of a
cause 1 where no hash is expected and HOLDER of a cause 6 where no record is due are the model's choice (log 84). -/
def Obligations.CheckersJudgeRecords : Prop :=
  (∀ (s : State) (line : Nat) (r : IRec) (i : Ival), s.chk.recs.find? (fun r => r.line == line && s.recReady r) = some r →
    s.ival? r.line r.interval = some i →
    let role : Prop := if r.writer then i.writer = some r.holder.toNat else r.holder.toNat ∈ i.readers
    let s1 : State := { s with chk := { s.chk with recs := s.chk.recs.erase r } }
    (r.kind = .open → role → r.holder.toNat ∈ i.due → i.expect = some r.hash → exec (.intervalRecord line) s
      = .next (s1.modIval r.line r.interval fun i => { i with due := i.due.erase r.holder.toNat }))
    ∧ (∀ h, r.kind = .open → role → r.holder.toNat ∈ i.due → i.expect = some h → h ≠ r.hash → exec (.intervalRecord line) s
      = .next (s1.violate ⟨r.line, r.interval, 0, r.holder, i.supplier, h, r.hash⟩))
    ∧ ((r.kind = .open ∨ r.kind = .overwrite ∨ r.kind = .close ∨ r.kind = .supply) → ¬ role → exec (.intervalRecord line) s
      = .next (s1.violate ⟨r.line, r.interval, 1, r.holder, i.supplier, i.expect.getD 0, r.hash⟩))
    ∧ (r.kind = .overwrite → r.writer = true → role → r.holder.toNat ∈ i.due → exec (.intervalRecord line) s
      = .next (s1.modIval r.line r.interval fun i => { i with due := i.due.erase r.holder.toNat }))
    ∧ ((r.kind = .open ∨ (r.kind = .overwrite ∧ r.writer = true)) → role → r.holder.toNat ∉ i.due → exec (.intervalRecord line) s
      = .next (s1.violate ⟨r.line, r.interval, 1, r.holder, i.supplier, i.expect.getD 0, r.hash⟩))
    ∧ ((r.kind = .close ∨ r.kind = .supply ∨ r.kind = .memwrite) → r.interval ≠ r.now → r.interval + 1 ≠ r.now → exec (.intervalRecord line) s
      = .next (s1.violate ⟨r.line, r.interval, 1, r.holder, i.supplier, i.expect.getD 0, r.hash⟩)))
  ∧ (∀ (s : State) (u fid : Nat) (f : Fibre) (h : Sheaf) (sc : Scope) (act : RelAct) (since : Nat) (e : Access) (n : BitVec 32) (i : Ival),
    fid < 4096 → s.fib? ⟨u, fid⟩ = some f → f.cond = .held (.release sc act since) → s.sheaf? u = some h → h.saved = false →
    ((∀ e ∈ s.log, e.key = f.key → s.entryCleared e = true ∨ s.time < max since e.since + 10000) →
      (∀ w ∈ s.owed, w.key = f.key → s.ivalCleared w.line w.interval = true ∨ s.time < max since w.since + 10000) →
      exec (.clearanceTimeout u fid) s = .next s)
    ∧ (s.log.find? (fun e => e.key == f.key && !s.entryCleared e && decide (max since e.since + 10000 ≤ s.time)) = some e → e.interval = some n →
        s.ival? e.line n = some i → i.violated = none → exec (.clearanceTimeout u fid) s
          = .next (s.violate ⟨e.line, n, 6, BitVec.ofNat 16 (i.due.headD 0), i.supplier, 0, 0⟩)))
  ∧ (∀ (s : State) (id t line : Nat) (n : BitVec 32) (c : Cmd) (i : Ival), s.cmd? id = some c → c.since = some t →
    c.ivs.find? (fun i => !s.ivalCleared i.1 i.2) = some (line, n) → s.ival? line n = some i → i.violated = none →
    (s.time < t + 10000 → exec (.clearanceTimeout id 4096) s = .next s)
    ∧ (t + 10000 ≤ s.time → exec (.clearanceTimeout id 4096) s
        = .next (s.violate ⟨line, n, 6, BitVec.ofNat 16 (i.due.headD 0), i.supplier, 0, 0⟩)))
  ∧ ∀ (s : State) (core : Nat) (e : Access), s.log = [e] → e.core = core → e.settled = true → e.checked = false →
    Gives (.reorderCheck core) s fun t => MemKept s t ∧ t.fibres = s.fibres
      ∧ t.log = (if e.metAt .sys = true then [] else [{ e with checked := true }])
      ∧ ∀ n, e.metAt .sys = true → e.interval = some n → s.ivalCleared e.line n = false →
          ∃ w ∈ t.owed, w.key = e.key ∧ w.line = e.line ∧ w.interval = n

/-- R214, R284, R318, R324–R328, R330: a corrected error in a trial window joins the margin list; outside one, the first
occurrence of a key is logged and remembered in the current filter, a repeat is counted; filters age by the day, trial windows
lower a domain by a notch, keys expire. An uncorrectable error makes a cache refetch, a register's reader trap, any other line,
or unit of a scratchpad, poison, which wakes the fibres armed on the line (R214); a cache or stack die out of service requests a
replacement. How many margin keys are kept (log 65), what poison of a scratchpad unit is (log 75) and what takes a stack or cache die out
of service (log 79) are the model's choice. The event of the weight store's refresh changes nothing, since it goes by sr.time. -/
def Obligations.MonitorsCountErrors : Prop :=
  (∀ (s : State) (n : Nat) (key : Dword) (dom : Option Nat) (m : Monitor13), s.mon? n = some m →
    let trial : Prop := ∃ j d, dom = some j ∧ m.domains[j]? = some d ∧ ∃ t, d.trial = some t ∧ s.time < t + 250000000
    (trial → ∀ j, dom = some j →
      Gives (.correctedError n key dom) s fun t => (∃ x, t.mon? n = some x ∧ (key, s.time, j) ∈ x.margin ∧ (m.margin.length ≤ 64 → x.margin.length ≤ 64)) ∧ MemKept s t)
    ∧ (¬ trial → (∀ x ∈ m.margin, x.1 = key → x.2.1 + 86400000000000 ≤ s.time
          ∨ ∀ d t, m.domains[x.2.2]? = some d → d.frozeAt = some t → t < x.2.1) → inFilter m.filterA key = false → inFilter m.filterB key = false →
        Gives (.correctedError n key dom) s fun t => (∃ x, t.mon? n = some x ∧ inFilter (if m.current then x.filterB else x.filterA) key = true)
          ∧ ErrRec.first n key ∈ t.chk.errlog ∧ MemKept s t)
    ∧ (¬ trial → (inFilter m.filterA key = true ∨ inFilter m.filterB key = true
          ∨ ∃ x ∈ m.margin, x.1 = key ∧ s.time < x.2.1 + 86400000000000 ∧ ∃ d t, m.domains[x.2.2]? = some d ∧ d.frozeAt = some t ∧ x.2.1 ≤ t) → m.repeats = [] → 0 < m.repMax → 
        Gives (.correctedError n key dom) s fun t => (∃ x, t.mon? n = some x ∧ x.repeats = [(key, 1)]) ∧ MemKept s t)
    ∧ (m.lastAge + 1 = s.time / 86400000000000 → Gives (.filterAgeing n) s fun t => ∃ x, t.mon? n = some x ∧ x.current = !m.current
        ∧ (if x.current then x.filterB = [] ∧ x.filterA = m.filterA else x.filterA = [] ∧ x.filterB = m.filterB) ∧ MemKept s t)
    ∧ (m.lastAge + 1 < s.time / 86400000000000 → Gives (.filterAgeing n) s fun t => ∃ x, t.mon? n = some x ∧ x.filterA = [] ∧ x.filterB = []
        ∧ MemKept s t)
    ∧ (∀ j d, m.domains[j]? = some d → n < 8 → m.trialEn = true → m.frozenDom j = false → (∀ t, d.trial = some t → t + 250000000 ≤ s.time) →
        Gives (.marginTrialWindow n j) s fun t => (∃ x, t.mon? n = some x
          ∧ x.domains[j]? = some { d with notches := d.notches + 1, trial := some s.time, errs := [] }) ∧ t = { s with rel := t.rel })
    ∧ Gives (.marginKeyExpiry n key) s fun t => (∃ x, t.mon? n = some x
        ∧ x = { m with margin := m.margin.filter fun y => !(y.1 == key && decide (y.2.1 + 86400000000000 ≤ s.time)) }) ∧ t = { s with rel := t.rel })
  ∧ (∀ (s : State) (core line : Nat), Gives (.uncorrectableError (.cleanCache core line)) s fun t =>
      (∀ r ∈ t.roc, ¬ (r.core = core ∧ r.line = line)) ∧ (∀ r ∈ t.ic, ¬ (r.core = core ∧ r.line = line))
      ∧ (∀ l ∈ t.coh.l2, l.line = line → ∀ x ∈ l.l1, x.core ≠ core) ∧ MemKept s t)
  ∧ (∀ (s : State) (core addr : Nat), Gives (.uncorrectableError (.scratchpad core addr)) s fun t =>
      poisonUnit (scratchKey core addr) ∈ t.coh.poison ∧ t = { s with coh := { s.coh with poison := t.coh.poison } })
  ∧ (∀ (s : State) (c : Nat), 12 ≤ c → c < 32 → Gives (.uncorrectableError (.service c)) s fun t => t.rel.replreq = true ∧ MemKept s t)
  ∧ (∀ (s : State) (line : Nat), Gives (.uncorrectableError (.other line)) s fun t => t.poisoned line = true
      ∧ (∀ l, s.poisoned l = true → t.poisoned l = true)
      ∧ (∀ k f, s.fib? k = some f → t.fib? k = some (if f.armedLine line then f.wake else f))
      ∧ t = { s with fibres := t.fibres, coh := { s.coh with poison := t.coh.poison } })
  ∧ (∀ (s : State) (u fid : Nat) (f : Fibre), s.fib? ⟨u, fid⟩ = some f → ((∃ n, f.cond = .batched n) ∨ f.cond = .unbatched) → s.isPriv f.key = false →
      Gives (.uncorrectableError (.registerFile u fid)) s fun t => (t.coreSt f.core).fenced = true ∧ MemKept s t
        ∧ ∃ g, t.fib? ⟨u, fid⟩ = some g ∧ g.faultCode = 0x0181 ∧ g.faultValid = true ∧ g.cond = .held .trap ∧ g.regs = f.regs)
  ∧ ∀ (s : State) (die : Nat), exec (.weightStoreRefresh die) s = .next s

/-! # Engines and messages -/

namespace Sys2Proof.Claims

/-- The event of a copy-engine command: its kind and the command (R357). -/
def engineEvent (i : Instr) : Option (Nat × Nat) :=
  match i with
  | .linearCopy c => some (1, c)
  | .stridedCopy c => some (2, c)
  | .csrGather c => some (3, c)
  | .multicast c => some (4, c)
  | .reduceCopy c => some (5, c)
  | .decryptCopyIn c => some (6, c)
  | .publish c => some (7, c)
  | .weightStoreLoad c => some (8, c)
  | _ => none

/-- A running command of the event's kind, alone in its number, that has nothing in flight and may go on. -/
def GoesOn (s : State) (kind id : Nat) (c : Cmd) : Prop :=
  s.cmd? id = some c ∧ uKind c.unit = kind ∧ c.recv = false ∧ c.st = .running ∧ c.chunk = [] ∧ c.last = none ∧ s.cmdRuns c = true
    ∧ ∀ d ∈ s.cmds, d.id = id → d = c

end Sys2Proof.Claims

/-- R205, R219, R224, R227, R310, R355–R367: an engine command starts in its turn and forms its chunks; a copy's next chunk holds its
source's bytes at their destinations and is the last one when it reaches the total; a publish exchanges LIVE and SHADOW of its
object once what it covers is performed at its scope, and ends with 0x000C after a shadow command of its queue register that met a
violation, remembered as long as the line is poisoned (the model's choice, log 77); with everything landed and cleared the command ends, and its completion entry, if asked for, is posted with its
status, bytes and tag. -/
def Obligations.EngineCommandsRun : Prop :=
  (∀ i kind id (s : State) (c : Cmd), engineEvent i = some (kind, id) → s.cmd? id = some c →
    ((uKind c.unit ≠ kind ∨ c.recv = true) → exec i s = .next s)
    ∧ (uKind c.unit = kind → c.recv = false → c.st = .queued → c.last = none →
        (s.mayStart c = false → exec i s = .next s)
        ∧ (s.mayStart c = true → exec i s = .next ((s.startCmd c).advanceCmd { c with st := .running }))))
  ∧ (∀ i kind id (s : State) (c : Cmd) src dst rest ps raw places xl line s1, engineEvent i = some (kind, id) → GoesOn s kind id c →
    kind ∈ [1, 2, 4, 5, 8] → c.refs = src :: dst :: rest →
    State.formRuns c src dst (fun b => b) (c.allBanks src) c.nextRuns s = (.ok ps raw places xl line, s1) →
    exec i s = .next (State.modCmd s1.choose.2 id fun d => { d with
      chunk := if kind = 1 ∨ kind = 2 then dealBytes (ps.map fun p => (p.1, p.2.length)) (s1.overlapMix c s1.free places raw ps) else ps
      chunkLen := raw.length, xl, srcLine := line, srcs := places
      last := if c.done + raw.length = uTotal c.unit then some 0 else none }))
  ∧ (∀ (s : State) (c : Cmd) (n : Nat) (src : List (Loc × Nat)) (raw : List Byte) (ps : List (Loc × List Byte)), c.undo = [] →
    (∀ p ∈ src, ∀ i < p.2, ∀ k, s.keyOf (p.1.add i) = some k → runIndex k 0 (s.keyRuns ps) = none) → s.overlapMix c n src raw ps = raw)
  ∧ (∀ i kind id (s : State) (c : Cmd) src dst rest s1, engineEvent i = some (kind, id) → GoesOn s kind id c →
    kind ∈ [1, 2, 4, 5, 8] → c.refs = src :: dst :: rest →
    let formed := State.formRuns c src dst (fun b => b) (c.allBanks src) c.nextRuns s
    (∀ on, formed = (.wait on, s1) → exec i s = .next (State.modCmd s1.choose.2 id fun c => { c with st := .waiting on }))
    ∧ (formed = (.pend, s1) → exec i s = .next s1.choose.2)
    ∧ ∀ code, formed = (.stop code, s1) → exec i s = .next (State.modCmd s1.choose.2 id fun c => { c with last := some code }))
  ∧ (∀ (s : State) (id : Nat) (c : Cmd), GoesOn s 3 id c → exec (.csrGather id) s = .next (s.formCsr c))
  ∧ (∀ (s : State) (id : Nat) (c : Cmd), GoesOn s 6 id c →
    (c.done < uLen c.unit → exec (.decryptCopyIn id) s = .next (s.formDecrypt c))
    ∧ (uLen c.unit ≤ c.done → s.cmdCleared c = true → exec (.decryptCopyIn id) s = .next (s.decryptEnd c))
    ∧ (uLen c.unit ≤ c.done → s.cmdCleared c = false → exec (.decryptCopyIn id) s = .next (s.awaitClear c)))
  ∧ (∀ (s : State) (id : Nat) (c : Cmd) (obj : BitVec 64) (line : Nat) (r : TileRef) (rest : List TileRef), GoesOn s 7 id c → c.refs = r :: rest →
    r.objid = some obj →
    (s.shadowBefore c obj = true → exec (.publish id) s = .next s)
    ∧ (s.shadowBefore c obj = false → s.stainedFor c obj = true → exec (.publish id) s = .next (s.modCmd id fun c => { c with
        last := some 0x000C, ivs := nub c.ivs, since := none }))
    ∧ (s.shadowBefore c obj = false → s.stainedFor c obj = false →
      (s.covered c = false ∨ s.cmdCleared c = false ∨ s.publishSpread c = false) → exec (.publish id) s = .next (s.awaitClear c))
    ∧ (s.shadowBefore c obj = false → s.stainedFor c obj = false → s.covered c = true → s.cmdCleared c = true → s.publishSpread c = true →
      (descLoc (s.objTable c.ctx) obj).line? = some line → s.badLine line = false → s.xlatIdle line id = true → s.lineReady line true false = true →
    let d := ObjDesc.ofNat (s.newestNat (descLoc (s.objTable c.ctx) obj) 64)
    d.gen = obj.toNat / 2 ^ 32 → 1 ≤ d.kind → d.kind ≤ 5 → d.bad = false → d.shadow ≠ 0 →
    let t := ((s.retranslate line).homeWriteLine c.holder false c.dstCls line ((descLoc (s.objTable c.ctx) obj).inLine + 24)
      (leBytes 8 d.shadow ++ leBytes 8 d.live)).countOut c.die line none 16
    exec (.publish id) s = .next (t.modCmd id fun c => { c with
      last := some 0, ivs := nub (c.ivs ++ [(line, (t.dirOf line).interval)]), since := none })))
  ∧ ∀ i kind id (s : State) (c : Cmd) (code : BitVec 16) (h : Sheaf) (r : QueueReg), engineEvent i = some (kind, id) → s.cmd? id = some c →
    uKind c.unit = kind → c.recv = false → c.st = .running → c.chunk = [] → c.last = some code → s.cmdCleared c = true → s.cmdSpread c = true → uBen c.unit = false →
    s.sheaf? c.sheaf = some h → h.queues[c.q]? = some r → r.inHeld = [] → r.inb.length < 64 →
    Gives i s fun t => (∀ d, d ∈ t.cmds ↔ d ∈ s.cmds ∧ d.id ≠ id) ∧ MemKept s t ∧ (∀ p ∈ t.parts, ∀ w ∈ p.wsHold, w.2 ≠ id)
      ∧ (uCq c.unit = false → (t.sheaf? c.sheaf).bind (·.queues[c.q]?) = some r)
      ∧ (uCq c.unit = true → (t.sheaf? c.sheaf).bind (·.queues[c.q]?) = some { r with
          inb := r.inb ++ [(completionEntry kind (uCtag c.unit) code c.bytes c.aux.toNat 0 0).setWidth 512] })

/-- R224, R308, R310, R314, R315, R322, R323, R356, R362, R407: a linear copy's chunk formed for the scratchpad lands as its bytes; a chunk whose hashes
differ is formed anew from its source, and a second mismatch is a violation on the source line of one of the chunk's destination units,
with the hash of that unit as merged, and stops the command (which unit it is, and what the other hash came to, are free values: log 17);
a reduce-copy's chunk is
checked before it is applied, is formed anew where it fails, and stops with 0x000F where it fails again; a destination that
is poisoned, lost or revoked stops it with that status. A chunk lands while its die's links carry data (R407). -/
def Obligations.ChunksLandOrStop : Prop :=
  ∀ (s : State) (id mism : Nat) (c : Cmd), s.cmd? id = some c → c.chunk ≠ [] → c.recv = false → c.noArrival = false → s.dieUp c.die = true →
    let stopped (code : BitVec 16) : State := s.modCmd id fun c => { c with chunk := [], chunkLen := 0, xl := [], last := some code }
    (∀ code, s.destBad c = some code → exec (.engineChunkLanded id mism) s = .next (stopped code))
    ∧ (s.destBad c = none → s.destWants c ≠ [] → exec (.engineChunkLanded id mism) s
        = .next ((s.destWants c).foldl (fun s x => s.wantLine c.die c.dstCls x true) s))
    ∧ (s.destBad c = none → s.destWants c = [] → (∀ l ∈ chunkLines c.chunk, s.xlatLine l.1 = true → s.xlatIdle l.1 id = true) →
      let n := max c.struck mism
      (uKind c.unit ≠ 5 → 2 ≤ n → chunkUnits 0 c.chunk ≠ [] → ∃ u ∈ chunkUnits 0 c.chunk, ∃ line,
        exec (.engineChunkLanded id mism) s = .next ((s.freeBits.2.choose.2.stopChunk c 0x000C).violate
          ⟨line, (s.dirOf line).interval, 7, c.holder, c.holder, lineHash (s.mergedUnit u.2.1 u.2.2), s.freeBits.1⟩)
        ∧ ∀ l : Loc, placeAt (u.1 % ((c.srcs.map (·.2)).foldl (· + ·) 0)) c.srcs = some l → line = l.line?.getD noSource)
      ∧ (∀ s1 d, uKind c.unit ≠ 5 → n = 1 → s.reform c = (s1, some d) → exec (.engineChunkLanded id mism) s
        = .next ((((s1.putChunk d d.holder d.chunk).freeWords d.sheaf d.overlapWords).chunkDone d).chunkCorrected d 1))
      ∧ (∀ u b off bs h, uKind c.unit = 1 → n = 0 → bs.length ≤ 4096 → c.chunk = [(.scratch u b off, bs)] → s.sheaf? u = some h → uBen c.unit = false → MemInv s →
        Gives (.engineChunkLanded id mism) s fun t => t.scratchRead u off bs.length = bs
          ∧ (∀ m : Loc, (∀ n < bs.length, s.keyOf m ≠ s.keyOf (.scratch u h.bank (off + n))) → t.rawRead m 1 = s.rawRead m 1)
          ∧ ∃ d, t.cmd? id = some d ∧ d.done = c.done + c.chunkLen ∧ d.chunk = [] ∧ d.last = c.last ∧ d.st = c.st)
      ∧ (uKind c.unit = 5 →
        let sum (s : State) (c : Cmd) := reduceChunk (uEtype c.unit) (ufield c.unit 3 32 32)
          (c.chunk.flatMap fun p => s.holds p.1 p.2.length) (c.chunk.flatMap (·.2))
        let put (s : State) (c : Cmd) := (s.putChunk c c.holder (dealBytes (c.chunk.map fun p => (p.1, p.2.length)) (sum s c).1)).chunkDone c
        (n = 0 → (sum s c).2 = true → exec (.engineChunkLanded id mism) s = .next (put s c))
        ∧ ∀ s1 d, (n ≠ 0 ∨ (sum s c).2 = false) → s.reform c = (s1, some d) →
          ((2 ≤ n ∨ (sum s1 d).2 = false) → exec (.engineChunkLanded id mism) s
            = .next ((s1.stopChunk d 0x000F).modCmd d.id fun x => { x with aux := BitVec.ofNat 64 (d.done / 4096) }))
          ∧ (n < 2 → (sum s1 d).2 = true → exec (.engineChunkLanded id mism) s = .next ((put s1 d).chunkCorrected d 1))))

/-- R226, R368–R375: a posting takes the first unexpected message that matches or joins the list, a message the first posting that
matches or the unexpected queue, while there is room and its context runs; a send's message goes to its endpoint's matching unit; a cancel completes
the sheaf's one posting of its tag; a report ends an eager send; a pull reads the payload; a landed message completes its posting,
truncated where the buffer was shorter. A context without a receive area keeps nothing of its unexpected queue in memory (log 31), and
the 4 MiB of a receive area hold open bytes (log 78): both are the model's choice. -/
def Obligations.MessagesAreMatchedAndLanded : Prop :=
  (∀ (s : State) (id : Nat) (c : Cmd), s.cmd? id = some c → s.recvHead c 0x10 = true →
    ((∀ x ∈ s.recv.unexpected, x.1 = c.ctx → (postingOf c).matches x.2 = false) → s.postsFull c.ctx = true → exec (.postReceive id) s = .next s)
    ∧ ((∀ x ∈ s.recv.unexpected, x.1 = c.ctx → (postingOf c).matches x.2 = false) → s.postsFull c.ctx = false → Gives (.postReceive id) s fun t =>
      t.recv.postings = s.recv.postings ++ [postingOf c] ∧ t.cmd? id = some { c with st := .running } ∧ MemKept s t)
    ∧ ∀ m, s.recv.unexpected.find? (fun x => x.1 == c.ctx && (postingOf c).matches x.2) = some (c.ctx, m) →
        (m.eager = true ∨ m.sendCmd.isSome = true) →
        Gives (.postReceive id) s fun t => t.recv.landing = s.recv.landing ++ [(id, m, m.eager)]
          ∧ t.recv.unexpected = s.recv.unexpected.erase (c.ctx, m) ∧ t.cmd? id = some { c with st := .running, msg := some m.id } ∧ MemKept s t
          ∧ ∀ sc, m.eager = false → m.sendCmd = some sc → t.recv.pulls = s.recv.pulls ++ [(sc, min m.len (uLen c.unit), s.fab.self.toNat, m.mtag, m.dst)])
  ∧ (∀ (s : State) (x : Nat) (c : Ctx) (m : Msg) (sc : Nat), s.recv.arriving.find? (·.1 == x) = some (x, m) → s.ctx? x = some c →
    m.sendCmd = some sc → m.eager = true →
    (∀ p d, c.frozen = false → s.recv.postings.find? (fun p => p.ctx == x && p.matches m) = some p → s.cmd? p.cmd = some d →
      Gives (.messageArrival x) s fun t => t.recv.landing = s.recv.landing ++ [(p.cmd, m, true)]
        ∧ t.recv.postings = s.recv.postings.filter (·.cmd != p.cmd) ∧ t.recv.reports = s.recv.reports ++ [(sc, 0)]
        ∧ t.recv.arriving = s.recv.arriving.erase (x, m) ∧ MemKept s t)
    ∧ ((c.frozen = true ∨ ∀ p ∈ s.recv.postings, p.ctx = x → p.matches m = false) → Gives (.messageArrival x) s fun t =>
        t.recv.arriving = s.recv.arriving.erase (x, m) ∧ t.recv.postings = s.recv.postings
        ∧ ((c.recvBase = 0 ∨ s.unexpectedRoom x m = false) → MemKept s t)
        ∧ (s.coh.l2 = [] → s.coh.llc = [] → ∀ l : Loc, (∀ d, l ≠ .dev d) → t.rawRead l 1 = s.rawRead l 1)
        ∧ (∀ d, s.coh.l2 = [] → s.coh.llc = [] → (∀ a ∈ s.areas, a.base = c.recvBase → a.size = 4 * 2 ^ 20) → ¬ (c.recvBase ≤ d ∧ d < c.recvBase + 4 * 2 ^ 20) →
            t.rawRead (.dev d) 1 = s.rawRead (.dev d) 1)
        ∧ (s.unexpectedRoom x m = true → t.recv.unexpected = s.recv.unexpected ++ [(x, m)] ∧ t.recv.reports = s.recv.reports ++ [(sc, 0)])
        ∧ (s.unexpectedRoom x m = false → t.recv.unexpected = s.recv.unexpected ∧ t.recv.reports = s.recv.reports ++ [(sc, 0x0011)])))
  ∧ (∀ (s : State) (id : Nat) (c : Cmd) (src : BitVec 24) (x : Nat) (y : Ctx), s.cmd? id = some c → s.recvHead c 0x11 = true → s.sendBefore c false = false →
    s.sendTags.length < 2 ^ 16 → s.endpointOf c.ctx = some src → s.endpointAt (sendDest c) = some (s.fab.self.toNat, x) → s.ctx? x = some y → 8192 < uLen c.unit →
    Gives (.send id) s fun t => ∃ m : Msg, t.recv.arriving = s.recv.arriving ++ [(x, m)] ∧ m.src = src ∧ m.dst = sendDest c ∧ m.len = uLen c.unit
      ∧ m.eager = false ∧ m.sendCmd = some id ∧ t.cmd? id = some { c with st := .running, msg := some m.mtag.toNat } ∧ MemKept s t)
  ∧ (∀ (s : State) (id : Nat) (c : Cmd), s.cmd? id = some c → s.recvHead c 0x12 = true → (∀ d ∈ s.cmds, d.sheaf = c.sheaf → uCtag d.unit = uCtag c.unit →
      ∀ p ∈ s.recv.postings, p.cmd ≠ d.id) → exec (.cancelReceives id) s = .next (s.endRecv c 0 0 0 0 0))
  ∧ (∀ (s : State) (id : Nat) (c d : Cmd) (p : Posting), s.cmds = [d, c] → s.cmd? id = some c → s.recvHead c 0x12 = true → d.id ≠ id → d.sheaf = c.sheaf →
      uCtag d.unit = uCtag c.unit → p ∈ s.recv.postings → p.cmd = d.id → (∀ q ∈ s.recv.postings, q.cmd ≠ id) →
      exec (.cancelReceives id) s = .next ((s.endRecv d 0x0009 0 0 0 0).endRecv c 0 0 0 0 0))
  ∧ (∀ (s : State) (id : Nat) (c : Cmd) (st : BitVec 16), s.recv.reports.find? (·.1 == id) = some (id, st) → s.cmd? id = some c →
    let s1 : State := { s with recv := { s.recv with reports := s.recv.reports.erase (id, st) } }
    ((uLen c.unit ≤ 8192 ∨ st ≠ 0) → exec (.placementReport id) s = .next (s1.endRecv c st 0 0 0 0))
    ∧ (8192 < uLen c.unit → st = 0 → exec (.placementReport id) s = .next (s1.modCmd id fun c => { c with st := .landing })))
  ∧ (∀ (s : State) (id n : Nat) (tag : BitVec 16 × BitVec 24) (c : Cmd) (src : TileRef) (rest : List TileRef) bs places xl line s1,
    s.recv.pulls.find? (·.1 == id) = some (id, n, s.fab.self.toNat, tag) → s.cmd? id = some c → s.ctxFrozen c.ctx = false → c.refs = src :: rest →
    s.readSource c src 0 n (decide (62 * 4096 < n)) = (.ok [] bs places xl line, s1) →
    exec (.pullRequest id) s = .next ((({ s1 with recv := { s1.recv with pulls := s1.recv.pulls.erase (id, n, s.fab.self.toNat, tag) } }).sendPulled
      s.fab.self.toNat tag (some (bs, places))).endSend id 0))
  ∧ ∀ (s : State) (msg id : Nat) (m : Msg) (whole : Bool) (c : Cmd), s.recv.landing.find? (fun l => l.2.1.id == msg) = some (id, m, whole) →
    s.cmd? id = some c → s.landingTurn c = true →
    (∀ code, c.last = some code → s.cmdCleared c = true → s.cmdSpread c = true →
      exec (.messageLanding msg) s = .next (s.endRecv c (if code = 0 ∧ uLen c.unit < m.len then 0x0006 else code) c.done m.len m.src.toNat m.tag.toNat))
    ∧ (c.last = none → whole = true → s.ctxFrozen c.ctx = false → c.st = .running → s.dieUp c.die = true → min m.len (uLen c.unit) = 0 →
      exec (.messageLanding msg) s = .next (s.endRecv c (if uLen c.unit < m.len then 0x0006 else 0) c.done m.len m.src.toNat m.tag.toNat))
    ∧ ∀ off rest h u, c.last = none → whole = true → s.ctxFrozen c.ctx = false → c.st = .running → s.dieUp c.die = true → 0 < min m.len (uLen c.unit) - c.done →
      c.refs = .scratch off :: rest → s.cmdTargets c = [u] → s.sheaf? u = some h → MemInv s → uBen c.unit = false → uKind c.unit = 0x10 → c.struck < 2 →
      let bs := (m.payload.drop c.done).take (min 4096 (min m.len (uLen c.unit) - c.done))
      Gives (.messageLanding msg) s fun t => t.scratchRead u (off + c.done) bs.length = bs
        ∧ ∃ d, t.cmd? id = some d ∧ d.done = c.done + bs.length ∧ d.chunk = []

/-! # Fabric -/

namespace Sys2Proof.Claims

/-- A packet whose fields lie in their ranges (R378): its payload is of whole 16-byte units, at most 8, and ADDR uses
the bits its operation gives it. -/
def PacketProper (p : Packet) : Prop :=
  1 ≤ p.op.toNat ∧ p.op.toNat ≤ 0x0F ∧ p.cls.toNat ≤ 2 ∧ p.payload.length % 16 = 0 ∧ p.payload.length ≤ 128
    ∧ p.addr.toNat < 2 ^ addrBits p.op.toNat

/-- Header fields of a flit (R377). -/
def flitType (b : List Byte) : Nat := leNat (b.take 4) / 2 ^ 28
def flitSeq (b : List Byte) : BitVec 12 := BitVec.ofNat 12 (leNat (b.take 4) / 2 ^ 16)
def flitAck (b : List Byte) : BitVec 12 := BitVec.ofNat 12 (leNat (b.take 4) / 2 ^ 4)

end Sys2Proof.Claims

/-- R377–R380, R376: a flit that cannot be corrected or fails its CRC is discarded and replay is asked for from the flit expected; a
payload flit in order is taken, its FACK recorded and its packet received; one ahead is asked for again once, one behind changes
nothing more. Each corrected symbol is reported to the monitor. A copy of a packet delivered before is discarded: a critical one, the chaff
copy, is only counted, any other is acknowledged anew; a copy of one held for its turn changes nothing. An acknowledgement takes
packets up to its number off the sender's list. A retry request has the kept flits from its number on sent again, the 17th in a
row for one flit takes the link down. A link that goes down keeps no flits, and a fabric number it alone reached is lost. How
flits are packed, and that copies of other packets are acknowledged anew, is the model's convention (log 14). -/
def Sys2Proof.Claims.FlitsPacketsAndLinks : Prop :=
  (∀ (s : State) (port : Nat) (flit : List Byte) (q : Port), s.fab.ports[port]? = some q → q.up = true → flit.length = 256 →
    (fecCorrect flit = none → exec (.flitReceive port flit) s = .next (s.askReplay port))
    ∧ s.flitCorrected port flit flit = s
    ∧ ∀ b, fecCorrect flit = some b →
      let s0 := s.flitCorrected port flit b
      (Config.crc64 (b.take 240) ≠ BitVec.ofNat 64 (leNat ((b.drop 240).take 8)) → exec (.flitReceive port flit) s = .next (s0.askReplay port))
      ∧ (Config.crc64 (b.take 240) = BitVec.ofNat 64 (leNat ((b.drop 240).take 8)) →
        let s1 := s0.modPort port fun p => { p with facked := flitAck b }
        (flitType b ∈ [0, 2] → exec (.flitReceive port flit) s = .next s1)
        ∧ (4 ≤ flitType b → exec (.flitReceive port flit) s = .next (s0.modPort port fun p => { p with errors := p.errors + 1 }))
        ∧ (flitType b = 3 → exec (.flitReceive port flit) s = exec (.retryRequest port (flitSeq b)) s1)
        ∧ (flitType b = 1 → 0 < (flitSeq b - q.rxNext).toNat → (flitSeq b - q.rxNext).toNat < 2048 → q.retryAsked = false →
            exec (.flitReceive port flit) s = .next (s1.askReplay port))
        ∧ (flitType b = 1 → (q.retryAsked = true ∧ flitSeq b ≠ q.rxNext ∨ 2048 ≤ (flitSeq b - q.rxNext).toNat) →
            exec (.flitReceive port flit) s = .next s1)
        ∧ ∀ p : Packet, flitType b = 1 → flitSeq b = q.rxNext → q.stream = [] → PacketProper p → p.dst = s.fab.self →
            (b.drop 4).take 236 = p.bytes ++ List.replicate (236 - p.bytes.length) 0 →
            exec (.flitReceive port flit) s
              = .next ((s0.modPort port fun o => { o with facked := flitAck b, rxNext := o.rxNext + 1, retryAsked := false }).takePacket port p)))
  ∧ (∀ (s : State) (port : Nat) (p : Packet), p.op ≠ 0x0D →
    (2 ^ 15 ≤ (p.dseq - (s.rxCtx p).rxNext).toNat →
      (p.cls = 0 → s.takePacket port p = s.modPort port fun q => { q with chaff := q.chaff + 1 })
      ∧ (p.cls ≠ 0 → s.takePacket port p = s.sendAck p))
    ∧ ((p.dseq - (s.rxCtx p).rxNext).toNat < 2 ^ 15 → (∃ e ∈ (s.rxCtx p).early, e.dseq = p.dseq) → s.takePacket port p = s))
  ∧ (∀ (s : State) (port : Nat) (fseq : BitVec 12) (q : Port), s.fab.ports[port]? = some q → q.replay.length ≤ 256 →
    let n := if q.failSeq = fseq then q.fails + 1 else 1
    let again := nub (q.replay.filter fun f => flitType f.2 == 1 && (f.1 - fseq).toNat < 2048)
    (16 < n → exec (.retryRequest port fseq) s = exec (.linkDown port) s)
    ∧ (n ≤ 16 → Gives (.retryRequest port fseq) s fun t => ∃ old,
        t.fab.ports[port]? = some { q.queue s.time (256 * again.length) with failSeq := fseq, fails := n, replay := old ++ again }
        ∧ (∀ j, j ≠ port → t.fab.ports[j]? = s.fab.ports[j]?) ∧ t = { s with fab := { s.fab with ports := t.fab.ports } }))
  ∧ (∀ (s : State) (port : Nat) (q : Port), s.fab.ports[port]? = some q →
    let s1 := s.modPort port fun p => { p with up := false, replay := [], stream := [], fails := 0, retryAsked := false }
    (q.up = false → exec (.linkDown port) s = .next s)
    ∧ (q.up = true → (∀ d ∈ s.fab.dctxs, d.tx = true → ∀ u ∈ d.unacked, port ∉ u.2.2.2) →
      ((∀ r ∈ s.fab.routes, r.2.getLsbD port = true → s.routePorts r.1.toNat ≠ [port] ∧ s.routePorts r.1.toNat ≠ []) →
        exec (.linkDown port) s = .next s1)
      ∧ ∀ r, s.fab.routes = [r] → s.routePorts r.1.toNat = [port] → exec (.linkDown port) s = .next ((s1.losePackage r.1.toNat).loseNode r.1.toNat)))
  ∧ (∀ (s : State) (fn cls : Nat) (num : BitVec 12) (dseq : BitVec 16), Gives (.deliveryAcknowledgement fn cls num dseq) s fun t =>
    (∀ i : Nat, t.fab.dctxs[i]? = (s.fab.dctxs[i]?).map fun d =>
      if d.tx = true ∧ d.fn = fn ∧ d.cls = cls ∧ d.num = num then
        { d with unacked := d.unacked.filter fun u => 2 ^ 15 ≤ (dseq - u.1.dseq).toNat } else d)
    ∧ t = { s with fab := { s.fab with dctxs := t.fab.dctxs } })

/-- R379, R380, R384–R386: the oldest packet of a pair and class unacknowledged for 4 µs is sent again by another port; after eight
retransmissions its destination is unreachable and lost; a context with nothing unacknowledged and nothing sent for 20 µs is torn down, and
a burst that waited for one goes on. A lost node, a lost or revoked range, and a lost package discard the copies of their lines and keep
memory; dirty copies get an error record; what was asked of a node before a revocation is still to be answered. A lost package's orphans
are marked, its delivery contexts go and every cached extent that names it; it is no reader any more, and no write waits for its
acknowledgement. -/
def Sys2Proof.Claims.RetransmissionTeardownAndLoss : Prop :=
  (∀ (s : State) (fn cls : Nat) (d : DCtx) (p : Packet) (sent tries : Nat) (last : List Nat)
    (rest : List (Packet × Nat × Nat × List Nat)), s.txCtx fn cls = some d → d.unacked = (p, sent, tries, last) :: rest →
    ((∀ u ∈ d.unacked, s.time < u.2.1 + 4000) → exec (.retransmitTimeout fn cls) s = .next s)
    ∧ (sent + 4000 ≤ s.time → 8 ≤ tries → exec (.retransmitTimeout fn cls) s
        = .next ((State.losePackage { s with fab := { s.fab with unreachable := nub (s.fab.unreachable ++ [fn]) } } fn).loseNode fn))
    ∧ ∀ other o, sent + 4000 ≤ s.time → tries < 8 → cls ≠ 0 → other ∈ s.routePorts fn → other ∉ last →
        (∀ i ∈ s.routePorts fn, i ∉ last → other ≤ i) → s.fab.ports[other]? = some o → (∀ u ∈ rest, u.1.dseq ≠ p.dseq) →
      Gives (.retransmitTimeout fn cls) s fun t =>
        t.txCtx fn cls = some { d with unacked := (p, s.time, tries + 1, [other]) :: rest, lastSent := s.time, ports := [other] }
        ∧ t.fab.ports[other]? = some (o.send s.time 1 p.bytes) ∧ (∀ j, j ≠ other → t.fab.ports[j]? = s.fab.ports[j]?)
        ∧ t = { s with fab := { s.fab with ports := t.fab.ports, dctxs := t.fab.dctxs } })
  ∧ (∀ (s : State) (fn cls : Nat),
    let idle (d : DCtx) : Bool := d.fn == fn && d.cls == cls && d.unacked == [] && d.early == [] && d.lastSent + 20000 ≤ s.time
    let s1 : State := { s with fab := { s.fab with dctxs := s.fab.dctxs.filter fun d => !idle d, waitq := [] } }
    ((∀ d ∈ s.fab.dctxs, idle d = false) → exec (.contextTeardown fn cls) s = .next s)
    ∧ ((∃ d ∈ s.fab.dctxs, idle d = true) →
        (s.fab.waitq = [] → exec (.contextTeardown fn cls) s = .next s1)
        ∧ ∀ p, s.fab.waitq = [p] → exec (.contextTeardown fn cls) s = .next (s1.sendPacket p)))
  ∧ (∀ (s : State) (fn : Nat), Gives (.lossNotice (.node fn)) s fun t => fn ∈ t.coh.lostNodes ∧ MemKept s t
    ∧ (∀ l ∈ t.coh.l2, homedAt 2 fn l.line = false) ∧ (∀ l ∈ t.coh.llc, homedAt 2 fn l.line = false)
    ∧ (∀ l, homedAt 2 fn l.line = false → (l ∈ t.coh.l2 ↔ l ∈ s.coh.l2)) ∧ (∀ l, homedAt 2 fn l.line = false → (l ∈ t.coh.llc ↔ l ∈ s.coh.llc))
    ∧ (∀ l ∈ s.coh.llc, homedAt 2 fn l.line = true → l.dirty = true → ErrRec.lostLine l.line ∈ t.chk.errlog))
  ∧ (∀ (s : State) (fn lo hi : Nat), Gives (.lossNotice (.range fn lo hi)) s fun t => (fn, lo, hi) ∈ t.coh.lostRanges ∧ MemKept s t
    ∧ (∀ l ∈ t.coh.l2, inRange fn lo hi l.line = false) ∧ (∀ l ∈ t.coh.llc, inRange fn lo hi l.line = false)
    ∧ (∀ l ∈ s.coh.llc, inRange fn lo hi l.line = true → l.dirty = true → ErrRec.lostLine l.line ∈ t.chk.errlog))
  ∧ (∀ (s : State) (fn lo hi : Nat), Gives (.revocationNotice fn lo hi) s fun t => (fn, lo, hi) ∈ t.coh.revoked
    ∧ (∀ l ∈ t.coh.l2, inRange fn lo hi l.line = false) ∧ (∀ l ∈ t.coh.llc, inRange fn lo hi l.line = false)
    ∧ (∀ line, inRange fn lo hi line = true → t.revokedLine line = true)
    ∧ ((∀ f ∈ s.coh.fetches, inRange fn lo hi f.line = true → f.answer = none) →
        MemKept s t ∧ ∀ f ∈ s.coh.fetches, f.op ≠ 4 → f.used = none → f.answer = none → f ∈ t.coh.fetches))
  ∧ ∀ (s : State) (fn : Nat), (∀ r ∈ s.coh.remote, r.1 ≠ fn) → s.cmds = [] → s.recv.landing = [] → s.coh.pend = [] →
    Gives (.lossNotice (.package fn)) s fun t => fn ∈ t.coh.orphans ∧ fn ∈ t.fab.lostPkgs ∧ (∀ x ∈ t.xc, x ∈ s.xc ∧ s.namesPeer fn x = false) ∧ MemKept s t
      ∧ (∀ r ∈ t.coh.remSh, r.1 ≠ fn)
      ∧ (∀ r ∈ s.coh.remSh, r.1 = fn → (∀ o ∈ s.coh.remSh, o.2.1 = r.2.1 → o.1 = fn) →
          ∀ e ∈ t.log, e.line = r.2.1 → e.atPkg.isSome = true → e.atSys.isSome = true)
      ∧ (∀ d ∈ t.fab.dctxs, d.fn ≠ fn) ∧ (∀ l ∈ t.coh.l2, homedAt 1 fn l.line = false) ∧ (∀ l ∈ t.coh.llc, homedAt 1 fn l.line = false)
      ∧ (∀ l ∈ s.coh.llc, homedAt 1 fn l.line = true → l.dirty = true → ErrRec.lostLine l.line ∈ t.chk.errlog)

/-- R376–R380, R384–R386: flits, packets, links, delivery contexts, loss and revocation. -/
def Obligations.FabricTraffic : Prop := Claims.FlitsPacketsAndLinks ∧ Claims.RetransmissionTeardownAndLoss

/-! # Host translations -/

/-- R292–R295, R298: a completion that grants the access needed is cached, the least recently used of 4,096 making room; one that does not
starts a Page Request, sent as far as the host's allocation allows, which PRIREQ counts. An answer that matches no Page Request, or no context's
generation, is discarded and counted; a success asks for the translation again for the contexts still there, which ATSREQ counts; a failure
raises the translation-fault trap in a fibre that the access holds. An invalidation removes every cached translation that overlaps its range
and completes once nothing issued uses one of them. -/
def Obligations.HostTranslationsComeAndGo : Prop :=
  (∀ (s : State) (pasid iova : Nat) (grant : Option AtsGrant) (p : PageReq),
    ((∀ q ∈ s.host.ats, q.pasid = pasid → q.page ≠ iova / 4096) → exec (.atsTranslationCompletion pasid iova grant) s = .next s)
    ∧ (s.host.ats.find? (fun q => q.pasid == pasid && q.page == iova / 4096) = some p →
      (∀ g, grant = some g → g.base ≤ p.page * 4096 → p.page * 4096 < g.base + g.size → (p.wr = true → g.write = true) → (p.wr = false → g.read = true) →
        exec (.atsTranslationCompletion pasid iova grant) s = .next { s with host := { s.host with
          ats := s.host.ats.erase p
          atc := (if s.host.atc.length < 4096 then s.host.atc else s.host.atc.drop 1)
            ++ [⟨pasid, g.base, g.size, g.host, g.read, g.write⟩] } })
      ∧ ((∀ g, grant = some g → ¬(g.base ≤ p.page * 4096 ∧ p.page * 4096 < g.base + g.size ∧ (if p.wr then g.write else g.read) = true)) →
        (∀ q ∈ s.host.pri, q.sent = true) →
        (s.host.pri.length < Config.priAllocation → exec (.atsTranslationCompletion pasid iova grant) s = .next { s with
          host := { s.host with ats := s.host.ats.erase p, pri := s.host.pri ++ [{ p with sent := true }] }
          coh := { s.coh with prireq := (s.coh.prireq + 1) % 2 ^ 64 } })
        ∧ (Config.priAllocation ≤ s.host.pri.length → exec (.atsTranslationCompletion pasid iova grant) s = .next { s with
          host := { s.host with ats := s.host.ats.erase p, pri := s.host.pri ++ [{ p with sent := false }] } }))))
  ∧ (∀ (s : State) (pasid iova : Nat) (success : Bool),
    let discarded : Coh := { s.coh with pridisc := (s.coh.pridisc + 1) % 2 ^ 64 }
    ((∀ q ∈ s.host.pri, q.sent = true → q.pasid = pasid → q.page ≠ iova / 4096) →
      exec (.pageRequestResponse pasid iova success) s = .next { s with coh := discarded })
    ∧ ∀ p, s.host.pri.find? (fun q => q.sent && q.pasid == pasid && q.page == iova / 4096) = some p → (∀ q ∈ s.host.pri, q.sent = true) →
      ((∀ w ∈ p.waiters, ∀ c, s.ctx? w.1 = some c → c.gen ≠ w.2) → exec (.pageRequestResponse pasid iova success) s
        = .next { s with coh := discarded, host := { s.host with pri := s.host.pri.erase p } })
      ∧ (p.waiters ≠ [] → (∀ w ∈ p.waiters, ∃ c, s.ctx? w.1 = some c ∧ c.gen = w.2) →
        (success = true → exec (.pageRequestResponse pasid iova success) s = .next { s with
          host := { s.host with pri := s.host.pri.erase p, ats := s.host.ats ++ [p] }
          coh := { s.coh with atsreq := (s.coh.atsreq + 1) % 2 ^ 64 } })
        ∧ ∀ f cap, success = false → s.fibres = [f] → f.cond = .waiting (.fault (.page pasid p.page) cap) → s.ctxOf f.key ∈ p.waiters.map (·.1) →
          s.ops = [] → s.side = [] → s.matq = [] → s.cmds = [] → s.recv.pulls = [] → (∀ c ∈ s.ctxs, c.mail1.h2d = []) →
          exec (.pageRequestResponse pasid iova success) s = .next ((s.takeTrap f.key (.cap cTransl cap) f.pc).modHost fun h => { h with
            pri := h.pri.filter fun q => !(q.pasid == pasid && q.page == p.page) })))
  ∧ (∀ (s : State) (pasid iova size : Nat),
    let overlaps (a : Atc) : Prop := a.pasid = pasid ∧ a.base < iova + size ∧ iova < a.base + a.size
    let uses (l : Loc) : Prop := ∃ x a, l = .hostPa x ∧ a ∈ s.host.atc ∧ overlaps a ∧ a.host ≤ x ∧ x < a.host + a.size
    (∀ o ∈ s.ops, uses o.loc → o.released = true) → Gives (.atsInvalidationRequest pasid iova size) s fun t =>
      (∀ a, a ∈ t.host.atc ↔ a ∈ s.host.atc ∧ ¬overlaps a)
      ∧ (∃ users, t.host.invals = s.host.invals ++ [(pasid, iova, size, users)]
        ∧ ∀ id, id ∈ users ↔ (∃ o ∈ s.ops, o.id = id ∧ uses o.loc) ∨ ∃ c ∈ s.cmds, c.id = id ∧ ∃ x ∈ c.chunk, uses x.1)
      ∧ t = { s with host := { s.host with atc := t.host.atc, invals := t.host.invals } })
  ∧ ∀ (s : State) (v : Nat × Nat × Nat × List Nat) (rest : List (Nat × Nat × Nat × List Nat)), s.host.invals = v :: rest →
    ((∀ id ∈ v.2.2.2, (∀ o ∈ s.ops, o.id ≠ id) ∧ ∀ c ∈ s.cmds, c.id = id → c.chunk = []) → exec .invalidationCompletion s
      = .next { s with host := { s.host with invals := rest, invalDone := s.host.invalDone + 1 } })
    ∧ (rest = [] → (∃ id ∈ v.2.2.2, (∃ o ∈ s.ops, o.id = id) ∨ ∃ c ∈ s.cmds, c.id = id ∧ c.chunk ≠ []) →
      exec .invalidationCompletion s = .next s)

/-! # Host accesses -/

namespace Sys2Proof.Claims

/-- A request of a host function is neither late nor rejected, at a port that is trained (R388, R390). -/
def Accepted (s : State) (r : ReqId) : Prop := s.portUp r.port = true ∧ s.reach r = .ok
/-- A request arrives late, at a port that is trained. -/
def Late (s : State) (r : ReqId) : Prop := s.portUp r.port = true ∧ s.isLate r.port r.fn = true
/-- A request is rejected by the state of its function's TDI. -/
def Rejected (s : State) (r : ReqId) : Prop := s.portUp r.port = true ∧ s.reach r = .rejected
/-- A request arrives after a quarantine outside the compute dies, at a port that is trained (R409). -/
def Refused (s : State) (r : ReqId) : Prop := s.portUp r.port = true ∧ s.isLate r.port r.fn = false ∧ s.crippled = true

end Sys2Proof.Claims

/-- R266, R279, R387, R388, R390, R401, R409: a host write, read or AtomicOp that is accepted is served at the home, and answered with what
was read; one of a frozen function or a port whose lease has expired is counted as late, and completed with Completer Abort where it is not
posted; one that the TDI's state rejects (log 38), or that reaches memory of a locked partition through another function, is remembered, and
completed with Unsupported Request; a port not trained brings nothing, and after a quarantine outside the compute dies none is accepted
(log 56). An AtomicOp of another size or not aligned is an Unsupported Request, and a read of poisoned data or of an address that nothing
backs is completed with data marked poisoned (log 57). An access waits for earlier requests to its lines, and a write to a line through which
an issued access was translated waits for that (R289). -/
def Obligations.HostAccessesAreServed : Prop :=
  (∀ (s : State) (r : ReqId) (dpa : BitVec 42) (data : List Byte) (n : Nat) (op : PcieAtomic) (x y : Dword),
    let i1 : Instr := .hostWrite r dpa data
    let i2 : Instr := .hostRead r dpa n
    let i3 : Instr := .hostAtomicop r op dpa n x y
    (s.portUp r.port = false → exec i1 s = .next s ∧ exec i2 s = .next s ∧ exec i3 s = .next s)
    ∧ (Late s r → exec i1 s = .next (s.countLate r.port) ∧ exec i2 s = .next ((s.countLate r.port).hostReply .aborted)
        ∧ exec i3 s = .next ((s.countLate r.port).hostReply .aborted))
    ∧ (Rejected s r → exec i1 s = .next (s.countRejected r.port r.fn) ∧ exec i2 s = .next ((s.countRejected r.port r.fn).hostReply .unsupported)
        ∧ exec i3 s = .next ((s.countRejected r.port r.fn).hostReply .unsupported))
    ∧ (Refused s r → exec i1 s = .next s ∧ exec i2 s = .next (s.hostReply .unsupported) ∧ exec i3 s = .next (s.hostReply .unsupported))
    ∧ (Accepted s r → s.barred r dpa.toNat data.length = true → exec i1 s = .next (s.countRejected r.port r.fn))
    ∧ (Accepted s r → s.barred r dpa.toNat n = true → exec i2 s = .next ((s.countRejected r.port r.fn).hostReply .unsupported)
        ∧ ((n = 4 ∨ n = 8) → dpa.toNat % n = 0 → exec i3 s = .next ((s.countRejected r.port r.fn).hostReply .unsupported)))
    ∧ (Accepted s r → (n ≠ 4 ∧ n ≠ 8 ∨ dpa.toNat % n ≠ 0) → exec i3 s = .next (s.hostReply .unsupported)))
  ∧ (∀ (s : State) (r : ReqId) (dpa n p : Nat) (f : Fn), 0 < n → f ∈ s.host.fns → f.fn ≠ 0 → (f.tdi = .locked ∨ f.tdi = .run) →
    p ∈ s.fnParts f.port f.fn → s.partOwns p dpa = true → (s.barred r dpa n = false → p ∈ s.fnParts r.port r.fn))
  ∧ (∀ (s : State) (r : ReqId) (f : Fn) (st : Nat), s.fnSt r.port r.fn = f → s.isLate r.port r.fn = false → s.crippled = false → r.stream = some st →
    (f.tdi = .unlocked → s.reach r = .ok) ∧ (f.tdi = .error → s.reach r = .rejected)
    ∧ ((f.tdi = .locked ∨ f.tdi = .run) →
        (s.reach r = .ok ↔ r.tbit = true ∧ ∃ i ∈ s.host.ides, i.port = r.port ∧ i.stream = st ∧ i.tdi = some r.fn)))
  ∧ (∀ (s : State) (r : ReqId) (dpa : BitVec 42) (data : List Byte), Accepted s r → s.barred r dpa.toNat data.length = false →
    s.coh.pend = [] → s.coh.remote = [] →
    let a : HostAcc := ⟨r.port, dpa.toNat, .write data⟩
    ((∀ l ∈ a.lines, s.lineTaken l = false) → (∀ l ∈ a.lines, s.xlatLine l = true → s.xlatIdle l s.uid = true) → exec (.hostWrite r dpa data) s
      = .next (((a.lines.filter s.xlatLine).foldl State.retranslate s).homeWrite (hHost r.port) false 0 (devLoc dpa.toNat) data))
    ∧ ((∃ l ∈ a.lines, s.lineTaken l = true ∨ s.xlatLine l = true ∧ s.xlatIdle l s.uid = false) → exec (.hostWrite r dpa data) s
      = .next { s with coh := { s.coh with pend := [a] } }))
  ∧ (∀ (s : State) (r : ReqId) (dpa : BitVec 42) (n : Nat), Accepted s r → s.barred r dpa.toNat n = false → s.coh.pend = [] →
    s.coh.remote = [] → (∀ l ∈ (⟨r.port, dpa.toNat, .read n⟩ : HostAcc).lines, s.lineTaken l = false) →
    let a : HostAcc := ⟨r.port, dpa.toNat, .read n⟩
    let s1 := a.lines.foldl (fun s l => s.hostReader r.port l) s
    (((∃ l ∈ a.lines, s.poisoned l = true) ∨ ∃ j < n, devLoc (dpa.toNat + j) = .unbacked) → exec (.hostRead r dpa n) s = .next (s1.hostReply .poisoned))
    ∧ ((∀ l ∈ a.lines, s.poisoned l = false) → (∀ j < n, devLoc (dpa.toNat + j) ≠ .unbacked) →
      (∀ off, devLoc dpa.toNat = .regs off → exec (.hostRead r dpa n) s = .next (s1.hostReply (.data (s1.regWindow off n))))
      ∧ ((∀ off, devLoc dpa.toNat ≠ .regs off) → exec (.hostRead r dpa n) s = .next (s1.hostReply (.data (s1.newest (devLoc dpa.toNat) n))))))
  ∧ ∀ (s : State) (r : ReqId) (dpa : BitVec 42) (n line : Nat) (x y : Dword), Accepted s r → s.barred r dpa.toNat n = false → s.coh.pend = [] → s.coh.remote = [] →
    (n = 4 ∨ n = 8) → dpa.toNat % n = 0 → (devLoc dpa.toNat).line? = some line → s.poisoned line = false →
    (∀ j < n, (devLoc (dpa.toNat + j)).line? = some line) → s.xlatLine line = false → s.lineTaken line = false →
    let off := (devLoc dpa.toNat).inLine
    let s1 := ((s.recallAll line).ensureDir line).homeTouch line 0
    let old := leNat (((s1.homeLine line).drop off).take n)
    let rmw (v : Nat) : State := s1.homeRmw 0 line (some fun d => overlay d off (leBytes n v)) true
    let writes (v : Nat) : State := (rmw v).hostReply (.data (leBytes n old))
    (∀ v, (rmw v).xlatLine line = false) →
    exec (.hostAtomicop r .fetchAdd dpa n x y) s = .next (writes ((old + x.toNat) % 2 ^ (8 * n)))
    ∧ exec (.hostAtomicop r .swap dpa n x y) s = .next (writes (x.toNat % 2 ^ (8 * n)))
    ∧ (old = x.toNat % 2 ^ (8 * n) → exec (.hostAtomicop r .cas dpa n x y) s = .next (writes (y.toNat % 2 ^ (8 * n))))
    ∧ (old ≠ x.toNat % 2 ^ (8 * n) → exec (.hostAtomicop r .cas dpa n x y) s
        = .next ((s1.homeRmw 0 line none true).hostReply (.data (leBytes n old))))

/-! # Mailboxes, registers, the lease, TDIs -/

namespace Sys2Proof.Claims

/-- Only the I/O die's host side changes. -/
def HostOnly (s t : State) : Prop := t = { s with host := t.host }

/-- A host function is frozen: its TDI is in ERROR and the contexts of its partition are frozen (R388, R401). -/
def FnFrozen (s t : State) (port fn : Nat) : Prop :=
  (t.fnSt port fn).tdi = .error ∧ (t.fnSt port fn).frozen = true ∧ MemKept s t
    ∧ (∀ x ∈ s.fnContexts port fn, ∀ c, t.ctx? x = some c → c.frozen = true)
    ∧ ∀ x, x ∉ s.fnContexts port fn → (t.ctx? x).map (·.frozen) = (s.ctx? x).map (·.frozen)

end Sys2Proof.Claims

/-- R266, R388, R390–R393, R448: a well-formed send to a mailbox with room is accepted and counted, to a full one dropped; its status tells which, where
one is named, and otherwise it has none (log 91); it goes behind what waits at its port; one of another length is counted as bad. A consumer index within 64 of the producer index is taken, any other counted as
bad. The oldest entry for the host goes to its slot, the producer index follows it and the pair's interrupt is raised; entries wait while no
ring is named, while it is full and while the lease has expired. Which function's windows a port reaches is the model's reading
(log 53). -/
def Obligations.MailboxesCarryEntries : Prop :=
  (∀ (s : State) (r : ReqId) (slot pair : Nat) (data : List Byte) (v : Word),
    (Late s r → exec (.mailboxSend r slot pair data) s = .next (s.countLate r.port)
      ∧ exec (.consumerIndexWrite r slot pair v) s = .next (s.countLate r.port))
    ∧ (Accepted s r → s.windowCtx r slot = none → exec (.mailboxSend r slot pair data) s = .next s ∧ exec (.consumerIndexWrite r slot pair v) s = .next s)
    ∧ ∀ c, Accepted s r → s.windowCtx r slot = some c → s.ctx? c.id = some c → pair < 2 →
      (data.length ≠ 64 → exec (.mailboxSend r slot pair data) s = .next s.countBad)
      ∧ (data.length = 64 → (∃ b ∈ s.coh.pend, b.port = r.port) → exec (.mailboxSend r slot pair data) s = .next { s with coh := { s.coh with
          pend := s.coh.pend ++ [⟨r.port, 0, .mail c.id pair (BitVec.ofNat 512 (leNat data))⟩] } })
      ∧ (data.length = 64 → (∀ b ∈ s.coh.pend, b.port ≠ r.port) → MemInv s → Gives (.mailboxSend r slot pair data) s fun t => ∃ c', t.ctx? c.id = some c'
        ∧ (((c.mail pair).h2d.length < 64 ∧ c'.mail pair = { c.mail pair with
              h2d := (c.mail pair).h2d ++ [BitVec.ofNat 512 (leNat data)], h2dCount := (c.mail pair).h2dCount + 1 })
            ∨ (64 ≤ (c.mail pair).h2d.length ∧ c'.mail pair = c.mail pair))
        ∧ c'.mail (1 - pair) = c.mail (1 - pair)
        ∧ ((c.mail pair).ring = none → MemKept s t)
        ∧ ((c.mail pair).ring ≠ none → t.rawRead (.hostUn s.host.active (c.mail pair).status) 8
            = leBytes 8 ((c'.mail pair).sendStatus (decide (64 ≤ (c.mail pair).h2d.length)))))
      ∧ (let m := c.mail pair
         let behind := (BitVec.ofNat 32 m.produced - v).toNat
         ((64 < behind ∨ m.produced < behind) → exec (.consumerIndexWrite r slot pair v) s = .next s.countBad)
         ∧ (behind ≤ 64 → behind ≤ m.produced → exec (.consumerIndexWrite r slot pair v) s
            = .next (s.modMail c.id pair fun m => { m with consumed := m.produced - behind })
            ∧ BitVec.ofNat 32 (m.produced - behind) = v)))
  ∧ ∀ (s : State) (ctx pair : Nat) (c : Ctx) (e : BitVec 512) (rest : List (BitVec 512)), s.ctx? ctx = some c → pair < 2 →
    let m := c.mail pair
    ((m.d2h = [] ∨ m.ring = none ∨ s.host.expired = true ∨ 64 ≤ m.produced - m.consumed) → exec (.mailboxRingWrite ctx pair) s = .next s)
    ∧ ∀ ring, m.d2h = e :: rest → m.ring = some ring → s.host.expired = false → m.produced - m.consumed < 64 → MemInv s →
      let slot := ring + 64 * (m.produced % 64)
      Gives (.mailboxRingWrite ctx pair) s fun t =>
        (∃ c', t.ctx? ctx = some c' ∧ c'.mail pair = { m with d2h := rest, produced := m.produced + 1 } ∧ c'.mail (1 - pair) = c.mail (1 - pair))
        ∧ t.rawRead (.hostUn s.host.active (m.status + 8)) 8 = leBytes 8 (m.produced + 1)
        ∧ ((slot + 64 ≤ m.status + 8 ∨ m.status + 16 ≤ slot) → t.rawRead (.hostUn s.host.active slot) 64 = leBytes 64 e.toNat)
        ∧ t.host = { s.host with msix := s.host.msix ++ [(s.host.active, .pair ctx pair)] }

/-- R389, R390, R399, R404, R413: the active port's renewal starts the period anew; with the period over the lease expires and that port's
requests are late; the other port's claim, made while it has expired, makes that port the active one, removes the cached
translations, unnames the rings and posts a notice. PERIOD, PWRCAP, MCRBASE and MCRCONS are written by the active port within their ranges, any
other write of it changes nothing, but that one of 8 bytes to the management queue is counted. A management command that finds room, is one that
is accepted now (log 56), has its reserved fields zero and its operands aligned joins the queue; any other is answered at once; it goes behind
what waits at its port (R266). The oldest completion and notice go to their slots, with the interrupt of their vector, while the lease has not
expired; the notice ring is never full (log 55). After a quarantine outside the compute dies no register is written (R409; log 56). Which
translations and rings a claim removes is the model's reading (log 52). -/
def Obligations.TheLeaseHolderHasTheRegisters : Prop :=
  (∀ (s : State) (port : Nat) (off : BitVec 16) (v : Dword), s.crippled = true →
    exec (.renew port) s = .next s ∧ exec (.claim port) s = .next s ∧ exec (.registerWrite port off v) s = .next s)
  ∧ (∀ (s : State) (port : Nat), s.portUp port = true → s.crippled = false →
    (s.isLate port 0 = true → exec (.renew port) s = .next (s.countLate port))
    ∧ (s.isLate port 0 = false → port = s.host.active → exec (.renew port) s = .next { s with host := { s.host with renewed := s.time } })
    ∧ (s.isLate port 0 = false → (port = s.host.active ∨ s.host.expired = false) → exec (.claim port) s = .next s)
    ∧ (s.isLate port 0 = true → s.claimable port = false → exec (.claim port) s = .next (s.countLate port))
    ∧ (port < 2 → port ≠ s.host.active → s.host.expired = true → (s.fnSt port 0).frozen = false → Gives (.claim port) s fun t =>
        t.host.active = port ∧ t.host.expired = false ∧ t.host.renewed = s.time ∧ port ∉ t.host.late ∧ t.host.atc = [] ∧ t.host.noticeRing = none
        ∧ (∀ c ∈ t.ctxs, c.mail0.ring = none ∧ c.mail1.ring = none) ∧ MemKept s t ∧ OthersKept [] s t
        ∧ (s.host.notices.length < 1024 → t.host.notices.length = s.host.notices.length + 1 ∧ s.host.notices <+: t.host.notices)))
  ∧ (∀ s : State, (s.leaseOver = false → exec .leaseExpiry s = .next s)
    ∧ (s.leaseOver = true → Gives .leaseExpiry s fun t => HostOnly s t
      ∧ t.host = { s.host with expired := true, late := t.host.late } ∧ ∀ p, p ∈ t.host.late ↔ p ∈ s.host.late ∨ p = s.host.active))
  ∧ (∀ (s : State) (port : Nat) (off : BitVec 16) (v : Dword), s.portUp port = true → s.crippled = false → s.isLate port 0 = false →
    port = s.host.active →
    let set (h : HostSt) : Prop := exec (.registerWrite port off v) s = .next { s with host := h }
    let mq : Prop := 0x1000 ≤ off.toNat ∧ off.toNat < 0x1020
    (off = 0 → v.getLsbD 0 = false → 1 ≤ bitsOf v 32 16 → bitsOf v 32 16 ≤ 1000 → set { s.host with period := bitsOf v 32 16 })
    ∧ (off = 0 → v.getLsbD 0 = false → (bitsOf v 32 16 = 0 ∨ 1000 < bitsOf v 32 16) → set s.host)
    ∧ (off = 0 → v.getLsbD 0 = true → 1 ≤ bitsOf v 32 16 → bitsOf v 32 16 ≤ 1000 → set { s.host with period := bitsOf v 32 16, renewed := s.time })
    ∧ (off = 0x10 → 1500 ≤ bitsOf v 0 16 → bitsOf v 0 16 ≤ 3000 → set { s.host with pwrcap := v.setWidth 16 })
    ∧ (off = 0x10 → (bitsOf v 0 16 < 1500 ∨ 3000 < bitsOf v 0 16) → set s.host)
    ∧ (off = 0x18 → set { s.host with mcrbase := (v >>> 12) <<< 12 })
    ∧ (off = 0x28 → set { s.host with mcrcons := v.setWidth 32 })
    ∧ (mq → exec (.registerWrite port off v) s = .next s.countBad)
    ∧ (off ≠ 0 → off ≠ 0x10 → off ≠ 0x18 → off ≠ 0x28 → ¬mq → set s.host))
  ∧ (∀ (s : State) (port : Nat) (off : BitVec 16) (v : Dword), s.portUp port = true → s.crippled = false →
    (s.isLate port 0 = true → (off ≠ 0 ∨ v.getLsbD 1 = false ∨ s.claimable port = false) → exec (.registerWrite port off v) s = .next (s.countLate port))
    ∧ (s.isLate port 0 = false → port ≠ s.host.active → off ≠ 0 → exec (.registerWrite port off v) s = .next s)
    ∧ (port < 2 → port ≠ s.host.active → s.host.expired = true → v.getLsbD 1 = true → exec (.registerWrite port 0 v) s = exec (.claim port) s))
  ∧ (∀ (s : State) (port : Nat) (data : List Byte), s.portUp port = true →
    (s.isLate port 0 = true → exec (.managementQueueWrite port data) s = .next (s.countLate port))
    ∧ (s.isLate port 0 = false → port ≠ s.host.active → exec (.managementQueueWrite port data) s = .next s)
    ∧ (s.isLate port 0 = false → port = s.host.active → data.length ≠ 32 → exec (.managementQueueWrite port data) s = .next s.countBad)
    ∧ (s.isLate port 0 = false → port = s.host.active → data.length = 32 →
      let u : BitVec 256 := BitVec.ofNat 256 (leNat data)
      ((∃ b ∈ s.coh.pend, b.port = port) → exec (.managementQueueWrite port data) s
          = .next { s with coh := { s.coh with pend := s.coh.pend ++ [⟨port, 0, .mop u⟩] } })
      ∧ ((∀ b ∈ s.coh.pend, b.port ≠ port) →
      (64 ≤ s.hostWaiting → exec (.managementQueueWrite port data) s = .next (s.hostDone u 0x0001 0))
      ∧ (s.hostWaiting < 64 →
        (s.takesMop (uMop u) = false → exec (.managementQueueWrite port data) s = .next (s.hostDone u 0x0005 0))
        ∧ (s.takesMop (uMop u) = true → mopFieldsOk u = false → exec (.managementQueueWrite port data) s = .next (s.hostDone u 0x0002 0))
        ∧ (s.takesMop (uMop u) = true → mopFieldsOk u = true → mopAligned u = false →
            exec (.managementQueueWrite port data) s = .next (s.hostDone u 0x0016 0))
        ∧ (s.takesMop (uMop u) = true → mopFieldsOk u = true → mopAligned u = true → Gives (.managementQueueWrite port data) s fun t =>
            HostOnly s t ∧ t.host = { s.host with mq := s.host.mq ++ [⟨u, port, none, s.hostGet port (uMap u) 192⟩] })))))
  ∧ (∀ s : State,
    ((s.host.completions = [] ∨ s.host.expired = true ∨ s.host.mcrbase = 0 ∨ s.host.mcrprod - s.host.mcrcons = 64) →
      exec .managementCompletion s = .next s)
    ∧ (∀ e rest, s.host.completions = e :: rest → s.host.expired = false → s.host.mcrbase ≠ 0 → s.host.mcrprod - s.host.mcrcons ≠ 64 → MemInv s →
      Gives .managementCompletion s fun t =>
        t.rawRead (.hostUn s.host.active (s.host.mcrbase.toNat + 32 * (s.host.mcrprod.toNat % 64))) 32 = leBytes 32 e.toNat
        ∧ t.host = { s.host with completions := rest, mcrprod := s.host.mcrprod + 1, msix := s.host.msix ++ [(s.host.active, .pf 0)] }
        ∧ t = { s with mem := t.mem, host := t.host })
    ∧ ((s.host.notices = [] ∨ s.host.noticeRing = none ∨ s.host.expired = true) → exec .notice s = .next s)
    ∧ ∀ n rest ring, s.host.notices = n :: rest → s.host.noticeRing = some ring → s.host.expired = false → MemInv s → Gives .notice s fun t =>
        t.rawRead (.hostUn s.host.active (ring + 128 * (s.host.noticePos % 256))) 128 = leBytes 128 n.toNat
        ∧ t.host = { s.host with notices := rest, noticePos := s.host.noticePos + 1, msix := s.host.msix ++ [(s.host.active, .pf 1)] }
        ∧ t = { s with mem := t.mem, host := t.host })

/-- R387, R388, R401: LOCK, START and STOP move a TDI between its states, and any other request leaves it; STOP from ERROR releases the contexts
frozen with it. A failure of a stream bound to a function, or of a port's link stream, which is
PF0's (log 38), more than 256 requests rejected within a millisecond, a change to the
configuration of a locked or running TDI, and its function-level reset freeze the function. A stream is bound unless the port has 16. What a
function-level reset of an unlocked TDI leaves is the model's reading (log 38). R415: a throttled issue cycle changes nothing. -/
def Obligations.TdisMoveAndFreeze : Prop :=
  (∀ (s : State) (port fn : Nat), port < 2 → 1 ≤ fn → fn ≤ 16 →
    let f := s.fnSt port fn
    let moves (req : TdispReq) (next : Tdi) : Prop := Gives (.tdispRequest port fn req) s fun t => HostOnly s t
      ∧ t.host = { s.host with fns := t.host.fns } ∧ t.fnSt port fn = { f with tdi := next }
      ∧ ∀ p n, ¬(p = port ∧ n = fn) → t.fnSt p n = s.fnSt p n
    (f.tdi = .unlocked → moves .lock .locked) ∧ (f.tdi = .locked → moves .start .run)
    ∧ ((f.tdi = .locked ∨ f.tdi = .run) → moves .stop .unlocked)
    ∧ (∀ req, (req = .lock ∧ f.tdi ≠ .unlocked ∨ req = .start ∧ f.tdi ≠ .locked ∨ req = .stop ∧ f.tdi = .unlocked) →
        exec (.tdispRequest port fn req) s = .next s)
    ∧ (f.tdi = .error → exec (.tdispRequest port fn .stop) s = .next ((s.fnContexts port fn).foldl State.releaseCtx
        (s.setFn { f with frozen := false, tdi := .unlocked, rejected := [] })))
    ∧ (∀ stream i, s.host.ides.filter (fun i => i.port == port && i.stream == stream) = [i] →
        (i.tdi = some fn → Gives (.ideIntegrityFailure port stream) s fun t => FnFrozen s t port fn)
        ∧ (i.tdi = none ∨ i.tdi = some 0 → exec (.ideIntegrityFailure port stream) s = .next (s.setFn { s.fnSt port 0 with frozen := true })))
    ∧ ((256 < (f.rejected.filter fun t => decide (s.time < t + 1000000)).length → Gives (.rejectedRequestLimit port fn) s fun t => FnFrozen s t port fn)
      ∧ ((f.rejected.filter fun t => decide (s.time < t + 1000000)).length ≤ 256 → exec (.rejectedRequestLimit port fn) s = .next s))
    ∧ ((f.tdi = .locked ∨ f.tdi = .run) → (Gives (.lockedConfigurationChange port fn) s fun t => FnFrozen s t port fn)
        ∧ Gives (.functionLevelReset port fn) s fun t => FnFrozen s t port fn)
    ∧ (f.tdi ≠ .locked → f.tdi ≠ .run → exec (.lockedConfigurationChange port fn) s = .next s
        ∧ Gives (.functionLevelReset port fn) s fun t => HostOnly s t ∧ t.fnSt port fn = { f with rejected := [] }))
  ∧ (∀ (s : State) (port stream fn : Nat), port < 2 → fn ≤ 16 →
    let others := s.host.ides.filter fun i => !(i.port == port && i.stream == stream)
    (exec (.ideKmRequest port stream none) s = .next { s with host := { s.host with ides := others ++ [⟨port, stream, none⟩] } })
    ∧ ((others.filter fun i => i.port == port && i.tdi.isSome).length < 16 → exec (.ideKmRequest port stream (some fn)) s
        = .next { s with host := { s.host with ides := others ++ [⟨port, stream, some fn⟩] } })
    ∧ (16 ≤ (others.filter fun i => i.port == port && i.tdi.isSome).length → exec (.ideKmRequest port stream (some fn)) s = .next s))
  ∧ ∀ (s : State) (die : Nat), exec (.powerCapThrottle die) s = .next s

/-! # Management commands -/

namespace Sys2Proof.Claims

/-- The MOP of a management command (R398). -/
def mopOf (i : Instr) : Option Nat :=
  match i with
  | .createPartition => some 0x01
  | .destroyPartition => some 0x02
  | .createContext => some 0x03
  | .killContext => some 0x04
  | .releaseFrozenMaster => some 0x05
  | .requestPreemption => some 0x06
  | .setContextRegisters => some 0x07
  | .setSaveFaultReceiveAreas => some 0x08
  | .setMailboxRings => some 0x09
  | .writeReplacementClass => some 0x0A
  | .writeKeySlot => some 0x0B
  | .setEndpoint => some 0x0C
  | .writeRouteEntry => some 0x0D
  | .writeMonitorRegister => some 0x0E
  | .clearPoisonedLine => some 0x0F
  | .clearOrphanedPackage => some 0x10
  | .setNoticeRing => some 0x11
  | .resetComputeDie => some 0x12
  | .restartServiceCore => some 0x13
  | .stageFirmwareImage => some 0x14
  | .commitStagedFirmware => some 0x15
  | .setWithholdMask => some 0x16
  | _ => none

/-- The command at the head of the queue is `i`'s, and is one that is still carried out (R409); without it the state is `s`. -/
def Heads (i : Instr) (e : MqEntry) (s0 s : State) : Prop :=
  mopOf i = some (uMop e.unit) ∧ (s0.crippled = true → uMop e.unit = 0x04 ∨ uMop e.unit = 0x05)
    ∧ ∃ rest, s0.host.mq = e :: rest ∧ s = { s0 with host := { s0.host with mq := rest } }

/-- The command takes effect `t` and completes with a status and AUX. -/
def MopGives (i : Instr) (e : MqEntry) (s0 : State) (status : BitVec 16) (aux : Nat) (t : State) : Prop :=
  exec i s0 = .next (t.mopDone e status aux)

/-- The command is refused with a status, and has no effect. -/
def MopRefused (i : Instr) (e : MqEntry) (s0 s : State) (status : BitVec 16) : Prop := MopGives i e s0 status 0 s

end Sys2Proof.Claims

/-- R42, R342, R345, R352, R365, R368, R372, R388, R393, R398, R400–R403: each management command is taken from the head of the queue by its
own event alone, and completes with its status and AUX; after a quarantine outside the compute dies only MOP 0x04 and 0x05 have an effect
(R409; log 56). Killing a function kills its contexts and freezes it (log 35). Partitions take the lowest free number and the cores asked for that are not
lost, unless one is taken; contexts the next identifier; each command sets what it names, and one that names nothing that exists is refused. -/
def Sys2Proof.Claims.PartitionAndContextCommands : Prop :=
  (∀ i n s0, mopOf i = some n → (∀ e rest, s0.host.mq = e :: rest → uMop e.unit ≠ n) → exec i s0 = .next s0)
  ∧ (∀ i n e rest (s : State), mopOf i = some n → n ≠ 0x04 → n ≠ 0x05 → s.crippled = true → s.host.mq = e :: rest → uMop e.unit = n →
    exec i s = .next (State.mopDone { s with host := { s.host with mq := rest } } e 0x0005 0))
  ∧ (∀ (s : State) (e : MqEntry) (status : BitVec 16) (aux : Nat), e.back = none → s.mopDone e status aux = { s with host := { s.host with
      completions := s.host.completions ++ [completionEntry (uMop e.unit) (uMopCtag e.unit) status 0 aux 0 0] } })
  ∧ (∀ e s0 s, Heads .createPartition e s0 s →
    (e.f 1 8 1 = 0 → ∀ c, c ∈ (s.askedCores e).getD [] ↔ c < 1536 ∧ (e.f 1 0 8).testBit (c / 192) = true ∧ (s.coreSt c).lost = false)
    ∧ (s.askedCores e = none → MopRefused .createPartition e s0 s 0x0002)
    ∧ ∀ cores, s.askedCores e = some cores →
      ((∃ p ∈ s.parts, ∃ c ∈ cores, c ∈ p.cores) → MopRefused .createPartition e s0 s 0x0005)
      ∧ ∀ n < 256, (∀ p ∈ s.parts, p.num ≠ n) → (∀ m < n, ∃ p ∈ s.parts, p.num = m) → (∀ p ∈ s.parts, ∀ c ∈ cores, c ∉ p.cores) →
        MopGives .createPartition e s0 0 n { s with parts := s.parts ++ [{ num := n, cores, made := cores, objTable := e.d 2
                                                                           withhold := BitVec.ofNat 8 (e.f 3 0 8), resident := none
                                                                           incoming := none, halting := false, wsHold := [] }] })
  ∧ (∀ e s0 s, Heads .destroyPartition e s0 s →
    (s.part? (e.f 1 0 8) = none → MopRefused .destroyPartition e s0 s 0x0002)
    ∧ ∀ p, s.part? (e.f 1 0 8) = some p →
      ((∃ c ∈ s.ctxs, c.part = p.num) → MopRefused .destroyPartition e s0 s 0x0005)
      ∧ ((∀ c ∈ s.ctxs, c.part ≠ p.num) → MopGives .destroyPartition e s0 0 0 { s with parts := s.parts.filter (·.num != p.num) }))
  ∧ (∀ i e s0 s, Heads i e s0 s → i ∈ [.setWithholdMask, .requestPreemption] → s.part? (e.f 1 0 8) = none → MopRefused i e s0 s 0x0002)
  ∧ (∀ e s0 s p, Heads .setWithholdMask e s0 s → s.part? (e.f 1 0 8) = some p →
    MopGives .setWithholdMask e s0 0 0 (s.modPart p.num fun p => { p with withhold := BitVec.ofNat 8 (e.f 2 0 8) }))
  ∧ (∀ e s0 s p, Heads .requestPreemption e s0 s → s.part? (e.f 1 0 8) = some p → MopGives .requestPreemption e s0 0 0 (s.preempt (e.f 1 0 8)))
  ∧ (∀ e s0 s, Heads .createContext e s0 s →
    ((s.part? (e.f 1 0 8) = none ∨ 17 ≤ e.f 1 16 5 ∨ e.d 2 % 32 ≠ 0 ∨ 2 ^ 24 < e.f 3 0 25) → MopRefused .createContext e s0 s 0x0002)
    ∧ ∀ p, s.part? (e.f 1 0 8) = some p → e.f 1 16 5 < 17 → e.d 2 % 32 = 0 → e.f 3 0 25 ≤ 2 ^ 24 → s.lastCtx < 0xFFFFFE →
        s.ctx? (s.lastCtx + 1) = none →
      ∃ t, MopGives .createContext e s0 0 (s.lastCtx + 1) t ∧ t.lastCtx = s.lastCtx + 1
        ∧ (∃ c : Ctx, t.ctxs = s.ctxs ++ [c] ∧ c.id = s.lastCtx + 1 ∧ c.part = e.f 1 0 8 ∧ c.slot = e.f 1 8 8 ∧ c.fn = e.f 1 16 6
          ∧ c.prioCeil = e.f 1 22 2 ∧ c.htbase = BitVec.ofNat 64 (e.d 2) ∧ c.htlen = e.f 3 0 25 ∧ c.tslice = BitVec.ofNat 32 (e.f 3 32 32)
          ∧ c.wbudget = 0 ∧ c.flags = 0 ∧ c.frozen = false ∧ c.faulted = false ∧ c.mail0 = Mailbox.fresh ∧ c.mail1 = Mailbox.fresh)
        ∧ t = { s with ctxs := t.ctxs, lastCtx := t.lastCtx, uid := t.uid })
  ∧ (∀ i e s0 s, Heads i e s0 s → i ∈ [.killContext, .releaseFrozenMaster] →
    (e.f 1 63 1 = 0 → (e.f 1 0 24 = 0xFFFFFF ∨ s.ctx? (e.f 1 0 24) = none) → MopRefused i e s0 s 0x0002)
    ∧ (e.f 1 63 1 = 1 → 16 < e.f 1 0 5 → MopRefused i e s0 s 0x0002))
  ∧ (∀ e s0 s c, Heads .killContext e s0 s → e.f 1 63 1 = 0 → e.f 1 0 24 ≠ 0xFFFFFF → s.ctx? (e.f 1 0 24) = some c →
    MopGives .killContext e s0 0 0 (s.killCtx c.id))
  ∧ (∀ e s0 s, Heads .killContext e s0 s → e.f 1 63 1 = 1 → e.f 1 0 5 ≤ 16 → MopGives .killContext e s0 0 0
    (((s.ctxs.filter fun c => c.fn == 32 * e.f 1 5 1 + e.f 1 0 5).foldl (fun s c => s.killCtx c.id) s).freezeFn (e.f 1 5 1) (e.f 1 0 5)))
  ∧ (∀ e s0 s c, Heads .releaseFrozenMaster e s0 s → e.f 1 63 1 = 0 → e.f 1 0 24 ≠ 0xFFFFFF → s.ctx? (e.f 1 0 24) = some c →
    MopGives .releaseFrozenMaster e s0 0 0 (s.releaseCtx c.id))
  ∧ (∀ e s0 s, Heads .releaseFrozenMaster e s0 s → e.f 1 63 1 = 1 → e.f 1 0 5 ≤ 16 → ∃ t, MopGives .releaseFrozenMaster e s0 0 0 t
    ∧ t.fnSt (e.f 1 5 1) (e.f 1 0 5) = { s.fnSt (e.f 1 5 1) (e.f 1 0 5) with frozen := false, rejected := [] } ∧ HostOnly s t)
  ∧ (∀ e s0 s, Heads .setContextRegisters e s0 s → ((e.f 1 0 24 = 0xFFFFFF ∨ s.ctx? (e.f 1 0 24) = none) → MopRefused .setContextRegisters e s0 s 0x0002)
    ∧ ∀ c, e.f 1 0 24 ≠ 0xFFFFFF → s.ctx? (e.f 1 0 24) = some c →
      let x := c.id
      let v := e.d 3
      let set (idx : Nat) (ok : Prop) (t : State) : Prop :=
        e.f 2 0 8 = idx → (ok → MopGives .setContextRegisters e s0 0 0 t) ∧ (¬ok → MopRefused .setContextRegisters e s0 s 0x0002)
      set 0x82 (v % 32 = 0) (s.setHandles x fun c => { c with htbase := BitVec.ofNat 64 v })
      ∧ set 0x84 (v ≤ 2 ^ 24) (s.setHandles x fun c => { c with htlen := v })
      ∧ set 0x85 (v < 2 ^ 32) (s.modCtx x fun c => { c with tslice := BitVec.ofNat 32 v })
      ∧ set 0x86 (v < 2 ^ 32) (s.modCtx x fun c => { c with wbudget := BitVec.ofNat 32 v })
      ∧ set 0x87 (v < 2) (s.modCtx x fun c => { c with flags := BitVec.ofNat 32 v })
      ∧ set 0x8D (v < 2) (if v = 0 then s.releaseCtx x else s)
      ∧ set 0x8E (v < 2) (if v = 1 then s.killCtx x else s)
      ∧ (e.f 2 0 8 ∉ [0x82, 0x84, 0x85, 0x86, 0x87, 0x8D, 0x8E] → MopRefused .setContextRegisters e s0 s 0x0002))
  ∧ (∀ i e s0 s, Heads i e s0 s → i ∈ [.setSaveFaultReceiveAreas, .setMailboxRings, .writeKeySlot] → s.ctx? (e.f 1 0 24) = none →
    MopRefused i e s0 s 0x0002)
  ∧ (∀ e s0 s c, Heads .setSaveFaultReceiveAreas e s0 s → s.ctx? (e.f 1 0 24) = some c →
    MopGives .setSaveFaultReceiveAreas e s0 0 0 (s.modCtx c.id fun c => { c with saveBase := e.d 2, recvBase := e.d 3 }))
  ∧ (∀ e s0 s c, Heads .setMailboxRings e s0 s → s.ctx? (e.f 1 0 24) = some c →
    MopGives .setMailboxRings e s0 0 0 (s.modMail c.id (e.f 1 24 1) fun m => { m with ring := some (e.d 2), status := e.d 3 }))
  ∧ (∀ e s0 s c, Heads .writeKeySlot e s0 s → s.ctx? (e.f 1 0 24) = some c →
    let slot := e.f 1 24 8
    (e.f 1 32 1 = 0 → MopGives .writeKeySlot e s0 0 0 (s.modCtx c.id fun c => { c with keys := c.keys.filter (·.slot != slot) }))
    ∧ (e.f 1 32 1 = 1 → e.d 2 % 16 ≠ 0 → MopRefused .writeKeySlot e s0 s 0x0016)
    ∧ (e.f 1 32 1 = 1 → e.d 2 % 16 = 0 → (∃ j < 36, ((devLoc (e.d 2)).add j).line? = none) → MopRefused .writeKeySlot e s0 s 0x0002)
    ∧ (e.f 1 32 1 = 1 → e.d 2 % 16 = 0 → e.d 2 < 3 * 2 ^ 40 → (∀ j < 36, ∃ l, ((devLoc (e.d 2)).add j).line? = some l ∧ s.poisoned l = false) →
      MopGives .writeKeySlot e s0 0 0 (s.modCtx c.id fun c => { c with keys := c.keys.filter (·.slot != slot) ++ [{
        slot, key := BitVec.ofNat 256 (s.newestNat (devLoc (e.d 2)) 32), fixed := BitVec.ofNat 32 (s.newestNat ((devLoc (e.d 2)).add 32) 4), last := 0 }] })))
  ∧ (∀ e s0 s, Heads .setEndpoint e s0 s →
    let pkg : BitVec 12 := BitVec.ofNat 12 (e.f 1 24 12)
    let ep : BitVec 24 := BitVec.ofNat 24 (e.f 1 0 24)
    (pkg = s.fab.self → s.ctx? (e.f 1 40 24) = none → MopRefused .setEndpoint e s0 s 0x0002)
    ∧ ((pkg ≠ s.fab.self ∨ s.ctx? (e.f 1 40 24) ≠ none) → ∃ t, MopGives .setEndpoint e s0 0 0 t ∧ t.endpointAt ep = some (pkg.toNat, e.f 1 40 24)
      ∧ (∀ ep', ep' ≠ ep → t.endpointAt ep' = s.endpointAt ep') ∧ t = { s with recv := { s.recv with endpoints := t.recv.endpoints } }))

/-- R282, R306, R314, R329, R376, R384, R385, R397, R404, R409–R412, R414: the package's own commands set what they name. A replacement class
keeps its old WPOL where 3 is written, and a zero WAYMASK and reserved bits change nothing (log 81); a route emptied loses its fabric number; clearing a line removes
its poison; RMCFG's FROZEN bits are cleared by ones, and a NOTCH of 0 and its reserved bits are ignored (log 81); a die's reset waits for its steps unless forced; a
service core's fibres go on; an image is staged if it passes its check, and runs at once in recovery; a commit exchanges both images, and with
none staged is refused, which is the model's choice (log 36, log 37). -/
def Sys2Proof.Claims.PackageCommands : Prop :=
  (∀ e s0 s, Heads .writeReplacementClass e s0 s →
    let old := s.classOf (e.f 1 0 3)
    (e.f 2 16 16 = 0 → MopGives .writeReplacementClass e s0 0 0 s)
    ∧ (e.f 2 16 16 ≠ 0 → MopGives .writeReplacementClass e s0 0 0 { s with coh := { s.coh with
        classes := s.coh.classes.set (e.f 1 0 3) {
          waymask := BitVec.ofNat 16 (e.f 2 16 16), wpol := if e.f 2 8 2 = 3 then old.wpol else BitVec.ofNat 2 (e.f 2 8 2)
          prot := BitVec.ofNat 2 (e.f 2 2 2), ins := BitVec.ofNat 2 (e.f 2 0 2) } } }))
  ∧ (∀ e s0 s, Heads .writeRouteEntry e s0 s → ∃ t, t.routeMask (e.f 1 0 12) = BitVec.ofNat 16 (e.f 1 16 16)
    ∧ (∀ fn, fn ≠ e.f 1 0 12 → t.routeMask fn = s.routeMask fn) ∧ e.f 1 0 12 ∉ t.fab.unreachable
    ∧ t = { s with fab := { s.fab with routes := t.fab.routes, unreachable := t.fab.unreachable } }
    ∧ ((e.f 1 16 16 ≠ 0 ∨ s.routeMask (e.f 1 0 12) = 0) → MopGives .writeRouteEntry e s0 0 0 t)
    ∧ (e.f 1 16 16 = 0 → s.routeMask (e.f 1 0 12) ≠ 0 →
        MopGives .writeRouteEntry e s0 0 0 ((t.losePackage (e.f 1 0 12)).loseNode (e.f 1 0 12))))
  ∧ (∀ e s0 s, Heads .writeMonitorRegister e s0 s →
    (s.mon? (e.f 1 0 8) = none → MopRefused .writeMonitorRegister e s0 s 0x0002)
    ∧ ∀ m, s.mon? (e.f 1 0 8) = some m → ∃ t m', MopGives .writeMonitorRegister e s0 0 0 t ∧ t.mon? m.chiplet = some m'
      ∧ m'.cfg.extractLsb' 0 2 = BitVec.ofNat 2 (e.f 2 0 2)
      ∧ m'.cfg.extractLsb' 8 4 = (if e.f 2 8 4 = 0 then m.cfg.extractLsb' 8 4 else BitVec.ofNat 4 (e.f 2 8 4))
      ∧ m'.cfg.extractLsb' 12 4 = m.cfg.extractLsb' 12 4 &&& ~~~BitVec.ofNat 4 (e.f 2 12 4)
      ∧ m'.cfg.extractLsb' 16 16 = BitVec.ofNat 16 (e.f 2 16 16)
      ∧ (∀ c, c ≠ m.chiplet → t.mon? c = s.mon? c) ∧ t = { s with rel := { s.rel with mons := t.rel.mons } })
  ∧ (∀ e s0 s, Heads .clearPoisonedLine e s0 s →
    (e.f 1 50 2 = 3 → MopRefused .clearPoisonedLine e s0 s 0x0002)
    ∧ (e.f 1 50 2 ≠ 3 → MopGives .clearPoisonedLine e s0 0 0 { s with coh := { s.coh with poison := s.coh.poison.filter (· != e.f 1 0 52) } }))
  ∧ (∀ e s0 s, Heads .clearOrphanedPackage e s0 s → MopGives .clearOrphanedPackage e s0 0 0 { s with
      coh := { s.coh with orphans := s.coh.orphans.filter (· != e.f 1 0 12) }
      fab := { s.fab with lostPkgs := s.fab.lostPkgs.filter (· != e.f 1 0 12) } })
  ∧ (∀ e s0 s, Heads .setNoticeRing e s0 s →
    MopGives .setNoticeRing e s0 0 0 { s with host := { s.host with noticeRing := some (e.d 1), noticePos := 0 } })
  ∧ (∀ e s0 s, Heads .resetComputeDie e s0 s →
    let d := e.f 1 0 3
    let s1 : State := { s with boot := { s.boot with resets := s.boot.resets ++ [⟨d, decide (e.f 1 8 1 = 1)⟩] } }
    (((s.chiplet d).st ≠ .active ∨ ∃ r ∈ s.boot.resets, r.die = d) → MopRefused .resetComputeDie e s0 s 0x0005)
    ∧ ((s.chiplet d).st = .active → (∀ r ∈ s.boot.resets, r.die ≠ d) →
      (e.f 1 8 1 = 0 → MopGives .resetComputeDie e s0 0 0 s1)
      ∧ (e.f 1 8 1 = 1 → MopGives .resetComputeDie e s0 0 0 ((s1.loseDie d).deactivate d))))
  ∧ (∀ e s0 s, Heads .restartServiceCore e s0 s → ∃ t, MopGives .restartServiceCore e s0 0 0 t ∧ (t.coreSt (1536 + e.f 1 0 3)).halted = false
    ∧ (∀ c, c ≠ 1536 + e.f 1 0 3 → t.coreSt c = s.coreSt c) ∧ t = { s with cores := t.cores })
  ∧ (∀ e s0 s, Heads .stageFirmwareImage e s0 s →
    let img : Image := ⟨(s.hostGet e.port (e.d 1) (e.d 2)).getD []⟩
    ((e.d 2 < 4096 ∨ 2 ^ 28 < e.d 2) → MopRefused .stageFirmwareImage e s0 s 0x0002)
    ∧ (4096 ≤ e.d 2 → e.d 2 ≤ 2 ^ 28 →
      (img.ok s.boot.svn = false → MopGives .stageFirmwareImage e s0 0x0002 0 { s with boot := { s.boot with staged := ⟨[]⟩ } })
      ∧ (img.ok s.boot.svn = true → s.boot.stage ≠ 15 → MopGives .stageFirmwareImage e s0 0 0 { s with boot := { s.boot with staged := img } })
      ∧ (img.ok s.boot.svn = true → s.boot.stage = 15 → MopGives .stageFirmwareImage e s0 0 0 { s with boot := { s.boot with
          staged := img, run := img, stage := 2, stageSince := s.time } })))
  ∧ ∀ e s0 s, Heads .commitStagedFirmware e s0 s →
    (s.boot.staged.bytes = [] → MopRefused .commitStagedFirmware e s0 s 0x0002)
    ∧ (s.boot.staged.bytes ≠ [] → MopGives .commitStagedFirmware e s0 0 0 { s with boot := { s.boot with
        current := s.boot.staged, staged := s.boot.current } })

/-- R398–R404, R410–R414: what each management command does and answers. -/
def Obligations.ManagementCommands : Prop := Claims.PartitionAndContextCommands ∧ Claims.PackageCommands

/-! # Bring-up, attestation, link keys -/

namespace Sys2Proof.Claims

/-- Only the bring-up state changes. -/
def BootOnly (s t : State) : Prop := t = { s with boot := t.boot }

/-- Chiplet `i` is `c` afterwards and every other as it was. -/
def ChipletIs (s t : State) (i : Nat) (c : Chiplet) : Prop :=
  t.chiplet i = c ∧ (∀ j, j ≠ i → t.chiplet j = s.chiplet j) ∧ BootOnly s t ∧ t.boot = { s.boot with chiplets := t.boot.chiplets }

/-- Bring-up stands at a stage of R413 with no failure, and enters another without any other effect. -/
def Enters (i : Instr) (s : State) (n : Nat) : Prop :=
  exec i s = .next { s with boot := { s.boot with stage := n, stageSince := s.time } }

/-- A chiplet that the root attests now (R407), of the 33 there are. -/
def Attested (s : State) (i : Nat) : Prop := i < 32 ∧ s.boot.chiplets.length = 33 ∧ 2 ≤ s.boot.stage ∧ s.boot.stage ≤ 8 ∧ s.boot.fail = false

end Sys2Proof.Claims

/-- R389, R411–R415: power-on and package reset start bring-up at stage 1, keep memory, the flash and the fused counter (log 59), and a package
reset keeps the time and the PASSES counters; each stage completes on its condition and enters the next, a valid flash image leads past
the kindling stage and none to recovery, the first port to train holds the lease; the firmware stage makes the service context; ready
raises the fused counter to the image's SVN; a stage does not complete past its limit, and then takes the action of its row; at 105 °C every
context is frozen, a notice goes out and the rails go off. That recovery brings up both ports with port 0 active, that a chiplet's time-out
is REASON 5, which port of two is the first, and that a die whose service sheaf cannot start fails the stage are the model's choices
(log 58). -/
def Obligations.BringUpGoesByStages : Prop :=
  (∀ (i : Instr) (s : State), i ∈ [.powerOn, .packageReset] → Gives i s fun t =>
    t.boot.stage = 1 ∧ t.boot.fail = false ∧ t.boot.current = s.boot.current ∧ t.boot.staged = s.boot.staged ∧ t.boot.svn = s.boot.svn
    ∧ MemKept s t ∧ t.fibres = [] ∧ t.sheafs = [] ∧ t.ctxs = [] ∧ t.parts = [] ∧ (∀ c ∈ t.boot.chiplets, c.st = .off)
    ∧ (i = .powerOn → t.time = 0 ∧ ∀ c ∈ t.boot.chiplets, c.passes = 0)
    ∧ (i = .packageReset → t.time = s.time ∧ t.lastCtx = s.lastCtx ∧ t.boot.chiplets.map (·.passes) = s.boot.chiplets.map (·.passes)
        ∧ t.host.laterej0 = s.host.laterej0 ∧ t.host.laterej1 = s.host.laterej1 ∧ t.host.mbxbad = s.host.mbxbad ∧ t.host.nlost = s.host.nlost))
  ∧ (∀ (s : State) (i : Instr) (u12 : BitVec 12) (u16 : BitVec 16) (a b : Bool) (n : Nat),
    i ∈ ([.kindlingStage, .chipletAttestationStage, .linkTrainingStage, .hbmTrainingStage u12, .pcieTrainingStage a b n,
      .falbyTrainingStage u16, .firmwareStage, .ready] : List Instr) →
    s.boot.stageSince + stageLimit s.boot.stage ≤ s.time → exec i s = .next s)
  ∧ (∀ s : State, s.boot.fail = false → s.time < s.boot.stageSince + stageLimit s.boot.stage →
    (s.boot.stage = 1 → s.boot.chiplets.length = 33 →
      (s.boot.current.ok s.boot.svn = true → Gives .kindlingStage s fun t => t.boot.stage = 2 ∧ t.boot.run = s.boot.current ∧ (t.chiplet 32).st = .active
        ∧ BootOnly s t)
      ∧ (s.boot.current.ok s.boot.svn = false → Gives .kindlingStage s fun t => t.boot.stage = 15 ∧ t.boot.pcieUp = [true, true] ∧ t.host.active = 0))
    ∧ (s.boot.stage = 2 → ((∀ i < 32, (s.chiplet i).st ∈ [.verified, .keyed, .active] ∨ (i < 8 ∧ (s.chiplet i).st = .quarantined)) ∧
        Enters .chipletAttestationStage s 3
      ∨ (∃ i < 32, (s.chiplet i).st ∉ [.verified, .keyed, .active] ∧ (8 ≤ i ∨ (s.chiplet i).st ≠ .quarantined)) ∧
        exec .chipletAttestationStage s = .next s))
    ∧ (s.boot.stage = 3 → (∀ i < 32, (s.chiplet i).st = .active ∨ (i < 8 ∧ (s.chiplet i).st = .quarantined)) → Enters .linkTrainingStage s 4)
    ∧ (s.boot.stage = 4 → Enters (.hbmTrainingStage 0xFFF) s 5)
    ∧ (s.boot.stage = 4 → ∀ up i, i < 12 → up.getLsbD i = false → (∀ j < i, up.getLsbD j = true) → exec (.hbmTrainingStage up) s
        = .next { s with boot := { s.boot with fail := true, failChiplet := 20 + i } })
    ∧ (s.boot.stage = 5 → ∀ up0 up1 first, Gives (.pcieTrainingStage up0 up1 first) s fun t => t.boot.stage = 6 ∧ t.boot.pcieUp = [up0, up1]
        ∧ t.host.active = (if up0 = true ∧ up1 = true then (if first = 1 then 1 else 0) else if up1 = true then 1 else 0)
        ∧ t.host.renewed = s.time ∧ t = { s with boot := t.boot, host := t.host })
    ∧ (s.boot.stage = 6 → ∀ up, Gives (.falbyTrainingStage up) s fun t => t.boot.stage = 7 ∧ t.fab.ports.length = s.fab.ports.length
        ∧ (∀ (j : Nat) q, s.fab.ports[j]? = some q → t.fab.ports[j]? = some { q with up := up.getLsbD j })
        ∧ t = { s with boot := t.boot, fab := { s.fab with ports := t.fab.ports } })
    ∧ (s.boot.stage = 7 → s.ctx? 0xFFFFFF = none → Gives .firmwareStage s fun t => (∃ c, t.ctx? 0xFFFFFF = some c ∧ c.frozen = false)
        ∧ (s.sheafs = [] → ∀ h ∈ t.sheafs, h.ctx = 0xFFFFFF ∧ h.priv = true)
        ∧ ((∀ d < 8, s.dieInService d = true → ∃ h ∈ t.sheafs, h.core = 1536 + d) → t.boot = s.boot)
        ∧ ((∃ d < 8, s.dieInService d = true ∧ ∀ h ∈ t.sheafs, h.core ≠ 1536 + d) → t.boot.fail = true))
    ∧ (s.boot.stage = 7 → s.ctx? 0xFFFFFF ≠ none → exec .ready s = .next { s with boot := { s.boot with
        stage := 8, stageSince := s.time, svn := max s.boot.svn s.boot.run.svn } }))
  ∧ (∀ (s : State) (i : Nat), s.boot.fail = false →
    let late : Prop := s.boot.stageSince + stageLimit s.boot.stage ≤ s.time
    (¬late → exec (.bootStageTimeout i) s = .next s)
    ∧ (late → s.boot.stage = 1 → Gives (.bootStageTimeout i) s fun t => t.boot.stage = 15 ∧ t.boot.pcieUp = [true, true])
    ∧ (late → s.boot.stage = 2 → i < 32 → (s.chiplet i).st ∈ [.off, .unverified, .challenging] → exec (.bootStageTimeout i) s = .next (s.quarantine i 5))
    ∧ (late → s.boot.stage = 3 → i < 32 → (s.chiplet i).st ≠ .active → (s.chiplet i).st ≠ .quarantined →
        (i ∈ s.boot.retrained → exec (.bootStageTimeout i) s = .next (s.quarantine i 5))
        ∧ (i ∉ s.boot.retrained → exec (.bootStageTimeout i) s = .next { s with boot := { s.boot with
            retrained := s.boot.retrained ++ [i], stageSince := s.time } }))
    ∧ (late → s.boot.stage = 5 → Enters (.bootStageTimeout i) s 6) ∧ (late → s.boot.stage = 6 → Enters (.bootStageTimeout i) s 7)
    ∧ (late → s.boot.stage ∈ [4, 7] → exec (.bootStageTimeout i) s = .next { s with boot := { s.boot with fail := true, failChiplet := i } }))
  ∧ ∀ (s : State) (i : Nat) (tenths : BitVec 16), i < 33 → s.boot.railsOff = false →
    (tenths.toNat < 1050 → exec (.overTemperature i tenths) s = .next s)
    ∧ (1050 ≤ tenths.toNat → Gives (.overTemperature i tenths) s fun t => (∀ c ∈ t.ctxs, c.frozen = true) ∧ t.boot = { s.boot with railsOff := true }
      ∧ (∀ q ∈ t.fab.ports, q.up = false)
      ∧ MemKept s t ∧ (s.host.notices.length < 1024 → ∃ n, t.host.notices = s.host.notices ++ [n] ∧ bitsOf n 512 16 = 10
          ∧ bitsOf n 0 16 = i ∧ bitsOf n 16 16 = tenths.toNat))

/-- R406–R410: a chiplet answers, is challenged, and is VERIFIED where every check of its response holds and its serial number is on no other
chiplet's certificate, which PASSES counts; otherwise it is quarantined with the reason of the first check that fails; a response after 100 ms
changes nothing, and a challenge unanswered so long is repeated once and then quarantines; keys and training make it ACTIVE. An ACTIVE chiplet that is reset, or whose third flit in a
millisecond fails its authentication, returns to UNVERIFIED; a compute die is reset only as MOP 0x12 asked, once no step holds it, and its service
sheaf ends with it. A key roll-over takes its five steps in order, at any moment (log 18), and advances KEYGEN at both ends (log 60). -/
def Obligations.ChipletsAttestAndRollKeys : Prop :=
  (∀ (s : State) (i : Nat), Attested s i →
    ((s.chiplet i).st = .off → Gives (.sidebandAnswer i) s fun t => ChipletIs s t i { s.chiplet i with st := .unverified })
    ∧ ((s.chiplet i).st ≠ .off → exec (.sidebandAnswer i) s = .next s)
    ∧ ((s.chiplet i).st = .unverified → Gives (.attestationBegin i) s fun t =>
        ChipletIs s t i { s.chiplet i with st := .challenging, challengedAt := s.time })
    ∧ ((s.chiplet i).st ≠ .unverified → exec (.attestationBegin i) s = .next s)
    ∧ (∀ v, (s.chiplet i).st ≠ .challenging → exec (.spdmResponse i v) s = .next s)
    ∧ (∀ v, (s.chiplet i).challengedAt + 100000000 ≤ s.time → exec (.spdmResponse i v) s = .next s)
    ∧ (∀ v : SpdmVerdict, (s.chiplet i).st = .challenging → s.time < (s.chiplet i).challengedAt + 100000000 →
      let r : BitVec 4 :=
        if v.chain = false then 1 else if v.ed25519 = false then 2 else if v.mldsa = false then 3 else if v.measurement = false then 4
        else if (List.range 33).any (fun j => j != i && s.certSerial j == v.serial) then 6 else if v.revoked = true then 7 else 0
      (r = 0 → Gives (.spdmResponse i v) s fun t => ChipletIs s t i
        { s.chiplet i with st := .verified, passes := (s.chiplet i).passes + 1, reason := 0, serial := some v.serial })
      ∧ (r ≠ 0 → exec (.spdmResponse i v) s = .next ((s.modChiplet i fun c => { c with serial := some v.serial }).quarantine i r)))
    ∧ ((s.chiplet i).st = .challenging →
      (s.time < (s.chiplet i).challengedAt + 100000000 → exec (.challengeTimeout i) s = .next s)
      ∧ ((s.chiplet i).challengedAt + 100000000 ≤ s.time →
        ((s.chiplet i).timedOut = false → Gives (.challengeTimeout i) s fun t => ChipletIs s t i { s.chiplet i with st := .unverified, timedOut := true })
        ∧ ((s.chiplet i).timedOut = true → exec (.challengeTimeout i) s = .next (s.quarantine i 5))))
    ∧ (3 ≤ s.boot.stage → (s.chiplet i).st = .verified → Gives (.keyExchangeComplete i) s fun t =>
        t.chiplet i = { s.chiplet i with st := .keyed, keygen := 0 } ∧ (∀ j, j ≠ i → t.chiplet j = s.chiplet j)
        ∧ (∀ j, t.link i j = ⟨i, j, 0, .idle, []⟩ ∧ t.link j i = ⟨j, i, 0, .idle, []⟩) ∧ BootOnly s t)
    ∧ (3 ≤ s.boot.stage → (s.chiplet i).st = .keyed →
      ((s.chiplet i).again = false → (∀ r ∈ s.boot.resets, r.die ≠ i) → Gives (.linkTrained i) s fun t =>
        t.chiplet i = { s.chiplet i with st := .active, timedOut := false } ∧ (∀ j, j ≠ i → t.chiplet j = s.chiplet j) ∧ BootOnly s t)
      ∧ ((s.chiplet i).again = true → Gives (.linkTrained i) s fun t =>
        (t.chiplet i).st = .active ∧ (∀ j, j ≠ i → t.chiplet j = s.chiplet j) ∧ (∀ r ∈ t.boot.resets, r.die ≠ i)
        ∧ (i < 8 → ⟨i, true⟩ ∈ s.boot.resets → t.rel.qmask.getLsbD i = false)
        ∧ (s.host.notices.length < 1024 → t.host.notices.length = s.host.notices.length + 1)))
    ∧ ((s.chiplet i).st = .active →
      (8 ≤ i → Gives (.chipletReset i) s fun t => ChipletIs s t i { s.chiplet i with st := .unverified, again := true, timedOut := false })
      ∧ (i < 8 → ((∀ r ∈ s.boot.resets, r.die ≠ i) ∨ s.dieFree i = false) → exec (.chipletReset i) s = .next s)
      ∧ (i < 8 → (∃ r ∈ s.boot.resets, r.die = i) → s.dieFree i = true → s.coh.msgs = [] → (∀ l ∈ s.coh.l2, l.die ≠ i) → Gives (.chipletReset i) s fun t =>
        t.chiplet i = { s.chiplet i with st := .unverified, again := true, timedOut := false } ∧ (∀ j, j ≠ i → t.chiplet j = s.chiplet j)
        ∧ (∀ r ∈ t.roc, coreDie r.core ≠ i) ∧ (∀ h ∈ t.sheafs, h.core ≠ 1536 + i) ∧ MemKept s t)))
  ∧ (∀ (s : State) (tx rx : Nat), s.boot.chiplets.length = 33 → tx < 33 → rx < 33 →
    (s.linkUp tx rx = false → ∀ i ∈ ([.linkAuthFailure tx rx, .keyRollover tx rx, .rolloverReceiverAck tx rx, .switchFlit tx rx,
        .switchAcknowledge tx rx, .keyErase tx rx] : List Instr), exec i s = .next s)
    ∧ (s.linkUp tx rx = true →
      let recent := (s.link tx rx).fails.filter fun t => decide (s.time < t + 1000000)
      ((recent.length < 2 ∨ tx = 32) → Gives (.linkAuthFailure tx rx) s fun t => BootOnly s t ∧ t.boot = { s.boot with links := t.boot.links }
        ∧ t.link tx rx = { s.link tx rx with fails := recent ++ [s.time] })
      ∧ (2 ≤ recent.length → tx < 32 → Gives (.linkAuthFailure tx rx) s fun t => BootOnly s t
        ∧ t.chiplet tx = { s.chiplet tx with st := .unverified, again := true, timedOut := false } ∧ ∀ j, j ≠ tx → t.chiplet j = s.chiplet j)
      ∧ (let step (i : Instr) (a b : Roll) : Prop :=
           ((s.link tx rx).roll = a → Gives i s fun t => BootOnly s t ∧ t.boot = { s.boot with links := t.boot.links }
             ∧ t.link tx rx = { s.link tx rx with roll := b })
           ∧ ((s.link tx rx).roll ≠ a → exec i s = .next s)
         step (.keyRollover tx rx) .idle .sentReceiver ∧ step (.rolloverReceiverAck tx rx) .sentReceiver .sentTransmitter
         ∧ step (.switchFlit tx rx) .sentTransmitter .switched ∧ step (.switchAcknowledge tx rx) .switched .acknowledged)
      ∧ ((s.link tx rx).roll ≠ .acknowledged → exec (.keyErase tx rx) s = .next s)
      ∧ ((s.link tx rx).roll = .acknowledged → Gives (.keyErase tx rx) s fun t => BootOnly s t
        ∧ t.link tx rx = { s.link tx rx with gen := (s.link tx rx).gen + 1, roll := .idle }
        ∧ t.chiplet tx = { s.chiplet tx with keygen := BitVec.ofNat 8 ((s.link tx rx).gen + 1) }
        ∧ t.chiplet rx = { s.chiplet rx with keygen := BitVec.ofNat 8 ((s.link tx rx).gen + 1) }
        ∧ ∀ j, j ≠ tx → j ≠ rx → t.chiplet j = s.chiplet j)))

/-! # Forms that complete -/

/-- R157–R161, R172, R173, R287, R289, R290, R355, R356, R358–R362, R364–R367: under conditions on the state and the operands alone, each
of these answers a next state with its own effect. `lds`, `sts`, `stx`, `ldw` and `ldw.nb`, aligned, within bounds and on what is
there, leave their operation outstanding, and their fibre goes on; `pref` always goes on, with one operation or none. The one entry of a
core's side log, answered and with its extent cached, becomes an operation; a fibre held on an extent or page that is answered goes on; a
store, an atomic or an `hnarrow` that nothing stands in the way of is performed on a translation line, of which no cached entry is
left. A command of each copy-engine kind forms its next chunk from the bytes read, or exchanges LIVE and SHADOW, and leaves once all is
landed and cleared; a chunk that is not a reduce-copy's lands, and one for the scratchpad as its bytes. -/
def Sys2Proof.Claims.EighteenFormsComplete : Prop :=
  (∀ i s w k f sh a t h d disp, Alone i s w k f sh → (tySize t : Int) ∣ (f.reg a).toNat + disp → 0 ≤ (f.reg a).toNat + disp →
    (f.reg a).toNat + disp + tySize t ≤ 4096 * sh.granules →
    let o : Nat := ((f.reg a).toNat + disp).toNat
    let leaves (kind : OpKind) (u : Nat) (shadow : Bool) (dst : Option Reg) (v : Nat) : Prop := Gives i s fun x =>
      (∃ op : MemOp, x.ops = s.ops ++ [op] ∧ op.key = k ∧ op.kind = kind ∧ op.ty = t ∧ op.loc = .scratch u shadow o ∧ op.dst = dst
        ∧ op.val = BitVec.ofNat 64 v)
      ∧ ∃ c, x.fib? k = some { counting (pastInstr i f) (f.selected h.fsel) with cond := c }
    (∀ x : Word, x.toInt = disp → i = .lds h t d a x → leaves .lds k.sheaf false (some d) 0)
    ∧ (∀ x : Word, x.toInt = disp → i = .sts h t d a x → leaves .sts k.sheaf false none (f.get t d))
    ∧ ∀ (x : BitVec 24) kr g, x.toInt = disp → i = .stx h t d a x kr → (f.reg kr).toNat < sh.stook →
        (s.stookOf sh).find? (fun y => y.index % sh.stook == (f.reg kr).toNat) = some g → leaves .stx g.uid true none (f.get t d))
  ∧ (∀ i s w k f sh h t d a disp win o die addr lines, Alone i s w k f sh →
    ((∃ x : Word, x.toInt = disp ∧ i = .ldw h t d a x) ∨ ∃ (x : BitVec 24) (st : Reg), x.toInt = disp ∧ i = .ldwNb h t d a x st) →
    (atInstr i s w k).checkAccess f (f.pair a) disp (tySize t) .read [4] = .ok (win, o) →
    (atInstr i s w k).lookup sh.ctx win.root o false = .at (.weight die addr) lines → die = coreDie f.core →
    Gives i s fun u => (∃ op : MemOp, u.ops = s.ops ++ [op] ∧ op.key = k ∧ op.ty = t ∧ op.loc = .weight die addr ∧ op.roff = o)
      ∧ ∃ c m, u.fib? k = some { counting (pastInstr i f) (f.selected h.fsel) with cond := c, monitor := m })
  ∧ (∀ h lvl a disp s w k f sh, Alone (.pref h lvl a disp) s w k f sh → Gives (.pref h lvl a disp) s fun u =>
    ∃ l : List MemOp, u.ops = s.ops ++ l ∧ l.length ≤ 1 ∧ (∀ op ∈ l, op.key = k ∧ op.kind = .pref lvl ∧ op.dst = none)
      ∧ ∃ c m fl, u.fib? k = some { pastInstr (.pref h lvl a disp) f with flags := fl, cond := c, monitor := m })
  ∧ (∀ (s : State) (core : Nat) (e : SideEntry) loc lines, s.side.filter (·.core == core) = [e] → s.keptAside e.op.key = false →
    s.answered e.on = true → s.lookup e.ctx e.root e.op.roff false = .at loc lines → (∀ p v, loc ≠ .host p v) → s.xc.length ≤ 256 →
    (∃ y ∈ s.xc, y.die = coreDie core ∧ y.core = some core ∧ y.ctx = e.ctx ∧ y.handle = false ∧ y.obj = e.obj
      ∧ y.ext = s.extOf e.ctx e.root e.op.roff ∧ y.shadow = false) →
    Gives (.sideLogReplay core) s fun t => ∃ n, t = { s with
      xc := t.xc, log := t.log, uid := t.uid, side := s.side.erase e
      ops := s.ops ++ [{ e.op with loc, xl := lines, iova := none, replay := n }] })
  ∧ (∀ (s : State) (obj ext : Nat) k f on cap, s.fib? k = some f → f.cond = .waiting (.fault on cap) → XWait.names obj ext on = true →
    s.answered on = true → Gives (.faultingLoadRetry obj ext) s fun t => t.fib? k = some { f with cond := .unbatched })
  ∧ (∀ (s : State) (id line : Nat) (o : MemOp), s.op? id = some o → o.loc.line? = some line → o.homeDone = false → s.opReady o = true →
    s.xlatBusy line o = false → s.remoteHeld line = false → s.lineReady line true false = true → s.badLine line = false →
    let performed (u : State) : Prop := Gives (.translationLineWrite id) s fun t => t = u ∧ t.op? id = none ∧ ∀ x ∈ t.xc, line ∉ x.lines
    let w (bs : List Byte) : State := s.xlatWrite o line bs
    (o.kind = .hnarrow → performed ((((w (leBytes 32 o.unit.toNat)).owe o.key line
        ((w (leBytes 32 o.unit.toNat)).dirOf line).interval s.time).setDst o).finishOp o))
    ∧ (o.kind = .st → s.xlatLine line = true → performed
        (((w (leBytes o.size o.val.toNat)).logHome o line (some ((w (leBytes o.size o.val.toNat)).dirOf line).interval)).finishOp o))
    ∧ (o.kind.isRmw = true → s.xlatLine line = true → s.groupOf o = [o] → performed (s.xlatRmw line o)))
  ∧ (∀ i kind id (s : State) (c : Cmd) src dst rest ps raw places xl line s1, engineEvent i = some (kind, id) → GoesOn s kind id c →
    kind ∈ [1, 2, 4, 5, 8] → c.refs = src :: dst :: rest →
    State.formRuns c src dst (fun b => b) (c.allBanks src) c.nextRuns s = (.ok ps raw places xl line, s1) →
    Gives i s fun t => t = State.modCmd s1.choose.2 id fun d => { d with
      chunk := if kind = 1 ∨ kind = 2 then dealBytes (ps.map fun p => (p.1, p.2.length)) (s1.overlapMix c s1.free places raw ps) else ps
      chunkLen := raw.length, xl, srcLine := line, srcs := places
      last := if c.done + raw.length = uTotal c.unit then some 0 else none })
  ∧ (∀ (s : State) (id : Nat) (c : Cmd) rp ci va refs lr lc lv lens bs p0 x0 l0 s1 ib p1 xl1 line s2 vb p2 xl2 l2 s3,
    GoesOn s 3 id c → c.refs = rp :: ci :: va :: refs → c.lens = lr :: lc :: lv :: lens → uFirst c.unit + uNrows c.unit + 1 ≤ lr / 4 →
    s.readSource c rp (4 * uFirst c.unit) (4 * (uNrows c.unit + 1)) false = (.ok [] bs p0 x0 l0, s1) →
    let vs := uVs c.unit
    let rows := dropElems c.done (csrSegs ((List.range (uNrows c.unit + 1)).map fun i => leNat ((bs.drop (4 * i)).take 4)))
    let want := takeElems (min (csrStep vs) (uLimit c.unit - c.done)) rows
    let n := countElems want
    0 < n → clipElems (min (lc / 4) (lv / vs)) want = want →
    State.readElems c ci 4 want s1 = (.ok [] ib p1 xl1 line, s2) → State.readElems c va vs want s2 = (.ok [] vb p2 xl2 l2, s3) →
    Gives (.csrGather id) s fun t => t = s3.modCmd id fun d => { d with
      chunk := [(.scratch d.sheaf false (ufield d.unit 3 0 19 + 4 * d.done), ib), (.scratch d.sheaf false (ufield d.unit 3 19 19 + vs * d.done), vb)]
      chunkLen := n, xl := nub (xl1 ++ xl2), srcLine := line, srcs := p1 ++ p2
      last := if countElems rows = n then some 0 else if c.done + n = uLimit c.unit then some 0x0006 else none })
  ∧ (∀ (s : State) (id : Nat) (c : Cmd) src dst rest key ps raw places xl line s1, GoesOn s 6 id c → c.done < uLen c.unit →
    c.refs = src :: dst :: rest → s.keySlot c = some key →
    State.formRuns c src dst (gcmCrypt key.key (c.iv key) c.done) false c.nextRuns s = (.ok ps raw places xl line, s1) →
    Gives (.decryptCopyIn id) s fun t => t = s1.modCmd id fun d => { d with
      chunk := ps, chunkLen := raw.length, xl, srcLine := line, srcs := places, ghashNext := BitVec.ofNat 128 (gcmHash key.key d.ghash.toNat raw) })
  ∧ (∀ (s : State) (id : Nat) (c : Cmd) (obj : BitVec 64) (line : Nat) (r : TileRef) (rest : List TileRef), GoesOn s 7 id c → c.refs = r :: rest →
    r.objid = some obj → s.shadowBefore c obj = false → s.stainedFor c obj = false → s.covered c = true → s.cmdCleared c = true →
    s.publishSpread c = true →
    (descLoc (s.objTable c.ctx) obj).line? = some line → s.badLine line = false → s.xlatIdle line id = true → s.lineReady line true false = true →
    let d := ObjDesc.ofNat (s.newestNat (descLoc (s.objTable c.ctx) obj) 64)
    d.gen = obj.toNat / 2 ^ 32 → 1 ≤ d.kind → d.kind ≤ 5 → d.bad = false → d.shadow ≠ 0 →
    let u := ((s.retranslate line).homeWriteLine c.holder false c.dstCls line ((descLoc (s.objTable c.ctx) obj).inLine + 24)
      (leBytes 8 d.shadow ++ leBytes 8 d.live)).countOut c.die line none 16
    Gives (.publish id) s fun t => t = u.modCmd id fun c => { c with
      last := some 0, ivs := nub (c.ivs ++ [(line, (u.dirOf line).interval)]), since := none })
  ∧ (∀ i kind id (s : State) (c : Cmd) (code : BitVec 16), engineEvent i = some (kind, id) → s.cmd? id = some c → uKind c.unit = kind →
    c.recv = false → c.st = .running → c.chunk = [] → c.last = some code → s.cmdCleared c = true → s.cmdSpread c = true → Gives i s fun t => ∀ d ∈ t.cmds, d.id ≠ id)
  ∧ ∀ (s : State) (id : Nat) (c : Cmd), s.cmd? id = some c → c.chunk ≠ [] → c.recv = false → c.noArrival = false → s.dieUp c.die = true → uKind c.unit ≠ 5 →
    c.struck = 0 → s.destBad c = none → s.destWants c = [] → (∀ l ∈ chunkLines c.chunk, s.xlatLine l.1 = true → s.xlatIdle l.1 id = true) →
    Gives (.engineChunkLanded id 0) s fun t =>
      (∃ d, t.cmd? id = some d ∧ d.done = c.done + c.chunkLen ∧ d.chunk = [] ∧ d.last = c.last)
      ∧ ∀ u b off bs h, c.chunk = [(.scratch u b off, bs)] → uKind c.unit = 1 → uBen c.unit = false → s.sheaf? u = some h → MemInv s →
          bs.length ≤ 4096 → t.scratchRead u off bs.length = bs

/-- R23, R203, R218, R219, R221, R222, R230, R331: `qpush`, `qpop` and `qstat` on a bound queue register and `svc` complete with their own
effect, and so do a batch whose lanes have all released and the entry of a waiting record, once there is room in the service queue. -/
def Sys2Proof.Claims.QueueFormsComplete : Prop :=
  (∀ h decl q a x s w k f sh, Alone (.qpush h decl q a x) s w k f sh → sh.bind q.toNat ≠ 0 → Gives (.qpush h decl q a x) s fun t =>
    ∃ op : MemOp, t.ops = s.ops ++ [op] ∧ op.key = k ∧ op.kind = .qpush ∧ op.queue = q.toNat ∧ op.decl = decl ∧ op.dst2 = some x
      ∧ op.released = s.releaseMet k .pkg s.uid ∧ ∀ n < pushBlock (sh.bind q.toNat), op.unit.extractLsb' (32 * n) 32 = f.regs.getD (a.toNat + n) 0)
  ∧ (∀ h d q x s w k f sh, Alone (.qpop h d q x) s w k f sh → sh.bind q.toNat ≠ 0 → Gives (.qpop h d q x) s fun t =>
    (∃ op : MemOp, t.ops = s.ops ++ [op] ∧ op.key = k ∧ op.kind = .qpop ∧ op.queue = q.toNat ∧ op.dst = some d ∧ op.dst2 = some x)
      ∧ ∃ c, t.fib? k = some { counting (pastInstr (.qpop h d q x) f) (f.selected h.fsel) with cond := c })
  ∧ (∀ h d q s w k f sh, Alone (.qstat h d q) s w k f sh → sh.bind q.toNat ≠ 0 → Executes (.qstat h d q) s (goesOn (.qstat h d q) s w k fun s =>
    s.modFib k fun y => y.setReg d (BitVec.ofNat 32 (s.freeOut sh q.toNat * 2 ^ 16 + s.inWaiting sh q.toNat % 2 ^ 16))))
  ∧ (∀ h a num s w k f sh, Alone (.svc h a num) s w k f sh → (∀ b ∈ s.batches, b.id ≠ s.evno * 2 ^ 20 + w.core * 64 + w.quad * 16 + w.slot) →
    Gives (.svc h a num) s fun t => (∃ b : Batch, t.batches = s.batches ++ [b] ∧ b.lanes.map (·.1) = [k] ∧ b.num = num ∧ b.pc = f.pc)
      ∧ ∀ v ∈ t.warps, k ∉ v.members)
  ∧ (∀ (s : State) (id : Nat) (b : Batch) (f : Fibre) (l : FKey × BitVec 128 × Bool) (ls : List (FKey × BitVec 128 × Bool)),
    s.batches.find? (·.id == id) = some b → b.lanes = l :: ls → s.fib? l.1 = some f → (∀ m ∈ b.lanes, m.2.2 = true) →
    s.svcRoom (coreDie f.core) (1 + (b.lanes.length + 1) / 2) = true → Gives (.batchRecord id) s fun t =>
      (∃ bodies : List SvcEntry, (t.svcQ (coreDie f.core)).entries = (s.svcQ (coreDie f.core)).entries ++ ⟨batchHeader s b f, false⟩ :: bodies
        ∧ bodies.length = (b.lanes.length + 1) / 2)
      ∧ ∀ c ∈ t.batches, c.id ≠ id)
  ∧ ∀ (s : State) (die : Nat) (g : List SvcEntry) (rest : List (List SvcEntry)), (s.svcQ die).waiting = g :: rest →
    (s.svcQ die).taken + g.length ≤ 1024 → Gives (.serviceQueueAdmit die) s fun t =>
      t.svcQ die = { s.svcQ die with entries := (s.svcQ die).entries ++ g, waiting := rest }

/-- R157–R161, R172, R173, R218–R222, R230, R287, R289, R290, R331, R355, R356, R358–R362, R364–R367: forms that complete with their own effect
under conditions on the state and the operands alone. -/
def Obligations.TwentyFourFormsComplete : Prop := Claims.EighteenFormsComplete ∧ Claims.QueueFormsComplete
end

