-- ==== Sys2Proof/Laws/Batching.lean ====
section
/-! SUPPORT. The rules of R28–R30 change nothing but the warps and the conditions of fibres that are in them or ready to
join one: the spec lemma of `State.boundary`. -/

namespace Sys2Proof.Laws

open Sys2Proof.Machine Sys2Proof.Safety

theorem fibre_cond_eta (f : Fibre) : f = { f with cond := f.cond } := rfl

theorem rebatched_refl (s : State) : Rebatched s s where
  rest := rfl
  fibres := List.forall₂_same.mpr fun _ _ => ⟨rfl, fun _ => rfl⟩
  quiet := fun _ h => h.1

/-- What is quiet stays quiet. -/
theorem Rebatched_quiet {s t : State} (h : Rebatched s t) {k : FKey} (hk : Quiet s k) : Quiet t k := by
  refine ⟨h.quiet k hk, fun g hg hgk => ?_⟩
  obtain ⟨i, hi, rfl⟩ := List.getElem_of_mem hg
  have hlen := h.fibres.length_eq
  have hf := h.fibres.get (i := i) (by omega) hi
  simp only [List.get_eq_getElem] at hf
  have hkey : (s.fibres[i]'(by omega)).key = k := by rw [← hgk, hf.1]
  rw [hf.2 (by rw [hkey]; exact hk)]
  exact hk.2 _ (List.getElem_mem _) hkey

theorem rebatched_trans {s t u : State} (h : Rebatched s t) (h' : Rebatched t u) : Rebatched s u where
  rest := by
    have a := h.rest
    have b := h'.rest
    rw [b]; simp only; rw [a]
  fibres := by
    have hl := h.fibres.length_eq
    have hl' := h'.fibres.length_eq
    refine List.forall₂_iff_get.mpr ⟨by omega, fun i hi hi' => ?_⟩
    have a := h.fibres.get (i := i) hi (by omega)
    have b := h'.fibres.get (i := i) (by omega) hi'
    refine ⟨?_, fun hq => ?_⟩
    · have a1 := a.1
      have b1 := b.1
      simp only [List.get_eq_getElem] at a1 b1 ⊢
      rw [b1]; simp only; rw [a1]
    · have hk : (t.fibres.get ⟨i, by omega⟩).key = (s.fibres.get ⟨i, hi⟩).key := by rw [a.1]
      rw [b.2 (by rw [hk]; exact Rebatched_quiet h hq), a.2 hq]
  quiet := fun k hk => h'.quiet k (Rebatched_quiet h hk)

/-! ## Lists -/

theorem mem_sortBy_ins {α : Type} (m : α → Nat) (x a : α) : ∀ l : List α, a ∈ sortBy.ins m x l ↔ a = x ∨ a ∈ l
  | [] => by simp [sortBy.ins]
  | y :: l => by
    unfold sortBy.ins
    split
    · simp
    · simp only [List.mem_cons, mem_sortBy_ins m x a l]; tauto

/-- Sorting keeps the entries. -/
theorem mem_sortBy {α : Type} (m : α → Nat) (a : α) : ∀ l : List α, a ∈ sortBy m l ↔ a ∈ l
  | [] => Iff.rfl
  | x :: l => by simp [sortBy, mem_sortBy_ins, mem_sortBy m a l]

/-- The least entry is an entry. -/
theorem mem_of_minBy {α : Type} (m : α → Nat) : ∀ {l : List α} {a : α}, minBy? m l = some a → a ∈ l
  | [], _, h => by simp [minBy?] at h
  | x :: l, a, h => by
    unfold minBy? at h
    split at h
    · simp_all
    · next y hy =>
      have := mem_of_minBy m hy
      split at h <;> simp_all

theorem mem_onePerLane {l : List Fibre} {f : Fibre} (h : f ∈ onePerLane l) : f ∈ l := by
  unfold onePerLane at h
  obtain ⟨n, _, hn⟩ := List.mem_filterMap.mp h
  exact (List.mem_filter.mp (mem_of_minBy _ hn)).1

theorem mem_unbatched {s : State} {c q : Nat} {f : Fibre} (h : f ∈ s.unbatched c q) : f ∈ s.fibres ∧ f.cond = .unbatched := by
  unfold State.unbatched State.quadFibres at h
  have h1 := List.mem_filter.mp h
  exact ⟨(List.mem_filter.mp h1.1).1, by simpa using h1.2⟩

theorem mem_quadWarps {s : State} {c q : Nat} {w : Warp} (h : w ∈ s.quadWarps c q) : w ∈ s.warps := by
  unfold State.quadWarps at h
  exact (List.mem_filter.mp ((mem_sortBy _ _ _).mp h)).1

theorem mem_of_warp {s : State} {c q n : Nat} {w : Warp} (h : s.warp? c q n = some w) : w ∈ s.warps :=
  List.mem_of_find?_eq_some h

/-! ## The parts of a clause boundary -/

/-- Changing the warps alone, with members that were in warps or ready. -/
theorem rebatched_warps {s : State} {ws : List Warp} (h : ∀ w ∈ ws, ∀ k ∈ w.members, ¬ Quiet s k) :
    Rebatched s { s with warps := ws } where
  rest := rfl
  fibres := List.forall₂_same.mpr fun _ _ => ⟨rfl, fun _ => rfl⟩
  quiet := fun k hk w hw hm => h w hw k hm hk

/-- Batching fibres that were in warps or ready. -/
theorem rebatched_batch {s : State} {ks : List FKey} (n : Nat) (h : ∀ k ∈ ks, ¬ Quiet s k) : Rebatched s (s.batch ks n) where
  rest := rfl
  fibres := by
    unfold State.batch updIf
    refine List.forall₂_map_right_iff.mpr (List.forall₂_same.mpr fun f _ => ?_)
    split
    · next hc => exact ⟨rfl, fun hq => absurd hq (h f.key (by simpa using hc))⟩
    · exact ⟨rfl, fun _ => rfl⟩
  quiet := fun k hk => hk.1

theorem not_quiet_of_warp {s : State} {w : Warp} (hw : w ∈ s.warps) {k : FKey} (hk : k ∈ w.members) : ¬ Quiet s k :=
  fun h => h.1 w hw hk

theorem not_quiet_of_unbatched {s : State} {f : Fibre} (hf : f ∈ s.fibres) (hc : f.cond = .unbatched) : ¬ Quiet s f.key :=
  fun h => h.2 f hf rfl hc

theorem mem_leaveWarp {s : State} {k : FKey} {w : Warp} (h : w ∈ (s.leaveWarp k).warps) :
    ∃ v ∈ s.warps, w.members = v.members.filter (· != k) := by
  unfold State.leaveWarp at h
  obtain ⟨v, hv, rfl⟩ := List.mem_map.mp (List.mem_filter.mp h).1
  exact ⟨v, hv, rfl⟩

/-- Taking a fibre out of its warp, ready to be batched. -/
theorem rebatched_unbatchOne {s : State} {k : FKey} (h : ¬ Quiet s k ∨ ∀ f ∈ s.fibres, f.key ≠ k) :
    Rebatched s (s.setCond k .unbatched) where
  rest := rfl
  fibres := by
    simp only [State.setCond, State.modFib, State.leaveWarp, updIf]
    refine List.forall₂_map_right_iff.mpr (List.forall₂_same.mpr fun f hf => ?_)
    split
    · next hc =>
      have hc : f.key = k := by simpa using hc
      refine ⟨rfl, fun hq => ?_⟩
      rcases h with h | h
      · exact absurd (hc ▸ hq) h
      · exact absurd hc (h f hf)
    · exact ⟨rfl, fun _ => rfl⟩
  quiet := fun j hj w hw hm => by
    obtain ⟨v, hv, he⟩ := mem_leaveWarp (s := s.modFib k fun f => { f with cond := .unbatched }) hw
    rw [he] at hm
    exact hj.1 v hv (List.mem_filter.mp hm).1

/-- Taking fibres out of their warps. -/
theorem rebatched_unbatch : ∀ (ks : List FKey) (s : State), (∀ k ∈ ks, ¬ Quiet s k ∨ ∀ f ∈ s.fibres, f.key ≠ k) →
    Rebatched s (s.unbatch ks)
  | [], s, _ => rebatched_refl s
  | k :: ks, s, h => by
    have h1 := rebatched_unbatchOne (h k (by simp))
    refine rebatched_trans h1 (rebatched_unbatch ks _ fun j hj => ?_)
    by_cases hex : ∃ f ∈ s.fibres, f.key = j
    · left
      rcases h j (by simp [hj]) with hq | hn
      · intro hquiet
        apply hq
        refine ⟨fun w hw hm => ?_, fun f hf hfk hc => ?_⟩
        · by_cases hjk : j = k
          · obtain ⟨f, hf, hfj⟩ := hex
            refine hquiet.2 { f with cond := .unbatched } ?_ hfj rfl
            simp only [State.setCond, State.modFib, State.leaveWarp, updIf, List.mem_map]
            exact ⟨f, hf, by simp [hfj, hjk]⟩
          · refine hquiet.1 { w with members := w.members.filter (· != k) } ?_ (by simp [hm, hjk])
            simp only [State.setCond, State.modFib, State.leaveWarp, List.mem_filter, List.mem_map]
            refine ⟨⟨w, hw, rfl⟩, ?_⟩
            have : j ∈ w.members.filter (· != k) := by simp [hm, hjk]
            simpa using List.ne_nil_of_mem this
        · refine hquiet.2 (if f.key == k then { f with cond := .unbatched } else f) ?_ ?_ ?_
          · simp only [State.setCond, State.modFib, State.leaveWarp, updIf, List.mem_map]
            exact ⟨f, hf, rfl⟩
          · split <;> exact hfk
          · split <;> simp [hc]
      · obtain ⟨f, hf, hfj⟩ := hex
        exact absurd hfj (hn f hf)
    · right
      intro g hg hgj
      simp only [State.setCond, State.modFib, State.leaveWarp, updIf, List.mem_map] at hg
      obtain ⟨f, hf, rfl⟩ := hg
      exact hex ⟨f, hf, by rw [← hgj]; split <;> rfl⟩

theorem rebatched_splitWarp {s : State} {w : Warp} (hw : w ∈ s.warps) : Rebatched s (s.splitWarp w) := by
  unfold State.splitWarp
  split
  · exact rebatched_refl s
  · exact rebatched_unbatch _ _ fun k hk => .inl (not_quiet_of_warp hw (List.mem_filter.mp hk).1)

theorem rebatched_mergeWarps {s : State} {x y : Warp} (hx : x ∈ s.warps) (hy : y ∈ s.warps) : Rebatched s (s.mergeWarps x y) := by
  unfold State.mergeWarps
  simp only []
  refine rebatched_trans (rebatched_warps (s := s) ?_) (rebatched_batch _ ?_)
  · intro w hw k hk
    rcases List.mem_append.mp hw with hw | hw
    · exact not_quiet_of_warp (List.mem_filter.mp hw).1 hk
    · rw [List.mem_singleton.mp hw] at hk
      rcases List.mem_append.mp ((mem_sortBy _ _ _).mp hk) with hk | hk
      · exact not_quiet_of_warp hx hk
      · exact not_quiet_of_warp hy hk
  · intro k hk
    exact not_quiet_of_warp (List.mem_append_right _ (List.mem_singleton.mpr rfl)) hk

theorem rebatched_mergeAll (c q : Nat) : ∀ (n : Nat) (s : State) (slot : Nat), Rebatched s (s.mergeAll c q slot n)
  | 0, s, _ => rebatched_refl s
  | n + 1, s, slot => by
    unfold State.mergeAll
    split
    · exact rebatched_refl s
    · next w hw =>
      simp only []
      split
      · exact rebatched_refl s
      · next v hv =>
        exact rebatched_trans (rebatched_mergeWarps (mem_of_warp hw) (mem_quadWarps (List.mem_of_find?_eq_some hv)))
          (rebatched_mergeAll c q n _ _)

theorem rebatched_fillWarp (s : State) (c q n : Nat) : Rebatched s (s.fillWarp c q n) := by
  unfold State.fillWarp
  split
  · exact rebatched_refl s
  · next w hw =>
    simp only []
    have hnew : ∀ k ∈ (onePerLane ((s.unbatched c q).filter fun f => s.launchNo f.key == w.launch && f.pc.toNat == s.warpPc w
        && f.clause == none && !(w.members.map FKey.lane).contains f.key.lane)).map (·.key), ¬ Quiet s k := by
      intro k hk
      obtain ⟨f, hf, rfl⟩ := List.mem_map.mp hk
      have h1 := mem_unbatched (List.mem_filter.mp (mem_onePerLane hf)).1
      exact not_quiet_of_unbatched h1.1 h1.2
    refine rebatched_trans (rebatched_warps (s := s) (ws := _) ?_) (rebatched_batch _ ?_)
    · intro v hv k hk
      unfold updIf at hv
      obtain ⟨u, hu, rfl⟩ := List.mem_map.mp hv
      split at hk
      · rcases List.mem_append.mp ((mem_sortBy _ _ _).mp hk) with hk | hk
        · exact not_quiet_of_warp hu hk
        · exact hnew k hk
      · exact not_quiet_of_warp hu hk
    · intro k hk hq
      obtain ⟨f, hf, rfl⟩ := List.mem_map.mp hk
      have h1 := mem_unbatched (List.mem_filter.mp (mem_onePerLane hf)).1
      exact hq.2 f h1.1 rfl h1.2

/-- R28 changes nothing but how fibres are batched. -/
theorem rebatched_boundary (s : State) (c q n : Nat) : Rebatched s (s.boundary c q n) := by
  unfold State.boundary
  split
  · exact rebatched_refl s
  · next w hw =>
    split
    · exact rebatched_unbatch _ _ fun k hk => .inl (not_quiet_of_warp (mem_of_warp hw) hk)
    · exact rebatched_trans (rebatched_trans (rebatched_splitWarp (mem_of_warp hw)) (rebatched_mergeAll _ _ _ _ _))
        (rebatched_fillWarp _ _ _ _)

/-- The end of an instruction changes nothing but how fibres are batched. -/
theorem rebatched_endOfInstr (s : State) (w : Warp) : Rebatched s (s.endOfInstr w) := by
  unfold State.endOfInstr
  split
  · split
    · exact rebatched_boundary _ _ _ _
    · exact rebatched_refl s
  · exact rebatched_refl s

end Sys2Proof.Laws
end

