-- ==== Sys2Proof/Laws/Fabric.lean ====
section
/-! SUPPORT. What the forward error correction of a flit does (R377). -/

namespace Sys2Proof.Machine

/-- The number whose little-endian bytes they are. -/
theorem leNat_leBytes (n v : Nat) : leNat (leBytes n v) = v % 256 ^ n := by
  induction n generalizing v with
  | zero => simp [leBytes, leNat, Nat.mod_one]
  | succ n ih =>
    have e : leBytes (n + 1) v = BitVec.ofNat 8 v :: leBytes n (v / 256) := by
      simp only [leBytes, List.range_succ_eq_map, List.map_cons, List.map_map]
      congr 1
      · simp
      · apply List.map_congr_left
        intro i _
        simp only [Function.comp]
        rw [Nat.div_div_eq_div_mul, show 2 ^ (8 * i.succ) = 256 * 2 ^ (8 * i) by rw [Nat.mul_succ, Nat.pow_add]; omega]
    rw [e, leNat, ih, BitVec.toNat_ofNat, show 256 ^ (n + 1) = 256 * 256 ^ n by rw [Nat.pow_succ, Nat.mul_comm], Nat.mod_mul]

/-- A valid codeword is taken as it is. -/
theorem rsNear_valid (n : Nat) {w : List Byte} (h : rsValid w = true) : rsNear n w = some w := by
  induction n with
  | zero => simp [rsNear, h]
  | succ n ih => simp [rsNear, ih]

theorem codeword_length (flit : List Byte) (odd : Nat) : (codeword flit odd).length = 128 := by simp [codeword]

/-- Both codewords of a flit that is sent are valid. -/
theorem codeword_sent {bytes : List Byte} (h : bytes.length = 248) {odd : Nat} (ho : odd < 2) :
    rsValid (codeword (bytes ++ fecParity bytes) odd) = true := by
  have take : (codeword (bytes ++ fecParity bytes) odd).take 124 = (codeword bytes odd).take 124 := by
    apply List.ext_getElem
    · simp [codeword]
    · intro i hi _
      simp only [codeword, List.getElem_take, List.getElem_map, List.getElem_range]
      have : i < 124 := by simp [codeword] at hi; omega
      simp only [List.getD_eq_getElem?_getD]
      rw [List.getElem?_append_left (by omega)]
  have drop : ∀ p : BitVec 32, Config.rsParity ((codeword bytes odd).take 124) = p →
      (codeword (bytes ++ fecParity bytes) odd).drop 124 = leBytes 4 p.toNat := by
    intro p hp
    apply List.ext_getElem
    · simp [codeword, leBytes]
    · intro i hi _
      have : i < 4 := by simp [codeword] at hi; omega
      simp only [codeword, List.getElem_drop, List.getElem_map, List.getElem_range, List.getD_eq_getElem?_getD]
      rw [List.getElem?_append_right (by omega)]
      have e : 2 * (124 + i) + odd - bytes.length = 2 * i + odd := by omega
      rw [e]
      rcases (by omega : odd = 0 ∨ odd = 1) with rfl | rfl
      · simp [fecParity, hp, show 2 * i < 8 by omega, leBytes, this]
      · simp [fecParity, hp, show 2 * i + 1 < 8 by omega, leBytes, show (2 * i + 1) / 2 = i by omega, show (2 * i + 1) % 2 = 1 by omega, this]
  unfold rsValid
  rw [take, drop _ rfl, leNat_leBytes, Nat.mod_eq_of_lt (by exact (Config.rsParity _).isLt)]
  simp

/-- A flit that arrives as it was sent is taken as it is. -/
theorem fecCorrect_sent {bytes : List Byte} (h : bytes.length = 248) : fecCorrect (bytes ++ fecParity bytes) = some (bytes ++ fecParity bytes) := by
  have l : (bytes ++ fecParity bytes).length = 256 := by simp [fecParity, h]
  unfold fecCorrect
  rw [rsNear_valid 2 (codeword_sent h (by decide)), rsNear_valid 2 (codeword_sent h (by decide))]
  refine congrArg some (List.ext_getElem (by simp [l]) fun i hi _ => ?_)
  have : i < 256 := by simpa using hi
  rw [List.getElem_map, List.getElem_range]
  generalize bytes ++ fecParity bytes = b at *
  split <;> rename_i e <;> simp only [beq_iff_eq] at e <;>
    simp [codeword, List.getD_eq_getElem?_getD, show i / 2 < 128 by omega]
  · simp [show 2 * (i / 2) = i by omega, l, this]
  · simp [show 2 * (i / 2) + 1 = i by omega, l, this]

end Sys2Proof.Machine
end

