-- ==== Sys2Proof/Laws/Memory.lean ====
section
/-! SUPPORT. The laws of the memory list: every operation keeps the canonical form, a read after a write of the same byte
gives what was written, and a write leaves every other byte alone. -/

namespace Sys2Proof.Laws

open Sys2Proof.Machine

/-- A canonical list stays canonical above a smaller bound. -/
theorem wfFrom_mono : ∀ {l : List Host.Cell} {m n : Nat}, m ≤ n → Memory.wfFrom l n = true → Memory.wfFrom l m = true
  | [], _, _, _, _ => rfl
  | (b, v) :: l, m, n, hmn, h => by
    simp only [Memory.wfFrom, Bool.and_eq_true, decide_eq_true_eq] at h ⊢
    exact ⟨⟨by omega, h.1.2⟩, h.2⟩

/-- A byte below the bound of a canonical list is unlisted. -/
theorem read_below : ∀ {l : List Host.Cell} {a n : Nat}, Memory.wfFrom l n = true → a < n → Memory.read l a = Memory.unlisted
  | [], _, _, _, _ => rfl
  | (b, v) :: l, a, n, h, ha => by
    simp only [Memory.wfFrom, Bool.and_eq_true, decide_eq_true_eq] at h
    have hb : a < b := by omega
    have hne : (b == a) = false := by simp; omega
    simp [Memory.read, hne, hb]

/-- A write keeps the canonical form. -/
theorem write_wfFrom : ∀ {l : List Host.Cell} {a n : Nat} (v : Byte), n ≤ a → Memory.wfFrom l n = true →
    Memory.wfFrom (Memory.write l a v) n = true
  | [], a, n, v, hn, _ => by
    by_cases hv : v = Memory.unlisted <;> simp [Memory.write, Memory.wfFrom, hv, hn]
  | (b, w) :: l, a, n, v, hn, h => by
    have h' := h
    simp only [Memory.wfFrom, Bool.and_eq_true, decide_eq_true_eq] at h
    obtain ⟨⟨h1, h2⟩, h3⟩ := h
    unfold Memory.write
    split
    · next hab =>
      split
      · exact h'
      · next hv =>
        simp only [Memory.wfFrom, Bool.and_eq_true, decide_eq_true_eq]
        refine ⟨⟨hn, ?_⟩, ⟨⟨by omega, h2⟩, h3⟩⟩
        simpa using hv
    · next hab =>
      split
      · next he =>
        have he : a = b := by simpa using he
        split
        · exact wfFrom_mono (by omega) h3
        · next hv =>
          simp only [Memory.wfFrom, Bool.and_eq_true, decide_eq_true_eq]
          refine ⟨⟨hn, ?_⟩, wfFrom_mono (by omega) h3⟩
          simpa using hv
      · next he =>
        have he : a ≠ b := by simpa using he
        simp only [Memory.wfFrom, Bool.and_eq_true, decide_eq_true_eq]
        exact ⟨⟨h1, h2⟩, write_wfFrom v (by omega) h3⟩

/-- A write keeps the canonical form. -/
theorem write_wf {l : List Host.Cell} (a : Nat) (v : Byte) (h : Memory.wf l = true) : Memory.wf (Memory.write l a v) = true :=
  write_wfFrom v (Nat.zero_le a) h

/-- A read after a write of the same byte. -/
theorem read_write_same : ∀ {l : List Host.Cell} {a n : Nat} (v : Byte), Memory.wfFrom l n = true →
    Memory.read (Memory.write l a v) a = v
  | [], a, _, v, _ => by
    by_cases hv : v = Memory.unlisted <;> simp [Memory.write, Memory.read, hv]
  | (b, w) :: l, a, n, v, h => by
    have h' := h
    simp only [Memory.wfFrom, Bool.and_eq_true, decide_eq_true_eq] at h
    obtain ⟨⟨h1, h2⟩, h3⟩ := h
    unfold Memory.write
    split
    · next hab =>
      split
      · next hv =>
        have hv : v = Memory.unlisted := by simpa using hv
        have hne : (b == a) = false := by simp; omega
        simp [Memory.read, hne, hab, hv]
      · simp [Memory.read]
    · next hab =>
      split
      · next he =>
        have he : a = b := by simpa using he
        split
        · next hv =>
          have hv : v = Memory.unlisted := by simpa using hv
          rw [read_below h3 (by omega), hv]
        · simp [Memory.read]
      · next he =>
        have he : ¬ a = b := by simpa using he
        have hne : (b == a) = false := by simp; omega
        have hlt : ¬ a < b := hab
        simp only [Memory.read, hne, hlt]
        exact read_write_same v h3

/-- A write leaves every other byte alone. -/
theorem read_write_other : ∀ {l : List Host.Cell} {a c n : Nat} (v : Byte), Memory.wfFrom l n = true → c ≠ a →
    Memory.read (Memory.write l a v) c = Memory.read l c
  | [], a, c, _, v, _, hc => by
    have hne : (a == c) = false := by simp; omega
    by_cases hv : v = Memory.unlisted <;> simp [Memory.write, Memory.read, hv, hne]
  | (b, w) :: l, a, c, n, v, h, hc => by
    simp only [Memory.wfFrom, Bool.and_eq_true, decide_eq_true_eq] at h
    obtain ⟨⟨h1, h2⟩, h3⟩ := h
    have hac : (a == c) = false := by simp; omega
    unfold Memory.write
    split
    · next hab =>
      split
      · rfl
      · by_cases hca : c < a
        · have hb : (b == c) = false := by simp; omega
          have hcb : c < b := by omega
          simp [Memory.read, hac, hca, hb, hcb]
        · simp [Memory.read, hac, hca]
    · next hab =>
      split
      · next he =>
        have he : a = b := by simpa using he
        subst he
        by_cases hca : c < a
        · split
          · rw [read_below h3 (by omega)]
            simp [Memory.read, hac, hca]
          · simp [Memory.read, hac, hca]
        · split
          · simp [Memory.read, hac, hca]
          · simp [Memory.read, hac, hca]
      · simp only [Memory.read]
        split
        · rfl
        · split
          · rfl
          · exact read_write_other v h3 hc

/-- Reset memory is canonical. -/
theorem reset_wf : Memory.wf State.reset.mem = true := rfl

/-- A run of writes keeps the canonical form. -/
theorem writeN_wf : ∀ {l : List Host.Cell} (a : Nat) (bs : List Byte), Memory.wf l = true →
    Memory.wf (Memory.writeN l a bs) = true
  | _, _, [], h => h
  | _, a, _ :: bs, h => writeN_wf (a + 1) bs (write_wf a _ h)

/-- A byte outside a run of writes is left alone. -/
theorem read_writeN_other : ∀ {l : List Host.Cell} (a : Nat) (bs : List Byte) {c : Nat}, Memory.wf l = true →
    (∀ i, i < bs.length → c ≠ a + i) → Memory.read (Memory.writeN l a bs) c = Memory.read l c
  | _, _, [], _, _, _ => rfl
  | l, a, b :: bs, c, h, hc => by
    have h0 : c ≠ a := by simpa using hc 0 (by simp)
    rw [Memory.writeN, read_writeN_other (a + 1) bs (write_wf a b h), read_write_other b h h0]
    intro i hi
    have := hc (i + 1) (by simpa using hi)
    omega

/-- A byte within a run of writes reads as it was written. -/
theorem read_writeN_same : ∀ {l : List Host.Cell} (a : Nat) (bs : List Byte) (i : Nat), Memory.wf l = true → i < bs.length →
    Memory.read (Memory.writeN l a bs) (a + i) = bs.getD i 0
  | _, _, [], _, _, hi => by simp at hi
  | l, a, b :: bs, 0, h, _ => by
    rw [Memory.writeN, read_writeN_other (a + 1) bs (write_wf a b h)]
    · simpa using read_write_same b h
    · intro i _; omega
  | l, a, b :: bs, i + 1, h, hi => by
    have := read_writeN_same (a + 1) bs i (write_wf a b h) (by simpa using hi)
    rw [Memory.writeN, show a + (i + 1) = a + 1 + i by omega, this]
    simp

/-- Noting that an open byte is written leaves memory alone. -/
@[simp] theorem noteByte_mem (s : State) (l : Loc) : (s.noteByte l).mem = s.mem := by
  unfold State.noteByte
  cases l <;> simp only
  · split <;> rfl
  · split <;> rfl

/-- One byte stored where it is held, in the memory list. -/
theorem putByte_mem (s : State) (l : Loc) (b : Byte) :
    (s.putByte l b).mem = match s.keyOf l with | some k => Memory.write s.mem k b | none => s.mem := by
  unfold State.putByte
  cases s.keyOf l <;> rfl

/-- A store where the bytes are held keeps the canonical form. -/
theorem rawWrite_wf : ∀ (s : State) (l : Loc) (bs : List Byte), Memory.wf s.mem = true →
    Memory.wf (s.rawWrite l bs).mem = true
  | _, _, [], h => h
  | s, l, b :: bs, h => by
    unfold State.rawWrite
    apply rawWrite_wf
    rw [putByte_mem]
    split
    · exact write_wf _ _ h
    · exact h

/-- Noting that an open byte is written changes the notes alone. -/
theorem noteByte_eq (s : State) (l : Loc) : s.noteByte l = { s with sheafs := (s.noteByte l).sheafs, areas := (s.noteByte l).areas } := by
  unfold State.noteByte
  cases l <;> simp only
  · split <;> rfl
  · split <;> rfl

/-- A store where the bytes are held changes nothing but memory, and the notes of bytes that were open. -/
theorem rawWrite_eq : ∀ (s : State) (l : Loc) (bs : List Byte), s.rawWrite l bs
    = { s with mem := (s.rawWrite l bs).mem, sheafs := (s.rawWrite l bs).sheafs, areas := (s.rawWrite l bs).areas }
  | _, _, [] => rfl
  | s, l, b :: bs => by
    unfold State.rawWrite
    rw [rawWrite_eq]
    unfold State.putByte
    split
    · rw [noteByte_eq]
    · rfl

/-- A place outside every placed scratchpad and every open area: host memory, another package's, a weight store. -/
def plainLoc : Loc → Bool
  | .hostPa _ | .hostUn _ _ | .peer _ _ | .pool _ _ | .weight _ _ => true
  | _ => false

/-- Moving a place on twice. -/
theorem loc_add_add (l : Loc) (i j : Nat) : (l.add i).add j = l.add (i + j) := by
  cases l <;> simp [Loc.add, Nat.add_assoc]

/-- Moving a place on by nothing. -/
theorem loc_add_zero (l : Loc) : l.add 0 = l := by
  cases l <;> rfl

/-- One step of a store. -/
theorem rawWrite_cons (s : State) (l : Loc) (b : Byte) (bs : List Byte) : s.rawWrite l (b :: bs) = (s.putByte l b).rawWrite (l.add 1) bs := rfl

/-- Where a sheaf's banks lie. -/
theorem keyOf_eq_of_sheafs {s t : State} (h : ∀ u, (t.sheaf? u).map (fun g => (g.saved, g.core, g.bank, g.baseLive, g.baseShadow))
    = (s.sheaf? u).map (fun g => (g.saved, g.core, g.bank, g.baseLive, g.baseShadow))) (l : Loc) : t.keyOf l = s.keyOf l := by
  cases l with
  | scratch u bank off =>
    have hu := h u
    unfold State.keyOf Sheaf.bankBase
    cases ht : t.sheaf? u <;> cases hs : s.sheaf? u <;> simp_all
  | _ => rfl

/-- A byte whose key none of the stored bytes has is left alone. -/
theorem rawWrite_other : ∀ (s : State) (l : Loc) (bs : List Byte) (c : Nat), Memory.wf s.mem = true → plainLoc l = true →
    (∀ i, i < bs.length → (l.add i).key ≠ some c) →
    Memory.read (s.rawWrite l bs).mem c = Memory.read s.mem c
  | _, _, [], _, _, _, _ => rfl
  | s, l, b :: bs, c, h, hp, hk => by
    have h0 := hk 0 (by simp)
    rw [loc_add_zero] at h0
    have hr : ∀ i, i < bs.length → ((l.add 1).add i).key ≠ some c := fun i hi => by
      rw [loc_add_add, Nat.add_comm]; exact hk (i + 1) (by simpa using hi)
    have hp1 : plainLoc (l.add 1) = true := by cases l <;> simp_all [Loc.add, plainLoc]
    have hkey : s.keyOf l = l.key := by cases l <;> simp_all [State.keyOf, plainLoc]
    rw [rawWrite_cons]
    have hm := putByte_mem s l b
    rw [hkey] at hm
    cases hl : l.key with
    | none =>
      rw [hl] at hm
      rw [rawWrite_other _ (l.add 1) bs c (by rw [hm]; exact h) hp1 hr, hm]
    | some k =>
      have hc : c ≠ k := fun e => h0 (by rw [hl, e])
      rw [hl] at hm
      rw [rawWrite_other _ (l.add 1) bs c (by rw [hm]; exact write_wf k b h) hp1 hr, hm]
      exact read_write_other b h hc

end Sys2Proof.Laws
end

