-- ==== Sys2Proof/Laws/State.lean ====
section
/-! SUPPORT. What each update of State leaves as it was: one lemma for each field and update, true by unfolding. -/

namespace Sys2Proof.Laws

open Sys2Proof.Machine

/-! ## `modFib` -/

@[simp] theorem modFib_time (s : State) (k : FKey) (g : Fibre → Fibre) : (s.modFib k g).time = s.time := rfl
@[simp] theorem modFib_evno (s : State) (k : FKey) (g : Fibre → Fibre) : (s.modFib k g).evno = s.evno := rfl
@[simp] theorem modFib_free (s : State) (k : FKey) (g : Fibre → Fibre) : (s.modFib k g).free = s.free := rfl
@[simp] theorem modFib_uid (s : State) (k : FKey) (g : Fibre → Fibre) : (s.modFib k g).uid = s.uid := rfl
@[simp] theorem modFib_agenda (s : State) (k : FKey) (g : Fibre → Fibre) : (s.modFib k g).agenda = s.agenda := rfl
@[simp] theorem modFib_issue (s : State) (k : FKey) (g : Fibre → Fibre) : (s.modFib k g).issue = s.issue := rfl
@[simp] theorem modFib_mem (s : State) (k : FKey) (g : Fibre → Fibre) : (s.modFib k g).mem = s.mem := rfl
@[simp] theorem modFib_areas (s : State) (k : FKey) (g : Fibre → Fibre) : (s.modFib k g).areas = s.areas := rfl
@[simp] theorem modFib_warps (s : State) (k : FKey) (g : Fibre → Fibre) : (s.modFib k g).warps = s.warps := rfl
@[simp] theorem modFib_quads (s : State) (k : FKey) (g : Fibre → Fibre) : (s.modFib k g).quads = s.quads := rfl
@[simp] theorem modFib_sheafs (s : State) (k : FKey) (g : Fibre → Fibre) : (s.modFib k g).sheafs = s.sheafs := rfl
@[simp] theorem modFib_launches (s : State) (k : FKey) (g : Fibre → Fibre) : (s.modFib k g).launches = s.launches := rfl
@[simp] theorem modFib_ctxs (s : State) (k : FKey) (g : Fibre → Fibre) : (s.modFib k g).ctxs = s.ctxs := rfl
@[simp] theorem modFib_lastCtx (s : State) (k : FKey) (g : Fibre → Fibre) : (s.modFib k g).lastCtx = s.lastCtx := rfl
@[simp] theorem modFib_parts (s : State) (k : FKey) (g : Fibre → Fibre) : (s.modFib k g).parts = s.parts := rfl
@[simp] theorem modFib_cores (s : State) (k : FKey) (g : Fibre → Fibre) : (s.modFib k g).cores = s.cores := rfl
@[simp] theorem modFib_refills (s : State) (k : FKey) (g : Fibre → Fibre) : (s.modFib k g).refills = s.refills := rfl
@[simp] theorem modFib_ops (s : State) (k : FKey) (g : Fibre → Fibre) : (s.modFib k g).ops = s.ops := rfl
@[simp] theorem modFib_side (s : State) (k : FKey) (g : Fibre → Fibre) : (s.modFib k g).side = s.side := rfl
@[simp] theorem modFib_log (s : State) (k : FKey) (g : Fibre → Fibre) : (s.modFib k g).log = s.log := rfl
@[simp] theorem modFib_owed (s : State) (k : FKey) (g : Fibre → Fibre) : (s.modFib k g).owed = s.owed := rfl
@[simp] theorem modFib_roc (s : State) (k : FKey) (g : Fibre → Fibre) : (s.modFib k g).roc = s.roc := rfl
@[simp] theorem modFib_ic (s : State) (k : FKey) (g : Fibre → Fibre) : (s.modFib k g).ic = s.ic := rfl
@[simp] theorem modFib_xc (s : State) (k : FKey) (g : Fibre → Fibre) : (s.modFib k g).xc = s.xc := rfl
@[simp] theorem modFib_matq (s : State) (k : FKey) (g : Fibre → Fibre) : (s.modFib k g).matq = s.matq := rfl
@[simp] theorem modFib_batches (s : State) (k : FKey) (g : Fibre → Fibre) : (s.modFib k g).batches = s.batches := rfl
@[simp] theorem modFib_svc (s : State) (k : FKey) (g : Fibre → Fibre) : (s.modFib k g).svc = s.svc := rfl
@[simp] theorem modFib_coh (s : State) (k : FKey) (g : Fibre → Fibre) : (s.modFib k g).coh = s.coh := rfl
@[simp] theorem modFib_chk (s : State) (k : FKey) (g : Fibre → Fibre) : (s.modFib k g).chk = s.chk := rfl
@[simp] theorem modFib_rel (s : State) (k : FKey) (g : Fibre → Fibre) : (s.modFib k g).rel = s.rel := rfl
@[simp] theorem modFib_cmds (s : State) (k : FKey) (g : Fibre → Fibre) : (s.modFib k g).cmds = s.cmds := rfl
@[simp] theorem modFib_recv (s : State) (k : FKey) (g : Fibre → Fibre) : (s.modFib k g).recv = s.recv := rfl
@[simp] theorem modFib_fab (s : State) (k : FKey) (g : Fibre → Fibre) : (s.modFib k g).fab = s.fab := rfl
@[simp] theorem modFib_host (s : State) (k : FKey) (g : Fibre → Fibre) : (s.modFib k g).host = s.host := rfl
@[simp] theorem modFib_boot (s : State) (k : FKey) (g : Fibre → Fibre) : (s.modFib k g).boot = s.boot := rfl

/-! ## `modSheaf` -/

@[simp] theorem modSheaf_time (s : State) (u : Nat) (g : Sheaf → Sheaf) : (s.modSheaf u g).time = s.time := rfl
@[simp] theorem modSheaf_evno (s : State) (u : Nat) (g : Sheaf → Sheaf) : (s.modSheaf u g).evno = s.evno := rfl
@[simp] theorem modSheaf_free (s : State) (u : Nat) (g : Sheaf → Sheaf) : (s.modSheaf u g).free = s.free := rfl
@[simp] theorem modSheaf_uid (s : State) (u : Nat) (g : Sheaf → Sheaf) : (s.modSheaf u g).uid = s.uid := rfl
@[simp] theorem modSheaf_agenda (s : State) (u : Nat) (g : Sheaf → Sheaf) : (s.modSheaf u g).agenda = s.agenda := rfl
@[simp] theorem modSheaf_issue (s : State) (u : Nat) (g : Sheaf → Sheaf) : (s.modSheaf u g).issue = s.issue := rfl
@[simp] theorem modSheaf_mem (s : State) (u : Nat) (g : Sheaf → Sheaf) : (s.modSheaf u g).mem = s.mem := rfl
@[simp] theorem modSheaf_areas (s : State) (u : Nat) (g : Sheaf → Sheaf) : (s.modSheaf u g).areas = s.areas := rfl
@[simp] theorem modSheaf_fibres (s : State) (u : Nat) (g : Sheaf → Sheaf) : (s.modSheaf u g).fibres = s.fibres := rfl
@[simp] theorem modSheaf_warps (s : State) (u : Nat) (g : Sheaf → Sheaf) : (s.modSheaf u g).warps = s.warps := rfl
@[simp] theorem modSheaf_quads (s : State) (u : Nat) (g : Sheaf → Sheaf) : (s.modSheaf u g).quads = s.quads := rfl
@[simp] theorem modSheaf_launches (s : State) (u : Nat) (g : Sheaf → Sheaf) : (s.modSheaf u g).launches = s.launches := rfl
@[simp] theorem modSheaf_ctxs (s : State) (u : Nat) (g : Sheaf → Sheaf) : (s.modSheaf u g).ctxs = s.ctxs := rfl
@[simp] theorem modSheaf_lastCtx (s : State) (u : Nat) (g : Sheaf → Sheaf) : (s.modSheaf u g).lastCtx = s.lastCtx := rfl
@[simp] theorem modSheaf_parts (s : State) (u : Nat) (g : Sheaf → Sheaf) : (s.modSheaf u g).parts = s.parts := rfl
@[simp] theorem modSheaf_cores (s : State) (u : Nat) (g : Sheaf → Sheaf) : (s.modSheaf u g).cores = s.cores := rfl
@[simp] theorem modSheaf_refills (s : State) (u : Nat) (g : Sheaf → Sheaf) : (s.modSheaf u g).refills = s.refills := rfl
@[simp] theorem modSheaf_ops (s : State) (u : Nat) (g : Sheaf → Sheaf) : (s.modSheaf u g).ops = s.ops := rfl
@[simp] theorem modSheaf_side (s : State) (u : Nat) (g : Sheaf → Sheaf) : (s.modSheaf u g).side = s.side := rfl
@[simp] theorem modSheaf_log (s : State) (u : Nat) (g : Sheaf → Sheaf) : (s.modSheaf u g).log = s.log := rfl
@[simp] theorem modSheaf_owed (s : State) (u : Nat) (g : Sheaf → Sheaf) : (s.modSheaf u g).owed = s.owed := rfl
@[simp] theorem modSheaf_roc (s : State) (u : Nat) (g : Sheaf → Sheaf) : (s.modSheaf u g).roc = s.roc := rfl
@[simp] theorem modSheaf_ic (s : State) (u : Nat) (g : Sheaf → Sheaf) : (s.modSheaf u g).ic = s.ic := rfl
@[simp] theorem modSheaf_xc (s : State) (u : Nat) (g : Sheaf → Sheaf) : (s.modSheaf u g).xc = s.xc := rfl
@[simp] theorem modSheaf_matq (s : State) (u : Nat) (g : Sheaf → Sheaf) : (s.modSheaf u g).matq = s.matq := rfl
@[simp] theorem modSheaf_batches (s : State) (u : Nat) (g : Sheaf → Sheaf) : (s.modSheaf u g).batches = s.batches := rfl
@[simp] theorem modSheaf_svc (s : State) (u : Nat) (g : Sheaf → Sheaf) : (s.modSheaf u g).svc = s.svc := rfl
@[simp] theorem modSheaf_coh (s : State) (u : Nat) (g : Sheaf → Sheaf) : (s.modSheaf u g).coh = s.coh := rfl
@[simp] theorem modSheaf_chk (s : State) (u : Nat) (g : Sheaf → Sheaf) : (s.modSheaf u g).chk = s.chk := rfl
@[simp] theorem modSheaf_rel (s : State) (u : Nat) (g : Sheaf → Sheaf) : (s.modSheaf u g).rel = s.rel := rfl
@[simp] theorem modSheaf_cmds (s : State) (u : Nat) (g : Sheaf → Sheaf) : (s.modSheaf u g).cmds = s.cmds := rfl
@[simp] theorem modSheaf_recv (s : State) (u : Nat) (g : Sheaf → Sheaf) : (s.modSheaf u g).recv = s.recv := rfl
@[simp] theorem modSheaf_fab (s : State) (u : Nat) (g : Sheaf → Sheaf) : (s.modSheaf u g).fab = s.fab := rfl
@[simp] theorem modSheaf_host (s : State) (u : Nat) (g : Sheaf → Sheaf) : (s.modSheaf u g).host = s.host := rfl
@[simp] theorem modSheaf_boot (s : State) (u : Nat) (g : Sheaf → Sheaf) : (s.modSheaf u g).boot = s.boot := rfl

/-! ## `modLaunch` -/

@[simp] theorem modLaunch_time (s : State) (u : Nat) (g : Launch → Launch) : (s.modLaunch u g).time = s.time := rfl
@[simp] theorem modLaunch_evno (s : State) (u : Nat) (g : Launch → Launch) : (s.modLaunch u g).evno = s.evno := rfl
@[simp] theorem modLaunch_free (s : State) (u : Nat) (g : Launch → Launch) : (s.modLaunch u g).free = s.free := rfl
@[simp] theorem modLaunch_uid (s : State) (u : Nat) (g : Launch → Launch) : (s.modLaunch u g).uid = s.uid := rfl
@[simp] theorem modLaunch_agenda (s : State) (u : Nat) (g : Launch → Launch) : (s.modLaunch u g).agenda = s.agenda := rfl
@[simp] theorem modLaunch_issue (s : State) (u : Nat) (g : Launch → Launch) : (s.modLaunch u g).issue = s.issue := rfl
@[simp] theorem modLaunch_mem (s : State) (u : Nat) (g : Launch → Launch) : (s.modLaunch u g).mem = s.mem := rfl
@[simp] theorem modLaunch_areas (s : State) (u : Nat) (g : Launch → Launch) : (s.modLaunch u g).areas = s.areas := rfl
@[simp] theorem modLaunch_fibres (s : State) (u : Nat) (g : Launch → Launch) : (s.modLaunch u g).fibres = s.fibres := rfl
@[simp] theorem modLaunch_warps (s : State) (u : Nat) (g : Launch → Launch) : (s.modLaunch u g).warps = s.warps := rfl
@[simp] theorem modLaunch_quads (s : State) (u : Nat) (g : Launch → Launch) : (s.modLaunch u g).quads = s.quads := rfl
@[simp] theorem modLaunch_sheafs (s : State) (u : Nat) (g : Launch → Launch) : (s.modLaunch u g).sheafs = s.sheafs := rfl
@[simp] theorem modLaunch_ctxs (s : State) (u : Nat) (g : Launch → Launch) : (s.modLaunch u g).ctxs = s.ctxs := rfl
@[simp] theorem modLaunch_lastCtx (s : State) (u : Nat) (g : Launch → Launch) : (s.modLaunch u g).lastCtx = s.lastCtx := rfl
@[simp] theorem modLaunch_parts (s : State) (u : Nat) (g : Launch → Launch) : (s.modLaunch u g).parts = s.parts := rfl
@[simp] theorem modLaunch_cores (s : State) (u : Nat) (g : Launch → Launch) : (s.modLaunch u g).cores = s.cores := rfl
@[simp] theorem modLaunch_refills (s : State) (u : Nat) (g : Launch → Launch) : (s.modLaunch u g).refills = s.refills := rfl
@[simp] theorem modLaunch_ops (s : State) (u : Nat) (g : Launch → Launch) : (s.modLaunch u g).ops = s.ops := rfl
@[simp] theorem modLaunch_side (s : State) (u : Nat) (g : Launch → Launch) : (s.modLaunch u g).side = s.side := rfl
@[simp] theorem modLaunch_log (s : State) (u : Nat) (g : Launch → Launch) : (s.modLaunch u g).log = s.log := rfl
@[simp] theorem modLaunch_owed (s : State) (u : Nat) (g : Launch → Launch) : (s.modLaunch u g).owed = s.owed := rfl
@[simp] theorem modLaunch_roc (s : State) (u : Nat) (g : Launch → Launch) : (s.modLaunch u g).roc = s.roc := rfl
@[simp] theorem modLaunch_ic (s : State) (u : Nat) (g : Launch → Launch) : (s.modLaunch u g).ic = s.ic := rfl
@[simp] theorem modLaunch_xc (s : State) (u : Nat) (g : Launch → Launch) : (s.modLaunch u g).xc = s.xc := rfl
@[simp] theorem modLaunch_matq (s : State) (u : Nat) (g : Launch → Launch) : (s.modLaunch u g).matq = s.matq := rfl
@[simp] theorem modLaunch_batches (s : State) (u : Nat) (g : Launch → Launch) : (s.modLaunch u g).batches = s.batches := rfl
@[simp] theorem modLaunch_svc (s : State) (u : Nat) (g : Launch → Launch) : (s.modLaunch u g).svc = s.svc := rfl
@[simp] theorem modLaunch_coh (s : State) (u : Nat) (g : Launch → Launch) : (s.modLaunch u g).coh = s.coh := rfl
@[simp] theorem modLaunch_chk (s : State) (u : Nat) (g : Launch → Launch) : (s.modLaunch u g).chk = s.chk := rfl
@[simp] theorem modLaunch_rel (s : State) (u : Nat) (g : Launch → Launch) : (s.modLaunch u g).rel = s.rel := rfl
@[simp] theorem modLaunch_cmds (s : State) (u : Nat) (g : Launch → Launch) : (s.modLaunch u g).cmds = s.cmds := rfl
@[simp] theorem modLaunch_recv (s : State) (u : Nat) (g : Launch → Launch) : (s.modLaunch u g).recv = s.recv := rfl
@[simp] theorem modLaunch_fab (s : State) (u : Nat) (g : Launch → Launch) : (s.modLaunch u g).fab = s.fab := rfl
@[simp] theorem modLaunch_host (s : State) (u : Nat) (g : Launch → Launch) : (s.modLaunch u g).host = s.host := rfl
@[simp] theorem modLaunch_boot (s : State) (u : Nat) (g : Launch → Launch) : (s.modLaunch u g).boot = s.boot := rfl

/-! ## `modCtx` -/

@[simp] theorem modCtx_time (s : State) (c : Nat) (g : Ctx → Ctx) : (s.modCtx c g).time = s.time := rfl
@[simp] theorem modCtx_evno (s : State) (c : Nat) (g : Ctx → Ctx) : (s.modCtx c g).evno = s.evno := rfl
@[simp] theorem modCtx_free (s : State) (c : Nat) (g : Ctx → Ctx) : (s.modCtx c g).free = s.free := rfl
@[simp] theorem modCtx_uid (s : State) (c : Nat) (g : Ctx → Ctx) : (s.modCtx c g).uid = s.uid := rfl
@[simp] theorem modCtx_agenda (s : State) (c : Nat) (g : Ctx → Ctx) : (s.modCtx c g).agenda = s.agenda := rfl
@[simp] theorem modCtx_issue (s : State) (c : Nat) (g : Ctx → Ctx) : (s.modCtx c g).issue = s.issue := rfl
@[simp] theorem modCtx_mem (s : State) (c : Nat) (g : Ctx → Ctx) : (s.modCtx c g).mem = s.mem := rfl
@[simp] theorem modCtx_areas (s : State) (c : Nat) (g : Ctx → Ctx) : (s.modCtx c g).areas = s.areas := rfl
@[simp] theorem modCtx_fibres (s : State) (c : Nat) (g : Ctx → Ctx) : (s.modCtx c g).fibres = s.fibres := rfl
@[simp] theorem modCtx_warps (s : State) (c : Nat) (g : Ctx → Ctx) : (s.modCtx c g).warps = s.warps := rfl
@[simp] theorem modCtx_quads (s : State) (c : Nat) (g : Ctx → Ctx) : (s.modCtx c g).quads = s.quads := rfl
@[simp] theorem modCtx_sheafs (s : State) (c : Nat) (g : Ctx → Ctx) : (s.modCtx c g).sheafs = s.sheafs := rfl
@[simp] theorem modCtx_launches (s : State) (c : Nat) (g : Ctx → Ctx) : (s.modCtx c g).launches = s.launches := rfl
@[simp] theorem modCtx_lastCtx (s : State) (c : Nat) (g : Ctx → Ctx) : (s.modCtx c g).lastCtx = s.lastCtx := rfl
@[simp] theorem modCtx_parts (s : State) (c : Nat) (g : Ctx → Ctx) : (s.modCtx c g).parts = s.parts := rfl
@[simp] theorem modCtx_cores (s : State) (c : Nat) (g : Ctx → Ctx) : (s.modCtx c g).cores = s.cores := rfl
@[simp] theorem modCtx_refills (s : State) (c : Nat) (g : Ctx → Ctx) : (s.modCtx c g).refills = s.refills := rfl
@[simp] theorem modCtx_ops (s : State) (c : Nat) (g : Ctx → Ctx) : (s.modCtx c g).ops = s.ops := rfl
@[simp] theorem modCtx_side (s : State) (c : Nat) (g : Ctx → Ctx) : (s.modCtx c g).side = s.side := rfl
@[simp] theorem modCtx_log (s : State) (c : Nat) (g : Ctx → Ctx) : (s.modCtx c g).log = s.log := rfl
@[simp] theorem modCtx_owed (s : State) (c : Nat) (g : Ctx → Ctx) : (s.modCtx c g).owed = s.owed := rfl
@[simp] theorem modCtx_roc (s : State) (c : Nat) (g : Ctx → Ctx) : (s.modCtx c g).roc = s.roc := rfl
@[simp] theorem modCtx_ic (s : State) (c : Nat) (g : Ctx → Ctx) : (s.modCtx c g).ic = s.ic := rfl
@[simp] theorem modCtx_xc (s : State) (c : Nat) (g : Ctx → Ctx) : (s.modCtx c g).xc = s.xc := rfl
@[simp] theorem modCtx_matq (s : State) (c : Nat) (g : Ctx → Ctx) : (s.modCtx c g).matq = s.matq := rfl
@[simp] theorem modCtx_batches (s : State) (c : Nat) (g : Ctx → Ctx) : (s.modCtx c g).batches = s.batches := rfl
@[simp] theorem modCtx_svc (s : State) (c : Nat) (g : Ctx → Ctx) : (s.modCtx c g).svc = s.svc := rfl
@[simp] theorem modCtx_coh (s : State) (c : Nat) (g : Ctx → Ctx) : (s.modCtx c g).coh = s.coh := rfl
@[simp] theorem modCtx_chk (s : State) (c : Nat) (g : Ctx → Ctx) : (s.modCtx c g).chk = s.chk := rfl
@[simp] theorem modCtx_rel (s : State) (c : Nat) (g : Ctx → Ctx) : (s.modCtx c g).rel = s.rel := rfl
@[simp] theorem modCtx_cmds (s : State) (c : Nat) (g : Ctx → Ctx) : (s.modCtx c g).cmds = s.cmds := rfl
@[simp] theorem modCtx_recv (s : State) (c : Nat) (g : Ctx → Ctx) : (s.modCtx c g).recv = s.recv := rfl
@[simp] theorem modCtx_fab (s : State) (c : Nat) (g : Ctx → Ctx) : (s.modCtx c g).fab = s.fab := rfl
@[simp] theorem modCtx_host (s : State) (c : Nat) (g : Ctx → Ctx) : (s.modCtx c g).host = s.host := rfl
@[simp] theorem modCtx_boot (s : State) (c : Nat) (g : Ctx → Ctx) : (s.modCtx c g).boot = s.boot := rfl

/-! ## `modPart` -/

@[simp] theorem modPart_time (s : State) (n : Nat) (g : Part → Part) : (s.modPart n g).time = s.time := rfl
@[simp] theorem modPart_evno (s : State) (n : Nat) (g : Part → Part) : (s.modPart n g).evno = s.evno := rfl
@[simp] theorem modPart_free (s : State) (n : Nat) (g : Part → Part) : (s.modPart n g).free = s.free := rfl
@[simp] theorem modPart_uid (s : State) (n : Nat) (g : Part → Part) : (s.modPart n g).uid = s.uid := rfl
@[simp] theorem modPart_agenda (s : State) (n : Nat) (g : Part → Part) : (s.modPart n g).agenda = s.agenda := rfl
@[simp] theorem modPart_issue (s : State) (n : Nat) (g : Part → Part) : (s.modPart n g).issue = s.issue := rfl
@[simp] theorem modPart_mem (s : State) (n : Nat) (g : Part → Part) : (s.modPart n g).mem = s.mem := rfl
@[simp] theorem modPart_areas (s : State) (n : Nat) (g : Part → Part) : (s.modPart n g).areas = s.areas := rfl
@[simp] theorem modPart_fibres (s : State) (n : Nat) (g : Part → Part) : (s.modPart n g).fibres = s.fibres := rfl
@[simp] theorem modPart_warps (s : State) (n : Nat) (g : Part → Part) : (s.modPart n g).warps = s.warps := rfl
@[simp] theorem modPart_quads (s : State) (n : Nat) (g : Part → Part) : (s.modPart n g).quads = s.quads := rfl
@[simp] theorem modPart_sheafs (s : State) (n : Nat) (g : Part → Part) : (s.modPart n g).sheafs = s.sheafs := rfl
@[simp] theorem modPart_launches (s : State) (n : Nat) (g : Part → Part) : (s.modPart n g).launches = s.launches := rfl
@[simp] theorem modPart_ctxs (s : State) (n : Nat) (g : Part → Part) : (s.modPart n g).ctxs = s.ctxs := rfl
@[simp] theorem modPart_lastCtx (s : State) (n : Nat) (g : Part → Part) : (s.modPart n g).lastCtx = s.lastCtx := rfl
@[simp] theorem modPart_cores (s : State) (n : Nat) (g : Part → Part) : (s.modPart n g).cores = s.cores := rfl
@[simp] theorem modPart_refills (s : State) (n : Nat) (g : Part → Part) : (s.modPart n g).refills = s.refills := rfl
@[simp] theorem modPart_ops (s : State) (n : Nat) (g : Part → Part) : (s.modPart n g).ops = s.ops := rfl
@[simp] theorem modPart_side (s : State) (n : Nat) (g : Part → Part) : (s.modPart n g).side = s.side := rfl
@[simp] theorem modPart_log (s : State) (n : Nat) (g : Part → Part) : (s.modPart n g).log = s.log := rfl
@[simp] theorem modPart_owed (s : State) (n : Nat) (g : Part → Part) : (s.modPart n g).owed = s.owed := rfl
@[simp] theorem modPart_roc (s : State) (n : Nat) (g : Part → Part) : (s.modPart n g).roc = s.roc := rfl
@[simp] theorem modPart_ic (s : State) (n : Nat) (g : Part → Part) : (s.modPart n g).ic = s.ic := rfl
@[simp] theorem modPart_xc (s : State) (n : Nat) (g : Part → Part) : (s.modPart n g).xc = s.xc := rfl
@[simp] theorem modPart_matq (s : State) (n : Nat) (g : Part → Part) : (s.modPart n g).matq = s.matq := rfl
@[simp] theorem modPart_batches (s : State) (n : Nat) (g : Part → Part) : (s.modPart n g).batches = s.batches := rfl
@[simp] theorem modPart_svc (s : State) (n : Nat) (g : Part → Part) : (s.modPart n g).svc = s.svc := rfl
@[simp] theorem modPart_coh (s : State) (n : Nat) (g : Part → Part) : (s.modPart n g).coh = s.coh := rfl
@[simp] theorem modPart_chk (s : State) (n : Nat) (g : Part → Part) : (s.modPart n g).chk = s.chk := rfl
@[simp] theorem modPart_rel (s : State) (n : Nat) (g : Part → Part) : (s.modPart n g).rel = s.rel := rfl
@[simp] theorem modPart_cmds (s : State) (n : Nat) (g : Part → Part) : (s.modPart n g).cmds = s.cmds := rfl
@[simp] theorem modPart_recv (s : State) (n : Nat) (g : Part → Part) : (s.modPart n g).recv = s.recv := rfl
@[simp] theorem modPart_fab (s : State) (n : Nat) (g : Part → Part) : (s.modPart n g).fab = s.fab := rfl
@[simp] theorem modPart_host (s : State) (n : Nat) (g : Part → Part) : (s.modPart n g).host = s.host := rfl
@[simp] theorem modPart_boot (s : State) (n : Nat) (g : Part → Part) : (s.modPart n g).boot = s.boot := rfl

/-! ## `modOp` -/

@[simp] theorem modOp_time (s : State) (i : Nat) (g : MemOp → MemOp) : (s.modOp i g).time = s.time := rfl
@[simp] theorem modOp_evno (s : State) (i : Nat) (g : MemOp → MemOp) : (s.modOp i g).evno = s.evno := rfl
@[simp] theorem modOp_free (s : State) (i : Nat) (g : MemOp → MemOp) : (s.modOp i g).free = s.free := rfl
@[simp] theorem modOp_uid (s : State) (i : Nat) (g : MemOp → MemOp) : (s.modOp i g).uid = s.uid := rfl
@[simp] theorem modOp_agenda (s : State) (i : Nat) (g : MemOp → MemOp) : (s.modOp i g).agenda = s.agenda := rfl
@[simp] theorem modOp_issue (s : State) (i : Nat) (g : MemOp → MemOp) : (s.modOp i g).issue = s.issue := rfl
@[simp] theorem modOp_mem (s : State) (i : Nat) (g : MemOp → MemOp) : (s.modOp i g).mem = s.mem := rfl
@[simp] theorem modOp_areas (s : State) (i : Nat) (g : MemOp → MemOp) : (s.modOp i g).areas = s.areas := rfl
@[simp] theorem modOp_fibres (s : State) (i : Nat) (g : MemOp → MemOp) : (s.modOp i g).fibres = s.fibres := rfl
@[simp] theorem modOp_warps (s : State) (i : Nat) (g : MemOp → MemOp) : (s.modOp i g).warps = s.warps := rfl
@[simp] theorem modOp_quads (s : State) (i : Nat) (g : MemOp → MemOp) : (s.modOp i g).quads = s.quads := rfl
@[simp] theorem modOp_sheafs (s : State) (i : Nat) (g : MemOp → MemOp) : (s.modOp i g).sheafs = s.sheafs := rfl
@[simp] theorem modOp_launches (s : State) (i : Nat) (g : MemOp → MemOp) : (s.modOp i g).launches = s.launches := rfl
@[simp] theorem modOp_ctxs (s : State) (i : Nat) (g : MemOp → MemOp) : (s.modOp i g).ctxs = s.ctxs := rfl
@[simp] theorem modOp_lastCtx (s : State) (i : Nat) (g : MemOp → MemOp) : (s.modOp i g).lastCtx = s.lastCtx := rfl
@[simp] theorem modOp_parts (s : State) (i : Nat) (g : MemOp → MemOp) : (s.modOp i g).parts = s.parts := rfl
@[simp] theorem modOp_cores (s : State) (i : Nat) (g : MemOp → MemOp) : (s.modOp i g).cores = s.cores := rfl
@[simp] theorem modOp_refills (s : State) (i : Nat) (g : MemOp → MemOp) : (s.modOp i g).refills = s.refills := rfl
@[simp] theorem modOp_side (s : State) (i : Nat) (g : MemOp → MemOp) : (s.modOp i g).side = s.side := rfl
@[simp] theorem modOp_log (s : State) (i : Nat) (g : MemOp → MemOp) : (s.modOp i g).log = s.log := rfl
@[simp] theorem modOp_owed (s : State) (i : Nat) (g : MemOp → MemOp) : (s.modOp i g).owed = s.owed := rfl
@[simp] theorem modOp_roc (s : State) (i : Nat) (g : MemOp → MemOp) : (s.modOp i g).roc = s.roc := rfl
@[simp] theorem modOp_ic (s : State) (i : Nat) (g : MemOp → MemOp) : (s.modOp i g).ic = s.ic := rfl
@[simp] theorem modOp_xc (s : State) (i : Nat) (g : MemOp → MemOp) : (s.modOp i g).xc = s.xc := rfl
@[simp] theorem modOp_matq (s : State) (i : Nat) (g : MemOp → MemOp) : (s.modOp i g).matq = s.matq := rfl
@[simp] theorem modOp_batches (s : State) (i : Nat) (g : MemOp → MemOp) : (s.modOp i g).batches = s.batches := rfl
@[simp] theorem modOp_svc (s : State) (i : Nat) (g : MemOp → MemOp) : (s.modOp i g).svc = s.svc := rfl
@[simp] theorem modOp_coh (s : State) (i : Nat) (g : MemOp → MemOp) : (s.modOp i g).coh = s.coh := rfl
@[simp] theorem modOp_chk (s : State) (i : Nat) (g : MemOp → MemOp) : (s.modOp i g).chk = s.chk := rfl
@[simp] theorem modOp_rel (s : State) (i : Nat) (g : MemOp → MemOp) : (s.modOp i g).rel = s.rel := rfl
@[simp] theorem modOp_cmds (s : State) (i : Nat) (g : MemOp → MemOp) : (s.modOp i g).cmds = s.cmds := rfl
@[simp] theorem modOp_recv (s : State) (i : Nat) (g : MemOp → MemOp) : (s.modOp i g).recv = s.recv := rfl
@[simp] theorem modOp_fab (s : State) (i : Nat) (g : MemOp → MemOp) : (s.modOp i g).fab = s.fab := rfl
@[simp] theorem modOp_host (s : State) (i : Nat) (g : MemOp → MemOp) : (s.modOp i g).host = s.host := rfl
@[simp] theorem modOp_boot (s : State) (i : Nat) (g : MemOp → MemOp) : (s.modOp i g).boot = s.boot := rfl

/-! ## `dropOp` -/

@[simp] theorem dropOp_time (s : State) (i : Nat) : (s.dropOp i).time = s.time := rfl
@[simp] theorem dropOp_evno (s : State) (i : Nat) : (s.dropOp i).evno = s.evno := rfl
@[simp] theorem dropOp_free (s : State) (i : Nat) : (s.dropOp i).free = s.free := rfl
@[simp] theorem dropOp_uid (s : State) (i : Nat) : (s.dropOp i).uid = s.uid := rfl
@[simp] theorem dropOp_agenda (s : State) (i : Nat) : (s.dropOp i).agenda = s.agenda := rfl
@[simp] theorem dropOp_issue (s : State) (i : Nat) : (s.dropOp i).issue = s.issue := rfl
@[simp] theorem dropOp_mem (s : State) (i : Nat) : (s.dropOp i).mem = s.mem := rfl
@[simp] theorem dropOp_areas (s : State) (i : Nat) : (s.dropOp i).areas = s.areas := rfl
@[simp] theorem dropOp_fibres (s : State) (i : Nat) : (s.dropOp i).fibres = s.fibres := rfl
@[simp] theorem dropOp_warps (s : State) (i : Nat) : (s.dropOp i).warps = s.warps := rfl
@[simp] theorem dropOp_quads (s : State) (i : Nat) : (s.dropOp i).quads = s.quads := rfl
@[simp] theorem dropOp_sheafs (s : State) (i : Nat) : (s.dropOp i).sheafs = s.sheafs := rfl
@[simp] theorem dropOp_launches (s : State) (i : Nat) : (s.dropOp i).launches = s.launches := rfl
@[simp] theorem dropOp_ctxs (s : State) (i : Nat) : (s.dropOp i).ctxs = s.ctxs := rfl
@[simp] theorem dropOp_lastCtx (s : State) (i : Nat) : (s.dropOp i).lastCtx = s.lastCtx := rfl
@[simp] theorem dropOp_parts (s : State) (i : Nat) : (s.dropOp i).parts = s.parts := rfl
@[simp] theorem dropOp_cores (s : State) (i : Nat) : (s.dropOp i).cores = s.cores := rfl
@[simp] theorem dropOp_refills (s : State) (i : Nat) : (s.dropOp i).refills = s.refills := rfl
@[simp] theorem dropOp_side (s : State) (i : Nat) : (s.dropOp i).side = s.side := rfl
@[simp] theorem dropOp_log (s : State) (i : Nat) : (s.dropOp i).log = s.log := rfl
@[simp] theorem dropOp_owed (s : State) (i : Nat) : (s.dropOp i).owed = s.owed := rfl
@[simp] theorem dropOp_roc (s : State) (i : Nat) : (s.dropOp i).roc = s.roc := rfl
@[simp] theorem dropOp_ic (s : State) (i : Nat) : (s.dropOp i).ic = s.ic := rfl
@[simp] theorem dropOp_xc (s : State) (i : Nat) : (s.dropOp i).xc = s.xc := rfl
@[simp] theorem dropOp_matq (s : State) (i : Nat) : (s.dropOp i).matq = s.matq := rfl
@[simp] theorem dropOp_batches (s : State) (i : Nat) : (s.dropOp i).batches = s.batches := rfl
@[simp] theorem dropOp_svc (s : State) (i : Nat) : (s.dropOp i).svc = s.svc := rfl
@[simp] theorem dropOp_coh (s : State) (i : Nat) : (s.dropOp i).coh = s.coh := rfl
@[simp] theorem dropOp_chk (s : State) (i : Nat) : (s.dropOp i).chk = s.chk := rfl
@[simp] theorem dropOp_rel (s : State) (i : Nat) : (s.dropOp i).rel = s.rel := rfl
@[simp] theorem dropOp_cmds (s : State) (i : Nat) : (s.dropOp i).cmds = s.cmds := rfl
@[simp] theorem dropOp_recv (s : State) (i : Nat) : (s.dropOp i).recv = s.recv := rfl
@[simp] theorem dropOp_fab (s : State) (i : Nat) : (s.dropOp i).fab = s.fab := rfl
@[simp] theorem dropOp_host (s : State) (i : Nat) : (s.dropOp i).host = s.host := rfl
@[simp] theorem dropOp_boot (s : State) (i : Nat) : (s.dropOp i).boot = s.boot := rfl

/-! ## `modCmd` -/

@[simp] theorem modCmd_time (s : State) (i : Nat) (g : Cmd → Cmd) : (s.modCmd i g).time = s.time := rfl
@[simp] theorem modCmd_evno (s : State) (i : Nat) (g : Cmd → Cmd) : (s.modCmd i g).evno = s.evno := rfl
@[simp] theorem modCmd_free (s : State) (i : Nat) (g : Cmd → Cmd) : (s.modCmd i g).free = s.free := rfl
@[simp] theorem modCmd_uid (s : State) (i : Nat) (g : Cmd → Cmd) : (s.modCmd i g).uid = s.uid := rfl
@[simp] theorem modCmd_agenda (s : State) (i : Nat) (g : Cmd → Cmd) : (s.modCmd i g).agenda = s.agenda := rfl
@[simp] theorem modCmd_issue (s : State) (i : Nat) (g : Cmd → Cmd) : (s.modCmd i g).issue = s.issue := rfl
@[simp] theorem modCmd_mem (s : State) (i : Nat) (g : Cmd → Cmd) : (s.modCmd i g).mem = s.mem := rfl
@[simp] theorem modCmd_areas (s : State) (i : Nat) (g : Cmd → Cmd) : (s.modCmd i g).areas = s.areas := rfl
@[simp] theorem modCmd_fibres (s : State) (i : Nat) (g : Cmd → Cmd) : (s.modCmd i g).fibres = s.fibres := rfl
@[simp] theorem modCmd_warps (s : State) (i : Nat) (g : Cmd → Cmd) : (s.modCmd i g).warps = s.warps := rfl
@[simp] theorem modCmd_quads (s : State) (i : Nat) (g : Cmd → Cmd) : (s.modCmd i g).quads = s.quads := rfl
@[simp] theorem modCmd_sheafs (s : State) (i : Nat) (g : Cmd → Cmd) : (s.modCmd i g).sheafs = s.sheafs := rfl
@[simp] theorem modCmd_launches (s : State) (i : Nat) (g : Cmd → Cmd) : (s.modCmd i g).launches = s.launches := rfl
@[simp] theorem modCmd_ctxs (s : State) (i : Nat) (g : Cmd → Cmd) : (s.modCmd i g).ctxs = s.ctxs := rfl
@[simp] theorem modCmd_lastCtx (s : State) (i : Nat) (g : Cmd → Cmd) : (s.modCmd i g).lastCtx = s.lastCtx := rfl
@[simp] theorem modCmd_parts (s : State) (i : Nat) (g : Cmd → Cmd) : (s.modCmd i g).parts = s.parts := rfl
@[simp] theorem modCmd_cores (s : State) (i : Nat) (g : Cmd → Cmd) : (s.modCmd i g).cores = s.cores := rfl
@[simp] theorem modCmd_refills (s : State) (i : Nat) (g : Cmd → Cmd) : (s.modCmd i g).refills = s.refills := rfl
@[simp] theorem modCmd_ops (s : State) (i : Nat) (g : Cmd → Cmd) : (s.modCmd i g).ops = s.ops := rfl
@[simp] theorem modCmd_side (s : State) (i : Nat) (g : Cmd → Cmd) : (s.modCmd i g).side = s.side := rfl
@[simp] theorem modCmd_log (s : State) (i : Nat) (g : Cmd → Cmd) : (s.modCmd i g).log = s.log := rfl
@[simp] theorem modCmd_owed (s : State) (i : Nat) (g : Cmd → Cmd) : (s.modCmd i g).owed = s.owed := rfl
@[simp] theorem modCmd_roc (s : State) (i : Nat) (g : Cmd → Cmd) : (s.modCmd i g).roc = s.roc := rfl
@[simp] theorem modCmd_ic (s : State) (i : Nat) (g : Cmd → Cmd) : (s.modCmd i g).ic = s.ic := rfl
@[simp] theorem modCmd_xc (s : State) (i : Nat) (g : Cmd → Cmd) : (s.modCmd i g).xc = s.xc := rfl
@[simp] theorem modCmd_matq (s : State) (i : Nat) (g : Cmd → Cmd) : (s.modCmd i g).matq = s.matq := rfl
@[simp] theorem modCmd_batches (s : State) (i : Nat) (g : Cmd → Cmd) : (s.modCmd i g).batches = s.batches := rfl
@[simp] theorem modCmd_svc (s : State) (i : Nat) (g : Cmd → Cmd) : (s.modCmd i g).svc = s.svc := rfl
@[simp] theorem modCmd_coh (s : State) (i : Nat) (g : Cmd → Cmd) : (s.modCmd i g).coh = s.coh := rfl
@[simp] theorem modCmd_chk (s : State) (i : Nat) (g : Cmd → Cmd) : (s.modCmd i g).chk = s.chk := rfl
@[simp] theorem modCmd_rel (s : State) (i : Nat) (g : Cmd → Cmd) : (s.modCmd i g).rel = s.rel := rfl
@[simp] theorem modCmd_recv (s : State) (i : Nat) (g : Cmd → Cmd) : (s.modCmd i g).recv = s.recv := rfl
@[simp] theorem modCmd_fab (s : State) (i : Nat) (g : Cmd → Cmd) : (s.modCmd i g).fab = s.fab := rfl
@[simp] theorem modCmd_host (s : State) (i : Nat) (g : Cmd → Cmd) : (s.modCmd i g).host = s.host := rfl
@[simp] theorem modCmd_boot (s : State) (i : Nat) (g : Cmd → Cmd) : (s.modCmd i g).boot = s.boot := rfl

/-! ## `modWarp` -/

@[simp] theorem modWarp_time (s : State) (c q n : Nat) (g : Warp → Warp) : (s.modWarp c q n g).time = s.time := rfl
@[simp] theorem modWarp_evno (s : State) (c q n : Nat) (g : Warp → Warp) : (s.modWarp c q n g).evno = s.evno := rfl
@[simp] theorem modWarp_free (s : State) (c q n : Nat) (g : Warp → Warp) : (s.modWarp c q n g).free = s.free := rfl
@[simp] theorem modWarp_uid (s : State) (c q n : Nat) (g : Warp → Warp) : (s.modWarp c q n g).uid = s.uid := rfl
@[simp] theorem modWarp_agenda (s : State) (c q n : Nat) (g : Warp → Warp) : (s.modWarp c q n g).agenda = s.agenda := rfl
@[simp] theorem modWarp_issue (s : State) (c q n : Nat) (g : Warp → Warp) : (s.modWarp c q n g).issue = s.issue := rfl
@[simp] theorem modWarp_mem (s : State) (c q n : Nat) (g : Warp → Warp) : (s.modWarp c q n g).mem = s.mem := rfl
@[simp] theorem modWarp_areas (s : State) (c q n : Nat) (g : Warp → Warp) : (s.modWarp c q n g).areas = s.areas := rfl
@[simp] theorem modWarp_fibres (s : State) (c q n : Nat) (g : Warp → Warp) : (s.modWarp c q n g).fibres = s.fibres := rfl
@[simp] theorem modWarp_quads (s : State) (c q n : Nat) (g : Warp → Warp) : (s.modWarp c q n g).quads = s.quads := rfl
@[simp] theorem modWarp_sheafs (s : State) (c q n : Nat) (g : Warp → Warp) : (s.modWarp c q n g).sheafs = s.sheafs := rfl
@[simp] theorem modWarp_launches (s : State) (c q n : Nat) (g : Warp → Warp) : (s.modWarp c q n g).launches = s.launches := rfl
@[simp] theorem modWarp_ctxs (s : State) (c q n : Nat) (g : Warp → Warp) : (s.modWarp c q n g).ctxs = s.ctxs := rfl
@[simp] theorem modWarp_lastCtx (s : State) (c q n : Nat) (g : Warp → Warp) : (s.modWarp c q n g).lastCtx = s.lastCtx := rfl
@[simp] theorem modWarp_parts (s : State) (c q n : Nat) (g : Warp → Warp) : (s.modWarp c q n g).parts = s.parts := rfl
@[simp] theorem modWarp_cores (s : State) (c q n : Nat) (g : Warp → Warp) : (s.modWarp c q n g).cores = s.cores := rfl
@[simp] theorem modWarp_refills (s : State) (c q n : Nat) (g : Warp → Warp) : (s.modWarp c q n g).refills = s.refills := rfl
@[simp] theorem modWarp_ops (s : State) (c q n : Nat) (g : Warp → Warp) : (s.modWarp c q n g).ops = s.ops := rfl
@[simp] theorem modWarp_side (s : State) (c q n : Nat) (g : Warp → Warp) : (s.modWarp c q n g).side = s.side := rfl
@[simp] theorem modWarp_log (s : State) (c q n : Nat) (g : Warp → Warp) : (s.modWarp c q n g).log = s.log := rfl
@[simp] theorem modWarp_owed (s : State) (c q n : Nat) (g : Warp → Warp) : (s.modWarp c q n g).owed = s.owed := rfl
@[simp] theorem modWarp_roc (s : State) (c q n : Nat) (g : Warp → Warp) : (s.modWarp c q n g).roc = s.roc := rfl
@[simp] theorem modWarp_ic (s : State) (c q n : Nat) (g : Warp → Warp) : (s.modWarp c q n g).ic = s.ic := rfl
@[simp] theorem modWarp_xc (s : State) (c q n : Nat) (g : Warp → Warp) : (s.modWarp c q n g).xc = s.xc := rfl
@[simp] theorem modWarp_matq (s : State) (c q n : Nat) (g : Warp → Warp) : (s.modWarp c q n g).matq = s.matq := rfl
@[simp] theorem modWarp_batches (s : State) (c q n : Nat) (g : Warp → Warp) : (s.modWarp c q n g).batches = s.batches := rfl
@[simp] theorem modWarp_svc (s : State) (c q n : Nat) (g : Warp → Warp) : (s.modWarp c q n g).svc = s.svc := rfl
@[simp] theorem modWarp_coh (s : State) (c q n : Nat) (g : Warp → Warp) : (s.modWarp c q n g).coh = s.coh := rfl
@[simp] theorem modWarp_chk (s : State) (c q n : Nat) (g : Warp → Warp) : (s.modWarp c q n g).chk = s.chk := rfl
@[simp] theorem modWarp_rel (s : State) (c q n : Nat) (g : Warp → Warp) : (s.modWarp c q n g).rel = s.rel := rfl
@[simp] theorem modWarp_cmds (s : State) (c q n : Nat) (g : Warp → Warp) : (s.modWarp c q n g).cmds = s.cmds := rfl
@[simp] theorem modWarp_recv (s : State) (c q n : Nat) (g : Warp → Warp) : (s.modWarp c q n g).recv = s.recv := rfl
@[simp] theorem modWarp_fab (s : State) (c q n : Nat) (g : Warp → Warp) : (s.modWarp c q n g).fab = s.fab := rfl
@[simp] theorem modWarp_host (s : State) (c q n : Nat) (g : Warp → Warp) : (s.modWarp c q n g).host = s.host := rfl
@[simp] theorem modWarp_boot (s : State) (c q n : Nat) (g : Warp → Warp) : (s.modWarp c q n g).boot = s.boot := rfl

/-! ## `setCore` -/

@[simp] theorem setCore_time (s : State) (c : CoreSt) : (s.setCore c).time = s.time := rfl
@[simp] theorem setCore_evno (s : State) (c : CoreSt) : (s.setCore c).evno = s.evno := rfl
@[simp] theorem setCore_free (s : State) (c : CoreSt) : (s.setCore c).free = s.free := rfl
@[simp] theorem setCore_uid (s : State) (c : CoreSt) : (s.setCore c).uid = s.uid := rfl
@[simp] theorem setCore_agenda (s : State) (c : CoreSt) : (s.setCore c).agenda = s.agenda := rfl
@[simp] theorem setCore_issue (s : State) (c : CoreSt) : (s.setCore c).issue = s.issue := rfl
@[simp] theorem setCore_mem (s : State) (c : CoreSt) : (s.setCore c).mem = s.mem := rfl
@[simp] theorem setCore_areas (s : State) (c : CoreSt) : (s.setCore c).areas = s.areas := rfl
@[simp] theorem setCore_fibres (s : State) (c : CoreSt) : (s.setCore c).fibres = s.fibres := rfl
@[simp] theorem setCore_warps (s : State) (c : CoreSt) : (s.setCore c).warps = s.warps := rfl
@[simp] theorem setCore_quads (s : State) (c : CoreSt) : (s.setCore c).quads = s.quads := rfl
@[simp] theorem setCore_sheafs (s : State) (c : CoreSt) : (s.setCore c).sheafs = s.sheafs := rfl
@[simp] theorem setCore_launches (s : State) (c : CoreSt) : (s.setCore c).launches = s.launches := rfl
@[simp] theorem setCore_ctxs (s : State) (c : CoreSt) : (s.setCore c).ctxs = s.ctxs := rfl
@[simp] theorem setCore_lastCtx (s : State) (c : CoreSt) : (s.setCore c).lastCtx = s.lastCtx := rfl
@[simp] theorem setCore_parts (s : State) (c : CoreSt) : (s.setCore c).parts = s.parts := rfl
@[simp] theorem setCore_refills (s : State) (c : CoreSt) : (s.setCore c).refills = s.refills := rfl
@[simp] theorem setCore_ops (s : State) (c : CoreSt) : (s.setCore c).ops = s.ops := rfl
@[simp] theorem setCore_side (s : State) (c : CoreSt) : (s.setCore c).side = s.side := rfl
@[simp] theorem setCore_log (s : State) (c : CoreSt) : (s.setCore c).log = s.log := rfl
@[simp] theorem setCore_owed (s : State) (c : CoreSt) : (s.setCore c).owed = s.owed := rfl
@[simp] theorem setCore_roc (s : State) (c : CoreSt) : (s.setCore c).roc = s.roc := rfl
@[simp] theorem setCore_ic (s : State) (c : CoreSt) : (s.setCore c).ic = s.ic := rfl
@[simp] theorem setCore_xc (s : State) (c : CoreSt) : (s.setCore c).xc = s.xc := rfl
@[simp] theorem setCore_matq (s : State) (c : CoreSt) : (s.setCore c).matq = s.matq := rfl
@[simp] theorem setCore_batches (s : State) (c : CoreSt) : (s.setCore c).batches = s.batches := rfl
@[simp] theorem setCore_svc (s : State) (c : CoreSt) : (s.setCore c).svc = s.svc := rfl
@[simp] theorem setCore_coh (s : State) (c : CoreSt) : (s.setCore c).coh = s.coh := rfl
@[simp] theorem setCore_chk (s : State) (c : CoreSt) : (s.setCore c).chk = s.chk := rfl
@[simp] theorem setCore_rel (s : State) (c : CoreSt) : (s.setCore c).rel = s.rel := rfl
@[simp] theorem setCore_cmds (s : State) (c : CoreSt) : (s.setCore c).cmds = s.cmds := rfl
@[simp] theorem setCore_recv (s : State) (c : CoreSt) : (s.setCore c).recv = s.recv := rfl
@[simp] theorem setCore_fab (s : State) (c : CoreSt) : (s.setCore c).fab = s.fab := rfl
@[simp] theorem setCore_host (s : State) (c : CoreSt) : (s.setCore c).host = s.host := rfl
@[simp] theorem setCore_boot (s : State) (c : CoreSt) : (s.setCore c).boot = s.boot := rfl

/-! ## `modCoh` -/

@[simp] theorem modCoh_time (s : State) (g : Coh → Coh) : (s.modCoh g).time = s.time := rfl
@[simp] theorem modCoh_evno (s : State) (g : Coh → Coh) : (s.modCoh g).evno = s.evno := rfl
@[simp] theorem modCoh_free (s : State) (g : Coh → Coh) : (s.modCoh g).free = s.free := rfl
@[simp] theorem modCoh_uid (s : State) (g : Coh → Coh) : (s.modCoh g).uid = s.uid := rfl
@[simp] theorem modCoh_agenda (s : State) (g : Coh → Coh) : (s.modCoh g).agenda = s.agenda := rfl
@[simp] theorem modCoh_issue (s : State) (g : Coh → Coh) : (s.modCoh g).issue = s.issue := rfl
@[simp] theorem modCoh_mem (s : State) (g : Coh → Coh) : (s.modCoh g).mem = s.mem := rfl
@[simp] theorem modCoh_areas (s : State) (g : Coh → Coh) : (s.modCoh g).areas = s.areas := rfl
@[simp] theorem modCoh_fibres (s : State) (g : Coh → Coh) : (s.modCoh g).fibres = s.fibres := rfl
@[simp] theorem modCoh_warps (s : State) (g : Coh → Coh) : (s.modCoh g).warps = s.warps := rfl
@[simp] theorem modCoh_quads (s : State) (g : Coh → Coh) : (s.modCoh g).quads = s.quads := rfl
@[simp] theorem modCoh_sheafs (s : State) (g : Coh → Coh) : (s.modCoh g).sheafs = s.sheafs := rfl
@[simp] theorem modCoh_launches (s : State) (g : Coh → Coh) : (s.modCoh g).launches = s.launches := rfl
@[simp] theorem modCoh_ctxs (s : State) (g : Coh → Coh) : (s.modCoh g).ctxs = s.ctxs := rfl
@[simp] theorem modCoh_lastCtx (s : State) (g : Coh → Coh) : (s.modCoh g).lastCtx = s.lastCtx := rfl
@[simp] theorem modCoh_parts (s : State) (g : Coh → Coh) : (s.modCoh g).parts = s.parts := rfl
@[simp] theorem modCoh_cores (s : State) (g : Coh → Coh) : (s.modCoh g).cores = s.cores := rfl
@[simp] theorem modCoh_refills (s : State) (g : Coh → Coh) : (s.modCoh g).refills = s.refills := rfl
@[simp] theorem modCoh_ops (s : State) (g : Coh → Coh) : (s.modCoh g).ops = s.ops := rfl
@[simp] theorem modCoh_side (s : State) (g : Coh → Coh) : (s.modCoh g).side = s.side := rfl
@[simp] theorem modCoh_log (s : State) (g : Coh → Coh) : (s.modCoh g).log = s.log := rfl
@[simp] theorem modCoh_owed (s : State) (g : Coh → Coh) : (s.modCoh g).owed = s.owed := rfl
@[simp] theorem modCoh_roc (s : State) (g : Coh → Coh) : (s.modCoh g).roc = s.roc := rfl
@[simp] theorem modCoh_ic (s : State) (g : Coh → Coh) : (s.modCoh g).ic = s.ic := rfl
@[simp] theorem modCoh_xc (s : State) (g : Coh → Coh) : (s.modCoh g).xc = s.xc := rfl
@[simp] theorem modCoh_matq (s : State) (g : Coh → Coh) : (s.modCoh g).matq = s.matq := rfl
@[simp] theorem modCoh_batches (s : State) (g : Coh → Coh) : (s.modCoh g).batches = s.batches := rfl
@[simp] theorem modCoh_svc (s : State) (g : Coh → Coh) : (s.modCoh g).svc = s.svc := rfl
@[simp] theorem modCoh_chk (s : State) (g : Coh → Coh) : (s.modCoh g).chk = s.chk := rfl
@[simp] theorem modCoh_rel (s : State) (g : Coh → Coh) : (s.modCoh g).rel = s.rel := rfl
@[simp] theorem modCoh_cmds (s : State) (g : Coh → Coh) : (s.modCoh g).cmds = s.cmds := rfl
@[simp] theorem modCoh_recv (s : State) (g : Coh → Coh) : (s.modCoh g).recv = s.recv := rfl
@[simp] theorem modCoh_fab (s : State) (g : Coh → Coh) : (s.modCoh g).fab = s.fab := rfl
@[simp] theorem modCoh_host (s : State) (g : Coh → Coh) : (s.modCoh g).host = s.host := rfl
@[simp] theorem modCoh_boot (s : State) (g : Coh → Coh) : (s.modCoh g).boot = s.boot := rfl

/-! ## `leaveWarp` -/

@[simp] theorem leaveWarp_time (s : State) (k : FKey) : (s.leaveWarp k).time = s.time := rfl
@[simp] theorem leaveWarp_evno (s : State) (k : FKey) : (s.leaveWarp k).evno = s.evno := rfl
@[simp] theorem leaveWarp_free (s : State) (k : FKey) : (s.leaveWarp k).free = s.free := rfl
@[simp] theorem leaveWarp_uid (s : State) (k : FKey) : (s.leaveWarp k).uid = s.uid := rfl
@[simp] theorem leaveWarp_agenda (s : State) (k : FKey) : (s.leaveWarp k).agenda = s.agenda := rfl
@[simp] theorem leaveWarp_issue (s : State) (k : FKey) : (s.leaveWarp k).issue = s.issue := rfl
@[simp] theorem leaveWarp_mem (s : State) (k : FKey) : (s.leaveWarp k).mem = s.mem := rfl
@[simp] theorem leaveWarp_areas (s : State) (k : FKey) : (s.leaveWarp k).areas = s.areas := rfl
@[simp] theorem leaveWarp_fibres (s : State) (k : FKey) : (s.leaveWarp k).fibres = s.fibres := rfl
@[simp] theorem leaveWarp_quads (s : State) (k : FKey) : (s.leaveWarp k).quads = s.quads := rfl
@[simp] theorem leaveWarp_sheafs (s : State) (k : FKey) : (s.leaveWarp k).sheafs = s.sheafs := rfl
@[simp] theorem leaveWarp_launches (s : State) (k : FKey) : (s.leaveWarp k).launches = s.launches := rfl
@[simp] theorem leaveWarp_ctxs (s : State) (k : FKey) : (s.leaveWarp k).ctxs = s.ctxs := rfl
@[simp] theorem leaveWarp_lastCtx (s : State) (k : FKey) : (s.leaveWarp k).lastCtx = s.lastCtx := rfl
@[simp] theorem leaveWarp_parts (s : State) (k : FKey) : (s.leaveWarp k).parts = s.parts := rfl
@[simp] theorem leaveWarp_cores (s : State) (k : FKey) : (s.leaveWarp k).cores = s.cores := rfl
@[simp] theorem leaveWarp_refills (s : State) (k : FKey) : (s.leaveWarp k).refills = s.refills := rfl
@[simp] theorem leaveWarp_ops (s : State) (k : FKey) : (s.leaveWarp k).ops = s.ops := rfl
@[simp] theorem leaveWarp_side (s : State) (k : FKey) : (s.leaveWarp k).side = s.side := rfl
@[simp] theorem leaveWarp_log (s : State) (k : FKey) : (s.leaveWarp k).log = s.log := rfl
@[simp] theorem leaveWarp_owed (s : State) (k : FKey) : (s.leaveWarp k).owed = s.owed := rfl
@[simp] theorem leaveWarp_roc (s : State) (k : FKey) : (s.leaveWarp k).roc = s.roc := rfl
@[simp] theorem leaveWarp_ic (s : State) (k : FKey) : (s.leaveWarp k).ic = s.ic := rfl
@[simp] theorem leaveWarp_xc (s : State) (k : FKey) : (s.leaveWarp k).xc = s.xc := rfl
@[simp] theorem leaveWarp_matq (s : State) (k : FKey) : (s.leaveWarp k).matq = s.matq := rfl
@[simp] theorem leaveWarp_batches (s : State) (k : FKey) : (s.leaveWarp k).batches = s.batches := rfl
@[simp] theorem leaveWarp_svc (s : State) (k : FKey) : (s.leaveWarp k).svc = s.svc := rfl
@[simp] theorem leaveWarp_coh (s : State) (k : FKey) : (s.leaveWarp k).coh = s.coh := rfl
@[simp] theorem leaveWarp_chk (s : State) (k : FKey) : (s.leaveWarp k).chk = s.chk := rfl
@[simp] theorem leaveWarp_rel (s : State) (k : FKey) : (s.leaveWarp k).rel = s.rel := rfl
@[simp] theorem leaveWarp_cmds (s : State) (k : FKey) : (s.leaveWarp k).cmds = s.cmds := rfl
@[simp] theorem leaveWarp_recv (s : State) (k : FKey) : (s.leaveWarp k).recv = s.recv := rfl
@[simp] theorem leaveWarp_fab (s : State) (k : FKey) : (s.leaveWarp k).fab = s.fab := rfl
@[simp] theorem leaveWarp_host (s : State) (k : FKey) : (s.leaveWarp k).host = s.host := rfl
@[simp] theorem leaveWarp_boot (s : State) (k : FKey) : (s.leaveWarp k).boot = s.boot := rfl

/-! ## `setCond` -/

@[simp] theorem setCond_time (s : State) (k : FKey) (c : Cond) : (s.setCond k c).time = s.time := rfl
@[simp] theorem setCond_evno (s : State) (k : FKey) (c : Cond) : (s.setCond k c).evno = s.evno := rfl
@[simp] theorem setCond_free (s : State) (k : FKey) (c : Cond) : (s.setCond k c).free = s.free := rfl
@[simp] theorem setCond_uid (s : State) (k : FKey) (c : Cond) : (s.setCond k c).uid = s.uid := rfl
@[simp] theorem setCond_agenda (s : State) (k : FKey) (c : Cond) : (s.setCond k c).agenda = s.agenda := rfl
@[simp] theorem setCond_issue (s : State) (k : FKey) (c : Cond) : (s.setCond k c).issue = s.issue := rfl
@[simp] theorem setCond_mem (s : State) (k : FKey) (c : Cond) : (s.setCond k c).mem = s.mem := rfl
@[simp] theorem setCond_areas (s : State) (k : FKey) (c : Cond) : (s.setCond k c).areas = s.areas := rfl
@[simp] theorem setCond_quads (s : State) (k : FKey) (c : Cond) : (s.setCond k c).quads = s.quads := rfl
@[simp] theorem setCond_sheafs (s : State) (k : FKey) (c : Cond) : (s.setCond k c).sheafs = s.sheafs := rfl
@[simp] theorem setCond_launches (s : State) (k : FKey) (c : Cond) : (s.setCond k c).launches = s.launches := rfl
@[simp] theorem setCond_ctxs (s : State) (k : FKey) (c : Cond) : (s.setCond k c).ctxs = s.ctxs := rfl
@[simp] theorem setCond_lastCtx (s : State) (k : FKey) (c : Cond) : (s.setCond k c).lastCtx = s.lastCtx := rfl
@[simp] theorem setCond_parts (s : State) (k : FKey) (c : Cond) : (s.setCond k c).parts = s.parts := rfl
@[simp] theorem setCond_cores (s : State) (k : FKey) (c : Cond) : (s.setCond k c).cores = s.cores := rfl
@[simp] theorem setCond_refills (s : State) (k : FKey) (c : Cond) : (s.setCond k c).refills = s.refills := rfl
@[simp] theorem setCond_ops (s : State) (k : FKey) (c : Cond) : (s.setCond k c).ops = s.ops := rfl
@[simp] theorem setCond_side (s : State) (k : FKey) (c : Cond) : (s.setCond k c).side = s.side := rfl
@[simp] theorem setCond_log (s : State) (k : FKey) (c : Cond) : (s.setCond k c).log = s.log := rfl
@[simp] theorem setCond_owed (s : State) (k : FKey) (c : Cond) : (s.setCond k c).owed = s.owed := rfl
@[simp] theorem setCond_roc (s : State) (k : FKey) (c : Cond) : (s.setCond k c).roc = s.roc := rfl
@[simp] theorem setCond_ic (s : State) (k : FKey) (c : Cond) : (s.setCond k c).ic = s.ic := rfl
@[simp] theorem setCond_xc (s : State) (k : FKey) (c : Cond) : (s.setCond k c).xc = s.xc := rfl
@[simp] theorem setCond_matq (s : State) (k : FKey) (c : Cond) : (s.setCond k c).matq = s.matq := rfl
@[simp] theorem setCond_batches (s : State) (k : FKey) (c : Cond) : (s.setCond k c).batches = s.batches := rfl
@[simp] theorem setCond_svc (s : State) (k : FKey) (c : Cond) : (s.setCond k c).svc = s.svc := rfl
@[simp] theorem setCond_coh (s : State) (k : FKey) (c : Cond) : (s.setCond k c).coh = s.coh := rfl
@[simp] theorem setCond_chk (s : State) (k : FKey) (c : Cond) : (s.setCond k c).chk = s.chk := rfl
@[simp] theorem setCond_rel (s : State) (k : FKey) (c : Cond) : (s.setCond k c).rel = s.rel := rfl
@[simp] theorem setCond_cmds (s : State) (k : FKey) (c : Cond) : (s.setCond k c).cmds = s.cmds := rfl
@[simp] theorem setCond_recv (s : State) (k : FKey) (c : Cond) : (s.setCond k c).recv = s.recv := rfl
@[simp] theorem setCond_fab (s : State) (k : FKey) (c : Cond) : (s.setCond k c).fab = s.fab := rfl
@[simp] theorem setCond_host (s : State) (k : FKey) (c : Cond) : (s.setCond k c).host = s.host := rfl
@[simp] theorem setCond_boot (s : State) (k : FKey) (c : Cond) : (s.setCond k c).boot = s.boot := rfl

/-! ## `batch` -/

@[simp] theorem batch_time (s : State) (ks : List FKey) (n : Nat) : (s.batch ks n).time = s.time := rfl
@[simp] theorem batch_evno (s : State) (ks : List FKey) (n : Nat) : (s.batch ks n).evno = s.evno := rfl
@[simp] theorem batch_free (s : State) (ks : List FKey) (n : Nat) : (s.batch ks n).free = s.free := rfl
@[simp] theorem batch_uid (s : State) (ks : List FKey) (n : Nat) : (s.batch ks n).uid = s.uid := rfl
@[simp] theorem batch_agenda (s : State) (ks : List FKey) (n : Nat) : (s.batch ks n).agenda = s.agenda := rfl
@[simp] theorem batch_issue (s : State) (ks : List FKey) (n : Nat) : (s.batch ks n).issue = s.issue := rfl
@[simp] theorem batch_mem (s : State) (ks : List FKey) (n : Nat) : (s.batch ks n).mem = s.mem := rfl
@[simp] theorem batch_areas (s : State) (ks : List FKey) (n : Nat) : (s.batch ks n).areas = s.areas := rfl
@[simp] theorem batch_warps (s : State) (ks : List FKey) (n : Nat) : (s.batch ks n).warps = s.warps := rfl
@[simp] theorem batch_quads (s : State) (ks : List FKey) (n : Nat) : (s.batch ks n).quads = s.quads := rfl
@[simp] theorem batch_sheafs (s : State) (ks : List FKey) (n : Nat) : (s.batch ks n).sheafs = s.sheafs := rfl
@[simp] theorem batch_launches (s : State) (ks : List FKey) (n : Nat) : (s.batch ks n).launches = s.launches := rfl
@[simp] theorem batch_ctxs (s : State) (ks : List FKey) (n : Nat) : (s.batch ks n).ctxs = s.ctxs := rfl
@[simp] theorem batch_lastCtx (s : State) (ks : List FKey) (n : Nat) : (s.batch ks n).lastCtx = s.lastCtx := rfl
@[simp] theorem batch_parts (s : State) (ks : List FKey) (n : Nat) : (s.batch ks n).parts = s.parts := rfl
@[simp] theorem batch_cores (s : State) (ks : List FKey) (n : Nat) : (s.batch ks n).cores = s.cores := rfl
@[simp] theorem batch_refills (s : State) (ks : List FKey) (n : Nat) : (s.batch ks n).refills = s.refills := rfl
@[simp] theorem batch_ops (s : State) (ks : List FKey) (n : Nat) : (s.batch ks n).ops = s.ops := rfl
@[simp] theorem batch_side (s : State) (ks : List FKey) (n : Nat) : (s.batch ks n).side = s.side := rfl
@[simp] theorem batch_log (s : State) (ks : List FKey) (n : Nat) : (s.batch ks n).log = s.log := rfl
@[simp] theorem batch_owed (s : State) (ks : List FKey) (n : Nat) : (s.batch ks n).owed = s.owed := rfl
@[simp] theorem batch_roc (s : State) (ks : List FKey) (n : Nat) : (s.batch ks n).roc = s.roc := rfl
@[simp] theorem batch_ic (s : State) (ks : List FKey) (n : Nat) : (s.batch ks n).ic = s.ic := rfl
@[simp] theorem batch_xc (s : State) (ks : List FKey) (n : Nat) : (s.batch ks n).xc = s.xc := rfl
@[simp] theorem batch_matq (s : State) (ks : List FKey) (n : Nat) : (s.batch ks n).matq = s.matq := rfl
@[simp] theorem batch_batches (s : State) (ks : List FKey) (n : Nat) : (s.batch ks n).batches = s.batches := rfl
@[simp] theorem batch_svc (s : State) (ks : List FKey) (n : Nat) : (s.batch ks n).svc = s.svc := rfl
@[simp] theorem batch_coh (s : State) (ks : List FKey) (n : Nat) : (s.batch ks n).coh = s.coh := rfl
@[simp] theorem batch_chk (s : State) (ks : List FKey) (n : Nat) : (s.batch ks n).chk = s.chk := rfl
@[simp] theorem batch_rel (s : State) (ks : List FKey) (n : Nat) : (s.batch ks n).rel = s.rel := rfl
@[simp] theorem batch_cmds (s : State) (ks : List FKey) (n : Nat) : (s.batch ks n).cmds = s.cmds := rfl
@[simp] theorem batch_recv (s : State) (ks : List FKey) (n : Nat) : (s.batch ks n).recv = s.recv := rfl
@[simp] theorem batch_fab (s : State) (ks : List FKey) (n : Nat) : (s.batch ks n).fab = s.fab := rfl
@[simp] theorem batch_host (s : State) (ks : List FKey) (n : Nat) : (s.batch ks n).host = s.host := rfl
@[simp] theorem batch_boot (s : State) (ks : List FKey) (n : Nat) : (s.batch ks n).boot = s.boot := rfl

/-! ## `wakeLine` -/

@[simp] theorem wakeLine_time (s : State) (l : Nat) : (s.wakeLine l).time = s.time := rfl
@[simp] theorem wakeLine_evno (s : State) (l : Nat) : (s.wakeLine l).evno = s.evno := rfl
@[simp] theorem wakeLine_free (s : State) (l : Nat) : (s.wakeLine l).free = s.free := rfl
@[simp] theorem wakeLine_uid (s : State) (l : Nat) : (s.wakeLine l).uid = s.uid := rfl
@[simp] theorem wakeLine_agenda (s : State) (l : Nat) : (s.wakeLine l).agenda = s.agenda := rfl
@[simp] theorem wakeLine_issue (s : State) (l : Nat) : (s.wakeLine l).issue = s.issue := rfl
@[simp] theorem wakeLine_mem (s : State) (l : Nat) : (s.wakeLine l).mem = s.mem := rfl
@[simp] theorem wakeLine_areas (s : State) (l : Nat) : (s.wakeLine l).areas = s.areas := rfl
@[simp] theorem wakeLine_warps (s : State) (l : Nat) : (s.wakeLine l).warps = s.warps := rfl
@[simp] theorem wakeLine_quads (s : State) (l : Nat) : (s.wakeLine l).quads = s.quads := rfl
@[simp] theorem wakeLine_sheafs (s : State) (l : Nat) : (s.wakeLine l).sheafs = s.sheafs := rfl
@[simp] theorem wakeLine_launches (s : State) (l : Nat) : (s.wakeLine l).launches = s.launches := rfl
@[simp] theorem wakeLine_ctxs (s : State) (l : Nat) : (s.wakeLine l).ctxs = s.ctxs := rfl
@[simp] theorem wakeLine_lastCtx (s : State) (l : Nat) : (s.wakeLine l).lastCtx = s.lastCtx := rfl
@[simp] theorem wakeLine_parts (s : State) (l : Nat) : (s.wakeLine l).parts = s.parts := rfl
@[simp] theorem wakeLine_cores (s : State) (l : Nat) : (s.wakeLine l).cores = s.cores := rfl
@[simp] theorem wakeLine_refills (s : State) (l : Nat) : (s.wakeLine l).refills = s.refills := rfl
@[simp] theorem wakeLine_ops (s : State) (l : Nat) : (s.wakeLine l).ops = s.ops := rfl
@[simp] theorem wakeLine_side (s : State) (l : Nat) : (s.wakeLine l).side = s.side := rfl
@[simp] theorem wakeLine_log (s : State) (l : Nat) : (s.wakeLine l).log = s.log := rfl
@[simp] theorem wakeLine_owed (s : State) (l : Nat) : (s.wakeLine l).owed = s.owed := rfl
@[simp] theorem wakeLine_roc (s : State) (l : Nat) : (s.wakeLine l).roc = s.roc := rfl
@[simp] theorem wakeLine_ic (s : State) (l : Nat) : (s.wakeLine l).ic = s.ic := rfl
@[simp] theorem wakeLine_xc (s : State) (l : Nat) : (s.wakeLine l).xc = s.xc := rfl
@[simp] theorem wakeLine_matq (s : State) (l : Nat) : (s.wakeLine l).matq = s.matq := rfl
@[simp] theorem wakeLine_batches (s : State) (l : Nat) : (s.wakeLine l).batches = s.batches := rfl
@[simp] theorem wakeLine_svc (s : State) (l : Nat) : (s.wakeLine l).svc = s.svc := rfl
@[simp] theorem wakeLine_coh (s : State) (l : Nat) : (s.wakeLine l).coh = s.coh := rfl
@[simp] theorem wakeLine_chk (s : State) (l : Nat) : (s.wakeLine l).chk = s.chk := rfl
@[simp] theorem wakeLine_rel (s : State) (l : Nat) : (s.wakeLine l).rel = s.rel := rfl
@[simp] theorem wakeLine_cmds (s : State) (l : Nat) : (s.wakeLine l).cmds = s.cmds := rfl
@[simp] theorem wakeLine_recv (s : State) (l : Nat) : (s.wakeLine l).recv = s.recv := rfl
@[simp] theorem wakeLine_fab (s : State) (l : Nat) : (s.wakeLine l).fab = s.fab := rfl
@[simp] theorem wakeLine_host (s : State) (l : Nat) : (s.wakeLine l).host = s.host := rfl
@[simp] theorem wakeLine_boot (s : State) (l : Nat) : (s.wakeLine l).boot = s.boot := rfl

/-! ## `wakeQueue` -/

@[simp] theorem wakeQueue_time (s : State) (p : Sheaf → Nat → Bool) : (s.wakeQueue p).time = s.time := rfl
@[simp] theorem wakeQueue_evno (s : State) (p : Sheaf → Nat → Bool) : (s.wakeQueue p).evno = s.evno := rfl
@[simp] theorem wakeQueue_free (s : State) (p : Sheaf → Nat → Bool) : (s.wakeQueue p).free = s.free := rfl
@[simp] theorem wakeQueue_uid (s : State) (p : Sheaf → Nat → Bool) : (s.wakeQueue p).uid = s.uid := rfl
@[simp] theorem wakeQueue_agenda (s : State) (p : Sheaf → Nat → Bool) : (s.wakeQueue p).agenda = s.agenda := rfl
@[simp] theorem wakeQueue_issue (s : State) (p : Sheaf → Nat → Bool) : (s.wakeQueue p).issue = s.issue := rfl
@[simp] theorem wakeQueue_mem (s : State) (p : Sheaf → Nat → Bool) : (s.wakeQueue p).mem = s.mem := rfl
@[simp] theorem wakeQueue_areas (s : State) (p : Sheaf → Nat → Bool) : (s.wakeQueue p).areas = s.areas := rfl
@[simp] theorem wakeQueue_warps (s : State) (p : Sheaf → Nat → Bool) : (s.wakeQueue p).warps = s.warps := rfl
@[simp] theorem wakeQueue_quads (s : State) (p : Sheaf → Nat → Bool) : (s.wakeQueue p).quads = s.quads := rfl
@[simp] theorem wakeQueue_sheafs (s : State) (p : Sheaf → Nat → Bool) : (s.wakeQueue p).sheafs = s.sheafs := rfl
@[simp] theorem wakeQueue_launches (s : State) (p : Sheaf → Nat → Bool) : (s.wakeQueue p).launches = s.launches := rfl
@[simp] theorem wakeQueue_ctxs (s : State) (p : Sheaf → Nat → Bool) : (s.wakeQueue p).ctxs = s.ctxs := rfl
@[simp] theorem wakeQueue_lastCtx (s : State) (p : Sheaf → Nat → Bool) : (s.wakeQueue p).lastCtx = s.lastCtx := rfl
@[simp] theorem wakeQueue_parts (s : State) (p : Sheaf → Nat → Bool) : (s.wakeQueue p).parts = s.parts := rfl
@[simp] theorem wakeQueue_cores (s : State) (p : Sheaf → Nat → Bool) : (s.wakeQueue p).cores = s.cores := rfl
@[simp] theorem wakeQueue_refills (s : State) (p : Sheaf → Nat → Bool) : (s.wakeQueue p).refills = s.refills := rfl
@[simp] theorem wakeQueue_ops (s : State) (p : Sheaf → Nat → Bool) : (s.wakeQueue p).ops = s.ops := rfl
@[simp] theorem wakeQueue_side (s : State) (p : Sheaf → Nat → Bool) : (s.wakeQueue p).side = s.side := rfl
@[simp] theorem wakeQueue_log (s : State) (p : Sheaf → Nat → Bool) : (s.wakeQueue p).log = s.log := rfl
@[simp] theorem wakeQueue_owed (s : State) (p : Sheaf → Nat → Bool) : (s.wakeQueue p).owed = s.owed := rfl
@[simp] theorem wakeQueue_roc (s : State) (p : Sheaf → Nat → Bool) : (s.wakeQueue p).roc = s.roc := rfl
@[simp] theorem wakeQueue_ic (s : State) (p : Sheaf → Nat → Bool) : (s.wakeQueue p).ic = s.ic := rfl
@[simp] theorem wakeQueue_xc (s : State) (p : Sheaf → Nat → Bool) : (s.wakeQueue p).xc = s.xc := rfl
@[simp] theorem wakeQueue_matq (s : State) (p : Sheaf → Nat → Bool) : (s.wakeQueue p).matq = s.matq := rfl
@[simp] theorem wakeQueue_batches (s : State) (p : Sheaf → Nat → Bool) : (s.wakeQueue p).batches = s.batches := rfl
@[simp] theorem wakeQueue_svc (s : State) (p : Sheaf → Nat → Bool) : (s.wakeQueue p).svc = s.svc := rfl
@[simp] theorem wakeQueue_coh (s : State) (p : Sheaf → Nat → Bool) : (s.wakeQueue p).coh = s.coh := rfl
@[simp] theorem wakeQueue_chk (s : State) (p : Sheaf → Nat → Bool) : (s.wakeQueue p).chk = s.chk := rfl
@[simp] theorem wakeQueue_rel (s : State) (p : Sheaf → Nat → Bool) : (s.wakeQueue p).rel = s.rel := rfl
@[simp] theorem wakeQueue_cmds (s : State) (p : Sheaf → Nat → Bool) : (s.wakeQueue p).cmds = s.cmds := rfl
@[simp] theorem wakeQueue_recv (s : State) (p : Sheaf → Nat → Bool) : (s.wakeQueue p).recv = s.recv := rfl
@[simp] theorem wakeQueue_fab (s : State) (p : Sheaf → Nat → Bool) : (s.wakeQueue p).fab = s.fab := rfl
@[simp] theorem wakeQueue_host (s : State) (p : Sheaf → Nat → Bool) : (s.wakeQueue p).host = s.host := rfl
@[simp] theorem wakeQueue_boot (s : State) (p : Sheaf → Nat → Bool) : (s.wakeQueue p).boot = s.boot := rfl

/-! ## `setSvcQ` -/

@[simp] theorem setSvcQ_time (s : State) (q : SvcQueue) : (s.setSvcQ q).time = s.time := rfl
@[simp] theorem setSvcQ_evno (s : State) (q : SvcQueue) : (s.setSvcQ q).evno = s.evno := rfl
@[simp] theorem setSvcQ_free (s : State) (q : SvcQueue) : (s.setSvcQ q).free = s.free := rfl
@[simp] theorem setSvcQ_uid (s : State) (q : SvcQueue) : (s.setSvcQ q).uid = s.uid := rfl
@[simp] theorem setSvcQ_agenda (s : State) (q : SvcQueue) : (s.setSvcQ q).agenda = s.agenda := rfl
@[simp] theorem setSvcQ_issue (s : State) (q : SvcQueue) : (s.setSvcQ q).issue = s.issue := rfl
@[simp] theorem setSvcQ_mem (s : State) (q : SvcQueue) : (s.setSvcQ q).mem = s.mem := rfl
@[simp] theorem setSvcQ_areas (s : State) (q : SvcQueue) : (s.setSvcQ q).areas = s.areas := rfl
@[simp] theorem setSvcQ_fibres (s : State) (q : SvcQueue) : (s.setSvcQ q).fibres = s.fibres := rfl
@[simp] theorem setSvcQ_warps (s : State) (q : SvcQueue) : (s.setSvcQ q).warps = s.warps := rfl
@[simp] theorem setSvcQ_quads (s : State) (q : SvcQueue) : (s.setSvcQ q).quads = s.quads := rfl
@[simp] theorem setSvcQ_sheafs (s : State) (q : SvcQueue) : (s.setSvcQ q).sheafs = s.sheafs := rfl
@[simp] theorem setSvcQ_launches (s : State) (q : SvcQueue) : (s.setSvcQ q).launches = s.launches := rfl
@[simp] theorem setSvcQ_ctxs (s : State) (q : SvcQueue) : (s.setSvcQ q).ctxs = s.ctxs := rfl
@[simp] theorem setSvcQ_lastCtx (s : State) (q : SvcQueue) : (s.setSvcQ q).lastCtx = s.lastCtx := rfl
@[simp] theorem setSvcQ_parts (s : State) (q : SvcQueue) : (s.setSvcQ q).parts = s.parts := rfl
@[simp] theorem setSvcQ_cores (s : State) (q : SvcQueue) : (s.setSvcQ q).cores = s.cores := rfl
@[simp] theorem setSvcQ_refills (s : State) (q : SvcQueue) : (s.setSvcQ q).refills = s.refills := rfl
@[simp] theorem setSvcQ_ops (s : State) (q : SvcQueue) : (s.setSvcQ q).ops = s.ops := rfl
@[simp] theorem setSvcQ_side (s : State) (q : SvcQueue) : (s.setSvcQ q).side = s.side := rfl
@[simp] theorem setSvcQ_log (s : State) (q : SvcQueue) : (s.setSvcQ q).log = s.log := rfl
@[simp] theorem setSvcQ_owed (s : State) (q : SvcQueue) : (s.setSvcQ q).owed = s.owed := rfl
@[simp] theorem setSvcQ_roc (s : State) (q : SvcQueue) : (s.setSvcQ q).roc = s.roc := rfl
@[simp] theorem setSvcQ_ic (s : State) (q : SvcQueue) : (s.setSvcQ q).ic = s.ic := rfl
@[simp] theorem setSvcQ_xc (s : State) (q : SvcQueue) : (s.setSvcQ q).xc = s.xc := rfl
@[simp] theorem setSvcQ_matq (s : State) (q : SvcQueue) : (s.setSvcQ q).matq = s.matq := rfl
@[simp] theorem setSvcQ_batches (s : State) (q : SvcQueue) : (s.setSvcQ q).batches = s.batches := rfl
@[simp] theorem setSvcQ_coh (s : State) (q : SvcQueue) : (s.setSvcQ q).coh = s.coh := rfl
@[simp] theorem setSvcQ_chk (s : State) (q : SvcQueue) : (s.setSvcQ q).chk = s.chk := rfl
@[simp] theorem setSvcQ_rel (s : State) (q : SvcQueue) : (s.setSvcQ q).rel = s.rel := rfl
@[simp] theorem setSvcQ_cmds (s : State) (q : SvcQueue) : (s.setSvcQ q).cmds = s.cmds := rfl
@[simp] theorem setSvcQ_recv (s : State) (q : SvcQueue) : (s.setSvcQ q).recv = s.recv := rfl
@[simp] theorem setSvcQ_fab (s : State) (q : SvcQueue) : (s.setSvcQ q).fab = s.fab := rfl
@[simp] theorem setSvcQ_host (s : State) (q : SvcQueue) : (s.setSvcQ q).host = s.host := rfl
@[simp] theorem setSvcQ_boot (s : State) (q : SvcQueue) : (s.setSvcQ q).boot = s.boot := rfl

/-! ## `reap` -/

@[simp] theorem reap_time (s : State) (k : FKey) : (s.reap k).time = s.time := rfl
@[simp] theorem reap_evno (s : State) (k : FKey) : (s.reap k).evno = s.evno := rfl
@[simp] theorem reap_free (s : State) (k : FKey) : (s.reap k).free = s.free := rfl
@[simp] theorem reap_uid (s : State) (k : FKey) : (s.reap k).uid = s.uid := rfl
@[simp] theorem reap_agenda (s : State) (k : FKey) : (s.reap k).agenda = s.agenda := rfl
@[simp] theorem reap_issue (s : State) (k : FKey) : (s.reap k).issue = s.issue := rfl
@[simp] theorem reap_mem (s : State) (k : FKey) : (s.reap k).mem = s.mem := rfl
@[simp] theorem reap_areas (s : State) (k : FKey) : (s.reap k).areas = s.areas := rfl
@[simp] theorem reap_warps (s : State) (k : FKey) : (s.reap k).warps = s.warps := rfl
@[simp] theorem reap_quads (s : State) (k : FKey) : (s.reap k).quads = s.quads := rfl
@[simp] theorem reap_sheafs (s : State) (k : FKey) : (s.reap k).sheafs = s.sheafs := rfl
@[simp] theorem reap_launches (s : State) (k : FKey) : (s.reap k).launches = s.launches := rfl
@[simp] theorem reap_ctxs (s : State) (k : FKey) : (s.reap k).ctxs = s.ctxs := rfl
@[simp] theorem reap_lastCtx (s : State) (k : FKey) : (s.reap k).lastCtx = s.lastCtx := rfl
@[simp] theorem reap_parts (s : State) (k : FKey) : (s.reap k).parts = s.parts := rfl
@[simp] theorem reap_cores (s : State) (k : FKey) : (s.reap k).cores = s.cores := rfl
@[simp] theorem reap_refills (s : State) (k : FKey) : (s.reap k).refills = s.refills := rfl
@[simp] theorem reap_ops (s : State) (k : FKey) : (s.reap k).ops = s.ops := rfl
@[simp] theorem reap_side (s : State) (k : FKey) : (s.reap k).side = s.side := rfl
@[simp] theorem reap_log (s : State) (k : FKey) : (s.reap k).log = s.log := rfl
@[simp] theorem reap_owed (s : State) (k : FKey) : (s.reap k).owed = s.owed := rfl
@[simp] theorem reap_roc (s : State) (k : FKey) : (s.reap k).roc = s.roc := rfl
@[simp] theorem reap_ic (s : State) (k : FKey) : (s.reap k).ic = s.ic := rfl
@[simp] theorem reap_xc (s : State) (k : FKey) : (s.reap k).xc = s.xc := rfl
@[simp] theorem reap_matq (s : State) (k : FKey) : (s.reap k).matq = s.matq := rfl
@[simp] theorem reap_batches (s : State) (k : FKey) : (s.reap k).batches = s.batches := rfl
@[simp] theorem reap_svc (s : State) (k : FKey) : (s.reap k).svc = s.svc := rfl
@[simp] theorem reap_coh (s : State) (k : FKey) : (s.reap k).coh = s.coh := rfl
@[simp] theorem reap_chk (s : State) (k : FKey) : (s.reap k).chk = s.chk := rfl
@[simp] theorem reap_rel (s : State) (k : FKey) : (s.reap k).rel = s.rel := rfl
@[simp] theorem reap_cmds (s : State) (k : FKey) : (s.reap k).cmds = s.cmds := rfl
@[simp] theorem reap_recv (s : State) (k : FKey) : (s.reap k).recv = s.recv := rfl
@[simp] theorem reap_fab (s : State) (k : FKey) : (s.reap k).fab = s.fab := rfl
@[simp] theorem reap_host (s : State) (k : FKey) : (s.reap k).host = s.host := rfl
@[simp] theorem reap_boot (s : State) (k : FKey) : (s.reap k).boot = s.boot := rfl

/-! ## `modBar` -/

@[simp] theorem modBar_time (s : State) (u n : Nat) (g : Barrier → Barrier) : (s.modBar u n g).time = s.time := rfl
@[simp] theorem modBar_evno (s : State) (u n : Nat) (g : Barrier → Barrier) : (s.modBar u n g).evno = s.evno := rfl
@[simp] theorem modBar_free (s : State) (u n : Nat) (g : Barrier → Barrier) : (s.modBar u n g).free = s.free := rfl
@[simp] theorem modBar_uid (s : State) (u n : Nat) (g : Barrier → Barrier) : (s.modBar u n g).uid = s.uid := rfl
@[simp] theorem modBar_agenda (s : State) (u n : Nat) (g : Barrier → Barrier) : (s.modBar u n g).agenda = s.agenda := rfl
@[simp] theorem modBar_issue (s : State) (u n : Nat) (g : Barrier → Barrier) : (s.modBar u n g).issue = s.issue := rfl
@[simp] theorem modBar_mem (s : State) (u n : Nat) (g : Barrier → Barrier) : (s.modBar u n g).mem = s.mem := rfl
@[simp] theorem modBar_areas (s : State) (u n : Nat) (g : Barrier → Barrier) : (s.modBar u n g).areas = s.areas := rfl
@[simp] theorem modBar_fibres (s : State) (u n : Nat) (g : Barrier → Barrier) : (s.modBar u n g).fibres = s.fibres := rfl
@[simp] theorem modBar_warps (s : State) (u n : Nat) (g : Barrier → Barrier) : (s.modBar u n g).warps = s.warps := rfl
@[simp] theorem modBar_quads (s : State) (u n : Nat) (g : Barrier → Barrier) : (s.modBar u n g).quads = s.quads := rfl
@[simp] theorem modBar_launches (s : State) (u n : Nat) (g : Barrier → Barrier) : (s.modBar u n g).launches = s.launches := rfl
@[simp] theorem modBar_ctxs (s : State) (u n : Nat) (g : Barrier → Barrier) : (s.modBar u n g).ctxs = s.ctxs := rfl
@[simp] theorem modBar_lastCtx (s : State) (u n : Nat) (g : Barrier → Barrier) : (s.modBar u n g).lastCtx = s.lastCtx := rfl
@[simp] theorem modBar_parts (s : State) (u n : Nat) (g : Barrier → Barrier) : (s.modBar u n g).parts = s.parts := rfl
@[simp] theorem modBar_cores (s : State) (u n : Nat) (g : Barrier → Barrier) : (s.modBar u n g).cores = s.cores := rfl
@[simp] theorem modBar_refills (s : State) (u n : Nat) (g : Barrier → Barrier) : (s.modBar u n g).refills = s.refills := rfl
@[simp] theorem modBar_ops (s : State) (u n : Nat) (g : Barrier → Barrier) : (s.modBar u n g).ops = s.ops := rfl
@[simp] theorem modBar_side (s : State) (u n : Nat) (g : Barrier → Barrier) : (s.modBar u n g).side = s.side := rfl
@[simp] theorem modBar_log (s : State) (u n : Nat) (g : Barrier → Barrier) : (s.modBar u n g).log = s.log := rfl
@[simp] theorem modBar_owed (s : State) (u n : Nat) (g : Barrier → Barrier) : (s.modBar u n g).owed = s.owed := rfl
@[simp] theorem modBar_roc (s : State) (u n : Nat) (g : Barrier → Barrier) : (s.modBar u n g).roc = s.roc := rfl
@[simp] theorem modBar_ic (s : State) (u n : Nat) (g : Barrier → Barrier) : (s.modBar u n g).ic = s.ic := rfl
@[simp] theorem modBar_xc (s : State) (u n : Nat) (g : Barrier → Barrier) : (s.modBar u n g).xc = s.xc := rfl
@[simp] theorem modBar_matq (s : State) (u n : Nat) (g : Barrier → Barrier) : (s.modBar u n g).matq = s.matq := rfl
@[simp] theorem modBar_batches (s : State) (u n : Nat) (g : Barrier → Barrier) : (s.modBar u n g).batches = s.batches := rfl
@[simp] theorem modBar_svc (s : State) (u n : Nat) (g : Barrier → Barrier) : (s.modBar u n g).svc = s.svc := rfl
@[simp] theorem modBar_coh (s : State) (u n : Nat) (g : Barrier → Barrier) : (s.modBar u n g).coh = s.coh := rfl
@[simp] theorem modBar_chk (s : State) (u n : Nat) (g : Barrier → Barrier) : (s.modBar u n g).chk = s.chk := rfl
@[simp] theorem modBar_rel (s : State) (u n : Nat) (g : Barrier → Barrier) : (s.modBar u n g).rel = s.rel := rfl
@[simp] theorem modBar_cmds (s : State) (u n : Nat) (g : Barrier → Barrier) : (s.modBar u n g).cmds = s.cmds := rfl
@[simp] theorem modBar_recv (s : State) (u n : Nat) (g : Barrier → Barrier) : (s.modBar u n g).recv = s.recv := rfl
@[simp] theorem modBar_fab (s : State) (u n : Nat) (g : Barrier → Barrier) : (s.modBar u n g).fab = s.fab := rfl
@[simp] theorem modBar_host (s : State) (u n : Nat) (g : Barrier → Barrier) : (s.modBar u n g).host = s.host := rfl
@[simp] theorem modBar_boot (s : State) (u n : Nat) (g : Barrier → Barrier) : (s.modBar u n g).boot = s.boot := rfl

/-! ## `modSet` -/

@[simp] theorem modSet_time (s : State) (u j : Nat) (g : JoinSet → JoinSet) : (s.modSet u j g).time = s.time := rfl
@[simp] theorem modSet_evno (s : State) (u j : Nat) (g : JoinSet → JoinSet) : (s.modSet u j g).evno = s.evno := rfl
@[simp] theorem modSet_free (s : State) (u j : Nat) (g : JoinSet → JoinSet) : (s.modSet u j g).free = s.free := rfl
@[simp] theorem modSet_uid (s : State) (u j : Nat) (g : JoinSet → JoinSet) : (s.modSet u j g).uid = s.uid := rfl
@[simp] theorem modSet_agenda (s : State) (u j : Nat) (g : JoinSet → JoinSet) : (s.modSet u j g).agenda = s.agenda := rfl
@[simp] theorem modSet_issue (s : State) (u j : Nat) (g : JoinSet → JoinSet) : (s.modSet u j g).issue = s.issue := rfl
@[simp] theorem modSet_mem (s : State) (u j : Nat) (g : JoinSet → JoinSet) : (s.modSet u j g).mem = s.mem := rfl
@[simp] theorem modSet_areas (s : State) (u j : Nat) (g : JoinSet → JoinSet) : (s.modSet u j g).areas = s.areas := rfl
@[simp] theorem modSet_fibres (s : State) (u j : Nat) (g : JoinSet → JoinSet) : (s.modSet u j g).fibres = s.fibres := rfl
@[simp] theorem modSet_warps (s : State) (u j : Nat) (g : JoinSet → JoinSet) : (s.modSet u j g).warps = s.warps := rfl
@[simp] theorem modSet_quads (s : State) (u j : Nat) (g : JoinSet → JoinSet) : (s.modSet u j g).quads = s.quads := rfl
@[simp] theorem modSet_launches (s : State) (u j : Nat) (g : JoinSet → JoinSet) : (s.modSet u j g).launches = s.launches := rfl
@[simp] theorem modSet_ctxs (s : State) (u j : Nat) (g : JoinSet → JoinSet) : (s.modSet u j g).ctxs = s.ctxs := rfl
@[simp] theorem modSet_lastCtx (s : State) (u j : Nat) (g : JoinSet → JoinSet) : (s.modSet u j g).lastCtx = s.lastCtx := rfl
@[simp] theorem modSet_parts (s : State) (u j : Nat) (g : JoinSet → JoinSet) : (s.modSet u j g).parts = s.parts := rfl
@[simp] theorem modSet_cores (s : State) (u j : Nat) (g : JoinSet → JoinSet) : (s.modSet u j g).cores = s.cores := rfl
@[simp] theorem modSet_refills (s : State) (u j : Nat) (g : JoinSet → JoinSet) : (s.modSet u j g).refills = s.refills := rfl
@[simp] theorem modSet_ops (s : State) (u j : Nat) (g : JoinSet → JoinSet) : (s.modSet u j g).ops = s.ops := rfl
@[simp] theorem modSet_side (s : State) (u j : Nat) (g : JoinSet → JoinSet) : (s.modSet u j g).side = s.side := rfl
@[simp] theorem modSet_log (s : State) (u j : Nat) (g : JoinSet → JoinSet) : (s.modSet u j g).log = s.log := rfl
@[simp] theorem modSet_owed (s : State) (u j : Nat) (g : JoinSet → JoinSet) : (s.modSet u j g).owed = s.owed := rfl
@[simp] theorem modSet_roc (s : State) (u j : Nat) (g : JoinSet → JoinSet) : (s.modSet u j g).roc = s.roc := rfl
@[simp] theorem modSet_ic (s : State) (u j : Nat) (g : JoinSet → JoinSet) : (s.modSet u j g).ic = s.ic := rfl
@[simp] theorem modSet_xc (s : State) (u j : Nat) (g : JoinSet → JoinSet) : (s.modSet u j g).xc = s.xc := rfl
@[simp] theorem modSet_matq (s : State) (u j : Nat) (g : JoinSet → JoinSet) : (s.modSet u j g).matq = s.matq := rfl
@[simp] theorem modSet_batches (s : State) (u j : Nat) (g : JoinSet → JoinSet) : (s.modSet u j g).batches = s.batches := rfl
@[simp] theorem modSet_svc (s : State) (u j : Nat) (g : JoinSet → JoinSet) : (s.modSet u j g).svc = s.svc := rfl
@[simp] theorem modSet_coh (s : State) (u j : Nat) (g : JoinSet → JoinSet) : (s.modSet u j g).coh = s.coh := rfl
@[simp] theorem modSet_chk (s : State) (u j : Nat) (g : JoinSet → JoinSet) : (s.modSet u j g).chk = s.chk := rfl
@[simp] theorem modSet_rel (s : State) (u j : Nat) (g : JoinSet → JoinSet) : (s.modSet u j g).rel = s.rel := rfl
@[simp] theorem modSet_cmds (s : State) (u j : Nat) (g : JoinSet → JoinSet) : (s.modSet u j g).cmds = s.cmds := rfl
@[simp] theorem modSet_recv (s : State) (u j : Nat) (g : JoinSet → JoinSet) : (s.modSet u j g).recv = s.recv := rfl
@[simp] theorem modSet_fab (s : State) (u j : Nat) (g : JoinSet → JoinSet) : (s.modSet u j g).fab = s.fab := rfl
@[simp] theorem modSet_host (s : State) (u j : Nat) (g : JoinSet → JoinSet) : (s.modSet u j g).host = s.host := rfl
@[simp] theorem modSet_boot (s : State) (u j : Nat) (g : JoinSet → JoinSet) : (s.modSet u j g).boot = s.boot := rfl

/-! ## `logOp` -/

@[simp] theorem logOp_time (s : State) (i : Nat) (g : Access → Access) : (s.logOp i g).time = s.time := rfl
@[simp] theorem logOp_evno (s : State) (i : Nat) (g : Access → Access) : (s.logOp i g).evno = s.evno := rfl
@[simp] theorem logOp_free (s : State) (i : Nat) (g : Access → Access) : (s.logOp i g).free = s.free := rfl
@[simp] theorem logOp_uid (s : State) (i : Nat) (g : Access → Access) : (s.logOp i g).uid = s.uid := rfl
@[simp] theorem logOp_agenda (s : State) (i : Nat) (g : Access → Access) : (s.logOp i g).agenda = s.agenda := rfl
@[simp] theorem logOp_issue (s : State) (i : Nat) (g : Access → Access) : (s.logOp i g).issue = s.issue := rfl
@[simp] theorem logOp_mem (s : State) (i : Nat) (g : Access → Access) : (s.logOp i g).mem = s.mem := rfl
@[simp] theorem logOp_areas (s : State) (i : Nat) (g : Access → Access) : (s.logOp i g).areas = s.areas := rfl
@[simp] theorem logOp_fibres (s : State) (i : Nat) (g : Access → Access) : (s.logOp i g).fibres = s.fibres := rfl
@[simp] theorem logOp_warps (s : State) (i : Nat) (g : Access → Access) : (s.logOp i g).warps = s.warps := rfl
@[simp] theorem logOp_quads (s : State) (i : Nat) (g : Access → Access) : (s.logOp i g).quads = s.quads := rfl
@[simp] theorem logOp_sheafs (s : State) (i : Nat) (g : Access → Access) : (s.logOp i g).sheafs = s.sheafs := rfl
@[simp] theorem logOp_launches (s : State) (i : Nat) (g : Access → Access) : (s.logOp i g).launches = s.launches := rfl
@[simp] theorem logOp_ctxs (s : State) (i : Nat) (g : Access → Access) : (s.logOp i g).ctxs = s.ctxs := rfl
@[simp] theorem logOp_lastCtx (s : State) (i : Nat) (g : Access → Access) : (s.logOp i g).lastCtx = s.lastCtx := rfl
@[simp] theorem logOp_parts (s : State) (i : Nat) (g : Access → Access) : (s.logOp i g).parts = s.parts := rfl
@[simp] theorem logOp_cores (s : State) (i : Nat) (g : Access → Access) : (s.logOp i g).cores = s.cores := rfl
@[simp] theorem logOp_refills (s : State) (i : Nat) (g : Access → Access) : (s.logOp i g).refills = s.refills := rfl
@[simp] theorem logOp_ops (s : State) (i : Nat) (g : Access → Access) : (s.logOp i g).ops = s.ops := rfl
@[simp] theorem logOp_side (s : State) (i : Nat) (g : Access → Access) : (s.logOp i g).side = s.side := rfl
@[simp] theorem logOp_owed (s : State) (i : Nat) (g : Access → Access) : (s.logOp i g).owed = s.owed := rfl
@[simp] theorem logOp_roc (s : State) (i : Nat) (g : Access → Access) : (s.logOp i g).roc = s.roc := rfl
@[simp] theorem logOp_ic (s : State) (i : Nat) (g : Access → Access) : (s.logOp i g).ic = s.ic := rfl
@[simp] theorem logOp_xc (s : State) (i : Nat) (g : Access → Access) : (s.logOp i g).xc = s.xc := rfl
@[simp] theorem logOp_matq (s : State) (i : Nat) (g : Access → Access) : (s.logOp i g).matq = s.matq := rfl
@[simp] theorem logOp_batches (s : State) (i : Nat) (g : Access → Access) : (s.logOp i g).batches = s.batches := rfl
@[simp] theorem logOp_svc (s : State) (i : Nat) (g : Access → Access) : (s.logOp i g).svc = s.svc := rfl
@[simp] theorem logOp_coh (s : State) (i : Nat) (g : Access → Access) : (s.logOp i g).coh = s.coh := rfl
@[simp] theorem logOp_chk (s : State) (i : Nat) (g : Access → Access) : (s.logOp i g).chk = s.chk := rfl
@[simp] theorem logOp_rel (s : State) (i : Nat) (g : Access → Access) : (s.logOp i g).rel = s.rel := rfl
@[simp] theorem logOp_cmds (s : State) (i : Nat) (g : Access → Access) : (s.logOp i g).cmds = s.cmds := rfl
@[simp] theorem logOp_recv (s : State) (i : Nat) (g : Access → Access) : (s.logOp i g).recv = s.recv := rfl
@[simp] theorem logOp_fab (s : State) (i : Nat) (g : Access → Access) : (s.logOp i g).fab = s.fab := rfl
@[simp] theorem logOp_host (s : State) (i : Nat) (g : Access → Access) : (s.logOp i g).host = s.host := rfl
@[simp] theorem logOp_boot (s : State) (i : Nat) (g : Access → Access) : (s.logOp i g).boot = s.boot := rfl

/-! ## `logDone` -/

@[simp] theorem logDone_time (s : State) (k : FKey) : (s.logDone k).time = s.time := rfl
@[simp] theorem logDone_evno (s : State) (k : FKey) : (s.logDone k).evno = s.evno := rfl
@[simp] theorem logDone_free (s : State) (k : FKey) : (s.logDone k).free = s.free := rfl
@[simp] theorem logDone_uid (s : State) (k : FKey) : (s.logDone k).uid = s.uid := rfl
@[simp] theorem logDone_agenda (s : State) (k : FKey) : (s.logDone k).agenda = s.agenda := rfl
@[simp] theorem logDone_issue (s : State) (k : FKey) : (s.logDone k).issue = s.issue := rfl
@[simp] theorem logDone_mem (s : State) (k : FKey) : (s.logDone k).mem = s.mem := rfl
@[simp] theorem logDone_areas (s : State) (k : FKey) : (s.logDone k).areas = s.areas := rfl
@[simp] theorem logDone_fibres (s : State) (k : FKey) : (s.logDone k).fibres = s.fibres := rfl
@[simp] theorem logDone_warps (s : State) (k : FKey) : (s.logDone k).warps = s.warps := rfl
@[simp] theorem logDone_quads (s : State) (k : FKey) : (s.logDone k).quads = s.quads := rfl
@[simp] theorem logDone_sheafs (s : State) (k : FKey) : (s.logDone k).sheafs = s.sheafs := rfl
@[simp] theorem logDone_launches (s : State) (k : FKey) : (s.logDone k).launches = s.launches := rfl
@[simp] theorem logDone_ctxs (s : State) (k : FKey) : (s.logDone k).ctxs = s.ctxs := rfl
@[simp] theorem logDone_lastCtx (s : State) (k : FKey) : (s.logDone k).lastCtx = s.lastCtx := rfl
@[simp] theorem logDone_parts (s : State) (k : FKey) : (s.logDone k).parts = s.parts := rfl
@[simp] theorem logDone_cores (s : State) (k : FKey) : (s.logDone k).cores = s.cores := rfl
@[simp] theorem logDone_refills (s : State) (k : FKey) : (s.logDone k).refills = s.refills := rfl
@[simp] theorem logDone_ops (s : State) (k : FKey) : (s.logDone k).ops = s.ops := rfl
@[simp] theorem logDone_side (s : State) (k : FKey) : (s.logDone k).side = s.side := rfl
@[simp] theorem logDone_owed (s : State) (k : FKey) : (s.logDone k).owed = s.owed := rfl
@[simp] theorem logDone_roc (s : State) (k : FKey) : (s.logDone k).roc = s.roc := rfl
@[simp] theorem logDone_ic (s : State) (k : FKey) : (s.logDone k).ic = s.ic := rfl
@[simp] theorem logDone_xc (s : State) (k : FKey) : (s.logDone k).xc = s.xc := rfl
@[simp] theorem logDone_matq (s : State) (k : FKey) : (s.logDone k).matq = s.matq := rfl
@[simp] theorem logDone_batches (s : State) (k : FKey) : (s.logDone k).batches = s.batches := rfl
@[simp] theorem logDone_svc (s : State) (k : FKey) : (s.logDone k).svc = s.svc := rfl
@[simp] theorem logDone_coh (s : State) (k : FKey) : (s.logDone k).coh = s.coh := rfl
@[simp] theorem logDone_chk (s : State) (k : FKey) : (s.logDone k).chk = s.chk := rfl
@[simp] theorem logDone_rel (s : State) (k : FKey) : (s.logDone k).rel = s.rel := rfl
@[simp] theorem logDone_cmds (s : State) (k : FKey) : (s.logDone k).cmds = s.cmds := rfl
@[simp] theorem logDone_recv (s : State) (k : FKey) : (s.logDone k).recv = s.recv := rfl
@[simp] theorem logDone_fab (s : State) (k : FKey) : (s.logDone k).fab = s.fab := rfl
@[simp] theorem logDone_host (s : State) (k : FKey) : (s.logDone k).host = s.host := rfl
@[simp] theorem logDone_boot (s : State) (k : FKey) : (s.logDone k).boot = s.boot := rfl

/-! ## What a fibre owes, records and intervals -/

/-- An interval is owed, or is not: nothing else changes. -/
theorem owe_eq (s : State) (k : FKey) (line : Nat) (n : BitVec 32) (t : Nat) : s.owe k line n t = { s with owed := (s.owe k line n t).owed } := by
  unfold State.owe
  split <;> rfl

/-- A record goes out on the sideband: nothing but the checkers' part changes. -/
theorem sendRec_eq (s : State) (r : IRec) : s.sendRec r = { s with chk := (s.sendRec r).chk } := rfl

/-- An interval's account changes: nothing but the checkers' part does. -/
theorem modIval_eq (s : State) (line : Nat) (n : BitVec 32) (g : Ival → Ival) : s.modIval line n g = { s with chk := (s.modIval line n g).chk } := rfl

end Sys2Proof.Laws
end

