-- ==== Sys2Proof/Laws/Warp.lean ====
section
/-! SUPPORT. What executing one instruction does: the spec lemmas of `State.member` and `warpExec'`, once for each way a
member can go on. -/

namespace Sys2Proof.Laws

open Sys2Proof.Machine Sys2Proof.Safety

/-! ## Updates of one fibre -/

theorem fib_key {s : State} {k : FKey} {f : Fibre} (h : s.fib? k = some f) : f.key = k := by
  simpa using List.find?_some h

/-- A fibre after an update of it that keeps its key. -/
theorem fib_modFib_same {s : State} {k : FKey} {f : Fibre} {g : Fibre → Fibre} (h : s.fib? k = some f)
    (hk : ∀ f : Fibre, f.key = k → (g f).key = k) : (s.modFib k g).fib? k = some (g f) := by
  unfold State.fib? State.modFib updIf at *
  simp only
  generalize s.fibres = l at h
  induction l with
  | nil => simp at h
  | cons x l ih =>
    by_cases hx : x.key = k
    · have hgx : ((g x).key == k) = true := by simpa using hk x hx
      have hx' : (x.key == k) = true := by simpa using hx
      simp only [List.find?_cons, hx', List.map_cons, if_true, hgx, Option.some.injEq] at h ⊢
      rw [h]
    · have hx' : (x.key == k) = false := by simpa using hx
      simp only [List.find?_cons, hx', List.map_cons, Bool.false_eq_true, if_false] at h ⊢
      exact ih h

/-- Other fibres after an update of one. -/
theorem fib_modFib_other {s : State} {k j : FKey} {g : Fibre → Fibre} (hj : j ≠ k) (hk : ∀ f : Fibre, f.key = k → (g f).key = k) :
    (s.modFib k g).fib? j = s.fib? j := by
  unfold State.fib? State.modFib updIf
  simp only
  induction s.fibres with
  | nil => rfl
  | cons x l ih =>
    by_cases hx : x.key = k
    · have hxj : (x.key == j) = false := by simpa [hx] using fun e => hj e.symm
      have hgj : ((g x).key == j) = false := by rw [hk x hx, ← hx]; exact hxj
      simp only [List.map_cons, hx, beq_self_eq_true, if_true, List.find?_cons, hgj, ih]
      rw [hx] at hxj
      simp [hxj]
    · have hx' : (x.key == k) = false := by simpa using hx
      simp only [List.map_cons, hx', Bool.false_eq_true, if_false, List.find?_cons, ih]

/-- A fibre that is not there is not there after an update. -/
theorem fib_modFib_none {s : State} {k j : FKey} {g : Fibre → Fibre} (h : s.fib? j = none)
    (hk : ∀ f : Fibre, f.key = k → (g f).key = k) : (s.modFib k g).fib? j = none := by
  unfold State.fib? State.modFib updIf at *
  simp only [List.find?_eq_none, List.mem_map] at h ⊢
  rintro x ⟨y, hy, rfl⟩
  have := h y hy
  split
  · next hy' =>
    have hy' : y.key = k := by simpa using hy'
    rw [hk y hy', ← hy']; exact this
  · exact this

theorem advance_key (f : Fibre) : f.advance.key = f.key := by
  unfold Fibre.advance; split <;> rfl
theorem advance_regs (f : Fibre) : f.advance.regs = f.regs := by
  unfold Fibre.advance; split <;> rfl

/-! ## The start -/

theorem started_fibres (s : State) (w : Warp) : (started s w).fibres = s.fibres := by
  unfold started State.clauseYield
  split
  · split <;> rfl
  · rfl

theorem started_eq (s : State) (w : Warp) : started s w = { s with issue := none, warps := (started s w).warps } := by
  unfold started State.clauseYield
  split
  · split <;> rfl
  · rfl

theorem started_fib (s : State) (w : Warp) (k : FKey) : (started s w).fib? k = s.fib? k := by
  unfold State.fib?; rw [started_fibres]

theorem started_sheaf (s : State) (w : Warp) (u : Nat) : (started s w).sheaf? u = s.sheaf? u := by
  rw [started_eq]; rfl

/-- The fibre as it stands at the instruction. -/
def atFib (i : Instr) (f : Fibre) : Fibre := { f with clause := f.clause.map fun c => { c with size := isize i } }

theorem atInstr_fib {i : Instr} {s : State} {w : Warp} {k : FKey} {f : Fibre} (h : s.fib? k = some f) :
    (atInstr i s w k).fib? k = some (atFib i f) :=
  fib_modFib_same (by rw [started_fib]; exact h) fun _ h => h

theorem atInstr_sheaf (i : Instr) (s : State) (w : Warp) (k : FKey) (u : Nat) : (atInstr i s w k).sheaf? u = s.sheaf? u :=
  started_sheaf s w u

/-- The checks before the effect do not look at the clause. -/
theorem preCheck_atFib (i j : Instr) (f : Fibre) (h : Sheaf) : preCheck i (atFib j f) h = preCheck i f h := rfl

/-! ## One member -/

/-- What a member does once its act is known. -/
def Act.after (k : FKey) (t0 : State) (f : Fibre) : Act → State
  | .next s1 => s1.modFib k Fibre.advance
  | .goto s1 pc => s1.modFib k (·.jump pc)
  | .stay s1 => s1
  | .past s1 => s1.modFib k Fibre.advance
  | .trap t => t0.takeTrap k t f.pc
  | .gone s1 => s1

/-- The act of a member, from what the checks before the effect make of it. -/
def Pre.act (p : Pre) (run skip : Act) : Act :=
  match p with
  | .run => run
  | .skip => skip
  | .trap t => .trap t

/-- A warp of one member executes: the checks and its act decide the state, but for how fibres are batched. -/
theorem aloneAt_exec {p : Pre} {i : Instr} {s : State} {w : Warp} {k : FKey} {f : Fibre} {h : Sheaf} (ha : AloneAt p i s w k f h)
    (skip : Warp → FKey → State → Act) (body : Warp → FKey → State → Act) :
    ∃ u, warpExec' i skip body s = .next u
      ∧ Rebatched (Act.after k (atInstr i s w k) f (Pre.act p (body w k (atInstr i s w k)) (skip w k (atInstr i s w k)))) u := by
  obtain ⟨⟨⟨is, his, hup, hw⟩, hmay, _⟩, hone, hfib, hsh, hrun⟩ := ha
  have hw' : State.warp? { s with issue := none } is.core is.quad is.slot = some w := hw
  have hm : State.member (started s w) i (skip w) (body w) k
      = Act.after k (atInstr i s w k) f (Pre.act p (body w k (atInstr i s w k)) (skip w k (atInstr i s w k))) := by
    unfold State.member
    have h1 : ((started s w).modFib k fun f => { f with clause := f.clause.map fun c => { c with size := isize i } }).fib? k
        = some (atFib i f) := atInstr_fib (i := i) (w := w) hfib
    have h2 : ((started s w).modFib k fun f => { f with clause := f.clause.map fun c => { c with size := isize i } }).sheaf? k.sheaf
        = some h := by rw [← hsh]; exact atInstr_sheaf i s w k k.sheaf
    simp only [h1, h2, preCheck_atFib, hrun]
    unfold atInstr Pre.act
    cases p <;> simp only
    · generalize body w k _ = a; cases a <;> rfl
    · generalize skip w k _ = a; cases a <;> rfl
    · rfl
  refine ⟨_, ?_, rebatched_endOfInstr _ w⟩
  unfold warpExec'
  simp only [his, hw', hmay, hup, hone, Bool.not_true, Bool.false_eq_true, if_false, List.foldl_cons, List.foldl_nil]
  rw [← hm]
  rfl

/-- A warp of one member that executes: its act decides the state, but for how fibres are batched. -/
theorem alone_exec {i : Instr} {s : State} {w : Warp} {k : FKey} {f : Fibre} {h : Sheaf} (ha : Alone i s w k f h)
    (skip : Warp → FKey → State → Act) (body : Warp → FKey → State → Act) :
    ∃ u, warpExec' i skip body s = .next u
      ∧ Rebatched (Act.after k (atInstr i s w k) f (body w k (atInstr i s w k))) u := aloneAt_exec ha skip body

/-- A plain member goes on. -/
theorem alone_next {i : Instr} {s : State} {w : Warp} {k : FKey} {f : Fibre} {h : Sheaf} (ha : Alone i s w k f h)
    {body : FKey → State → Act} {g : State → State} (hb : body k (atInstr i s w k) = .next (g (atInstr i s w k))) :
    ∃ u, warpExec i body s = .next u ∧ Rebatched (goesOn i s w k g) u := by
  obtain ⟨u, hu, hr⟩ := alone_exec ha (fun _ => skipOn) (fun _ => body)
  refine ⟨u, hu, ?_⟩
  rw [hb] at hr
  exact hr

/-- A member transfers control. -/
theorem alone_goto {i : Instr} {s : State} {w : Warp} {k : FKey} {f : Fibre} {h : Sheaf} (ha : Alone i s w k f h)
    {body : FKey → State → Act} {g : State → State} {pc : Dword}
    (hb : body k (atInstr i s w k) = .goto (g (atInstr i s w k)) pc) :
    ∃ u, warpExec i body s = .next u ∧ Rebatched (goesTo i s w k pc g) u := by
  obtain ⟨u, hu, hr⟩ := alone_exec ha (fun _ => skipOn) (fun _ => body)
  refine ⟨u, hu, ?_⟩
  rw [hb] at hr
  exact hr

/-- A member traps with no effect of its own. -/
theorem alone_trap {i : Instr} {s : State} {w : Warp} {k : FKey} {f : Fibre} {h : Sheaf} (ha : Alone i s w k f h)
    {body : FKey → State → Act} {t : TrapInfo} (hb : body k (atInstr i s w k) = .trap t) :
    ∃ u, warpExec i body s = .next u ∧ Rebatched ((atInstr i s w k).takeTrap k t f.pc) u := by
  obtain ⟨u, hu, hr⟩ := alone_exec ha (fun _ => skipOn) (fun _ => body)
  refine ⟨u, hu, ?_⟩
  rw [hb] at hr
  exact hr

/-- The instruction is executed by a warp: what a member does whose guard is false, and what the others do, may look at the
state before the instruction. -/
def WarpExecuted (i : Instr) : Prop :=
  ∃ skip body : State → Warp → FKey → State → Act, ∀ s w, Issuing i s w → exec i s = warpExec' i (skip s) (body s) s

theorem warpExecuted_of {i : Instr} {skip body : State → Warp → FKey → State → Act}
    (h : ∀ s w, Issuing i s w → exec i s = warpExec' i (skip s) (body s) s) : WarpExecuted i := ⟨skip, body, h⟩

/-- A store or reduction that the side log has room for is executed by its warp. -/
theorem storeExec_room {i : Instr} {more : Fibre → MemOp → MemOp} {s : State} {w : Warp} {r : MemReq} {a : Reg} (h : Issuing i s w)
    (hr : sideReq? i = some (r, a)) : storeExec i more s = warpExec i (globalRun r a more) s := by
  obtain ⟨⟨is, his, _, hw⟩, _, hroom⟩ := h
  unfold storeExec
  simp only [hr, his, hw, hroom, if_true]

/-- Every instruction that has an encoding is executed by a warp. -/
theorem warpExecuted_of_encoded (i : Instr) (h : (encodeFields i).isSome = true) : WarpExecuted i := by
  cases i <;> first
    | (cases h; done)
    | exact warpExecuted_of fun s _ _ => rfl
    | exact warpExecuted_of fun s _ hi => storeExec_room hi rfl

/-- The same, where a member whose guard is false just goes on. -/
def PlainExecuted (i : Instr) : Prop := ∃ body : State → Warp → FKey → State → Act, ∀ s w, Issuing i s w →
  exec i s = warpExec' i (fun _ => skipOn) (body s) s

theorem plainExecuted_of {i : Instr} {body : State → Warp → FKey → State → Act}
    (h : ∀ s w, Issuing i s w → exec i s = warpExec' i (fun _ => skipOn) (body s) s) : PlainExecuted i := ⟨body, h⟩

/-- Every instruction but the set collectives and `sbar` is executed so. -/
theorem plainExecuted_of_encoded (i : Instr) (h : (encodeFields i).isSome = true)
    (hs : match i with | .sshfl .. | .svote .. | .sred .. | .sscan .. | .sbar .. => False | _ => True) : PlainExecuted i := by
  cases i <;> first
    | (cases h; done)
    | (cases hs; done)
    | exact plainExecuted_of fun s _ _ => rfl
    | exact plainExecuted_of fun s _ hi => storeExec_room hi rfl

/-! ## Register instructions on a whole warp -/

/-- A fibre but for its condition and its monitor. -/
def SameButWaits (f g : Fibre) : Prop := g = { f with cond := g.cond, monitor := g.monitor }

theorem sameButWaits_refl (f : Fibre) : SameButWaits f f := rfl

theorem sameButWaits_trans {f g h : Fibre} (a : SameButWaits f g) (b : SameButWaits g h) : SameButWaits f h := by
  unfold SameButWaits at *; rw [b]; rw [a]

/-- What a register instruction leaves of the state around its own member. -/
structure Around (k : FKey) (s t : State) : Prop where
  rest : t = { s with fibres := t.fibres, warps := t.warps, svc := t.svc }
  other : ∀ j f, j ≠ k → s.fib? j = some f → ∃ g, t.fib? j = some g ∧ SameButWaits f g

theorem wake_same (f : Fibre) : SameButWaits f f.wake := by
  unfold Fibre.wake SameButWaits
  split
  · rfl
  · split <;> rfl

/-- Mapping the fibres by an update that only wakes. -/
theorem fib_map_same {l : List Fibre} {k : FKey} {f : Fibre} {m : Fibre → Fibre} (hm : ∀ f, SameButWaits f (m f))
    (h : l.find? (·.key == k) = some f) : ∃ g, (l.map m).find? (·.key == k) = some g ∧ SameButWaits f g := by
  induction l with
  | nil => simp at h
  | cons x l ih =>
    have hx : (m x).key = x.key := by rw [hm x]
    simp only [List.find?_cons, List.map_cons, hx] at h ⊢
    cases hk : x.key == k with
    | true => simp only [hk, Option.some.injEq] at h ⊢; exact ⟨_, rfl, h ▸ hm x⟩
    | false => simp only [hk] at h ⊢; exact ih h

theorem svcPush_around (s : State) (d : Nat) (g : List SvcEntry) :
    (s.svcPush d g) = { s with fibres := (s.svcPush d g).fibres, svc := (s.svcPush d g).svc }
    ∧ ∀ j f, s.fib? j = some f → ∃ g', (s.svcPush d g).fib? j = some g' ∧ SameButWaits f g' := by
  unfold State.svcPush
  simp only []
  split
  · refine ⟨rfl, fun j f hf => ?_⟩
    refine fib_map_same (fun f => ?_) hf
    split
    · split
      · split
        · exact wake_same f
        · exact sameButWaits_refl f
      · exact sameButWaits_refl f
    · exact sameButWaits_refl f
  · exact ⟨rfl, fun j f hf => ⟨f, hf, sameButWaits_refl f⟩⟩

theorem takeTrap_around (s : State) (k : FKey) (t : TrapInfo) (pc : Dword) : Around k s (s.takeTrap k t pc) := by
  unfold State.takeTrap
  split
  · exact ⟨rfl, fun j f _ hf => ⟨f, hf, sameButWaits_refl f⟩⟩
  · next f0 hf0 =>
    split
    · exact ⟨rfl, fun j f hj hf => ⟨f, by rw [← hf]; exact fib_modFib_other hj fun _ h => h, sameButWaits_refl f⟩⟩
    · simp only []
      have hp := svcPush_around ((s.modFib k fun f => { f with
        faultCode := t.code, faultOpnd := t.opnd, faultValid := true, cond := .held .trap }).leaveWarp k) (coreDie f0.core)
        [⟨trapRecord s f0 t pc, false⟩]
      refine ⟨?_, fun j f hj hf => ?_⟩
      · rw [hp.1]; rfl
      · exact hp.2 j f (by rw [← hf]; exact fib_modFib_other (s := s) (k := k) hj fun _ h => h)

theorem modFib_around (s : State) (k : FKey) (g : Fibre → Fibre) (hk : ∀ f : Fibre, f.key = k → (g f).key = k) : Around k s (s.modFib k g) :=
  ⟨rfl, fun _ f hj hf => ⟨f, by rw [← hf]; exact fib_modFib_other hj hk, sameButWaits_refl f⟩⟩

theorem around_trans {k : FKey} {s t u : State} (a : Around k s t) (b : Around k t u) : Around k s u where
  rest := by rw [b.rest]; simp only; rw [a.rest]
  other := fun j f hj hf => by
    obtain ⟨g, hg, h1⟩ := a.other j f hj hf
    obtain ⟨h, hh, h2⟩ := b.other j g hj hg
    exact ⟨h, hh, sameButWaits_trans h1 h2⟩

/-- The plain member of a register instruction. -/
def regBody (g : State → Fibre → Fibre) (k : FKey) (s : State) : Act :=
  match s.fib? k with
  | some f => .next (s.modFib k fun _ => g s f)
  | none => .next s

/-- One member of a register instruction, by what becomes of it. -/
theorem reg_member (i : Instr) (s : State) (k : FKey) (g : State → Fibre → Fibre) :
    s.member i skipOn (regBody g) k =
      match s.fib? k, s.sheaf? k.sheaf with
      | some f, some h =>
        let s0 := s.modFib k fun f => { f with clause := f.clause.map fun c => { c with size := isize i } }
        match preCheck i f h with
        | .skip => s0.modFib k Fibre.advance
        | .trap t => s0.takeTrap k t f.pc
        | .run => (s0.modFib k fun _ => g s0 (atFib i f)).modFib k Fibre.advance
      | _, _ => s := by
  have hs : State.sheaf? (s.modFib k fun f => { f with clause := f.clause.map fun c => { c with size := isize i } }) k.sheaf
      = s.sheaf? k.sheaf := rfl
  unfold State.member
  simp only [hs]
  cases hf : s.fib? k with
  | none =>
    rw [fib_modFib_none (g := fun f => { f with clause := f.clause.map fun c => { c with size := isize i } }) hf fun _ h => h]
  | some f =>
    have hf' := fib_modFib_same (g := fun f => { f with clause := f.clause.map fun c => { c with size := isize i } }) hf
      fun _ h => h
    rw [hf']
    cases hh : s.sheaf? k.sheaf with
    | none => rfl
    | some h =>
      have hp : preCheck i { f with clause := f.clause.map fun c => { c with size := isize i } } h = preCheck i f h := rfl
      simp only [hp, skipOn, regBody, hf']
      cases preCheck i f h <;> rfl

theorem member_around {i : Instr} {s : State} {k : FKey} {g : State → Fibre → Fibre} (hg : ∀ s f, (g s f).key = f.key) :
    Around k s (s.member i skipOn (regBody g) k) := by
  rw [reg_member]
  have h0 : Around k s (s.modFib k fun f => { f with clause := f.clause.map fun c => { c with size := isize i } }) :=
    modFib_around s k _ fun _ h => h
  have hadv : ∀ f : Fibre, f.key = k → f.advance.key = k := fun f h => by rw [advance_key, h]
  split
  · next f h hf hs =>
    simp only []
    split
    · exact around_trans h0 (modFib_around _ _ _ hadv)
    · exact around_trans h0 (takeTrap_around _ _ _ _)
    · refine around_trans h0 (around_trans (modFib_around _ _ _ fun _ _ => ?_) (modFib_around _ _ _ hadv))
      rw [hg]; exact (fib_key hf : f.key = k)
  · exact ⟨rfl, fun j f _ hf => ⟨f, hf, sameButWaits_refl f⟩⟩

/-- The members of a register instruction one after another: `P` is what the members before `k` keep. -/
theorem reg_fold {i : Instr} {g : State → Fibre → Fibre} (hg : ∀ s f, (g s f).key = f.key) : ∀ (l : List FKey) (s : State),
    (l.foldl (fun s k => s.member i skipOn (regBody g) k) s
        = { s with fibres := (l.foldl (fun s k => s.member i skipOn (regBody g) k) s).fibres,
                   warps := (l.foldl (fun s k => s.member i skipOn (regBody g) k) s).warps,
                   svc := (l.foldl (fun s k => s.member i skipOn (regBody g) k) s).svc })
    ∧ (∀ k f, k ∉ l → s.fib? k = some f →
        ∃ f', (l.foldl (fun s k => s.member i skipOn (regBody g) k) s).fib? k = some f' ∧ SameButWaits f f')
    ∧ (∀ k f, l.count k = 1 → s.fib? k = some f →
        ∃ (t : State) (f1 f2 f3 : Fibre), t = { s with fibres := t.fibres, warps := t.warps, svc := t.svc }
          ∧ t.fib? k = some f1 ∧ SameButWaits f f1
          ∧ (t.member i skipOn (regBody g) k).fib? k = some f2
          ∧ (l.foldl (fun s k => s.member i skipOn (regBody g) k) s).fib? k = some f3 ∧ SameButWaits f2 f3)
  | [], s => ⟨rfl, fun _ f _ h => ⟨f, h, sameButWaits_refl f⟩, fun _ _ h => by simp at h⟩
  | j :: l, s => by
    have ha : Around j s (s.member i skipOn (regBody g) j) := member_around hg
    obtain ⟨h1, h2, h3⟩ := reg_fold hg l (s.member i skipOn (regBody g) j)
    simp only [List.foldl_cons]
    refine ⟨?_, fun k f hk hf => ?_, fun k f hk hf => ?_⟩
    · rw [h1]; simp only; rw [ha.rest]
    · have hkj : k ≠ j := fun e => hk (by simp [e])
      obtain ⟨f1, hf1, e1⟩ := ha.other k f hkj hf
      obtain ⟨f2, hf2, e2⟩ := h2 k f1 (fun e => hk (by simp [e])) hf1
      exact ⟨f2, hf2, sameButWaits_trans e1 e2⟩
    · by_cases hkj : k = j
      · subst hkj
        have hnot : k ∉ l := by
          have : l.count k = 0 := by simpa using hk
          exact List.count_eq_zero.mp this
        have hx : ∃ f2, (s.member i skipOn (regBody g) k).fib? k = some f2 := by
          rw [reg_member, hf]
          cases hs : s.sheaf? k.sheaf with
          | none => exact ⟨f, hf⟩
          | some h =>
            simp only []
            have hadv : ∀ f : Fibre, f.key = k → f.advance.key = k := fun f h => by rw [advance_key, h]
            have h0 := fib_modFib_same (g := fun f => { f with clause := f.clause.map fun c => { c with size := isize i } }) hf
              fun _ h => h
            split
            · exact ⟨_, fib_modFib_same h0 hadv⟩
            · next t _ =>
              unfold State.takeTrap
              rw [h0]
              simp only []
              split
              · exact ⟨_, fib_modFib_same (s := s.modFib k fun f =>
                  { f with clause := f.clause.map fun c => { c with size := isize i } }) h0 fun _ h => h⟩
              · obtain ⟨f2, hf2, _⟩ := (svcPush_around (((s.modFib k fun f =>
                    { f with clause := f.clause.map fun c => { c with size := isize i } }).modFib k fun f => { f with
                    faultCode := t.code, faultOpnd := t.opnd, faultValid := true, cond := .held .trap }).leaveWarp k) (coreDie f.core)
                    [⟨trapRecord (s.modFib k fun f => { f with clause := f.clause.map fun c => { c with size := isize i } }) (atFib i f) t f.pc, false⟩]).2 k _
                    (fib_modFib_same (s := s.modFib k fun f => { f with clause := f.clause.map fun c => { c with size := isize i } })
                      h0 fun _ h => h)
                exact ⟨f2, hf2⟩
            · refine ⟨_, fib_modFib_same (fib_modFib_same h0 fun _ _ => ?_) hadv⟩
              rw [hg]; exact (fib_key hf : f.key = k)
        obtain ⟨f2, hf2⟩ := hx
        obtain ⟨f3, hf3, e3⟩ := h2 k f2 hnot hf2
        exact ⟨s, f, f2, f3, rfl, hf, sameButWaits_refl f, hf2, hf3, e3⟩
      · obtain ⟨f1, hf1, e1⟩ := ha.other k f hkj hf
        have hc : l.count k = 1 := by
          rw [List.count_cons] at hk
          have : (j == k) = false := by simpa using fun e => hkj e.symm
          simpa [this] using hk
        obtain ⟨t, g1, g2, g3, ht, hg1, e2, hg2, hg3, e3⟩ := h3 k f1 hc hf1
        refine ⟨t, g1, g2, g3, ?_, hg1, sameButWaits_trans e1 e2, hg2, hg3, e3⟩
        rw [ht]; simp only; rw [ha.rest]

/-- A register instruction on a warp: what becomes of a member that executes it, of one whose guard is false, of every other
fibre, and of the rest of the state. `r` is the fibre's new value before it goes on. -/
theorem regExec_spec {i : Instr} {g : State → Fibre → Fibre} {s : State} {w : Warp} (hi : Issuing i s w)
    (r : Fibre → Fibre) (hg : ∀ s f, (g s f).key = f.key)
    (hr : ∀ t f, t = { s with issue := t.issue, fibres := t.fibres, warps := t.warps, svc := t.svc } → t.fib? f.key = some f → g t f = r f)
    (hw : ∀ f c m, r { f with cond := c, monitor := m } = { r f with cond := c, monitor := m }) :
    ∃ u, regExec i g s = .next u
      ∧ (∀ k f h, w.members.count k = 1 → s.fib? k = some f → s.sheaf? k.sheaf = some h → preCheck i f h = .run →
          ∃ f', u.fib? k = some f' ∧ SameButWaits (r (atFib i f)).advance f')
      ∧ (∀ k f h, w.members.count k = 1 → s.fib? k = some f → s.sheaf? k.sheaf = some h → preCheck i f h = .skip →
          ∃ f', u.fib? k = some f' ∧ SameButWaits (atFib i f).advance f')
      ∧ (∀ k f, k ∉ w.members → s.fib? k = some f → ∃ f', u.fib? k = some f' ∧ SameButWaits f f')
      ∧ u = { s with issue := none, fibres := u.fibres, warps := u.warps, svc := u.svc } := by
  obtain ⟨⟨is, his, hup, hwp⟩, hmay⟩ := hi
  have hwp' : State.warp? { s with issue := none } is.core is.quad is.slot = some w := hwp
  have hadv : ∀ (k : FKey) (f : Fibre), f.key = k → f.advance.key = k := fun k f h => by rw [advance_key, h]
  obtain ⟨h1, h2, h3⟩ := reg_fold (i := i) hg w.members (started s w)
  have hre := rebatched_endOfInstr (w.members.foldl (fun s k => s.member i skipOn (regBody g) k) (started s w)) w
  have hfe : ∀ k f, (w.members.foldl (fun s k => s.member i skipOn (regBody g) k) (started s w)).fib? k = some f →
      ∃ f', ((w.members.foldl (fun s k => s.member i skipOn (regBody g) k) (started s w)).endOfInstr w).fib? k = some f'
        ∧ SameButWaits f f' := fun k f hf => by
    have hfs := hre.fibres
    generalize ((w.members.foldl (fun s k => s.member i skipOn (regBody g) k) (started s w)).endOfInstr w) = u at hfs
    unfold State.fib? at hf ⊢
    generalize (w.members.foldl (fun s k => s.member i skipOn (regBody g) k) (started s w)).fibres = l at hfs hf
    generalize u.fibres = l' at hfs ⊢
    induction hfs with
    | nil => simp at hf
    | @cons x y l l' hxy _ ih =>
      have hk : y.key = x.key := by rw [hxy.1]
      simp only [List.find?_cons, hk] at hf ⊢
      cases hx : x.key == k with
      | true =>
        simp only [hx, Option.some.injEq] at hf ⊢
        exact ⟨y, rfl, by rw [← hf]; have := hxy.1; unfold SameButWaits; rw [this]⟩
      | false => simp only [hx] at hf ⊢; exact ih hf
  have hst : ∀ k, (started s w).fib? k = s.fib? k := started_fib s w
  refine ⟨(w.members.foldl (fun s k => s.member i skipOn (regBody g) k) (started s w)).endOfInstr w, ?_,
    fun k f h hk hf hh hp => ?_, fun k f h hk hf hh hp => ?_, fun k f hk hf => ?_, ?_⟩
  · unfold regExec warpExec warpExec'
    simp only [his, hwp', hmay, hup, Bool.not_true, Bool.false_eq_true, if_false]
    rfl
  · obtain ⟨t, f1, f2, f3, ht, hf1, e1, hf2, hf3, e3⟩ := h3 k f hk (by rw [hst]; exact hf)
    obtain ⟨f4, hf4, e4⟩ := hfe k f3 hf3
    refine ⟨f4, hf4, sameButWaits_trans ?_ (sameButWaits_trans e3 e4)⟩
    have hs : t.sheaf? k.sheaf = some h := by rw [ht, ← hh, ← started_sheaf s w]; rfl
    have hp1 : preCheck i f1 h = .run := by rw [e1]; exact hp
    have ht' : t = { s with issue := t.issue, fibres := t.fibres, warps := t.warps, svc := t.svc } := by
      rw [ht, started_eq]
    have hk1 : f1.key = k := fib_key hf1
    rw [reg_member, hf1, hs] at hf2
    simp only [hp1] at hf2
    have h0 := fib_modFib_same (g := fun f => { f with clause := f.clause.map fun c => { c with size := isize i } }) hf1
      fun _ h => h
    have hrr := hr (t.modFib k fun f => { f with clause := f.clause.map fun c => { c with size := isize i } }) (atFib i f1)
      (by rw [ht']; rfl) (by rw [show (atFib i f1).key = k from hk1]; exact h0)
    rw [hrr, fib_modFib_same (fib_modFib_same h0 fun _ _ => by rw [← hrr, hg]; exact hk1) (hadv k)] at hf2
    rw [← Option.some.inj hf2, e1]
    have he : r (atFib i { f with cond := f1.cond, monitor := f1.monitor })
        = { r (atFib i f) with cond := f1.cond, monitor := f1.monitor } := hw (atFib i f) f1.cond f1.monitor
    rw [he]
    generalize r (atFib i f) = x
    unfold SameButWaits Fibre.advance
    cases hx : x.clause <;> simp [hx]
  · obtain ⟨t, f1, f2, f3, ht, hf1, e1, hf2, hf3, e3⟩ := h3 k f hk (by rw [hst]; exact hf)
    obtain ⟨f4, hf4, e4⟩ := hfe k f3 hf3
    refine ⟨f4, hf4, sameButWaits_trans ?_ (sameButWaits_trans e3 e4)⟩
    have hs : t.sheaf? k.sheaf = some h := by rw [ht, ← hh, ← started_sheaf s w]; rfl
    have hp1 : preCheck i f1 h = .skip := by rw [e1]; exact hp
    rw [reg_member, hf1, hs] at hf2
    simp only [hp1] at hf2
    have h0 := fib_modFib_same (g := fun f => { f with clause := f.clause.map fun c => { c with size := isize i } }) hf1
      fun _ h => h
    rw [fib_modFib_same h0 (hadv k)] at hf2
    rw [← Option.some.inj hf2, e1]
    unfold SameButWaits Fibre.advance atFib
    simp only
    split <;> rfl
  · obtain ⟨f1, hf1, e1⟩ := h2 k f hk (by rw [hst]; exact hf)
    obtain ⟨f4, hf4, e4⟩ := hfe k f1 hf1
    exact ⟨f4, hf4, sameButWaits_trans e1 e4⟩
  · rw [hre.rest]; simp only; rw [h1, started_eq]

end Sys2Proof.Laws
end

