-- ==== Sys2Proof/Tests/Slice0.lean ====
section
/-! SUPPORT. Our own tests: words written out from the spec's encodings, an ill-formed term for each check of WellFormed,
the spec's worked results, and for the statements a state that meets their hypotheses. -/

namespace Sys2Proof.Tests

open Sys2Proof.Machine Sys2Proof.Safety Sys2Proof.Claims

/-! ## States -/

/-- After reset, instruction `i` placed where the next step fetches it. -/
def placed (i : Instr) : State :=
  match encodeWord i with
  | some (lo, hi) => State.reset.withFetchWord 128 (lo.toNat + 2 ^ 64 * hi.toNat)
  | none => State.reset

/-- The placed instruction with its fibre, sheaf and launch adapted. -/
def placedWith (i : Instr) (f : Fibre → Fibre) (h : Sheaf → Sheaf) (l : Launch → Launch) : State :=
  let s := placed i
  { s with fibres := s.fibres.map f, sheafs := s.sheafs.map h, launches := s.launches.map l }

/-- The fibre with registers written. -/
def regs (vs : List (Reg × Word)) (f : Fibre) : Fibre := vs.foldl (fun f v => f.setReg v.1 v.2) f

/-- The privileged view. -/
def priv (h : Sheaf) : Sheaf := { h with priv := true }

/-- Every chiplet is ACTIVE, so that its links carry data (R407). -/
def activeBoot : Boot := { State.reset.boot with chiplets := List.replicate 33 { Chiplet.reset with st := .active } }

/-- What is asked of a warp of one fibre that stands at `i`, whose guard and checks make `p` of it. -/
def alone? (p : Pre) (i : Instr) (s : State) (q : Warp → FKey → Fibre → Sheaf → Bool) : Bool :=
  match s.issue with
  | none => false
  | some is =>
    match s.warp? is.core is.quad is.slot with
    | none => false
    | some w =>
      match w.members with
      | [k] =>
        match s.fib? k, s.sheaf? k.sheaf with
        | some f, some h => is.upset == none && State.mayIssue { s with issue := none } i w && s.sideFits i w && decide (preCheck i f h = p) && q w k f h
        | _, _ => false
      | _ => false

theorem alone_of {p : Pre} {i : Instr} {s : State} {q : Warp → FKey → Fibre → Sheaf → Bool} (h : alone? p i s q = true) :
    ∃ w k f sh, AloneAt p i s w k f sh ∧ q w k f sh = true := by
  unfold alone? at h
  split at h <;> try contradiction
  rename_i is e1
  split at h <;> try contradiction
  rename_i w e2
  split at h <;> try contradiction
  rename_i k e3
  split at h <;> try contradiction
  rename_i f sh e4 e5
  simp only [Bool.and_eq_true, beq_iff_eq, decide_eq_true_eq] at h
  exact ⟨w, k, f, sh, ⟨⟨⟨is, e1, h.1.1.1.1, e2⟩, h.1.1.1.2, h.1.1.2⟩, e3, e4, e5, h.1.2⟩, h.2⟩

/-- Some state meets the hypotheses of what is stated of `i`, and the fibre and its sheaf meet `q`. -/
theorem witness {i : Instr} (s : State) {q : Warp → FKey → Fibre → Sheaf → Prop} [∀ w k f h, Decidable (q w k f h)]
    (h : alone? .run i s (fun w k f h => decide (q w k f h)) = true) : ∃ w k f sh, Alone i s w k f sh ∧ q w k f sh := by
  obtain ⟨w, k, f, sh, a, b⟩ := alone_of h
  exact ⟨w, k, f, sh, a, of_decide_eq_true b⟩

/-- Every instruction of a list is met placed alone, in the unprivileged or the privileged view. -/
def allAlone (pv : Bool) (l : List Instr) : Bool :=
  l.all fun i => alone? .run i (placedWith i id (fun h => { h with priv := pv }) id) fun _ _ _ _ => true

theorem allAlone_meets {pv : Bool} {l : List Instr} (h : allAlone pv l = true) :
    ∀ i ∈ l, ∃ s w k f sh, Alone i s w k f sh := by
  intro i hi
  obtain ⟨w, k, f, sh, a, _⟩ := alone_of (List.all_eq_true.mp h i hi)
  exact ⟨_, w, k, f, sh, a⟩

/-- No guard, no completion flag selected. -/
abbrev hd : Hdr := ⟨none, 0⟩
/-- No guard, the clause's flag A. -/
abbrev hdA : Hdr := ⟨none, 1⟩

/-- Operands of the `mma` forms: all of them at scratchpad offsets, or tiles by capability. -/
def mmaOps (t : Ty) (sp : Bool) : MmaOps := ⟨t, 20, 4, 6, 10, 12, 512, sp, sp⟩

/-- Context 1 of partition 0, and a partition of cores 0 and 1. -/
def ctxOne : Ctx :=
  { id := 1, gen := 1, part := 0, slot := 0, fn := 1, prioCeil := 3, htbase := 0, htlen := 0, tslice := 100, wbudget := 0, flags := 0,
    frozen := false, faulted := false, saveBase := 0, recvBase := 0, keys := [], sliceStart := 0, sliceLen := 0, budget := 0, charge := [],
    snapSeq := 0, faultPos := 0, mail0 := Mailbox.fresh, mail1 := Mailbox.fresh, runnableAt := 0, discarded := [] }
def partOne : Part :=
  { num := 0, cores := [0, 1], made := [0, 1], objTable := 0, withhold := 0, resident := none, incoming := none, halting := false, wsHold := [] }
/-- The fibre that `placed` makes. -/
def fib0 : Fibre := { Fibre.initial ⟨0, 0⟩ 0 0 0 256 8 0 with cond := .batched 0, clause := some ⟨0, 1, 8, 0, 1, false⟩ }

/-- A store of the placed fibre that is not performed anywhere yet. -/
def openStore : Access :=
  { seq := 0, op := 7, key := ⟨0, 0⟩, core := 0, pc := 8, kind := .write, ord := .plain, sc := .fib, line := 5, off := 0, size := 4, returned := none,
    atDie := none, atPkg := none, atSys := none, interval := none, checked := false }

/-- Queue register `q` bound to endpoint `b`. -/
def bound (q b : Nat) (h : Sheaf) : Sheaf := { h with queues := h.queues.set q { bind := b, inb := [], inHeld := [], served := 0, stained := [] } }

/-! ## Decoding: every instruction's word, field by field

A word is written as pairs of a field's lowest bit and its value: LC 0, MAJOR 2, FSEL 10, GEN 12, GINV 13, GREG 14, GBIT 22, DST 27,
SRCA 35, SRCB 43, MINOR or SUB 51, ORDER 54, SCOPE 56, MOD 57, TYPE 59 (R63, R64), and from bit 64 on IMM32, SRCC, IMM64 or the
fields of the instruction (R65, R109, R147, R183). -/

/-- A word from its fields. -/
def word (fs : List (Nat × Nat)) : Nat := (fs.map fun f => f.2 * 2 ^ f.1).sum

/-- Every word of a list of 64-bit, 96-bit or 128-bit words (`n`) decodes to its instruction. -/
def decodesTo (n : Nat) (l : List (List (Nat × Nat) × Instr)) : Prop := ∀ x ∈ l, decodeTableWord n (word x.1) = some x.2

/-- The words that the spec itself works out (R74 and the encoding examples of its chapters). -/
theorem decode_worked_words : ∀ x ∈ ([(128, 0x30170000028_30000106, .cvtEf ⟨none, 0⟩ .rn .bf16 6 5 1 3),
    (128, 0x807_1C000030_28000642, .atom ⟨none, 1⟩ .add .plain .pkg .s32 5 6 8 7),
    (128, 0x10_55800030_400001C6, .st ⟨none, 0⟩ .rel .sys .none .b64 8 6 16),
    (128, 0x350000D_38080030_600001D6, .ldwNb ⟨none, 0⟩ .z32 12 6 0x35000 13),
    (64, 0x04800000_000001F9, .fence ⟨none, 0⟩ .rel .pkg), (64, 0x04000000_000001F9, .fence ⟨none, 0⟩ .sc .pkg),
    (128, 0x6_B8002820_4000011A, .dot4 ⟨none, 0⟩ .rn .x4s8 8 4 5 6), (64, 0x4018000002CD, .bwait ⟨none, 0⟩ 3 8),
    (128, 0xA_00000018_480002CA, .barx ⟨none, 0⟩ 3 9 10), (128, 0x5_00000080_100006E3, .qpush ⟨none, 1⟩ false 2 16 5),
    (128, 0x204802_48000000_70000692, .aclr 1 14 2 72 32),
    (128, 0x0000010002000C0A_70003020A0000683, .mma 1 true ⟨.bf16, 20, 4, 6, 10, 12, 512, false, false⟩),
    (128, 0x0000010A02001412_9000403070000687, .mmaW4 1 true ⟨.z4, 14, 6, 8, 18, 20, 512, false, false⟩ 10),
    (128, 0x0001020002001311_600080707800068F, .scacc 1 true .f32 15 14 16 17 19 512 512)] : List (Nat × Nat × Instr)),
    decodeTableWord x.1 x.2.1 = some x.2.2 := by decide

/-- Integer arithmetic: majors 0x00–0x09 (R71, R108, R110–R113). -/
theorem decode_integer : decodesTo 64 [([(0, 1), (2, 0x00), (27, 4), (35, 5), (43, 6), (59, 0x03)], .iadd hd .s32 false 4 5 6),
    ([(0, 1), (2, 0x00), (27, 4), (35, 5), (43, 6), (57, 1), (59, 0x17)], .iadd hd .x4s8 true 4 5 6),
    ([(0, 1), (2, 0x01), (12, 1), (13, 1), (14, 9), (22, 31), (27, 254), (35, 2), (43, 4), (59, 0x08)], .isub ⟨some ⟨true, 9, 31⟩, 0⟩ .z64 false 254 2 4),
    ([(0, 1), (2, 0x02), (27, 1), (35, 2), (43, 3), (59, 0x05)], .imul hd .z8 1 2 3), ([(0, 1), (2, 0x03), (27, 2), (35, 4), (43, 6), (59, 0x04)], .imulh hd .s64 2 4 6),
    ([(0, 1), (2, 0x06), (27, 1), (35, 2), (43, 3), (59, 0x16)], .imin hd .x2z16 1 2 3), ([(0, 1), (2, 0x07), (27, 1), (35, 2), (43, 3), (59, 0x02)], .imax hd .s16 1 2 3),
    ([(0, 1), (2, 0x08), (27, 1), (35, 2), (59, 0x01)], .iabs hd .s8 1 2), ([(0, 1), (2, 0x09), (27, 1), (35, 2), (59, 0x06)], .ineg hd .z16 1 2)] := by
  unfold decodesTo; decide

theorem decode_integer_long : decodesTo 128 [([(0, 2), (2, 0x00), (27, 4), (35, 5), (59, 0x03), (64, 0xFFFFFFFF)], .iaddImm32 hd .s32 false 4 5 0xFFFFFFFF),
    ([(0, 3), (2, 0x00), (27, 4), (35, 6), (59, 0x08), (64, 0x8000000000000001)], .iaddImm64 hd .z64 4 6 0x8000000000000001),
    ([(0, 2), (2, 0x01), (27, 4), (35, 5), (57, 1), (59, 0x01), (64, 0xFFFFFF80)], .isubImm32 hd .s8 true 4 5 0xFFFFFF80),
    ([(0, 3), (2, 0x01), (27, 4), (35, 6), (59, 0x04), (64, 1)], .isubImm64 hd .s64 4 6 1), ([(0, 2), (2, 0x02), (27, 4), (35, 5), (59, 0x06), (64, 0xFFFF)], .imulImm32 hd .z16 4 5 0xFFFF),
    ([(0, 2), (2, 0x04), (27, 4), (35, 5), (43, 6), (59, 0x07), (64, 7)], .imad hd .z32 4 5 6 7),
    ([(0, 2), (2, 0x05), (27, 4), (35, 5), (43, 6), (57, 1), (59, 0x07), (64, 7)], .iaddc hd true 4 5 6 7),
    ([(0, 2), (2, 0x06), (27, 4), (35, 5), (59, 0x17), (64, 1)], .iminImm32 hd .x4s8 4 5 1), ([(0, 2), (2, 0x07), (27, 4), (35, 5), (59, 0x05), (64, 255)], .imaxImm32 hd .z8 4 5 255)] := by
  unfold decodesTo; decide

/-- Logic, shifts and bit fields: majors 0x0A–0x1A (R109, R114–R120). -/
theorem decode_bits : decodesTo 64 [([(0, 1), (2, 0x0A), (27, 1), (35, 2), (43, 3), (59, 0x09)], .bAnd hd .b32 1 2 3), ([(0, 1), (2, 0x0B), (27, 2), (35, 4), (43, 6), (59, 0x0A)], .bOr hd .b64 2 4 6),
    ([(0, 1), (2, 0x0C), (27, 1), (35, 2), (43, 3), (59, 0x09)], .bXor hd .b32 1 2 3), ([(0, 1), (2, 0x1A), (27, 1), (35, 2), (43, 3), (59, 0x09)], .bAndn hd .b32 1 2 3),
    ([(0, 1), (2, 0x0D), (27, 2), (35, 4), (59, 0x0A)], .bNot hd .b64 2 4), ([(0, 1), (2, 0x0E), (27, 2), (35, 4), (43, 3), (59, 0x0A)], .shl hd .b64 2 4 3),
    ([(0, 1), (2, 0x0F), (27, 1), (35, 2), (43, 3), (59, 0x09)], .shr hd .b32 1 2 3), ([(0, 1), (2, 0x10), (27, 1), (35, 2), (43, 3), (59, 0x09)], .sra hd .b32 1 2 3),
    ([(0, 1), (2, 0x11), (27, 1), (35, 2), (43, 3), (59, 0x09)], .rot hd .b32 1 2 3), ([(0, 1), (2, 0x14), (27, 1), (35, 2), (59, 0x0A)], .popc hd .b64 1 2),
    ([(0, 1), (2, 0x15), (27, 1), (35, 2), (59, 0x09)], .clz hd .b32 1 2), ([(0, 1), (2, 0x16), (27, 1), (35, 2), (59, 0x09)], .ctz hd .b32 1 2),
    ([(0, 1), (2, 0x17), (27, 2), (35, 4), (59, 0x0A)], .brev hd .b64 2 4), ([(0, 1), (2, 0x18), (27, 1), (35, 2), (43, 4), (51, 2), (59, 0x08)], .icmp hd .lt .z64 1 2 4)] := by
  unfold decodesTo; decide

theorem decode_bits_long : decodesTo 128 [([(0, 2), (2, 0x0A), (27, 1), (35, 2), (59, 0x09), (64, 7)], .bAndImm32 hd .b32 1 2 7), ([(0, 3), (2, 0x0A), (27, 2), (35, 4), (59, 0x0A), (64, 7)], .bAndImm64 hd .b64 2 4 7),
    ([(0, 2), (2, 0x0B), (27, 2), (35, 4), (59, 0x0A), (64, 7)], .bOrImm32 hd .b64 2 4 7), ([(0, 3), (2, 0x0B), (27, 2), (35, 4), (59, 0x0A), (64, 7)], .bOrImm64 hd .b64 2 4 7),
    ([(0, 2), (2, 0x0C), (27, 1), (35, 2), (59, 0x09), (64, 7)], .bXorImm32 hd .b32 1 2 7), ([(0, 3), (2, 0x0C), (27, 2), (35, 4), (59, 0x0A), (64, 7)], .bXorImm64 hd .b64 2 4 7),
    ([(0, 2), (2, 0x1A), (27, 1), (35, 2), (59, 0x09), (64, 7)], .bAndnImm32 hd .b32 1 2 7), ([(0, 3), (2, 0x1A), (27, 2), (35, 4), (59, 0x0A), (64, 7)], .bAndnImm64 hd .b64 2 4 7),
    ([(0, 2), (2, 0x0E), (27, 1), (35, 2), (59, 0x09), (64, 255)], .shlImm32 hd .b32 1 2 255), ([(0, 2), (2, 0x0F), (27, 1), (35, 2), (59, 0x09), (64, 32)], .shrImm32 hd .b32 1 2 32),
    ([(0, 2), (2, 0x10), (27, 1), (35, 2), (59, 0x09), (64, 1)], .sraImm32 hd .b32 1 2 1), ([(0, 2), (2, 0x11), (27, 1), (35, 2), (59, 0x09), (64, 1)], .rotImm32 hd .b32 1 2 1),
    ([(0, 2), (2, 0x12), (27, 1), (35, 2), (59, 0x03), (64, 24), (70, 8)], .bfx hd .s32 1 2 24 8), ([(0, 2), (2, 0x13), (27, 2), (35, 4), (43, 6), (59, 0x0A), (72, 63), (78, 1)], .bfi hd .b64 2 4 6 63 1),
    ([(0, 2), (2, 0x18), (27, 1), (35, 2), (51, 5), (59, 0x01), (64, 0xFFFFFF80)], .icmpImm32 hd .ge .s8 1 2 0xFFFFFF80),
    ([(0, 2), (2, 0x19), (27, 1), (35, 2), (43, 3), (59, 0x09), (64, 4), (72, 31)], .sel hd .b32 1 2 3 4 31)] := by
  unfold decodesTo; decide

/-- Floating point: majors 0x20–0x2F, the rounding mode in MOD (R68, R71, R121–R126). -/
theorem decode_float : decodesTo 64 [([(0, 1), (2, 0x20), (27, 1), (35, 2), (43, 3), (57, 2), (59, 0x0D)], .fadd hd .rp .f16 1 2 3), ([(0, 1), (2, 0x21), (27, 2), (35, 4), (43, 6), (57, 3), (59, 0x0B)], .fsub hd .rm .f64 2 4 6),
    ([(0, 1), (2, 0x22), (27, 1), (35, 2), (43, 3), (57, 1), (59, 0x13)], .fmul hd .rz .x2bf16 1 2 3), ([(0, 1), (2, 0x24), (27, 1), (35, 2), (43, 3), (59, 0x14)], .fmin hd .x2f16 1 2 3),
    ([(0, 1), (2, 0x25), (27, 1), (35, 2), (43, 3), (59, 0x0E)], .fmax hd .bf16 1 2 3), ([(0, 1), (2, 0x26), (27, 1), (35, 2), (43, 3), (51, 7), (59, 0x0C)], .fcmp hd .or .f32 1 2 3),
    ([(0, 1), (2, 0x27), (27, 1), (35, 2), (59, 0x0F)], .fclass hd .f8a 1 2), ([(0, 1), (2, 0x28), (27, 1), (35, 2), (57, 1), (59, 0x0C)], .frnd hd .rz .f32 1 2),
    ([(0, 1), (2, 0x29), (27, 1), (35, 2), (59, 0x0C)], .frcp hd .f32 1 2), ([(0, 1), (2, 0x2A), (27, 1), (35, 2), (59, 0x0C)], .frsq hd .f32 1 2), ([(0, 1), (2, 0x2B), (27, 1), (35, 2), (57, 3), (59, 0x0C)], .fsqrt hd .rm .f32 1 2),
    ([(0, 1), (2, 0x2C), (27, 1), (35, 2), (59, 0x0C)], .fexp2 hd .f32 1 2), ([(0, 1), (2, 0x2D), (27, 1), (35, 2), (59, 0x0C)], .flog2 hd .f32 1 2), ([(0, 1), (2, 0x2E), (27, 1), (35, 2), (59, 0x0C)], .fsin hd .f32 1 2),
    ([(0, 1), (2, 0x2F), (27, 1), (35, 2), (59, 0x0D)], .fcos hd .f16 1 2)] := by
  unfold decodesTo; decide

theorem decode_float_long : decodesTo 128 [([(0, 2), (2, 0x20), (27, 1), (35, 2), (59, 0x0E), (64, 0x3F80)], .faddImm32 hd .rn .bf16 1 2 0x3F80), ([(0, 3), (2, 0x20), (27, 2), (35, 4), (57, 1), (59, 0x0B), (64, 1)], .faddImm64 hd .rz 2 4 1),
    ([(0, 2), (2, 0x21), (27, 1), (35, 2), (59, 0x0C), (64, 1)], .fsubImm32 hd .rn .f32 1 2 1), ([(0, 3), (2, 0x21), (27, 2), (35, 4), (59, 0x0B), (64, 1)], .fsubImm64 hd .rn 2 4 1),
    ([(0, 2), (2, 0x22), (27, 1), (35, 2), (59, 0x0C), (64, 1)], .fmulImm32 hd .rn .f32 1 2 1), ([(0, 3), (2, 0x22), (27, 2), (35, 4), (59, 0x0B), (64, 1)], .fmulImm64 hd .rn 2 4 1),
    ([(0, 2), (2, 0x23), (27, 1), (35, 2), (43, 3), (57, 2), (59, 0x0C), (64, 4)], .ffma hd .rp .f32 1 2 3 4)] := by
  unfold decodesTo; decide

/-- Conversion, packing and dot products: majors 0x40–0x47 (R71, R109, R127–R131, R201). -/
theorem decode_conversions : decodesTo 128 [([(0, 1), (2, 0x40), (27, 1), (35, 2), (51, 0x0C), (57, 1), (59, 0x01)], .cvt hd .rz .s8 .f32 1 2), ([(0, 2), (2, 0x41), (27, 1), (35, 2), (57, 3), (59, 0x10), (64, 7), (72, 2)], .cvtEf hd .rm .f8b 1 2 7 2),
    ([(0, 1), (2, 0x42), (27, 7)], .eclr hd 7), ([(0, 2), (2, 0x43), (27, 1), (35, 2), (43, 3), (59, 0x19), (64, 4), (72, 6)], .pack hd .x8s4 1 2 3 4 6),
    ([(0, 2), (2, 0x44), (27, 1), (35, 2), (59, 0x1C), (64, 3)], .unpack hd .x4f8b 1 2 3), ([(0, 2), (2, 0x45), (27, 1), (35, 2), (43, 3), (57, 1), (59, 0x14), (64, 4)], .dot2 hd .rz .x2f16 1 2 3 4),
    ([(0, 2), (2, 0x46), (27, 1), (35, 2), (43, 3), (57, 2), (59, 0x1B), (64, 4)], .dot4 hd .rp .x4f8a 1 2 3 4), ([(0, 2), (2, 0x47), (27, 1), (35, 2), (43, 3), (59, 0x1A), (64, 4)], .dot8 hd .x8z4 1 2 3 4)] := by
  unfold decodesTo; decide

/-- Sets and control: majors 0x50–0x56 and 0x60–0x65 (R71, R72, R109, R132–R142, R215–R217). -/
theorem decode_sets_and_control : decodesTo 128 [([(0, 2), (2, 0x50), (27, 2), (35, 4), (43, 3), (51, 3), (59, 0x0A), (64, 6), (72, 63)], .sshfl hd .grp .b64 2 4 3 6 63),
    ([(0, 2), (2, 0x51), (27, 1), (35, 2), (51, 1), (64, 5), (70, 31), (75, 63)], .svote hd .mask 1 2 31 63 5), ([(0, 2), (2, 0x52), (27, 1), (35, 2), (51, 1), (59, 0x0C), (64, 5)], .sred hd .min .f32 1 2 5),
    ([(0, 2), (2, 0x53), (27, 1), (35, 2), (51, 5), (57, 1), (59, 0x09), (64, 5)], .sscan hd .xor true .b32 1 2 5), ([(0, 2), (2, 0x54), (27, 1), (64, 5), (70, 1)], .sjoin hd true 1 5), ([(0, 2), (2, 0x55), (64, 5)], .sleave hd 5),
    ([(0, 2), (2, 0x56), (64, 63)], .sbar hd 63), ([(0, 2), (2, 0x60), (64, 0xFFFFFFF8)], .bra hd 0xFFFFFFF8), ([(0, 1), (2, 0x61), (35, 4)], .brx hd 4), ([(0, 1), (2, 0x61), (27, 6), (35, 4), (57, 1)], .brxL hd 6 4),
    ([(0, 2), (2, 0x62), (27, 6), (64, 0x80000000)], .call hd 6 0x80000000), ([(0, 1), (2, 0x63), (35, 4)], .ret hd 4), ([(0, 2), (2, 0x64), (27, 1), (35, 2), (64, 7), (72, 0xFFFFFF)], .fspawn hd 1 2 0xFFFFFF 7), ([(0, 1), (2, 0x65)], .fend hd)] := by
  unfold decodesTo; decide

/-- Memory: majors 0x70–0x7E (R69, R71, R147–R149, R151, R161, R164). -/
theorem decode_memory : decodesTo 128 [([(0, 2), (2, 0x70), (10, 1), (27, 2), (35, 4), (51, 6), (54, 1), (56, 5), (59, 0x0A), (64, 0xFFFFFFFF)], .ld hdA .acq .sys .first true .b64 2 4 0xFFFFFFFF),
    ([(0, 2), (2, 0x71), (27, 1), (35, 4), (51, 1), (54, 2), (56, 1), (59, 0x05), (64, 1)], .st hd .rel .shf .last .z8 1 4 1), ([(0, 2), (2, 0x72), (27, 1), (35, 4), (51, 2), (59, 0x0F), (64, 1)], .ldRo hd .first .f8a 1 4 1),
    ([(0, 2), (2, 0x73), (27, 1), (35, 3), (59, 0x09), (64, 4)], .lds hd .b32 1 3 4), ([(0, 2), (2, 0x74), (27, 1), (35, 3), (59, 0x01), (64, 4)], .sts hd .s8 1 3 4), ([(0, 2), (2, 0x75), (27, 1), (35, 4), (59, 0x07), (64, 4)], .ldw hd .z32 1 4 4),
    ([(0, 2), (2, 0x75), (27, 1), (35, 4), (51, 1), (59, 0x07), (64, 9), (72, 0x800000)], .ldwNb hd .z32 1 4 0x800000 9), ([(0, 2), (2, 0x76), (27, 1), (35, 3), (59, 0x09), (64, 9), (72, 4)], .stx hd .b32 1 3 4 9),
    ([(0, 2), (2, 0x77), (35, 4), (51, 2), (64, 4)], .pref hd .llc 4 4), ([(0, 2), (2, 0x7B), (35, 4), (64, 4)], .cwb hd 4 4), ([(0, 2), (2, 0x7C), (35, 4), (64, 4)], .cinv hd 4 4), ([(0, 2), (2, 0x7D), (35, 4), (64, 4)], .cflush hd 4 4),
    ([(0, 2), (2, 0x78), (27, 2), (35, 4), (64, 0xFFFFFFFF)], .hoffImm32 hd 2 4 0xFFFFFFFF), ([(0, 2), (2, 0x78), (27, 2), (35, 4), (51, 1), (64, 7)], .hoffUnsigned hd 2 4 7), ([(0, 2), (2, 0x78), (27, 2), (35, 4), (51, 2), (64, 7)], .hoffSigned hd 2 4 7),
    ([(0, 2), (2, 0x78), (27, 2), (35, 4), (51, 3), (64, 6)], .hoffPair hd 2 4 6), ([(0, 3), (2, 0x78), (27, 2), (35, 4), (64, 7)], .hoffImm64 hd 2 4 7), ([(0, 2), (2, 0x79), (27, 2), (35, 4), (43, 6), (64, 9), (72, 31)], .hnarrow hd 2 4 6 9 31),
    ([(0, 1), (2, 0x7A), (27, 2), (35, 4)], .hinfo hd 2 4), ([(0, 1), (2, 0x7E), (54, 3), (56, 1)], .fence hd .ar .shf)] := by
  unfold decodesTo; decide

/-- Atomics: majors 0x90–0x94, the operation in SUB (R71, R147, R149). -/
theorem decode_atomics : decodesTo 128 [([(0, 2), (2, 0x90), (10, 1), (27, 1), (35, 4), (51, 7), (54, 3), (56, 5), (59, 0x07), (64, 3), (72, 0x800000)], .atom hdA .inc .ar .sys .z32 1 4 0x800000 3),
    ([(0, 2), (2, 0x91), (27, 1), (35, 4), (51, 0), (54, 1), (56, 1), (59, 0x07), (64, 3)], .atomDecFloat hd .dec .acq .shf .z32 1 4 0 3), ([(0, 2), (2, 0x91), (27, 1), (35, 4), (51, 3), (56, 2), (59, 0x0C), (64, 3)], .atomDecFloat hd .fmax .plain .cls .f32 1 4 0 3),
    ([(0, 2), (2, 0x92), (27, 2), (35, 4), (43, 6), (54, 2), (56, 4), (59, 0x0A), (64, 8), (72, 16)], .atomc hd .rel .pkg .b64 2 4 6 8 16), ([(0, 2), (2, 0x93), (27, 1), (35, 4), (51, 6), (56, 3), (59, 0x07), (64, 8)], .red hd .inc .plain .die .z32 1 4 8),
    ([(0, 2), (2, 0x93), (27, 2), (35, 4), (51, 2), (54, 2), (56, 5), (59, 0x04), (64, 8)], .red hd .max .rel .sys .s64 2 4 8), ([(0, 2), (2, 0x94), (27, 1), (35, 4), (51, 1), (56, 1), (59, 0x0C), (64, 8)], .redFloat hd .fmin .plain .shf .f32 1 4 8)] := by
  unfold decodesTo; decide

/-- Matrix: majors 0xA0–0xA5 (R71, R183, R190, R191). -/
theorem decode_matrix : decodesTo 128 [([(0, 3), (2, 0xA0), (10, 1), (27, 1), (35, 2), (43, 3), (59, 0x0D), (64, 5), (72, 6), (80, 16), (105, 1), (106, 1)], .mma 1 false ⟨.f16, 1, 2, 3, 5, 6, 16, true, true⟩),
    ([(0, 3), (2, 0xA1), (27, 1), (35, 2), (43, 4), (59, 0x12), (64, 5), (72, 6), (80, 512), (96, 8), (104, 1)], .mmaW4 0 true ⟨.z4, 1, 2, 4, 5, 6, 512, false, false⟩ 8),
    ([(0, 3), (2, 0xA2), (27, 1), (35, 2), (43, 3), (59, 0x10), (64, 5), (72, 6), (80, 0), (106, 1)], .mmaBp 0 ⟨.f8b, 1, 2, 3, 5, 6, 0, false, true⟩),
    ([(0, 3), (2, 0xA3), (10, 2), (27, 1), (35, 2), (43, 3), (59, 0x03), (64, 4), (72, 5), (80, 512), (96, 65520), (112, 1)], .scacc 2 true .s32 1 2 3 4 5 512 65520),
    ([(0, 2), (2, 0xA4), (27, 1), (59, 0x09), (64, 128), (72, 1), (80, 0xFFFF)], .aclr 0 1 128 1 0xFFFF), ([(0, 1), (2, 0xA5), (27, 7)], .mprog 7)] := by
  unfold decodesTo; decide

/-- Synchronisation and queues: majors 0xB0–0xBC (R71, R206–R214, R219–R222, R228, R229). -/
theorem decode_synchronisation : decodesTo 128 [([(0, 2), (2, 0xB0), (35, 15), (64, 0xFFFF), (80, 4)], .binit hd 15 0xFFFF 4), ([(0, 1), (2, 0xB1), (27, 1), (35, 3)], .barr hd 3 1), ([(0, 2), (2, 0xB2), (27, 1), (35, 3), (64, 10)], .barx hd 3 1 10),
    ([(0, 1), (2, 0xB3), (35, 3), (43, 1)], .bwait hd 3 1), ([(0, 1), (2, 0xB4), (27, 1), (35, 3)], .bphase hd 1 3), ([(0, 1), (2, 0xB4), (27, 1), (35, 3), (57, 1)], .bphaseCnt hd 1 3), ([(0, 1), (2, 0xB5), (27, 1), (35, 3)], .clswap hd 3 1),
    ([(0, 2), (2, 0xB6), (27, 2), (35, 4), (57, 1), (59, 0x0A), (64, 8)], .marm hd true .b64 2 4 8), ([(0, 2), (2, 0xB6), (35, 15), (51, 1)], .marmQ hd 15), ([(0, 1), (2, 0xB7)], .mwait),
    ([(0, 3), (2, 0xB8), (10, 1), (27, 2), (35, 16), (64, 5), (72, 1)], .qpush hdA true 2 16 5), ([(0, 1), (2, 0xB9), (10, 1), (27, 8), (35, 2), (43, 5)], .qpop hdA 8 2 5), ([(0, 1), (2, 0xBA), (27, 1), (35, 2)], .qstat hd 1 2),
    ([(0, 1), (2, 0xBB), (27, 1)], .tnext hd 1), ([(0, 1), (2, 0xBC)], .step hd)] := by
  unfold decodesTo; decide

/-- System: majors 0xC0–0xCB (R39, R71, R230, R233–R239). -/
theorem decode_system : decodesTo 128 [([(0, 1), (2, 0xC0)], .nop), ([(0, 1), (2, 0xC1)], .yield), ([(0, 2), (2, 0xC2), (64, 0xFFFF)], .bkpt hd 0xFFFF), ([(0, 1), (2, 0xC3)], .halt), ([(0, 2), (2, 0xC4), (35, 252), (64, 0xFFFF)], .svc hd 252 0xFFFF),
    ([(0, 2), (2, 0xC5), (64, 0x7FFF)], .trap hd 0x7FFF), ([(0, 2), (2, 0xC6), (64, 1)], .ttrap hd 1), ([(0, 1), (2, 0xC7), (35, 4)], .eret hd 4), ([(0, 1), (2, 0xC7), (35, 4), (57, 1)], .eretEnd hd 4), ([(0, 2), (2, 0xC8), (27, 4), (64, 0x10)], .srd hd 4 0x10),
    ([(0, 2), (2, 0xC9), (35, 4), (64, 0x85)], .swr hd 0x85 4), ([(0, 2), (2, 0xC9), (35, 4), (64, 0x13)], .srFaultClear hd 4), ([(0, 2), (2, 0xC9), (35, 4), (64, 0x8D)], .ksFrozenWrite hd 4), ([(0, 2), (2, 0xC9), (35, 4), (64, 0x8E)], .ksKillWrite hd 4),
    ([(0, 2), (2, 0xC9), (35, 4), (64, 0x82)], .ksHtbaseWrite hd false 4), ([(0, 2), (2, 0xC9), (35, 4), (64, 0x84)], .ksHtbaseWrite hd true 4), ([(0, 1), (2, 0xCA), (27, 4), (35, 6)], .uien hd 4 6), ([(0, 1), (2, 0xCB)], .uidis)] := by
  unfold decodesTo; decide

/-- Words that R48, R65–R67, R69–R72 refuse: a clause header, a format the map does not list, a reserved major, an unused field not
zero, guard bits without GEN, a type code above 0x1C, scopes 6 and 7, a guarded matrix instruction. -/
theorem decode_refusals : ∀ w ∈ [word [(2, 0x00)], word [(0, 2), (2, 0x03), (59, 0x03)], word [(0, 1), (2, 0x1B)], word [(0, 1), (2, 0xFF)],
    word [(0, 1), (2, 0x08), (27, 1), (35, 2), (43, 3), (59, 0x01)], word [(0, 1), (2, 0x00), (14, 1), (59, 0x03)], word [(0, 1), (2, 0x00), (59, 0x1D)],
    word [(0, 1), (2, 0x7E), (56, 6)], word [(0, 1), (2, 0x7E), (56, 7)], word [(0, 1), (2, 0xA5), (12, 1)], word [(0, 2), (2, 0x70), (35, 4), (51, 3), (59, 0x09)],
    word [(0, 2), (2, 0x71), (35, 4), (51, 4), (59, 0x09)], word [(0, 1), (2, 0xC0), (27, 1)], word [(0, 3), (2, 0x78), (51, 1)]],
    decodeTableWord 128 w = none := by decide

/-! ## WellFormed: an ill-formed term for each check -/

theorem smoke_types_and_pairs : ∀ i ∈ ([.iadd hd .b32 false 4 5 6, .iadd hd .s64 true 4 6 8, .iadd hd .s64 false 5 6 8, .isub hd .s64 false 4 7 8,
    .isub hd .s64 false 4 6 9, .iaddImm32 hd .z8 false 4 5 0x100, .isubImm32 hd .s8 false 4 5 0x80, .iaddImm64 hd .b64 4 6 1, .isubImm64 hd .s64 5 6 1,
    .imul hd .x2s16 4 5 6, .imulImm32 hd .s16 4 5 0x8000, .imulh hd .s16 4 5 6, .imad hd .s16 4 5 6 7, .imad hd .s64 4 6 8 7, .iaddc hd false 5 6 7 8,
    .imin hd .x8s4 4 5 6, .iminImm32 hd .z16 4 5 0x10000, .imax hd .f32 4 5 6, .imaxImm32 hd .s16 4 5 0xFFFF, .iabs hd .z8 4 5, .ineg hd .b32 4 5,
    .bAnd hd .s32 4 5 6, .bOr hd .b64 5 6 8, .bXor hd .b64 4 7 8, .bAndn hd .b64 4 6 9, .bAndImm32 hd .z32 4 5 1, .bOrImm32 hd .b64 4 5 1, .bXorImm32 hd .b64 5 4 1,
    .bAndnImm32 hd .none 4 5 1, .bAndImm64 hd .b32 4 5 1, .bOrImm64 hd .b64 5 4 1, .bXorImm64 hd .b64 4 5 1, .bAndnImm64 hd .s64 4 6 1, .bNot hd .s32 4 5] : List Instr),
    i.wf = false := by decide

theorem smoke_fields_and_amounts : ∀ i ∈ ([.shl hd .s32 4 5 6, .shrImm32 hd .b64 5 6 1, .sra hd .b64 4 7 6, .rotImm32 hd .z32 4 5 1, .bfx hd .b32 4 5 0 1, .bfx hd .s32 4 5 32 1,
    .bfx hd .s32 4 5 0 0, .bfx hd .s32 4 5 0 33, .bfx hd .s64 4 6 63 2, .bfi hd .b32 4 5 6 31 2, .bfi hd .s32 4 5 6 0 1, .popc hd .s32 4 5, .clz hd .b64 4 5,
    .ctz hd .f32 4 5, .brev hd .b64 5 6, .icmp hd .eq .b32 4 5 6, .icmp hd .eq .s64 4 5 6, .icmpImm32 hd .eq .z8 4 5 0x1FF, .sel hd .s32 4 5 6 7 0, .sel hd .b64 4 6 9 7 0] : List Instr),
    i.wf = false := by decide

theorem smoke_float_and_conversions : ∀ i ∈ ([.fadd hd .rn .f8a 4 5 6, .fsub hd .rn .f64 4 6 9, .fmul hd .rn .s32 4 5 6, .faddImm32 hd .rn .f64 4 6 1, .fsubImm32 hd .rn .f16 4 5 0x10000,
    .fmulImm32 hd .rn .bf16 4 5 0xFFFF8000, .faddImm64 hd .rn 5 6 1, .fsubImm64 hd .rn 4 7 1, .ffma hd .rn .f64 4 6 8 9, .fmin hd .x4f8a 4 5 6, .fmax hd .f64 5 6 8,
    .fcmp hd .eq .x2f16 4 5 6, .fclass hd .x2f16 4 5, .frnd hd .rn .f8a 4 5, .frcp hd .bf16 4 5, .frsq hd .f64 4 5, .fsqrt hd .rn .bf16 4 5, .fexp2 hd .bf16 4 5, .flog2 hd .f64 5 6,
    .fsin hd .f64 4 6, .fcos hd .bf16 4 5, .cvt hd .rn .b32 .f32 4 5, .cvt hd .rn .f32 .s4 4 5, .cvt hd .rz .s8 .s32 4 5, .cvt hd .rn .s64 .f32 5 4, .cvt hd .rn .f32 .s64 4 5,
    .cvtEf hd .rn .f16 4 5 0 0, .pack hd .b32 4 5 6 7 0, .pack hd .x4s8 4 5 6 7 1, .pack hd .x2s16 4 5 6 7 2, .unpack hd .x2s16 4 5 2, .unpack hd .s32 4 5 0, .dot2 hd .rn .x4f8a 4 5 6 7,
    .dot4 hd .rz .x4s8 4 5 6 7, .dot4 hd .rn .x8s4 4 5 6 7, .dot8 hd .x4s8 4 5 6 7] : List Instr), i.wf = false := by decide

theorem smoke_sets_and_control : ∀ i ∈ ([.sshfl hd .rank .s32 4 5 6 7 0, .sshfl hd .rank .b64 4 6 5 7 0, .svote hd .count 4 5 0 1 0, .sred hd .add .b32 4 5 0, .sred hd .xor .s32 4 5 0,
    .sscan hd .min true .s64 5 4 0, .brx hd 5, .brxL hd 5 4, .call hd 5 8, .ret hd 7, .sjoin hdA true 4 0, .sleave hdA 0, .sbar hdA 0, .bra hdA 8, .fspawn hdA 4 5 1 6, .fend hdA,
    .eclr hdA 0, .cvtEf hdA .rn .bf16 4 5 0 0] : List Instr), i.wf = false := by decide

theorem smoke_memory : ∀ i ∈ ([.ld hd .plain .shf .none false .b32 4 6 0, .ld hd .acq .fib .none false .b32 4 6 0, .ld hd .rel .sys .none false .b32 4 6 0, .ld hd .plain .fib .none false .s4 4 6 0,
    .ld hd .plain .fib .none false .b32 4 5 0, .ld hd .plain .fib .none false .b64 5 6 0, .st hd .acq .sys .none .b32 4 6 0, .st hd .rel .fib .none .b32 4 6 0, .st hd .plain .die .none .b32 4 6 0,
    .ldRo hd .none .z4 4 6 0, .lds hd .none 4 5 0, .sts hd .b64 5 4 0, .ldw hd .b32 4 5 0, .ldwNb hd .f64 5 6 0 4, .stx hd .s4 4 5 0 6, .pref hd .l1 5 0, .cwb hd 5 0, .cinv hd 5 0, .cflush hd 5 0,
    .hoffImm32 hd 5 6 1, .hoffUnsigned hd 4 7 5, .hoffSigned hd 5 6 5, .hoffPair hd 4 6 5, .hoffImm64 hd 4 5 1, .hnarrow hd 4 6 9 5 0, .hinfo hd 5 6, .fence hdA .sc .sys,
    .atom hd .add .plain .fib .s32 4 6 0 5, .atom hd .dec .plain .sys .z32 4 6 0 5, .atom hd .add .plain .sys .b32 4 6 0 5, .atomDecFloat hd .add .plain .sys .s32 4 6 0 5,
    .atomDecFloat hd .fadd .plain .sys .f64 4 6 0 8, .atomc hd .plain .sys .s32 4 6 5 7 0, .atomc hd .plain .fib .b32 4 6 5 7 0, .red hd .add .acq .sys .s32 4 6 0, .red hd .xchg .plain .sys .b32 4 6 0,
    .redFloat hd .fadd .ar .sys .f32 4 6 0, .redFloat hd .add .plain .sys .s32 4 6 0] : List Instr), i.wf = false := by decide

theorem smoke_matrix_and_synchronisation : ∀ i ∈ ([.mma 0 false ⟨.f32, 1, 2, 4, 5, 6, 0, false, false⟩, .mma 0 false ⟨.bf16, 1, 3, 4, 5, 6, 0, false, false⟩, .mma 0 false ⟨.bf16, 1, 2, 3, 5, 6, 0, false, false⟩,
    .mma 0 false ⟨.bf16, 1, 2, 4, 5, 7, 0, false, false⟩, .mma 0 false ⟨.bf16, 1, 2, 4, 5, 6, 8, false, false⟩, .mmaW4 0 false ⟨.s4, 1, 2, 4, 5, 6, 0, false, false⟩ 7, .mmaBp 0 ⟨.bf16, 1, 2, 4, 5, 6, 0, false, false⟩,
    .scacc 0 false .z32 1 2 3 4 5 0 0, .scacc 0 false .f32 1 2 3 4 5 8 0, .scacc 0 false .f32 1 2 3 4 5 0 8, .aclr 0 1 0 1 1, .aclr 0 1 129 1 1, .aclr 0 1 1 0 1, .aclr 0 1 1 129 1,
    .binit hd 0 0 1, .binit hd 0 1 0, .binit hd 0 1 5, .barx hd 0 4 5, .marm hd false .s32 4 6 0, .marm hd false .b32 4 5 0, .qpush hd false 0 4 5, .qpop hd 4 0 5, .qstat hdA 4 0, .tnext hdA 4, .step hdA,
    .barr hdA 0 4, .bwait hdA 0 4, .bphase hdA 4 0, .bphaseCnt hdA 4 0, .clswap hdA 0 4, .marmQ hdA 0] : List Instr), i.wf = false := by decide

theorem smoke_system_and_events : ∀ i ∈ ([.svc hd 5 0, .srd hd 4 0x11, .srd hd 5 0x10, .srd hd 4 0xFF, .swr hd 0x83 4, .swr hd 0x82 4, .swr hd 0x13 4, .swr hd 0x88 5, .ksHtbaseWrite hd false 5, .uien hd 5 6, .uien hd 4 7,
    .bkpt hdA 0, .trap hdA 0, .ttrap hdA 0, .eret hdA 4, .eretEnd hdA 4, .srFaultClear hdA 4, .ksFrozenWrite hdA 4, .ksKillWrite hdA 4, .issueCycle 1544 0 none, .issueCycle 0 4 none, .flitReceive 16 [], .flitReceive 0 [0],
    .retryRequest 16 0, .linkDown 16, .hostWrite ⟨2, 0, none, false⟩ 0 [0], .hostWrite ⟨0, 0, none, false⟩ 0 [], .hostRead ⟨0, 0, none, false⟩ 0 4097, .hostAtomicop ⟨0, 0, none, false⟩ .swap 0 16 0 0,
    .mailboxSend ⟨0, 0, none, false⟩ 16 0 [], .consumerIndexWrite ⟨0, 0, none, false⟩ 0 2 0, .managementQueueWrite 0 [], .renew 2, .claim 2, .registerWrite 2 0 0, .matrixOpStart 1544, .spareRemap 1544, .warpDissolution 0 4] : List Instr),
    i.wf = false := by decide

/-! ## One instruction: results the spec works out, or that follow from its rules by hand -/

/-- The state after one step. -/
def next? (s : State) : Option State := match step s with | .next t => some t | _ => none
/-- Register `r` of the placed fibre after one step, with these values written to its registers before. -/
def result (i : Instr) (vs : List (Reg × Word)) (r : Reg) : Option Word :=
  (next? (placedWith i (regs vs) id id)).bind fun t => t.fibres.head?.map (·.reg r)
/-- As `result`, with FTZ set (R95). -/
def resultFtz (i : Instr) (vs : List (Reg × Word)) (r : Reg) : Option Word :=
  (next? (placedWith i (fun f => { regs vs f with inFlags := 1 }) id id)).bind fun t => t.fibres.head?.map (·.reg r)
/-- The program counter of the placed fibre after one step. -/
def pcAfter (s : State) : Option Dword := (next? s).bind fun t => t.fibres.head?.map (·.pc)
/-- The trap code and whether the placed fibre is held, after one step. -/
def trapAfter (s : State) : Option (Code × Reg × Bool) :=
  (next? s).bind fun t => t.fibres.head?.map fun f => (f.faultCode, f.faultOpnd, f.faultValid && decide (f.cond = .held .trap))

/-- R111's example. -/
theorem test_iadd_sat : result (.iadd hd .x4s8 true 4 5 6) [(5, 0x7F800102), (6, 0x0180FF01)] 4 = some 0x7F800003 := by decide
/-- R110: the sum wraps, the destination is also a source. -/
theorem test_iadd_wraps : result (.iadd hd .s32 false 5 5 6) [(5, 0x7FFFFFFF), (6, 1)] 5 = some 0x80000000 := by decide
/-- R86, R110: an 8-bit result is sign-extended. -/
theorem test_iadd_s8 : result (.iadd hd .s8 false 4 5 6) [(5, 0x7F), (6, 1)] 4 = some 0xFFFFFF80 := by decide
/-- R108, R110: IMM32 sign-extended to a 64-bit type. -/
theorem test_iadd_imm32_high : result (.iaddImm32 hd .s64 false 4 6 0xFFFFFFFF) [(6, 0), (7, 1)] 5 = some 0 := by decide
theorem test_iadd_imm64_high : result (.iaddImm64 hd .z64 4 6 0x100000000) [(6, 5), (7, 1)] 5 = some 2 := by decide
theorem test_isub_borrows : result (.isub hd .s64 false 4 6 8) [(6, 0), (7, 1), (8, 1), (9, 0)] 4 = some 0xFFFFFFFF := by decide
theorem test_imulh_signed : result (.imulh hd .s32 4 5 6) [(5, 0xFFFFFFFF), (6, 2)] 4 = some 0xFFFFFFFF := by decide
theorem test_imulh_unsigned : result (.imulh hd .z32 4 5 6) [(5, 0xFFFFFFFF), (6, 2)] 4 = some 1 := by decide
theorem test_imad : result (.imad hd .z32 4 5 6 7) [(5, 0xFFFFFFFF), (6, 3), (7, 5)] 4 = some 2 := by decide
/-- R113: carry and borrow out in the upper register. -/
theorem test_iaddc_carry : result (.iaddc hd false 4 6 7 8) [(6, 0xFFFFFFFF), (7, 0), (8, 3)] 5 = some 1 := by decide
theorem test_iaddc_borrow : result (.iaddc hd true 4 6 7 8) [(6, 0), (7, 0), (8, 1)] 5 = some 1 := by decide
theorem test_imin_signed : result (.imin hd .s32 4 5 6) [(5, 0x80000000), (6, 1)] 4 = some 0x80000000 := by decide
theorem test_imax_packed : result (.imax hd .x2s16 4 5 6) [(5, 0x8000_0001), (6, 0x0001_8000)] 4 = some 0x0001_0001 := by decide
/-- R110: the most negative value gives itself. -/
theorem test_iabs_least : result (.iabs hd .s16 4 5) [(5, 0x8000)] 4 = some 0xFFFF8000 := by decide
theorem test_ineg : result (.ineg hd .z8 4 5) [(5, 1)] 4 = some 0xFF := by decide
theorem test_andn : result (.bAndn hd .b32 4 5 6) [(5, 0xFF00FF00), (6, 0xF0F0F0F0)] 4 = some 0x0F000F00 := by decide
theorem test_not_pair : result (.bNot hd .b64 4 6) [(6, 0), (7, 0xFFFFFFFF)] 4 = some 0xFFFFFFFF := by decide
/-- R115: amounts at and beyond the width. -/
theorem test_shl_width : result (.shl hd .b32 4 5 6) [(5, 0xFFFFFFFF), (6, 32)] 4 = some 0 := by decide
theorem test_sra_beyond : result (.sra hd .b32 4 5 6) [(5, 0x80000000), (6, 0xFFFFFFFF)] 4 = some 0xFFFFFFFF := by decide
theorem test_shr_imm : result (.shrImm32 hd .b64 4 6 32) [(6, 0), (7, 0xABCD)] 4 = some 0xABCD := by decide
theorem test_rot : result (.rotImm32 hd .b32 4 5 36) [(5, 0x80000001)] 4 = some 0x18 := by decide
theorem test_bfx_sign : result (.bfx hd .s32 4 5 4 4) [(5, 0x80)] 4 = some 0xFFFFFFF8 := by decide
theorem test_bfi : result (.bfi hd .b32 4 5 6 8 8) [(5, 0x1AB), (6, 0xFFFFFFFF)] 4 = some 0xFFFFABFF := by decide
theorem test_clz_zero : result (.clz hd .b64 4 6) [(6, 0), (7, 0)] 4 = some 64 := by decide
theorem test_ctz : result (.ctz hd .b32 4 5) [(5, 0x28)] 4 = some 3 := by decide
theorem test_popc : result (.popc hd .b64 4 6) [(6, 0xF), (7, 0x10)] 4 = some 5 := by decide
theorem test_brev : result (.brev hd .b32 4 5) [(5, 3)] 4 = some 0xC0000000 := by decide
theorem test_icmp_signed : result (.icmp hd .lt .s32 4 5 6) [(5, 0xFFFFFFFF), (6, 0)] 4 = some 0xFFFFFFFF := by decide
theorem test_icmp_unsigned : result (.icmp hd .lt .z32 4 5 6) [(5, 0xFFFFFFFF), (6, 0)] 4 = some 0 := by decide
theorem test_sel : result (.sel hd .b32 4 5 6 7 31) [(5, 1), (6, 2), (7, 0x80000000)] 4 = some 1 := by decide

/-- R93, R121: 1 + 2^-24 is a tie that goes to the even fraction, and upward toward +∞. -/
theorem test_fadd_tie : result (.fadd hd .rn .f32 4 5 6) [(5, 0x3F800000), (6, 0x33800000)] 4 = some 0x3F800000 := by decide
theorem test_fadd_up : result (.fadd hd .rp .f32 4 5 6) [(5, 0x3F800000), (6, 0x33800000)] 4 = some 0x3F800001 := by decide
/-- R92, R121: ∞ − ∞ is the canonical NaN. -/
theorem test_fsub_nan : result (.fsub hd .rn .f32 4 5 6) [(5, 0x7F800000), (6, 0x7F800000)] 4 = some 0x7FC00000 := by decide
/-- R95's example: 2^-100 times 2^-30 under FTZ. -/
theorem test_fmul_ftz : resultFtz (.fmul hd .rn .f32 4 5 6) [(5, 0x0D800000), (6, 0x30800000)] 4 = some 0 := by decide
/-- R121: one rounding. (1 + 2^-23)(1 + 2^-23) − 1 is 2^-22 + 2^-46, a tie. -/
theorem test_ffma : result (.ffma hd .rn .f32 4 5 6 7) [(5, 0x3F800001), (6, 0x3F800001), (7, 0xBF800000)] 4 = some 0x34800000 := by decide
theorem test_ffma_up : result (.ffma hd .rp .f32 4 5 6 7) [(5, 0x3F800001), (6, 0x3F800001), (7, 0xBF800000)] 4 = some 0x34800001 := by decide
/-- R122's example, and a NaN beside a number. -/
theorem test_fmax_ftz : resultFtz (.fmax hd .f32 4 5 6) [(5, 0x7FC00000), (6, 0x80000001)] 4 = some 0x80000000 := by decide
theorem test_fmin_zeros : result (.fmin hd .f32 4 5 6) [(5, 0), (6, 0x80000000)] 4 = some 0x80000000 := by decide
theorem test_fcmp_un : result (.fcmp hd .un .f16 4 5 6) [(5, 0x7C01), (6, 0)] 4 = some 0xFFFFFFFF := by decide
theorem test_fcmp_ftz : resultFtz (.fcmp hd .eq .f32 4 5 6) [(5, 1), (6, 0)] 4 = some 0xFFFFFFFF := by decide
theorem test_fclass_subnormal : resultFtz (.fclass hd .f32 4 5) [(5, 1)] 4 = some 0x20 := by decide
theorem test_fclass_f8a : result (.fclass hd .f8a 4 5) [(5, 0x7F)] 4 = some 0x100 := by decide
/-- R125: −0.75 toward zero is −0. -/
theorem test_frnd : result (.frnd hd .rz .f32 4 5) [(5, 0xBF400000)] 4 = some 0x80000000 := by decide
/-- R96: 2^n is exact. -/
theorem test_frcp : result (.frcp hd .f32 4 5) [(5, 0x40800000)] 4 = some 0x3E800000 := by decide
theorem test_flog2_one : result (.flog2 hd .f32 4 5) [(5, 0x3F800000)] 4 = some 0 := by decide
theorem test_fsqrt : result (.fsqrt hd .rn .f32 4 5) [(5, 0x40000000)] 4 = some 0x3FB504F3 := by decide
/-- R127's examples. -/
theorem test_cvt_s8 : result (.cvt hd .rz .s8 .f32 4 5) [(5, 0xC396599A)] 4 = some 0xFFFFFF80 := by decide
theorem test_cvt_f8a : result (.cvt hd .rn .f8a .f32 4 5) [(5, 0x43FA0000)] 4 = some 0x7E := by decide
theorem test_cvt_f8b : result (.cvt hd .rn .f8b .f32 4 5) [(5, 0x4788B800)] 4 = some 0x7C := by decide
/-- R101's example: the first narrowing leaves 2^-8 in the residue, the second takes it up. -/
theorem test_cvt_ef : (next? (placedWith (.cvtEf hd .rn .bf16 4 5 0 0) (regs [(5, 0x3F808000)]) id id)).bind (fun t =>
    t.fibres.head?.map fun f => (f.reg 4, f.residues.getD 0 0)) = some (0x3F80, 0x3B80) := by decide
theorem test_cvt_ef_again : (next? (placedWith (.cvtEf hd .rn .bf16 4 5 0 0) (fun f => { regs [(5, 0x3F808000)] f with residues := f.residues.set 0 0x3B80 }) id id)).bind
    (fun t => t.fibres.head?.map fun f => (f.reg 4, f.residues.getD 0 0)) = some (0x3F81, 0) := by decide
theorem test_pack : result (.pack hd .x8s4 4 5 6 7 6) [(5, 0xFFF), (6, 0x11111111), (7, 0xA)] 4 = some 0xAF111111 := by decide
/-- The word of R89's example. -/
theorem test_unpack_s4 : result (.unpack hd .x8s4 4 5 7) [(5, 0x87654321)] 4 = some 0xFFFFFFF8 := by decide
theorem test_unpack_z4 : result (.unpack hd .x8z4 4 5 7) [(5, 0x87654321)] 4 = some 8 := by decide
/-- R202's example of `dot4.x4s8`. -/
theorem test_dot4 : result (.dot4 hd .rn .x4s8 8 4 5 6) [(4, 0x0302FF80), (5, 0x01047F02), (6, 1000)] 8 = some 628 := by decide
/-- R100: a dot product of FP16 pairs, 1·2 + 3·4 + 0.5. -/
theorem test_dot2 : result (.dot2 hd .rn .x2f16 8 4 5 6) [(4, 0x3C004200), (5, 0x40004400), (6, 0x3F000000)] 8 = some 0x41680000 := by decide
/-- R151: a result below 0 gives the offset all ones, the handle kept. -/
theorem test_hoff_saturates : result (.hoffImm32 hd 4 6 0xFFFFFFFF) [(6, 0), (7, 0x00000500)] 5 = some 0x000005FF := by decide
/-- R70: a false guard leaves the destination. -/
theorem test_guard_false : result (.iadd ⟨some ⟨false, 9, 3⟩, 0⟩ .s32 false 4 5 6) [(4, 77), (5, 1), (6, 1)] 4 = some 77 := by decide
theorem test_guard_inverted : result (.iadd ⟨some ⟨true, 9, 3⟩, 0⟩ .s32 false 4 5 6) [(4, 77), (5, 1), (6, 1)] 4 = some 2 := by decide

/-- R75: the register-range trap names the register. -/
theorem test_register_range : trapAfter (placedWith (.iadd hd .s32 false 4 5 200) id (fun h => { h with regs := 200 }) id) = some (cRegRange, 200, true) := by decide
/-- R39, R73: a privileged instruction in the unprivileged view. -/
theorem test_privilege : trapAfter (placed .halt) = some (cPrivilege, 0, true) := by decide
/-- R55: reserved words trap at their address. -/
theorem test_reserved_word : trapAfter (State.reset.withFetchWord 64 0x1B5) = some (0x0100, 0, true) := by decide
/-- R233: INFO is the code, the trap's code 0x8000 above it; the record stands in the die's service queue. -/
theorem test_trap_record : (next? (placed (.trap hd 0x123))).map (fun t => (t.svcQ 0).entries.map fun e =>
    (e.bits.extractLsb' 0 16, e.bits.extractLsb' 128 64, e.bits.extractLsb' 192 64)) = some [(0x8123, 0x123, 8)] := by decide
theorem test_bkpt : trapAfter (placed (.bkpt hd 5)) = some (0x010F, 0, true) := by decide
/-- R232: the privileged view goes on at ks.trapvec. -/
theorem test_privileged_trap : (next? (placedWith (.trap hd 1) (fun f => { f with ksTrapvec := 0x400 }) priv id)).bind (fun t =>
    t.fibres.head?.map fun f => (f.pc, f.ksEpc, f.ksEcause.setWidth 16, (t.svcQ 0).entries.length)) = some (0x400, 8, 0x8001#16, 0) := by decide
/-- R138, R139. -/
theorem test_bra : pcAfter (placedWith (.bra hd 0xFFFFFFF8) id id id) = some 0 := by decide
theorem test_bra_bounds : trapAfter (placed (.bra hd 0x1000)) = some (0x0104, 0, true) := by decide
theorem test_call_link : result (.call hd 4 0xFFFFFFF8) [] 4 = some 24 := by decide
theorem test_brx_link : result (.brxL hd 4 4) [(4, 16)] 4 = some 16 := by decide
theorem test_ret_unaligned : trapAfter (placedWith (.ret hd 4) (regs [(4, 4)]) id id) = some (0x0100, 0, true) := by decide
/-- R140: where every identifier below the quota is live, D is all ones; where one is free it is taken. -/
theorem test_fspawn_full : result (.fspawn hd 4 5 0 6) [] 4 = some 0xFFFFFFFF := by decide
theorem test_fspawn : (next? (placedWith (.fspawn hd 4 5 0xFFFFFF 6) (regs [(5, 9)]) (fun h => { h with quota := 3, depths := [0, 1, 2], windows := [0, 1, 2] }) id)).map
    (fun t => t.fibres.map fun f => (f.key.fid, f.pc, f.reg 6)) = some [(0, 24, 0), (1, 0, 9)] := by decide
/-- R142: the last fibre is gone. -/
theorem test_fend : (next? (placed (.fend hd))).map (·.fibres) = some [] := by decide
/-- R39: sr.fib, sr.time. -/
theorem test_srd : result (.srd hd 4 0x0D) [] 4 = some 256 := by decide
/-- R40: VALID of sr.fault is cleared by writing 1. -/
theorem test_sr_fault : (next? (placedWith (.srFaultClear hd 4) (fun f => { regs [(4, 1)] f with faultCode := 0x0104, faultValid := true }) id id)).bind (fun t =>
    t.fibres.head?.map fun f => (f.faultValid, f.faultCode)) = some (false, 0x0104) := by decide
/-- R206, R207: one arrival of one completes the phase. -/
theorem test_barr : (next? (placedWith (.barr hd 3 4) id (fun h => { h with bars := h.bars.set 3 { Barrier.initial with expect := 1, scope := 1, init := true } }) id)).bind
    (fun t => t.sheafs.head?.map fun h => (h.bars.getD 3 Barrier.initial).phase) = some 1 := by decide
/-- R222: an unbound queue register. -/
theorem test_qstat_unbound : trapAfter (placed (.qstat hd 4 0)) = some (0x010A, 0, true) := by decide
/-- R215: the first joiner makes the set and is its one member. -/
theorem test_sjoin : result (.sjoin hd true 4 5) [] 4 = some 1 := by decide
theorem test_sred_not_member : trapAfter (placed (.sred hd .add .s32 4 5 5)) = some (0x010B, 0, true) := by decide
/-- R184: M above its limit. -/
theorem test_mma_limit : trapAfter (placedWith (.mma 0 false (mmaOps .bf16 true)) (regs [(10, 129)]) id id) = some (0x010E, 0, true) := by decide

/-! ## Every instruction is met somewhere: the hypotheses of its statements -/

theorem wit_integer_sums : ∀ i ∈ ([.iadd hd .s32 false 4 5 6, .iaddImm32 hd .s64 false 4 6 0x7FFFFFFF, .iaddImm64 hd .z64 254 6 1,
    .isub hd .x4s8 true 4 5 6, .isubImm32 hd .s8 true 4 5 0xFFFFFF80, .isubImm64 hd .s64 4 6 1, .imul hd .z8 4 5 6,
    .imulImm32 hd .z16 4 5 0xFFFF, .imulh hd .s64 4 6 8, .imad hd .z32 4 5 6 7, .iaddc hd true 4 5 6 7, .imin hd .x2z16 4 5 6,
    .iminImm32 hd .s16 4 5 0x7FFF, .imax hd .s64 4 6 8, .imaxImm32 hd .z8 4 5 0xFF, .iabs hd .s8 4 5, .ineg hd .z64 4 6] : List Instr),
    ∃ s w k f sh, Alone i s w k f sh := allAlone_meets (pv := false) (by decide)

theorem wit_logic : ∀ i ∈ ([.bAnd hd .b32 4 5 6, .bAndImm32 hd .b64 4 6 1, .bAndImm64 hd .b64 4 6 1, .bOr hd .b64 4 6 8, .bOrImm32 hd .b32 4 5 1,
    .bOrImm64 hd .b64 4 6 1, .bXor hd .b32 4 5 6, .bXorImm32 hd .b32 4 5 1, .bXorImm64 hd .b64 4 6 1, .bAndn hd .b32 4 5 6,
    .bAndnImm32 hd .b32 4 5 1, .bAndnImm64 hd .b64 4 6 1, .bNot hd .b64 4 6] : List Instr),
    ∃ s w k f sh, Alone i s w k f sh := allAlone_meets (pv := false) (by decide)

theorem wit_shifts_and_fields : ∀ i ∈ ([.shl hd .b64 4 6 5, .shlImm32 hd .b32 4 5 255, .shr hd .b32 4 5 6, .shrImm32 hd .b64 4 6 64, .sra hd .b32 4 5 6,
    .sraImm32 hd .b32 4 5 32, .rot hd .b64 4 6 5, .rotImm32 hd .b32 4 5 31, .bfx hd .s64 4 6 0 64, .bfi hd .b32 4 5 6 31 1,
    .popc hd .b64 4 6, .clz hd .b32 4 5, .ctz hd .b32 4 5, .brev hd .b64 4 6, .icmp hd .lt .s32 4 5 6, .icmpImm32 hd .ge .z64 4 6 5,
    .sel hd .b64 4 6 8 5 31] : List Instr),
    ∃ s w k f sh, Alone i s w k f sh := allAlone_meets (pv := false) (by decide)

theorem wit_float : ∀ i ∈ ([.fadd hd .rn .x2f16 4 5 6, .faddImm32 hd .rz .bf16 4 5 0x3F80, .faddImm64 hd .rp 4 6 1, .fsub hd .rm .f64 4 6 8,
    .fsubImm32 hd .rn .f32 4 5 0x3F800000, .fsubImm64 hd .rn 4 6 1, .fmul hd .rn .f16 4 5 6, .fmulImm32 hd .rn .f16 4 5 1,
    .fmulImm64 hd .rn 4 6 1, .ffma hd .rn .f32 4 5 6 7, .fmin hd .x2bf16 4 5 6, .fmax hd .f64 4 6 8, .fcmp hd .un .f16 4 5 6,
    .fclass hd .f8b 4 5, .frnd hd .rz .f64 4 6] : List Instr),
    ∃ s w k f sh, Alone i s w k f sh := allAlone_meets (pv := false) (by decide)

theorem wit_functions_and_conversions : ∀ i ∈ ([.frcp hd .f64 4 6, .frsq hd .f32 4 5, .fsqrt hd .rm .f16 4 5, .fexp2 hd .f32 4 5, .flog2 hd .f16 4 5, .fsin hd .f32 4 5,
    .fcos hd .f16 4 5, .cvt hd .rz .s64 .f8a 4 5, .cvtEf hd .rn .bf16 4 5 7 3, .eclr hd 7, .pack hd .x8s4 4 5 6 7 6,
    .unpack hd .x4f8a 4 5 3, .dot2 hd .rz .x2f16 4 5 6 7, .dot4 hd .rn .x4z8 4 5 6 7, .dot8 hd .x8z4 4 5 6 7] : List Instr),
    ∃ s w k f sh, Alone i s w k f sh := allAlone_meets (pv := false) (by decide)

theorem wit_sets : ∀ i ∈ ([.sshfl hd .grp .b64 4 6 5 8 63, .svote hd .mask 4 5 31 63 0, .sred hd .add .f32 4 5 0, .sscan hd .xor true .b64 4 6 0,
    .sjoin hd true 4 63, .sleave hd 0, .sbar hd 0] : List Instr),
    ∃ s w k f sh, Alone i s w k f sh := allAlone_meets (pv := false) (by decide)

theorem wit_control : ∀ i ∈ ([.bra hd 8, .brx hd 4, .brxL hd 6 4, .call hd 4 8, .ret hd 4, .fspawn hd 4 5 1 6, .fend hd, .step hd, .tnext hd 4] : List Instr),
    ∃ s w k f sh, Alone i s w k f sh := allAlone_meets (pv := false) (by decide)

theorem wit_memory : ∀ i ∈ ([.ld hdA .acq .sys .last true .x4f8b 4 6 8, .ld hdA .plain .fib .none false .b64 4 6 0, .st hdA .rel .die .first .s8 4 6 0xFFFFFFFF,
    .ldRo hdA .none .f64 4 6 8, .lds hdA .b32 4 5 0, .sts hdA .b64 4 5 0, .ldw hdA .b32 4 6 0, .ldwNb hdA .b64 4 6 0x800000 5,
    .stx hdA .b32 4 5 0 6, .pref hdA .llc 6 0, .cwb hdA 6 0, .cinv hdA 6 0, .cflush hdA 6 0] : List Instr),
    ∃ s w k f sh, Alone i s w k f sh := allAlone_meets (pv := false) (by decide)

theorem wit_capabilities_and_atomics : ∀ i ∈ ([.hoffImm32 hd 4 6 0xFFFFFFFF, .hoffUnsigned hd 4 6 5, .hoffSigned hd 4 6 5, .hoffPair hd 4 6 8, .hoffImm64 hd 4 6 1,
    .hnarrow hd 4 6 8 5 31, .hinfo hd 4 6, .fence hd .sc .sys, .atom hdA .inc .ar .pkg .z32 4 6 0 5, .atomDecFloat hdA .fadd .plain .cls .f32 4 6 0 5,
    .atomc hdA .acq .shf .b64 4 6 8 10 0, .red hdA .min .rel .sys .s64 4 6 0, .redFloat hdA .fmax .plain .die .f32 4 6 0] : List Instr),
    ∃ s w k f sh, Alone i s w k f sh := allAlone_meets (pv := false) (by decide)

theorem wit_matrix : ∀ i ∈ ([.mma 1 true (mmaOps .bf16 false), .mma 1 false (mmaOps .f16 true), .mmaW4 1 true (mmaOps .z4 false) 8,
    .mmaBp 1 (mmaOps .f8a true), .scacc 1 true .f32 15 14 16 17 19 512 512, .aclr 1 14 128 128 32, .mprog 4] : List Instr),
    ∃ s w k f sh, Alone i s w k f sh := allAlone_meets (pv := false) (by decide)

theorem wit_barriers_and_queues : ∀ i ∈ ([.binit hd 15 0xFFFF 4, .barr hd 0 4, .barx hd 3 9 10, .bwait hd 3 8, .bphase hd 4 15, .bphaseCnt hd 4 15, .clswap hd 0 4,
    .marm hd true .b64 4 6 0, .marmQ hd 15, .mwait, .qpush hdA true 2 16 5, .qpop hdA 8 15 4, .qstat hd 4 15] : List Instr),
    ∃ s w k f sh, Alone i s w k f sh := allAlone_meets (pv := false) (by decide)

theorem wit_system : ∀ i ∈ ([.nop, .yield, .bkpt hd 0xFFFF, .svc hd 252 0xFFFF, .trap hd 0x7FFF, .ttrap hd 0, .srd hd 4 0x10, .swr hd 0x1A 4, .srFaultClear hd 4,
    .uien hd 4 6, .uidis] : List Instr),
    ∃ s w k f sh, Alone i s w k f sh := allAlone_meets (pv := false) (by decide)

theorem wit_privileged : ∀ i ∈ ([.halt, .eret hd 4, .eretEnd hd 4, .srd hd 4 0x8E, .swr hd 0x8C 4, .ksFrozenWrite hd 4, .ksKillWrite hd 4, .ksHtbaseWrite hd false 4,
    .ksHtbaseWrite hd true 5, .ttrap hd 0x7FFF] : List Instr),
    ∃ s w k f sh, Alone i s w k f sh := allAlone_meets (pv := true) (by decide)

/-! ## Hypotheses of the statements about steps, decoding and guards -/

theorem wit_step_clauses :
    (∃ (s : State) (is : Issue) (i : Instr), s.issue = some is ∧ State.fetch { s with evno := s.evno + 1 } is = some (.ok i))
    ∧ (∃ (s : State) (is : Issue) (e : _), s.issue = some is ∧ State.fetch { s with evno := s.evno + 1 } is = some (.error e))
    ∧ (∃ (s : State) (it : Item) (rest : List Item), s.issue = none ∧ s.agenda = it :: rest)
    ∧ (∃ (s : State) (ev : Instr), s.issue = none ∧ s.agenda = [] ∧ State.autoEvent { s with evno := s.evno + 1 } = some ev)
    ∧ ∃ s : State, s.issue = none ∧ s.agenda = [] ∧ State.autoEvent { s with evno := s.evno + 1 } = none :=
  ⟨⟨placed .nop, ⟨0, 0, 0, none⟩, .nop, rfl, rfl⟩,
   ⟨State.reset.withFetchWord 64 0x1B5, ⟨0, 0, 0, none⟩, _, rfl, rfl⟩,
   ⟨{ State.reset with agenda := [⟨5, .ready⟩] }, ⟨5, .ready⟩, [], rfl, rfl⟩,
   ⟨State.reset, .kindlingStage, rfl, rfl, by decide⟩,
   ⟨{ State.reset with boot := { State.reset.boot with stage := 8 } }, rfl, rfl, by decide⟩⟩

/-- Two bytes of the launch's code, at its offset 8, lie at device address 0, where they stand as recorded, or one differs. -/
def mappedState (pc : Dword) (spoilt : Bool) : State :=
  let s := placedWith .nop (fun f => { f with pc }) id (fun l => { l with codeMap := [(8, 2, .dev 0)] })
  { s with coh := { s.coh with llc := [{ line := 0, full := true, data := leBytes 128 (if spoilt then 0x300 else 0x301), dirty := true, way := 0, age := 0, cls := 0 }] } }
/-- The places of a block still hold its recorded bytes. -/
def unchanged? (s : State) (l : Launch) (b : Nat) : Bool :=
  (List.range 32).all fun i => match l.codeLoc (32 * b + i) with
    | none => true
    | some loc => decide (loc ≠ .unbacked) && (s.newest loc 1).headD 0 == Memory.read l.code (32 * b + i)
/-- The warp that issues stands at the address, in a launch with recorded code whose block holds those bytes still, or not. -/
def fetches (s : State) (pc : Dword) (same : Bool) : Bool :=
  (s.warp? 0 0 0).isSome && (s.fib? ⟨0, 0⟩).any (fun f => f.pc == pc) && s.launches.all fun l => l.codeLoc 9 == some (.dev 1) && unchanged? s l 0 == same
theorem wit_fetch : fetches (mappedState 8 false) 8 true = true ∧ fetches (mappedState 8 true) 8 false = true ∧ fetches (mappedState 0 false) 0 true = true := by
  decide +kernel

theorem wit_round_trip : (∃ i lo hi, Instr.wf i = true ∧ encodeWord i = some (lo, hi))
    ∧ ∃ lo hi i, decodeWord lo hi = .ok i :=
  ⟨⟨.ldwNb hdA .b64 254 6 0x800000 255, _, _, by decide, rfl⟩, ⟨0x301, 0, .nop, rfl⟩⟩

theorem wit_memory_invariant : ∃ s t : State, MemInv s ∧ step s = .next t ∧ s.mem ≠ [] :=
  ⟨{ placed .nop with mem := [(5, 7)] }, _, rfl, rfl, by decide⟩

theorem wit_first_values : (8 : Nat) ≤ 8 ∧ (8 : Nat) ≤ 256 ∧ ∃ r : Reg, r.toNat < 8 ∧ r ≠ 0 ∧ r ≠ 1 ∧ r ≠ 2 := ⟨by decide, by decide, 7, by decide⟩

theorem wit_register_results : (∃ f : Fibre, (integerResult (.iadd hd .s32 false 4 5 6) f).isSome) ∧ (∃ f : Fibre, (floatResult (.fadd hd .rn .f32 4 5 6) f).isSome)
    ∧ (∃ f : Fibre, (convertResult (.dot8 hd .x8s4 4 5 6 7) f).isSome) ∧ (∃ (s : State) (f : Fibre), (capabilityResult (.hinfo hd 4 6) s f).isSome) :=
  ⟨⟨Fibre.initial ⟨0, 0⟩ 0 0 0 256 8 0, rfl⟩, ⟨Fibre.initial ⟨0, 0⟩ 0 0 0 256 8 0, rfl⟩, ⟨Fibre.initial ⟨0, 0⟩ 0 0 0 256 8 0, rfl⟩,
   ⟨State.reset, Fibre.initial ⟨0, 0⟩ 0 0 0 256 8 0, rfl⟩⟩

/-- What `RegisterOnly` says of a member: it executes, or its guard is false, at the highest register a fibre may have. -/
theorem wit_register_only : (∃ w k f h, Alone (.iadd hd .s32 false 255 5 6) (placed (.iadd hd .s32 false 255 5 6)) w k f h ∧ w.members.count k = 1)
    ∧ ∃ w k f h, AloneAt .skip (.iadd ⟨some ⟨false, 9, 31⟩, 0⟩ .s32 false 255 5 6) (placed (.iadd ⟨some ⟨false, 9, 31⟩, 0⟩ .s32 false 255 5 6)) w k f h ∧ true = true :=
  ⟨witness _ (by decide), alone_of (q := fun _ _ _ _ => true) (by decide)⟩

theorem wit_residues : ∃ (rs : List Dword) (e n : Nat) (j : Nat), e < rs.length ∧ n ≠ e ∧ j < 4 := ⟨List.replicate 8 0, 7, 0, 3, by decide⟩

theorem wit_exact_results : (∃ (t : Ty) (e : Nat), e < t.lanes ∧ t.packed = true) ∧ (∃ (t : Ty) (a : Nat), t.int = true ∧ a < 2 ^ t.bits ∧ a ≠ 0)
    ∧ (∃ (t : Ty) (a : Nat), t.bitsTy = true ∧ a < 2 ^ t.bits ∧ a ≠ 0)
    ∧ (∃ (t : Ty) (pos len a i : Nat), t.int32or64 = true ∧ 1 ≤ len ∧ pos + len ≤ t.bits ∧ a < 2 ^ t.bits ∧ i < t.bits) :=
  ⟨⟨.x4s8, 3, by decide⟩, ⟨.z64, 2 ^ 64 - 1, by decide⟩, ⟨.b32, 2 ^ 32 - 1, by decide⟩, ⟨.s64, 63, 1, 1, 63, by decide⟩⟩

/-- The offset stays, leaves the 40 bits below, and leaves them above. -/
theorem wit_hoff : ∃ cap : Dword, 0 ≤ (capOffset cap : Int) + 1 ∧ (capOffset cap : Int) + 1 < 2 ^ 40 ∧ (capOffset cap : Int) + (-1) < 0
    ∧ 2 ^ 40 ≤ (capOffset cap : Int) + 2 ^ 40 := ⟨0x0000050000000000, by decide⟩

/-- The checks in order: privilege, the guard's register, an operand, and an instruction that passes or is skipped. -/
theorem wit_checks : (∃ w k f h, AloneAt (.trap ⟨cPrivilege, 0, 0⟩) .halt (placed .halt) w k f h ∧ (privileged .halt && !h.priv) = true)
    ∧ (∃ w k f h, AloneAt (.trap ⟨cPrivilege, 0, 0⟩) (.ksKillWrite ⟨some ⟨true, 9, 0⟩, 0⟩ 4) (placed (.ksKillWrite ⟨some ⟨true, 9, 0⟩, 0⟩ 4)) w k f h ∧ true = true)
    ∧ (∃ w k f h, AloneAt (.trap ⟨cRegRange, 8, 0⟩) (.bNot ⟨some ⟨false, 8, 0⟩, 0⟩ .b32 4 5) (placedWith (.bNot ⟨some ⟨false, 8, 0⟩, 0⟩ .b32 4 5) id (fun h => { h with regs := 8 }) id)
        w k f h ∧ decide (h.regs ≤ 8) = true)
    ∧ (∃ w k f h, AloneAt (.trap ⟨cRegRange, 9, 0⟩) (.bNot hd .b32 9 5) (placedWith (.bNot hd .b32 9 5) id (fun h => { h with regs := 8 }) id) w k f h
        ∧ decide (opnds h.bind (.bNot hd .b32 9 5) = [] ++ (9, 1) :: [(5, 1)]) = true)
    ∧ ∃ w k f h, AloneAt .skip (.bNot ⟨some ⟨false, 7, 31⟩, 0⟩ .b32 4 5) (placedWith (.bNot ⟨some ⟨false, 7, 31⟩, 0⟩ .b32 4 5) id (fun h => { h with regs := 8 }) id) w k f h
        ∧ (decide (h.regs = 8) && isWarpInstr (.bNot ⟨some ⟨false, 7, 31⟩, 0⟩ .b32 4 5)) = true :=
  ⟨alone_of (by decide), alone_of (q := fun _ _ _ _ => true) (by decide), alone_of (by decide), alone_of (by decide), alone_of (by decide)⟩

/-- A trap of an unprivileged fibre where the service queue has room and where it is full, and of a privileged one. -/
theorem wit_traps : (∃ (s : State) (k : FKey) (f : Fibre), s.fib? k = some f ∧ s.isPriv k = false ∧ s.svcRoom (coreDie f.core) 1 = true)
    ∧ (∃ (s : State) (k : FKey) (f : Fibre), s.fib? k = some f ∧ s.isPriv k = false ∧ s.svcRoom (coreDie f.core) 1 = false)
    ∧ (∃ (s : State) (k : FKey) (f : Fibre), s.fib? k = some f ∧ s.isPriv k = true ∧ f.depth < 16)
    ∧ ∃ (s : State) (f : Fibre), f.core < 1544 ∧ f.depth < 16 ∧ s.ctxOf f.key < 2 ^ 24 :=
  ⟨⟨placed .nop, ⟨0, 0⟩, _, rfl, by decide, by decide⟩,
   ⟨{ placed .nop with svc := [{ die := 0, entries := [], waiting := [[⟨0, false⟩]], owed := [] }] }, ⟨0, 0⟩, _, rfl, by decide, by decide⟩,
   ⟨placedWith .nop id priv id, ⟨0, 0⟩, _, rfl, by decide, by decide⟩,
   ⟨placed .nop, { Fibre.initial ⟨0, 0⟩ 1543 15 0 256 8 0 with depth := 15 }, by decide, by decide, by decide⟩⟩

/-- `ttrap` in both views; `eret` with a fibre to resume, and with none (in `wit_privileged`). -/
theorem wit_ttrap : (∃ w k f h, Alone (.ttrap hd 0x7FFF) (placed (.ttrap hd 0x7FFF)) w k f h ∧ h.priv = false)
    ∧ ∃ w k f h, Alone (.ttrap hd 0) (placedWith (.ttrap hd 0) id priv id) w k f h ∧ h.priv = true := ⟨witness _ (by decide), witness _ (by decide)⟩

/-- A service fibre at `eret`, and beside it a fibre of context 5 held in a trap at slot 0 of core 0. -/
def eretState (i : Instr) : State :=
  let s := placedWith i (fun f => { f with core := 1536, ksCtx := 5 }) priv id
  { s with
    fibres := s.fibres ++ [{ Fibre.initial ⟨9, 0⟩ 0 0 0 256 8 0 with cond := .held .trap }]
    sheafs := s.sheafs ++ [{ Sheaf.one 9 9 with ctx := 5 }] }

theorem wit_eret : (∃ w k f h, Alone (.eret hd 4) (eretState (.eret hd 4)) w k f h ∧ ((eretState (.eret hd 4)).eretTarget f 4).isSome = true)
    ∧ (∃ w k f h, Alone (.eretEnd hd 4) (eretState (.eretEnd hd 4)) w k f h ∧ ((eretState (.eretEnd hd 4)).eretTarget f 4).isSome = true)
    ∧ ∃ w k f h, Alone (.eret hd 4) (placedWith (.eret hd 4) id priv id) w k f h ∧ (placedWith (.eret hd 4) id priv id).eretTarget f 4 = none :=
  ⟨witness _ (by decide), witness _ (by decide), witness _ (by decide)⟩
/-- A core number beyond the die's 192 that is not its service core's names no fibre. -/
theorem wit_eret_core : ((regs [(4, 192)] fib0).reg 4).toNat % 256 = 192 ∧ ((regs [(4, 254)] fib0).reg 4).toNat % 256 = 254 := ⟨rfl, rfl⟩

/-! ## Hypotheses of the statements about control, system and special registers -/

/-- A target inside the code object, at its last word, unaligned, and at its length. -/
theorem wit_transfers :
    (∃ w k f h, Alone (.brxL hd 6 4) (placedWith (.brxL hd 6 4) (regs [(4, 16)]) id id) w k f h ∧ transferOf (.brxL hd 6 4) f = some (16, fun x => x.setPair 6 (x.pc + 8)))
    ∧ (∃ w k f h, Alone (.bra hd 0x10) (placedWith (.bra hd 0x10) id id (fun l => { l with codeLen := 32 })) w k f h
        ∧ ((placedWith (.bra hd 0x10) id id (fun l => { l with codeLen := 32 })).launchOf k).map (·.codeLen) = some 32 ∧ f.pc = 8)
    ∧ (∃ w k f h, Alone (.call hd 6 0x18) (placedWith (.call hd 6 0x18) id id (fun l => { l with codeLen := 32 })) w k f h
        ∧ ((placedWith (.call hd 6 0x18) id id (fun l => { l with codeLen := 32 })).launchOf k).map (·.codeLen) = some 32 ∧ f.pc = 8)
    ∧ ∃ w k f h, Alone (.ret hd 4) (placedWith (.ret hd 4) (regs [(4, 4)]) id id) w k f h ∧ (f.pair 4).toNat % 8 ≠ 0 := by
  refine ⟨?_, witness _ (by decide), witness _ (by decide), witness _ (by decide)⟩
  obtain ⟨w, k, f, h, a, e⟩ := witness (i := .brxL hd 6 4) (placedWith (.brxL hd 6 4) (regs [(4, 16)]) id id) (q := fun _ _ f _ => f.pair 4 = 16) (by decide)
  exact ⟨w, k, f, h, a, by show some (f.pair 4, _) = _; rw [e]⟩

/-- `fspawn` beyond the code, with no identifier free, and with one free whose release is met and whose is not. -/
def spawnState (quota : Nat) (log : List Access) : State :=
  { placedWith (.fspawn hd 4 5 0xFFFFFF 6) id (fun h => { h with quota, depths := [0, 1, 2], windows := [0, 1, 2] }) id with log }
theorem wit_fspawn :
    (∃ w k f h, Alone (.fspawn hd 4 5 0x1000 6) (placed (.fspawn hd 4 5 0x1000 6)) w k f h
      ∧ ((placed (.fspawn hd 4 5 0x1000 6)).launchOf k).any (fun l => decide (l.codeLen ≤ (f.pc + ((0x1000 : BitVec 24).signExtend 64 <<< 3)).toNat)) = true)
    ∧ (∃ w k f h, Alone (.fspawn hd 4 5 0xFFFFFF 6) (spawnState 1 []) w k f h ∧ (spawnState 1 []).freeFid h = none)
    ∧ (∃ w k f h, Alone (.fspawn hd 4 5 0xFFFFFF 6) (spawnState 2 []) w k f h ∧ (spawnState 2 []).freeFid h = some 1 ∧ (spawnState 2 []).releaseMet k .shf 0 = true)
    ∧ ∃ w k f h, Alone (.fspawn hd 4 5 0xFFFFFF 6) (spawnState 3 [openStore]) w k f h ∧ (spawnState 3 [openStore]).freeFid h = some 1
        ∧ (spawnState 3 [openStore]).releaseMet k .shf 0 = false :=
  ⟨witness _ (by decide), witness _ (by decide), witness _ (by decide), witness _ (by decide)⟩

/-- A fibre whose flags are clear and one with an operation counted; a launch with no continuation, the same, and another. -/
theorem wit_endings : (∃ (s : State) (k : FKey) (f : Fibre), s.fib? k = some f ∧ (∀ n ∈ f.flags, n = 0) ∧ ∀ x ∈ s.fibres, x.key = k → x = f)
    ∧ (∃ (s : State) (k : FKey) (f : Fibre), s.fib? k = some f ∧ ∃ n ∈ f.flags, n ≠ 0)
    ∧ ∃ l m : Launch, l.cont = none ∧ m.cont = some 8 ∧ (8 : Nat) ≠ 16 :=
  ⟨⟨placed .nop, ⟨0, 0⟩, _, rfl, by decide, fun x h _ => List.mem_singleton.mp h⟩, ⟨placedWith .nop (fun f => { f with flags := f.flags.set 11 63 }) id id, ⟨0, 0⟩, _, rfl, by decide⟩,
   ⟨Launch.one 0 [], { Launch.one 0 [] with cont := some 8 }, rfl, rfl, by decide⟩⟩

/-- A code whose word at a place is zero; `halt` on a core not halted and on one halted. -/
theorem wit_zero_word_and_halt : (∃ (word : Nat → Dword) (len pc : Nat), word pc = 0 ∧ pc + 8 ≤ len)
    ∧ (∃ w k f h, Alone .halt (placedWith .halt id priv id) w k f h ∧ ((placedWith .halt id priv id).coreSt f.core).halted = false)
    ∧ ∃ w k f h, Alone .halt { placedWith .halt id priv id with cores := [{ ((placed .halt).coreSt 0) with halted := true }] } w k f h
        ∧ (({ placedWith .halt id priv id with cores := [{ ((placed .halt).coreSt 0) with halted := true }] } : State).coreSt f.core).halted = true :=
  ⟨⟨fun _ => 0, 8, 0, rfl, by decide⟩, witness _ (by decide), witness _ (by decide)⟩

/-- A fibre with EN and PEND at a clause boundary; sheafs with a fibre that has EN and without. -/
def uiState (en : Bool) : State := placedWith .nop (fun f => { f with uiEn := en, uiPend := true, clause := none, uiHandler := 64, uiLink := 254 }) id id

theorem wit_user_interrupts : (∃ (s : State) (u fid : Nat) (f : Fibre), s.fib? ⟨u, fid⟩ = some f ∧ f.uiEn = true ∧ f.uiPend = true ∧ f.pendTraps = []
      ∧ f.clause = none ∧ s.ctxHalted f.key = false ∧ (∃ n, f.cond = .batched n))
    ∧ (∃ (s : State) (u : Nat), ∀ f ∈ s.fibres, f.key.sheaf = u → f.cond = .ended ∨ f.uiEn = false)
    ∧ ∃ (s : State) (u : Nat), ∃ f ∈ s.fibres, f.key.sheaf = u ∧ f.cond ≠ .ended ∧ f.uiEn = true :=
  ⟨⟨uiState true, 0, 0, _, rfl, by decide, by decide, by decide, by decide, by decide, 0, by decide⟩, ⟨uiState false, 0, by decide⟩, ⟨uiState true, 0, by decide⟩⟩

theorem wit_pending_trap : ∃ (s : State) (u fid : Nat) (f : Fibre) (t : PendTrap) (rest : List PendTrap), s.fib? ⟨u, fid⟩ = some f ∧ f.pendTraps = t :: rest
    ∧ f.clause = none ∧ s.ctxHalted f.key = false ∧ ((∃ n, f.cond = .batched n) ∨ f.cond = .unbatched) :=
  ⟨placedWith .nop (fun f => { f with clause := none, cond := .unbatched, pendTraps := [⟨0x0181, 0, 8, 0, 0⟩] }) id id, 0, 0, _, _, _, rfl, rfl, rfl, by decide, .inr rfl⟩

/-- A fibre whose ks.ctx names context 1. -/
def srdState : State := { placedWith .nop (fun f => { f with ksCtx := 1 }) id id with ctxs := [ctxOne], parts := [partOne] }

/-- `srd` of a register of a compute core, of sr.core on a service core, and what is read of a launch, of schedules and of a context. -/
theorem wit_srd : (∃ w k f h, Alone (.srd hd 4 0x05) (placed (.srd hd 4 0x05)) w k f h ∧ f.core < 1536)
    ∧ (∃ w k f h, Alone (.srd hd 4 0x06) (placedWith (.srd hd 4 0x06) (fun f => { f with core := 1536 }) id id) w k f h ∧ 1536 ≤ f.core)
    ∧ (∃ (s : State) (f : Fibre) (sh : Sheaf) (l : Launch), s.fib? f.key = some f ∧ s.launch? sh.launch = some l ∧ l.scheds = [])
    ∧ (∃ (s : State) (f : Fibre) (sh : Sheaf) (l : Launch) (t : Sched), s.fib? f.key = some f ∧ s.launch? sh.launch = some l ∧ l.scheds.find? (·.core == f.core) = some t)
    ∧ ∃ (s : State) (f : Fibre) (c : Ctx) (p : Part), s.fib? f.key = some f ∧ s.ctx? f.ksCtx.toNat = some c ∧ s.part? c.part = some p
        ∧ (∀ n ∈ f.flags, n ≤ 63) ∧ f.flags.length = 12 :=
  ⟨witness _ (by decide), witness _ (by decide), ⟨placed .nop, fib0, Sheaf.one 0 0, _, rfl, rfl, rfl⟩,
   ⟨placedWith .nop id id (fun l => { l with scheds := [⟨0, 0, 0, [(7, .unbacked)], 0⟩] }), fib0, Sheaf.one 0 0, _, _, rfl, rfl, rfl⟩,
   ⟨srdState, { fib0 with ksCtx := 1 }, ctxOne, partOne, rfl, rfl, rfl,
     by decide, by decide⟩⟩

/-- `swr` of each register, at the highest register of its width. -/
theorem wit_swr : ∀ i ∈ ([.swr hd 0x80 255, .swr hd 0x85 4, .swr hd 0x86 4, .swr hd 0x87 4, .swr hd 0x88 254, .swr hd 0x8A 4, .swr hd 0x8C 4, .swr hd 0x81 4, .srFaultClear hd 4,
    .ksHtbaseWrite hd false 254, .ksHtbaseWrite hd true 255, .ksFrozenWrite hd 4, .ksKillWrite hd 4] : List Instr), ∃ s w k f sh, Alone i s w k f sh :=
  allAlone_meets (pv := true) (by decide)

/-- Contexts frozen and not; another context beside the killed one, with a fibre of its own. -/
theorem wit_release_and_kill : (∃ (s : State) (x : Nat) (c : Ctx), s.ctx? x = some c ∧ c.frozen = true ∧ (∀ u ∈ s.recv.unexpected, u.1 ≠ x) ∧ ∀ l ∈ s.launches, l.ctx ≠ x)
    ∧ ∃ (s : State) (x : Nat) (c : Ctx), s.ctx? x = some c ∧ (∃ h ∈ s.sheafs, h.ctx = x)
        ∧ ∃ f ∈ s.fibres, ∀ h ∈ s.sheafs, h.ctx = x → f.key.sheaf ≠ h.uid :=
  ⟨⟨{ State.reset with ctxs := [{ ctxOne with frozen := true }] }, 1, _, rfl, rfl, by decide, by decide⟩,
   ⟨{ placed .nop with ctxs := [ctxOne], sheafs := [Sheaf.one 0 0, { Sheaf.one 9 9 with ctx := 1 }] }, 1, _, rfl, by decide, by decide⟩⟩

/-- `tnext` with no table, with a tile, and at the table's end. -/
def tnextState (cursor : Nat) : State := placedWith (.tnext hd 4) id id (fun l => { l with scheds := [⟨0, 0, 0, [(7, .unbacked)], cursor⟩] })

theorem wit_tnext : (∃ w k f h, Alone (.tnext hd 4) (placed (.tnext hd 4)) w k f h ∧ ((placed (.tnext hd 4)).launchOf k).map (fun l => l.scheds.find? (·.core == f.core)) = some none)
    ∧ (∃ w k f h, Alone (.tnext hd 4) (tnextState 0) w k f h
        ∧ ((tnextState 0).launchOf k).bind (fun l => (l.scheds.find? (·.core == f.core)).bind fun t => t.tiles[t.cursor]?) = some (7, .unbacked))
    ∧ ∃ w k f h, Alone (.tnext hd 4) (tnextState 1) w k f h
        ∧ ((tnextState 1).launchOf k).bind (fun l => (l.scheds.find? (·.core == f.core)).map fun t => decide (t.tiles.length ≤ t.cursor)) = some true :=
  ⟨witness _ (by decide), witness _ (by decide), witness _ (by decide)⟩

/-! ## Hypotheses of the statements about memory -/

/-- Context 1's handle table at 0x1000 and its partition's object table at 0x4000, in the LLC. Handles 1–4 are roots of 4 KiB with every right
to objects 1–4: device memory at 1 MiB, device memory whose extent is absent, one whose translation failed, and host memory; handle 5
is a weight-store object of die 0, 6 a window of handle 1, 7 a root without rights (R143, R285, R286). -/
def memTables (s : State) : State :=
  let root (space rights obj : Nat) : Nat := 2 ^ 222 + space * 2 ^ 219 + rights * 2 ^ 192 + 4096 * 2 ^ 64 + obj
  let obj (kind live : Nat) : Nat := live * 2 ^ 192 + 4096 * 2 ^ 64 + kind
  let window : Nat := 2 * 2 ^ 222 + 3 * 2 ^ 192 + 16 * 2 ^ 128 + 32 * 2 ^ 64 + 1
  let lines : List (Nat × Nat) :=
    [(0x1000, root 0 31 1 * 2 ^ 256 + root 0 31 2 * 2 ^ 512 + root 0 31 3 * 2 ^ 768), (0x1080, root 1 31 4 + root 4 31 5 * 2 ^ 256 + window * 2 ^ 512 + root 0 0 1 * 2 ^ 768),
     (0x4000, obj 1 0x8000 * 2 ^ 512), (0x4080, obj 1 0x8080 + obj 1 0x8100 * 2 ^ 512), (0x4100, obj 2 0x8180 + obj 5 0x8200 * 2 ^ 512),
     (0x8000, 2 ^ 62 + 0x100), (0x8100, 2 * 2 ^ 62), (0x8180, 2 ^ 62 + 0x40), (0x8200, 2 ^ 62 + 0x80)]
  { s with
    ctxs := [{ ctxOne with htbase := 0x1000, htlen := 8 }], parts := [{ partOne with objTable := 0x4000 }]
    coh := { s.coh with llc := lines.map fun l =>
      { line := (devLoc l.1).line?.getD 0, data := leBytes 128 l.2, full := true, dirty := true, way := 0, age := 0, cls := 0 } } }

/-- Instruction `i` of a fibre of context 1 whose pair v6 holds a capability. -/
def memState (i : Instr) (handle off : Nat) : State :=
  memTables (placedWith i (fun f => { f.setPair 6 (mkCap handle off) with inHtbase := 0x1000, inHtlen := 8 }) (fun h => { h with ctx := 1, granules := 1 })
    (fun l => { l with ctx := 1 }))

/-- The entries of a handle of its own number's object, and the object's first extent, stand in the caches of core 0 (R288). -/
def cachedAt (n : Nat) (s : State) : State :=
  let x : XEntry := { die := 0, core := some 0, ctx := 1, handle := false, obj := BitVec.ofNat 64 n, ext := 0, shadow := false, lines := [] }
  { s with xc := [x, { x with handle := true }] }

/-- What the checks of the access of `i` and its translation give. -/
def issues (i : Instr) (s : State) (w : Warp) (k : FKey) (f : Fibre) (h : Sheaf) : Option XOut :=
  match accessOf i with
  | none => none
  | some (r, a) =>
    let x := atInstr i s w k
    match x.checkAccess f (f.pair a) r.disp r.size r.need r.spaces with
    | .error _ => none
    | .ok (win, o) => some (x.translate f.core h.ctx win o r.wr (if r.side then .store else .load) (s.launchId k) false).1

/-- Accesses by every access instruction, at the last bytes of their window, that are translated. -/
theorem wit_accesses_issue : ∀ x ∈ ([(.ld hdA .acq .sys .none false .b64 4 6 0, 4088), (.st hdA .plain .fib .last .s8 4 6 0, 4095), (.ldRo hdA .none .b32 4 6 0, 4092),
    (.cwb hdA 6 0, 4095), (.cinv hdA 6 0, 0), (.cflush hdA 6 0, 0), (.atom hdA .add .plain .sys .s64 4 6 0 8, 4088)] : List (Instr × Nat)),
    ∃ w k f h, Alone x.1 (memState x.1 1 x.2) w k f h ∧ (issues x.1 (memState x.1 1 x.2) w k f h).any (fun o => match o with | .at _ _ _ => true | _ => false) = true := by
  intro x hx
  simp only [List.mem_cons, List.not_mem_nil, or_false] at hx
  rcases hx with rfl | rfl | rfl | rfl | rfl | rfl | rfl <;> exact witness _ (by decide +kernel)

/-- The window and root offset of a checked access, or the trap's code. -/
def checked (s : State) (f : Fibre) (cap : Dword) (disp : Int) (size : Nat) (need : Right) (spaces : List Nat) : Code × Nat :=
  match s.checkAccess f cap disp size need spaces with
  | .error t => (t.code, 0)
  | .ok (_, o) => (0, o)

/-- Each check of an access at the edge of its range: one byte over the alignment, no such handle, the last place of a window and the one
beyond, below 0, without rights, of another space. -/
theorem wit_access_checks : ([(1, 4, (0x100000004 : Nat), 0, 4), (8, 0, 0, 0, 4), (6, 28, 0, 0, 4), (6, 32, 0, 0, 4), (1, 0, 0, -4, 4), (7, 0, 0, 0, 4), (5, 0, 0, 0, 4), (1, 2, 0, 0, 4)]
      : List (Nat × Nat × Nat × Int × Nat)).map (fun x => checked (memState .nop 1 0) { fib0 with inHtbase := 0x1000, inHtlen := 8 } (mkCap x.1 x.2.1) x.2.2.2.1 x.2.2.2.2 .read [0, 1, 2, 3])
    = [(0, 4), (0x0103, 0), (0, 44), (0x0104, 0), (0x0104, 0), (0x0105, 0), (0x0105, 0), (0x0106, 0)] := by decide +kernel

/-- An access that traps at its checks, one whose translation failed, loads that miss an extent or a page, a store that enters the side
log and one that finds it full, and a release that is not met. -/
def sideFull (s : State) : State :=
  { s with side := (List.range 256).map fun n => { core := 0, ctx := 1, obj := 1, ext := 0, space := 0, home := 0, on := .extent 1 0 0, op := { MemOp.blank n s fib0 .st .b32 with roff := 128 * n, obj := 1 } } }

/-- The warp chosen to issue finds no room in the side log. -/
def stalls (i : Instr) (s : State) : Bool :=
  match s.issue with | some is => (match s.warp? is.core is.quad is.slot with | some w => !s.sideFits i w | none => false) | none => false

theorem wit_accesses_else :
    (∃ w k f h, Alone (.ld hd .plain .fib .none false .b32 4 6 0) (memState (.ld hd .plain .fib .none false .b32 4 6 0) 7 0) w k f h
      ∧ (checked (memState (.ld hd .plain .fib .none false .b32 4 6 0) 7 0) f (f.pair 6) 0 4 .read [0, 1, 2, 3]).1 = 0x0105)
    ∧ (∃ w k f h, Alone (.ld hd .plain .fib .none false .b32 4 6 0) (memState (.ld hd .plain .fib .none false .b32 4 6 0) 3 0) w k f h
      ∧ issues (.ld hd .plain .fib .none false .b32 4 6 0) (memState (.ld hd .plain .fib .none false .b32 4 6 0) 3 0) w k f h = some .fail)
    ∧ (∃ w k f h, Alone (.ld hd .plain .fib .none false .b32 4 6 0) (memState (.ld hd .plain .fib .none false .b32 4 6 0) 2 0) w k f h
      ∧ issues (.ld hd .plain .fib .none false .b32 4 6 0) (memState (.ld hd .plain .fib .none false .b32 4 6 0) 2 0) w k f h = some (.wait (.extent 2 0 0x8080)))
    ∧ (∃ w k f h, Alone (.red hd .add .plain .sys .s32 4 6 0) (memState (.red hd .add .plain .sys .s32 4 6 0) 2 0) w k f h ∧ issues (.red hd .add .plain .sys .s32 4 6 0) (memState (.red hd .add .plain .sys .s32 4 6 0) 2 0) w k f h = some (.wait (.extent 2 0 0x8080)))
    ∧ (∃ w k f h, Alone (.red hd .add .plain .sys .s32 4 6 0) (cachedAt 4 (memState (.red hd .add .plain .sys .s32 4 6 0) 4 0)) w k f h ∧ (issues (.red hd .add .plain .sys .s32 4 6 0) (cachedAt 4 (memState (.red hd .add .plain .sys .s32 4 6 0) 4 0)) w k f h).any (fun o => match o with | .at (.host 0 0x40000) _ _ => true | _ => false) = true)
    ∧ ((sideReq? (.st hd .plain .fib .none .b32 4 6 0)).isSome = true ∧ stalls (.st hd .plain .fib .none .b32 4 6 0) (sideFull (memState (.st hd .plain .fib .none .b32 4 6 0) 2 0)) = true)
    ∧ ∃ w k f h, Alone (.st hd .rel .pkg .none .b32 4 6 0) { memState (.st hd .rel .pkg .none .b32 4 6 0) 1 0 with log := [openStore] } w k f h
      ∧ State.releaseMet { memState (.st hd .rel .pkg .none .b32 4 6 0) 1 0 with log := [openStore] } k .pkg 1 = false :=
  ⟨witness _ (by decide +kernel), witness _ (by decide +kernel), witness _ (by decide +kernel), witness _ (by decide +kernel), witness _ (by decide +kernel),
   ⟨rfl, by decide +kernel⟩, witness _ (by decide +kernel)⟩

/-- Scratchpad offsets: unaligned, below 0, the last word of the allocation and the one beyond. -/
theorem wit_scratchpad : ∀ x ∈ ([(4, 1, 0), (0, -1, 1), (4092, 0, 2), (4096, 0, 1)] : List (Nat × Int × Nat)),
    ∃ w k f h, Alone (.lds hdA .b32 4 6 (BitVec.ofInt 32 x.2.1)) (memState (.lds hdA .b32 4 6 (BitVec.ofInt 32 x.2.1)) 0 x.1) w k f h
      ∧ (let o : Int := (f.reg 6).toNat + x.2.1
         if ¬ (4 : Int) ∣ o then x.2.2 = 0 ∨ o < 0 else if o < 0 ∨ 4096 < o + 4 then x.2.2 = 1 else x.2.2 = 2) := by
  intro x hx
  simp only [List.mem_cons, List.not_mem_nil, or_false] at hx
  rcases hx with rfl | rfl | rfl | rfl <;> exact witness _ (by decide +kernel)

/-- `stx` outside a stook, in a stook of two to the other sheaf, and beyond the last rank. -/
def stookState (rank : Word) : State :=
  let i : Instr := .stx hd .b32 4 5 0 6
  let s := placedWith i (regs [(6, rank)]) (fun h => { h with stook := 2, granules := 1 }) id
  { s with sheafs := s.sheafs ++ [{ Sheaf.one 9 0 with index := 1, stook := 2, granules := 1 }] }

theorem wit_stx : (∃ w k f h, Alone (.stx hd .b32 4 5 0 6) (placed (.stx hd .b32 4 5 0 6)) w k f h ∧ h.stook = 0)
    ∧ (∃ w k f h, Alone (.stx hd .b32 4 5 0 6) (stookState 1) w k f h ∧ h.stook = 2
        ∧ (((stookState 1).stookOf h).find? fun g => g.index % h.stook == (f.reg 6).toNat).map (·.uid) = some 9)
    ∧ ∃ w k f h, Alone (.stx hd .b32 4 5 0 6) (stookState 2) w k f h ∧ h.stook ≤ (f.reg 6).toNat :=
  ⟨witness _ (by decide), witness _ (by decide), witness _ (by decide)⟩

/-- A weight-store read on the issuing die, from a fibre of another die, and of an object that is elsewhere; `ldw.nb` while its bank refreshes. -/
def ldwState (i : Instr) (handle core time : Nat) : State :=
  let s := memState i handle 0
  { s with fibres := s.fibres.map fun f => { f with core }, time }

/-- Where the weight-store access lies. -/
def weightAt (s : State) (f : Fibre) (h : Sheaf) : Option Nat :=
  match s.checkAccess f (f.pair 6) 0 4 .read [4] with
  | .error _ => none
  | .ok (win, o) => match s.lookup h.ctx win.root o false with | .at (.weight d _) _ => some d | _ => none

theorem wit_weight_store :
    (∃ w k f h, Alone (.ldw hd .b32 4 6 0) (ldwState (.ldw hd .b32 4 6 0) 5 0 0) w k f h ∧ weightAt (ldwState (.ldw hd .b32 4 6 0) 5 0 0) f h = some 0 ∧ coreDie f.core = 0)
    ∧ (∃ w k f h, Alone (.ldw hd .b32 4 6 0) (ldwState (.ldw hd .b32 4 6 0) 5 192 0) w k f h ∧ weightAt (ldwState (.ldw hd .b32 4 6 0) 5 192 0) f h = some 0 ∧ coreDie f.core = 1)
    ∧ (∃ w k f h, Alone (.ldw hd .b32 4 6 0) (ldwState (.ldw hd .b32 4 6 0) 1 0 0) w k f h ∧ weightAt (ldwState (.ldw hd .b32 4 6 0) 1 0 0) f h = none)
    ∧ (∃ w k f h, Alone (.ldwNb hd .b32 4 6 0 9) (ldwState (.ldwNb hd .b32 4 6 0 9) 5 0 63951) w k f h ∧ refreshing 0 (ldwState (.ldwNb hd .b32 4 6 0 9) 5 0 63951).time = true)
    ∧ ∃ w k f h, Alone (.ldwNb hd .b32 4 6 0 9) (ldwState (.ldwNb hd .b32 4 6 0 9) 5 0 63950) w k f h ∧ refreshing 0 (ldwState (.ldwNb hd .b32 4 6 0 9) 5 0 63950).time = false :=
  ⟨witness _ (by decide +kernel), witness _ (by decide +kernel), witness _ (by decide +kernel), witness _ (by decide +kernel), witness _ (by decide +kernel)⟩

/-- The parent of `hnarrow` in order, at the window's end and one byte beyond, and slots 0, 1 and one beyond the table. -/
def narrowState (handle len slot : Nat) : State :=
  let i : Instr := .hnarrow hd 4 6 8 10 31
  let s := memState i handle 96
  { s with fibres := s.fibres.map fun f => (f.setPair 8 (BitVec.ofNat 64 len)).setReg 10 (BitVec.ofNat 32 slot) }

theorem wit_hnarrow : (∃ w k f h, Alone (.hnarrow hd 4 6 8 10 31) (narrowState 0 0 1) w k f h ∧ (checked (narrowState 0 0 1) f (f.pair 6) 0 1 .read [0]).1 = 0x0103)
    ∧ (∃ w k f h, Alone (.hnarrow hd 4 6 8 10 31) (narrowState 1 4000 6) w k f h ∧ (f.pair 8).toNat + capOffset (f.pair 6) = 4096
        ∧ ((narrowState 1 4000 6).entry f.inHtbase 6).kind = 2)
    ∧ (∃ w k f h, Alone (.hnarrow hd 4 6 8 10 31) (narrowState 1 4001 6) w k f h ∧ 4096 < (f.pair 8).toNat + capOffset (f.pair 6))
    ∧ (∃ w k f h, Alone (.hnarrow hd 4 6 8 10 31) (narrowState 1 0 0) w k f h ∧ (f.reg 10).toNat = 0)
    ∧ ∃ w k f h, Alone (.hnarrow hd 4 6 8 10 31) (narrowState 1 0 1) w k f h ∧ ((narrowState 1 0 1).entry f.inHtbase 1).kind = 1 :=
  ⟨witness _ (by decide +kernel), witness _ (by decide +kernel), witness _ (by decide +kernel), witness _ (by decide +kernel), witness _ (by decide +kernel)⟩

/-- Fences at .fib, met and not met; `.acq` waits for reads. -/
theorem wit_fence : (∃ w k f h, Alone (.fence hd .sc .fib) (placed (.fence hd .sc .fib)) w k f h ∧ true = true)
    ∧ (∃ w k f h, Alone (.fence hd .rel .sys) (placed (.fence hd .rel .sys)) w k f h ∧ (placed (.fence hd .rel .sys)).releaseMet k .sys 0 = true)
    ∧ (∃ w k f h, Alone (.fence hd .sc .shf) { placed (.fence hd .sc .shf) with log := [openStore] } w k f h ∧ State.releaseMet { placed (.fence hd .sc .shf) with log := [openStore] } k .shf 0 = false)
    ∧ ∃ w k f h, Alone (.fence hd .acq .shf) { placed (.fence hd .acq .shf) with log := [{ openStore with kind := .read }] } w k f h
        ∧ ¬ ∀ e ∈ [{ openStore with kind := AccKind.read }], e.key = k → e.kind.reads = true → e.returned.isSome = true :=
  ⟨witness _ (by decide), witness _ (by decide), witness _ (by decide), witness _ (by decide)⟩

/-- `marm` of a place that is translated, of one that is missing, of one that failed, and without rights. -/
def marmOut (s : State) (f : Fibre) (h : Sheaf) : Option XOut :=
  match s.checkAccess f (f.pair 6) 0 4 .read [0, 2] with
  | .error _ => none
  | .ok (win, o) => some (s.translate f.core h.ctx win o false .load 0 false).1

theorem wit_marm : (∃ w k f h, Alone (.marm hd true .b32 4 6 0) (memState (.marm hd true .b32 4 6 0) 1 124) w k f h
      ∧ (marmOut (memState (.marm hd true .b32 4 6 0) 1 124) f h).any (fun o => match o with | .at _ _ _ => true | _ => false) = true)
    ∧ (∃ w k f h, Alone (.marm hd false .b32 4 6 0) (memState (.marm hd false .b32 4 6 0) 2 0) w k f h ∧ marmOut (memState (.marm hd false .b32 4 6 0) 2 0) f h = some (.wait (.extent 2 0 0x8080)))
    ∧ (∃ w k f h, Alone (.marm hd false .b32 4 6 0) (memState (.marm hd false .b32 4 6 0) 3 0) w k f h ∧ marmOut (memState (.marm hd false .b32 4 6 0) 3 0) f h = some .fail)
    ∧ ∃ w k f h, Alone (.marm hd false .b32 4 6 0) (memState (.marm hd false .b32 4 6 0) 4 0) w k f h ∧ marmOut (memState (.marm hd false .b32 4 6 0) 4 0) f h = none :=
  ⟨witness _ (by decide +kernel), witness _ (by decide +kernel), witness _ (by decide +kernel), witness _ (by decide +kernel)⟩

/-- `marm.q` on a bound register; `mwait` with no monitor, with one that has fired, with one that has not. -/
theorem wit_monitors : (∃ w k f h, Alone (.marmQ hd 15) (placedWith (.marmQ hd 15) id (bound 15 1) id) w k f h ∧ h.bind 15 = 1)
    ∧ (∃ w k f h, Alone (.marmQ hd 15) (placed (.marmQ hd 15)) w k f h ∧ h.bind 15 = 0)
    ∧ (∃ w k f h, Alone .mwait (placed .mwait) w k f h ∧ f.monitor = none)
    ∧ (∃ w k f h, Alone .mwait (placedWith .mwait (fun f => { f with monitor := some ⟨.queue 3, true⟩ }) id id) w k f h ∧ f.monitor.map (·.fired) = some true)
    ∧ (∃ w k f h, Alone .mwait (placedWith .mwait (fun f => { f with monitor := some ⟨.queue 3, false⟩ }) id id) w k f h ∧ f.monitor.map (·.fired) = some false ∧ f.uiEn = false)
    ∧ ∃ w k f h, Alone .mwait (placedWith .mwait (fun f => { f with monitor := some ⟨.queue 3, false⟩, uiEn := true, uiPend := true }) id id) w k f h ∧ f.uiEn = true ∧ f.uiPend = true :=
  ⟨witness _ (by decide), witness _ (by decide), witness _ (by decide), witness _ (by decide), witness _ (by decide), witness _ (by decide)⟩

/-- The caches of core 0 hold what an access through handle 4 needs (R288). -/
theorem wit_cached : (match State.resolve (cachedAt 4 (memState .nop 4 0)) 0x1000 8 4 with
    | .ok win => @decide (Cached (cachedAt 4 (memState .nop 4 0)) 0 1 win 0 false) (by unfold Cached; infer_instance)
    | .error _ => false) = true := by decide +kernel

/-! ## Hypotheses of the statements about barriers, sets and queue registers -/

/-- Object 3 of the placed sheaf. -/
def barState (i : Instr) (b : Barrier) (stook : Nat) (log : List Access) : State :=
  { placedWith i id (fun h => { h with bars := h.bars.set 3 b, stook }) id with log }
/-- An initialised object of one arrival at sheaf scope. -/
def bar1 : Barrier := { Barrier.initial with expect := 1, scope := 1, init := true }
/-- What object 3 holds, of the placed fibre's sheaf. -/
def bar3 (h : Sheaf) : Barrier := h.bars.getD 3 Barrier.initial

/-- Objects not initialised, with a byte pending, complete but for a byte, complete; and a cluster share whose partner is not
ready, and one whose partner is. -/
def clsState (ready : Bool) : State :=
  let b : Barrier := { bar1 with arrived := 1, scope := 2 }
  { State.reset with sheafs := [{ Sheaf.one 0 0 with stook := 2, bars := List.replicate 16 b }, { Sheaf.one 1 0 with index := 1, stook := 2, bars := List.replicate 16 { b with ready } }] }

theorem wit_phases : (∃ (s : State) (u n : Nat) (h : Sheaf) (b : Barrier), s.sheaf? u = some h ∧ h.bars[n]? = some b ∧ h.stook = 0 ∧ b.arrived = b.expect ∧ b.pending ≠ 0)
    ∧ (∃ (s : State) (u n : Nat) (h : Sheaf) (b : Barrier), s.sheaf? u = some h ∧ h.bars[n]? = some b ∧ b.scope ≠ 2 ∧ b.arrived = b.expect ∧ b.pending = 0
        ∧ ∃ (k : FKey) (f : Fibre), s.fib? k = some f ∧ f.cond = .waiting (.bwait n b.phase) ∧ k.sheaf = u)
    ∧ ∀ r, ∃ (u n : Nat) (h : Sheaf) (b : Barrier), (clsState r).sheaf? u = some h ∧ h.bars[n]? = some b ∧ b.scope = 2 ∧ h.stook ≠ 0 ∧ b.arrived = b.expect ∧ b.pending = 0
        ∧ ((clsState r).sheafs.map (·.uid)).Nodup
        ∧ (((clsState r).sheafs.filter fun g => g.launch == h.launch && g.index / h.stook == h.index / h.stook && g.uid != u).all fun g => (g.bars[n]?).any (·.ready)) = r :=
  ⟨⟨barState .nop { bar1 with arrived := 1, pending := 1 } 0 [], 0, 3, _, _, rfl, rfl, rfl, rfl, by decide⟩,
   ⟨{ barState .nop { bar1 with arrived := 1 } 0 [] with fibres := [{ fib0 with cond := .waiting (.bwait 3 0) }] }, 0, 3, _, _, rfl, rfl, by decide, rfl, rfl, ⟨0, 0⟩, _, rfl, rfl, rfl⟩,
   fun r => by cases r <;> exact ⟨0, 15, _, _, rfl, rfl, rfl, by decide, rfl, rfl, by decide, by decide⟩⟩

theorem wit_barrier_instructions :
    (∃ w k f h, Alone (.binit hd 3 0xFFFF 4) (barState (.binit hd 3 0xFFFF 4) { bar1 with pending := 1 } 0 []) w k f h ∧ (bar3 h).init = true ∧ (bar3 h).pending ≠ 0)
    ∧ (∃ w k f h, Alone (.binit hd 3 1 1) (placed (.binit hd 3 1 1)) w k f h ∧ (bar3 h).init = false)
    ∧ (∃ w k f h, Alone (.barr hd 3 4) (placed (.barr hd 3 4)) w k f h ∧ (bar3 h).init = false)
    ∧ (∃ w k f h, Alone (.barr hd 3 4) (barState (.barr hd 3 4) bar1 0 []) w k f h ∧ (bar3 h).init = true ∧ (barState (.barr hd 3 4) bar1 0 []).releaseMet k .shf 0 = true)
    ∧ (∃ w k f h, Alone (.barr hd 3 4) (barState (.barr hd 3 4) { bar1 with arrived := 1, pending := 5 } 0 []) w k f h ∧ (bar3 h).arrived = (bar3 h).expect)
    ∧ (∃ w k f h, Alone (.barr hd 3 4) (barState (.barr hd 3 4) bar1 0 [openStore]) w k f h ∧ (barState (.barr hd 3 4) bar1 0 [openStore]).releaseMet k .shf 0 = false)
    ∧ (∃ w k f h, Alone (.barx hd 3 4 6) { barState (.barx hd 3 4 6) bar1 0 [] with fibres := [regs [(7, 256)] fib0] } w k f h ∧ 2 ^ 40 ≤ (f.pair 6).toNat)
    ∧ (∃ w k f h, Alone (.barx hd 3 4 6) { barState (.barx hd 3 4 6) bar1 0 [] with fibres := [regs [(6, 0xFFFFFFFF), (7, 255)] fib0] } w k f h
        ∧ (f.pair 6).toNat = 2 ^ 40 - 1 ∧ (bar3 h).init = true)
    ∧ (∃ w k f h, Alone (.clswap hd 3 4) (placed (.clswap hd 3 4)) w k f h ∧ h.stook = 0)
    ∧ (∃ w k f h, Alone (.clswap hd 3 4) (barState (.clswap hd 3 4) bar1 2 []) w k f h ∧ h.stook ≠ 0 ∧ (bar3 h).scope ≠ 2)
    ∧ (∃ w k f h, Alone (.clswap hd 3 4) (barState (.clswap hd 3 4) { bar1 with scope := 2 } 2 []) w k f h ∧ h.stook ≠ 0 ∧ (bar3 h).init = true ∧ (bar3 h).scope = 2)
    ∧ (∃ w k f h, Alone (.bwait hd 3 4) (barState (.bwait hd 3 4) bar1 0 []) w k f h ∧ (bar3 h).init = true ∧ (bar3 h).phase = f.reg 4)
    ∧ (∃ w k f h, Alone (.bwait hd 3 4) (barState (.bwait hd 3 4) { bar1 with phase := 1 } 0 []) w k f h ∧ (bar3 h).init = true ∧ (bar3 h).phase ≠ f.reg 4)
    ∧ (∃ w k f h, Alone (.bwait hd 3 4) (placed (.bwait hd 3 4)) w k f h ∧ (bar3 h).init = false)
    ∧ (∃ w k f h, Alone (.bphase hd 4 3) (barState (.bphase hd 4 3) bar1 0 []) w k f h ∧ (bar3 h).init = true)
    ∧ ∃ w k f h, Alone (.bphaseCnt hd 4 3) (placed (.bphaseCnt hd 4 3)) w k f h ∧ (bar3 h).init = false :=
  ⟨witness _ (by decide), witness _ (by decide), witness _ (by decide), witness _ (by decide), witness _ (by decide), witness _ (by decide), witness _ (by decide),
   witness _ (by decide), witness _ (by decide), witness _ (by decide), witness _ (by decide), witness _ (by decide), witness _ (by decide), witness _ (by decide),
   witness _ (by decide), witness _ (by decide)⟩

/-! R137's set of five: its members are ranks 0–4, the fourth does not contribute. -/

/-- A member's execution. -/
def act (k : SetKind) (con : Bool) (a : Dword) (b : Word) : SetAct := { kind := k, contributes := con, dst := 8, a, b, c := 0xFFFFFFFF, bit := 0, word := 0 }
/-- The five executions. -/
def five (k : SetKind) (b : Word) : List SetAct := [act k true 10 b, act k true 20 b, act k true 30 b, act k false 40 b, act k true 50 b]

/-- The table of R137: the sum, the inclusive scan and the rotation by one, of ranks 0, 1, 2 and 4. -/
theorem test_set_example :
    [0, 1, 2, 4].map (fun r => ((five (.red .add .s32) 0)[r]?).bind (setResult (five (.red .add .s32) 0) r)) = List.replicate 4 (some (.s32, 110))
    ∧ [0, 1, 2, 4].map (fun r => ((five (.scan .add false .s32) 0)[r]?).bind (setResult (five (.scan .add false .s32) 0) r))
        = [some (.s32, 10), some (.s32, 30), some (.s32, 60), some (.s32, 110)]
    ∧ [0, 1, 2, 4].map (fun r => ((five (.shfl .rot .b32) 1)[r]?).bind (setResult (five (.shfl .rot .b32) 1) r))
        = [some (.b32, 20), some (.b32, 30), some (.b32, 0xFFFFFFFF), some (.b32, 10)] := by decide

/-- R134's example: `sshfl.rev` in groups of four of a set of six. -/
theorem test_shfl_rev :
    let ms := (List.range 6).map fun n => act (.shfl .rev .b32) true (BitVec.ofNat 64 n) 4
    (List.range 6).map (fun r => (ms[r]?).bind (setResult ms r)) = [some (.b32, 3), some (.b32, 2), some (.b32, 1), some (.b32, 0), some (.b32, 0xFFFFFFFF), some (.b32, 0xFFFFFFFF)] := by decide

theorem wit_set_results : (∃ (ms : List SetAct) (k : Nat) (x : SetAct), ms[k]? = some x ∧ x.contributes = true ∧ ∃ y : SetAct, ms[k + 1]? = some y ∧ y.contributes = true)
    ∧ (∃ (ms : List SetAct) (k : Nat) (x : SetAct), ms[k]? = some x ∧ x.contributes = true ∧ ∃ y : SetAct, ms[k + 1]? = some y ∧ y.contributes = false)
    ∧ (∃ ms : List SetAct, ms.length ≤ 2048 ∧ ∃ x, ms[4]? = some x ∧ x.kind = .vote .first)
    ∧ (∃ (ms : List SetAct) (x : SetAct), ms[0]? = some x ∧ x.kind = .scan .min true .s64 ∧ ∀ y ∈ ms.take 0, y.contributes = false)
    ∧ ∃ (ms : List SetAct) (x : SetAct), ms[1]? = some x ∧ x.kind = .scan .xor true .b32 ∧ ∃ y ∈ ms.take 1, y.contributes = true :=
  ⟨⟨five (.red .add .s32) 0, 0, _, rfl, rfl, _, rfl, rfl⟩, ⟨five (.red .and .b32) 0, 2, _, rfl, rfl, _, rfl, rfl⟩, ⟨five (.vote .first) 0, by decide, _, rfl, rfl⟩,
   ⟨five (.scan .min true .s64) 0, _, rfl, rfl, by simp⟩, ⟨five (.scan .xor true .b32) 0, _, rfl, rfl, _, List.mem_singleton.mpr rfl, rfl⟩⟩

/-- The placed fibre's sheaf with set 5, of the given members. -/
def setState (i : Instr) (lock : Bool) (fids : List Nat) (log : List Access) : State :=
  { placedWith i id (fun h => { h with sets := [{ id := 5, lock, members := fids.map fun n => { fid := n, acts := [] } }] }) id with log }
/-- Set 5 of a sheaf, with its kind and members. -/
def set5 (h : Sheaf) : Option (Bool × List Nat) := (h.set? 5).map fun j => (j.lock, j.members.map (·.fid))

theorem wit_set_instructions :
    (∃ w k f h, Alone (.sred hd .add .s32 4 6 5) (setState (.sred hd .add .s32 4 6 5) false [1] []) w k f h ∧ set5 h = some (false, [1]) ∧ k.fid = 0)
    ∧ (∃ w k f h, Alone (.sscan hd .add true .s32 4 6 5) (setState (.sscan hd .add true .s32 4 6 5) false [0, 1] []) w k f h ∧ set5 h = some (false, [0, 1]) ∧ k.fid = 0)
    ∧ (∃ w k f h, Alone (.svote hd .mask 4 6 0 63 5) (setState (.svote hd .mask 4 6 0 63 5) true [0, 4] []) w k f h ∧ set5 h = some (true, [0, 4]) ∧ k.fid = 0)
    ∧ (∃ w k f h, AloneAt .skip (.sshfl ⟨some ⟨false, 9, 0⟩, 0⟩ .rank .b32 4 6 7 8 5) (setState (.sshfl ⟨some ⟨false, 9, 0⟩, 0⟩ .rank .b32 4 6 7 8 5) false [0, 1] []) w k f h
        ∧ decide (set5 h = some (false, [0, 1])) = true)
    ∧ (∃ w k f h, AloneAt .skip (.sbar ⟨some ⟨false, 9, 0⟩, 0⟩ 5) (setState (.sbar ⟨some ⟨false, 9, 0⟩, 0⟩ 5) true [0] []) w k f h ∧ decide (set5 h = some (true, [0])) = true)
    ∧ (∃ w k f h, AloneAt .skip (.sbar ⟨some ⟨false, 9, 0⟩, 0⟩ 5) (setState (.sbar ⟨some ⟨false, 9, 0⟩, 0⟩ 5) true [0, 4] []) w k f h ∧ decide (set5 h = some (true, [0, 4])) = true)
    ∧ (∃ w k f h, Alone (.sred hd .xor .b32 4 6 5) (setState (.sred hd .xor .b32 4 6 5) true [0] []) w k f h ∧ set5 h = some (true, [0]) ∧ k = ⟨0, 0⟩ ∧ w.members = [k])
    ∧ (∃ w k f h, Alone (.sbar hd 5) (setState (.sbar hd 5) false [0] []) w k f h ∧ set5 h = some (false, [0]) ∧ (setState (.sbar hd 5) false [0] []).releaseMet k .shf 0 = true)
    ∧ (∃ w k f h, Alone (.sbar hd 5) (setState (.sbar hd 5) true [0] []) w k f h ∧ set5 h = some (true, [0]))
    ∧ (∃ w k f h, Alone (.sbar hd 5) (setState (.sbar hd 5) true [0, 4] []) w k f h ∧ set5 h = some (true, [0, 4]))
    ∧ (∃ w k f h, Alone (.sbar hd 5) (setState (.sbar hd 5) false [0] [openStore]) w k f h ∧ (setState (.sbar hd 5) false [0] [openStore]).releaseMet k .shf 0 = false)
    ∧ ∃ w k f h, Alone (.sbar hd 5) (placed (.sbar hd 5)) w k f h ∧ set5 h = none :=
  ⟨witness _ (by decide), witness _ (by decide), witness _ (by decide), alone_of (by decide), alone_of (by decide), alone_of (by decide), witness _ (by decide), witness _ (by decide),
   witness _ (by decide), witness _ (by decide), witness _ (by decide), witness _ (by decide)⟩

/-- A set both of whose members have executed: alike, and not alike. -/
def matchState (k : SetKind) : State :=
  { placedWith .nop id (fun h => { h with sets := [{ id := 5, lock := false, members := [{ fid := 0, acts := [act (.red .add .s32) true 1 0] }, { fid := 1, acts := [act k true 2 0] }] }] }) id with
    fibres := [{ fib0 with cond := .held (.set 5) }, { fib0 with key := ⟨0, 1⟩, cond := .held (.set 5) }] }

theorem wit_set_match : ∀ k ∈ [SetKind.red .add .s32, SetKind.red .add .z32], ∃ (h : Sheaf) (js : JoinSet), (matchState k).sheaf? 0 = some h ∧ h.set? 5 = some js ∧ js.lock = false ∧ js.upset = none ∧ js.members ≠ []
    ∧ (∀ m ∈ js.members, m.acts ≠ []) ∧ (js.members.map (·.fid)).Nodup ∧ h.priv = false := by
  intro k hk
  simp only [List.mem_cons, List.not_mem_nil, or_false] at hk
  rcases hk with rfl | rfl <;> exact ⟨_, _, rfl, rfl, rfl, rfl, by decide, by decide, by decide, rfl⟩

/-- `sjoin` of a free identifier, of the other kind, of a member's own set, of a lockstep set on its own lane or of another quadrant, with
an instruction pending, and of a set it may join; a set of 32. -/
theorem wit_joins :
    (∃ w k f h, Alone (.sjoin hd true 4 5) (placed (.sjoin hd true 4 5)) w k f h ∧ set5 h = none)
    ∧ (∃ w k f h, Alone (.sjoin hd true 4 5) (setState (.sjoin hd true 4 5) false [4] []) w k f h ∧ set5 h = some (false, [4]))
    ∧ (∃ w k f h, Alone (.sjoin hd false 4 5) (setState (.sjoin hd false 4 5) false [0] []) w k f h ∧ set5 h = some (false, [0]) ∧ k.fid = 0)
    ∧ (∃ w k f h, Alone (.sjoin hd true 4 5) (setState (.sjoin hd true 4 5) true [128] []) w k f h ∧ set5 h = some (true, [128]) ∧ k.fid = 0)
    ∧ (∃ w k f h, Alone (.sjoin hd true 4 5) (setState (.sjoin hd true 4 5) true [5] []) w k f h ∧ set5 h = some (true, [5]) ∧ k.fid = 0)
    ∧ (∃ w k f h, Alone (.sjoin hd true 4 5) (setState (.sjoin hd true 4 5) true ((List.range 32).map fun n => 4 * (n + 1)) []) w k f h ∧ ((h.set? 5).map fun j => j.members.length) = some 32)
    ∧ (∃ w k f h, Alone (.sjoin hd true 4 5) (setState (.sjoin hd true 4 5) true [4] []) w k f h ∧ set5 h = some (true, [4]) ∧ k.fid = 0)
    ∧ (∃ w k f h, Alone (.sjoin hd false 4 5) { setState (.sjoin hd false 4 5) false [1] [] with sheafs := [{ Sheaf.one 0 0 with
        sets := [{ id := 5, lock := false, members := [{ fid := 1, acts := [act .bar true 0 0] }] }] }] } w k f h ∧ ((h.set? 5).map fun j => j.members.any fun m => m.acts != []) = some true)
    ∧ (∃ w k f h, Alone (.sleave hd 5) (setState (.sleave hd 5) true [0] []) w k f h ∧ set5 h = some (true, [0]))
    ∧ ∃ w k f h, Alone (.sleave hd 5) (setState (.sleave hd 5) true [4] []) w k f h ∧ set5 h = some (true, [4]) :=
  ⟨witness _ (by decide), witness _ (by decide), witness _ (by decide), witness _ (by decide), witness _ (by decide), witness _ (by decide), witness _ (by decide), witness _ (by decide),
   witness _ (by decide), witness _ (by decide)⟩

/-- Queue registers bound to the copy engine, the receive engine, the mailboxes, the service queue and the distributor, and unbound. -/
theorem wit_queues : (∀ b ∈ [1, 2, 3, 4, 5, 6], ∃ w k f h, Alone (.qpush hdA false 2 16 5) (placedWith (.qpush hdA false 2 16 5) id (bound 2 b) id) w k f h ∧ h.bind 2 = b)
    ∧ (∃ w k f h, Alone (.qpush hdA false 2 16 5) (placed (.qpush hdA false 2 16 5)) w k f h ∧ h.bind 2 = 0)
    ∧ (∃ w k f h, Alone (.qpush hd true 2 240 5) { placedWith (.qpush hd true 2 240 5) id (bound 2 3) id with log := [openStore] } w k f h
        ∧ State.releaseMet { placedWith (.qpush hd true 2 240 5) id (bound 2 3) id with log := [openStore] } k .pkg 1 = false)
    ∧ (∃ w k f h, Alone (.qpop hd 8 2 5) (placedWith (.qpop hd 8 2 5) id (bound 2 1) id) w k f h ∧ h.bind 2 ≠ 0)
    ∧ (∃ w k f h, Alone (.qpop hd 8 2 5) (placed (.qpop hd 8 2 5)) w k f h ∧ h.bind 2 = 0)
    ∧ (∃ w k f h, Alone (.qstat hd 4 2) (placedWith (.qstat hd 4 2) id (bound 2 2) id) w k f h ∧ h.bind 2 ≠ 0)
    ∧ (∃ w k f h, Alone (.svc hd 252 7) (placed (.svc hd 252 7)) w k f h ∧ (placed (.svc hd 252 7)).batches = [] ∧ (placed (.svc hd 252 7)).releaseMet k .sys 0 = true)
    ∧ ∃ w k f h, Alone (.svc hd 252 7) { placed (.svc hd 252 7) with log := [openStore] } w k f h ∧ State.releaseMet { placed (.svc hd 252 7) with log := [openStore] } k .sys 0 = false := by
  refine ⟨fun b hb => ?_, witness _ (by decide), witness _ (by decide), witness _ (by decide), witness _ (by decide), witness _ (by decide), witness _ (by decide), witness _ (by decide)⟩
  simp only [List.mem_cons, List.not_mem_nil, or_false] at hb
  rcases hb with rfl | rfl | rfl | rfl | rfl | rfl <;> exact witness _ (by decide)

/-! ## Hypotheses of the statements about queue endpoints, completions, releases and the home -/

/-- The placed fibre and sheaf of context 1, registers 1–6 bound to endpoints 1–6. -/
def ctxState : State :=
  let s := placedWith .nop (fun f => { f with inHtbase := 0x1000, inHtlen := 8 })
    (fun h => { h with ctx := 1, granules := 1, queues := h.queues.zipIdx.map fun q => { q.1 with bind := q.2 % 7 } }) (fun l => { l with ctx := 1 })
  { s with ctxs := [ctxOne], parts := [partOne], boot := activeBoot }
def sheaf0 (s : State) : Sheaf := (s.sheaf? 0).getD (Sheaf.one 0 0)
/-- The device is ready. -/
def ready8 (s : State) : State := { s with boot := { s.boot with stage := 8 } }
/-- A unit with MOP 0x01 whose fields are right, one that only recovery takes, and one with an unknown MOP. -/
def mopUnit (mop : Nat) : BitVec 512 := BitVec.ofNat 512 mop

theorem wit_offers :
    (ctxState.freeOut (sheaf0 ctxState) 1 ≠ 0 ∧ ctxState.freeOut (sheaf0 ctxState) 3 ≠ 0 ∧ ctxState.freeOut (sheaf0 ctxState) 4 ≠ 0
      ∧ ctxState.freeOut (sheaf0 ctxState) 5 ≠ 0 ∧ ctxState.freeOut (sheaf0 ctxState) 6 ≠ 0)
    ∧ (List.range 8).map (fun q => (sheaf0 ctxState).bind q) = [0, 1, 2, 3, 4, 5, 6, 0]
    ∧ State.freeOut { ctxState with ctxs := [{ ctxOne with mail0 := { Mailbox.fresh with d2hAccepted := 64 } }] } (sheaf0 ctxState) 3 = 0
    ∧ mopReject ((mopUnit 0x80).setWidth 256) ≠ 0
    ∧ (mopReject ((mopUnit 0x06).setWidth 256) = 0 ∧ ctxState.takesMop (uMop ((mopUnit 0x06).setWidth 256)) = false
        ∧ (ready8 ctxState).takesMop (uMop ((mopUnit 0x06).setWidth 256)) = true)
    ∧ (match ctxState.checkUnit 1 0 false (sheaf0 ctxState) with | .error _ => true | .ok _ => false) = true := by decide +kernel

/-- A batch of one lane that has released, and a group waiting at the service queue for room. -/
def batchState : State :=
  { ctxState with
    fibres := ctxState.fibres.map fun f => { f with cond := .held (.svc 9) }
    batches := [{ id := 9, num := 3, pc := 8, lanes := [(⟨0, 0⟩, 0, true)] }] }
theorem wit_batches :
    ((batchState.batches.find? (·.id == 9)).any fun b => b.lanes.all (fun m => m.2.2) && (b.lanes.map (·.1)).length == 1) = true
    ∧ (batchState.fib? ⟨0, 0⟩).isSome = true ∧ batchState.svcRoom 0 2 = true
    ∧ (let s := { ctxState with svc := [{ die := 0, entries := [], waiting := [[⟨0, false⟩]], owed := [] }] }
       (s.svcQ 0).waiting = [[⟨0, false⟩]] ∧ (s.svcQ 0).taken + 1 ≤ 1024) := by decide +kernel

/-- Operation 7 of the placed fibre. -/
def mo (kind : OpKind) (loc : Loc) : MemOp := { MemOp.blank 7 State.reset fib0 kind .s32 with loc, val := 5, dst := some 4, dst2 := some 5 }
/-- The state with the operation outstanding and line 0 in the L2 of die 0 in state `st`. -/
def opState (o : MemOp) (st : Option LineSt) : State :=
  { ctxState with
    ops := [o]
    coh := { ctxState.coh with l2 := match st with
      | some st => [{ die := 0, line := 0, st, data := leBytes 128 0x80000001, acks := [], way := 0, age := 0, cls := 0, l1 := [], iv := 0 }]
      | none => [] } }
/-- Operation 7 is outstanding and ready, and `q` holds of it. -/
def readyOp (s : State) (q : MemOp → Bool) : Bool := (s.op? 7).any fun o => s.opReady o && q o
/-- Its line is not bad, and the L2's copy is as asked. -/
def atLine (s : State) (st : Option LineSt) (o : MemOp) : Bool :=
  o.loc.line? == some 0 && !s.badLine 0 && !s.xlatLine 0 && !s.requested 0 0 && decide (s.ingress 0 < 128) && (s.l2? 0 0).map (·.st) == st

theorem wit_line_operations :
    readyOp (opState (mo .ld (.dev 0)) (some .s)) (atLine (opState (mo .ld (.dev 0)) (some .s)) (some .s)) = true
    ∧ readyOp (opState (mo .ld (.dev 124)) none) (atLine (opState (mo .ld (.dev 124)) none) none) = true
    ∧ readyOp (opState (mo .st (.dev 124)) (some .e)) (atLine (opState (mo .st (.dev 124)) (some .e)) (some .e)) = true
    ∧ readyOp (opState (mo .st (.dev 0)) (some .o)) (atLine (opState (mo .st (.dev 0)) (some .o)) (some .o)) = true
    ∧ readyOp (opState (mo (.atom .add) (.dev 0)) (some .m)) (fun o => atLine (opState (mo (.atom .add) (.dev 0)) (some .m)) (some .m) o
        && o.atL2 && !o.homeDone && o.kind.isRmw && decide ((opState (mo (.atom .add) (.dev 0)) (some .m)).groupOf o = [o])) = true := by decide +kernel

/-- The results the rules give: the loaded word sign-extended, the store's bytes, the sum. -/
def after (o : MemOp) (st : Option LineSt) : Option (Dword × List Byte) :=
  match exec (.longLatencyComplete 7) (opState o st) with
  | .next t => match t.fib? ⟨0, 0⟩, t.l2? 0 0 with | some f, some x => some (f.pair 4, x.data.take 5) | _, _ => none
  | _ => none
theorem test_operations_performed : after (mo .ld (.dev 0)) (some .s) = some (0x80000001, [1, 0, 0, 128, 0])
    ∧ after { mo .st (.dev 1) with size := 2 } (some .m) = some (0, [1, 5, 0, 128, 0])
    ∧ after (mo (.atom .add) (.dev 0)) (some .m) = some (0x80000001, [6, 0, 0, 128, 0]) := by decide +kernel

theorem wit_other_operations :
    readyOp (opState (mo .lds (.scratch 0 false 16)) none) (fun _ => ((opState (mo .lds (.scratch 0 false 16)) none).sheaf? 0).isSome) = true
    ∧ readyOp (opState (mo .sts (.scratch 0 false 16)) none) (fun _ => ((opState (mo .sts (.scratch 0 false 16)) none).sheaf? 0).isSome) = true
    ∧ readyOp (opState (mo .ld (.hostPa 64)) none) (fun _ => true) = true ∧ readyOp (opState (mo .st (.hostPa 64)) none) (fun _ => true) = true
    ∧ readyOp (opState (mo .ld (.regs 0)) none) (fun _ => true) = true
    ∧ (readyOp (opState { mo .ldw (.weight 0 4096) with roff := 4096 } none) (fun o => !((opState (mo .ldw (.weight 0 4096)) none).time / 1000 % 64 == o.roff / 4096 % 64)
        && !(opState (mo .ldw (.weight 0 4096)) none).rel.qmask.getLsbD 0 && !(opState (mo .ldw (.weight 0 4096)) none).badBytes o.loc o.size) = true)
    ∧ readyOp (opState (mo .ldw (.weight 0 0)) none) (fun o => (opState (mo .ldw (.weight 0 0)) none).time / 1000 % 64 == o.roff / 4096 % 64) = true := by decide +kernel
theorem wit_other_operations_mem : MemInv (opState (mo .sts (.scratch 0 false 16)) none) ∧ MemInv (opState (mo .st (.hostPa 64)) none) := ⟨rfl, rfl⟩

/-- An endpoint's entry waits at queue register 1. -/
def inbState (o : MemOp) : State :=
  let s := opState o none
  { s with sheafs := s.sheafs.map fun h => { h with queues := h.queues.set 1 { bind := 1, inb := [0xABCD, 1], inHeld := [], served := 0, stained := [] } } }
theorem wit_queue_operations :
    (∀ o ∈ [{ mo .qpush .unbacked with queue := 1 }, { mo .qpush .unbacked with queue := 5 }], readyOp (opState o none) (fun o =>
      let s := opState o none
      !s.ctxFrozen 1 && s.laneTurn o && decide (((sheaf0 s).bind o.queue) ≠ 6) && o.dst2.isSome && decide (o.kind = .qpush)) = true)
    ∧ readyOp (opState { mo .qpop .unbacked with queue := 1, size := 8 } none) (fun o => decide (((sheaf0 ctxState).queues[o.queue]?).map (·.inb) = some [])) = true
    ∧ readyOp (inbState { mo .qpop .unbacked with queue := 1, size := 8 }) (fun o => decide (o.kind = .qpop) && decide (((sheaf0 ctxState).bind o.queue) = 1)) = true
    ∧ ((sheaf0 (inbState (mo .qpop .unbacked))).queues[1]?).map (fun r => (r.inb, r.inHeld)) = some ([0xABCD, 1], []) := by decide +kernel

/-- The placed fibre held at a release, its store performed or not. -/
def heldState (sc : Scope) (act : RelAct) (log : List Access) : State :=
  let s := barState .nop bar1 0 log
  { s with
    fibres := s.fibres.map (fun f => { f with cond := .held (.release sc act 0) }) ++ [{ Fibre.initial ⟨0, 1⟩ 0 0 0 256 8 0 with cond := .held .spawn }]
    ops := [{ mo .st (.dev 0) with released := false }]
    sheafs := s.sheafs.map fun h => { h with sets := [{ id := 2, lock := false, members := [{ fid := 0, acts := [] }] }] }
    batches := [{ id := 9, num := 3, pc := 8, lanes := [(⟨0, 0⟩, 0, false)] }] }
/-- Its conditions hold. -/
def heldMet (s : State) : Bool :=
  (s.fib? ⟨0, 0⟩).any fun f => match f.cond with
    | .held (.release sc act _) => (s.releaseViolation f.key).isNone && !(sheaf0 s).saved && (match act with
      | .fence .acq => s.readsBack f.key
      | .fence _ => s.releaseMet f.key sc 0
      | _ => s.releaseMet f.key sc (act.op?.getD 0))
    | _ => false
theorem wit_releases :
    (∀ act ∈ [RelAct.fence .sc, .fence .acq, .access 7, .push 7, .arrive 3 0 false 4, .svc 9, .sbar 2, .spawn 1], heldMet (heldState .pkg act []) = true)
    ∧ heldMet (heldState .pkg (.fence .sc) [openStore]) = false ∧ heldMet (heldState .pkg (.fence .acq) [{ openStore with kind := .read }]) = false
    ∧ ((heldState .pkg (.arrive 3 0 false 4) []).op? 7).isSome = true ∧ ((sheaf0 (heldState .pkg (.arrive 3 0 false 4) [])).set? 2).isSome = true
    ∧ ((sheaf0 (heldState .pkg (.arrive 3 0 false 4) [])).bars[3]?).any (fun b => decide (b.arrived ≠ b.expect)) = true
    ∧ ((heldState .pkg (.spawn 1) []).fib? ⟨0, 1⟩).any (fun g => decide (g.cond = .held .spawn)) = true := by decide +kernel
/-- An arrival held while the object became complete but for a byte. -/
theorem wit_release_overrun :
    let s := { heldState .pkg (.arrive 3 0 false 4) [] with sheafs := (barState .nop { bar1 with arrived := 1, pending := 1 } 0 []).sheafs }
    heldMet s = true ∧ ((sheaf0 s).bars[3]?).any (fun b => decide (b.arrived = b.expect)) = true := by decide +kernel

/-- Line 0 is a translation line; an atomic of system scope at line 0, a copy of which die 0 holds or not. -/
def homeState (o : MemOp) (st : Option LineSt) (xlat : Bool) : State :=
  let s := opState o st
  { s with coh := { s.coh with dir := [{ line := 0, st := if st.isSome then .shared else .uncached, owner := 0, sharers := [0], xlat, interval := 0, writer := none, shut := false }] } }
theorem wit_home :
    readyOp (homeState (mo .hnarrow (.dev 0)) none true) (fun o => let s := homeState (mo .hnarrow (.dev 0)) none true
      o.loc.line? == some 0 && !o.homeDone && !s.xlatBusy 0 o && !s.remoteHeld 0 && !s.badLine 0 && s.lineReady 0 true false) = true
    ∧ readyOp (homeState (mo .st (.dev 0)) none true) (fun o => let s := homeState (mo .st (.dev 0)) none true
      s.xlatLine 0 && !s.xlatBusy 0 o && !s.remoteHeld 0 && !s.badLine 0 && s.lineReady 0 true false) = true
    ∧ readyOp (homeState (mo (.atom .add) (.dev 0)) none true) (fun o => let s := homeState (mo (.atom .add) (.dev 0)) none true
      s.xlatLine 0 && !s.xlatBusy 0 o && s.lineReady 0 true false && decide (s.groupOf o = [o])) = true
    ∧ (∀ st ∈ [none, some LineSt.s], readyOp (homeState { mo (.atom .add) (.dev 0) with sc := .sys } st false) (fun o =>
        let s := homeState { mo (.atom .add) (.dev 0) with sc := .sys } st false
        o.kind.isRmw && !o.atL2 && !s.xlatLine 0 && !s.badLine 0 && !s.remoteHeld 0 && !s.lineBusy 0 && !s.hostQueued 0 && s.coh.reqs == [] && decide (s.sliceMisses 0 < 64) && s.coh.mshr.isEmpty && decide (s.groupOf o = [o]) && lineSpace 0 == 0
          && (s.coh.l2.any (·.line == 0) == st.isSome)) = true) := by decide +kernel

/-- An atomic whose turn has not come: an earlier request to the line waits, and its recall has not begun. -/
theorem wit_home_turn : let s0 := homeState { mo (.atom .add) (.dev 0) with sc := .sys } none false
    let s : State := { s0 with coh := { s0.coh with reqs := [⟨1, 0, .read, 0, .none⟩] } }
    readyOp s (fun o => !o.recalling && o.kind.isRmw && !o.atL2 && s.groupOf o == [o] && s.coh.reqs.any (·.line == 0)) = true := by decide +kernel

/-- A side-log entry whose extent is present now (object 1 of the tables) or has failed (object 3). -/
def logState (obj : Nat) : State :=
  let s := memTables ctxState
  { s with side := [{ core := 0, ctx := 1, obj := BitVec.ofNat 64 obj, ext := 0, space := 0, home := 0, on := .extent (BitVec.ofNat 64 obj) 0 (0x8000 + 128 * (obj - 1)), op := { mo .st .unbacked with obj := BitVec.ofNat 64 obj } }] }
/-- The extent is still watched. -/
def watching (s : State) : State := { s with coh := { s.coh with watched := [⟨0, 2, 0, 0x8080⟩] } }
theorem wit_side_log :
    ((logState 1).side.filter (·.core == 0)).find? (logState 1).mayReplay = (logState 1).side[0]?
    ∧ ((logState 3).side.filter (·.core == 0)).find? (logState 3).mayReplay = (logState 3).side[0]?
    ∧ ((watching (logState 2)).side.filter (·.core == 0)).find? (watching (logState 2)).mayReplay = none
    ∧ (logState 2).answered (.extent 2 0 0x8080) = true ∧ (watching (logState 2)).answered (.extent 2 0 0x8080) = false := by decide +kernel
/-- The entry is the core's only one, its extent is cached, and its lookup finds device memory. -/
theorem wit_side_log_cached : (let s := { logState 1 with xc := [⟨0, some 0, 1, false, 1, 0, false, []⟩] }
    s.side.all fun e => decide (s.side.filter (·.core == 0) = [e]) && !s.keptAside e.op.key && s.answered e.on && decide (s.extOf e.ctx e.root e.op.roff = 0)
      && decide (e.obj = 1) && (match s.lookup e.ctx e.root e.op.roff false with | .at (.dev _) _ => true | _ => false)) = true := by decide +kernel
theorem wit_side_log_entry : ((logState 1).side.all fun e => decide ((logState 1).side.filter e.with = [e])
    && (match (logState 1).lookup e.ctx e.root e.op.roff false with | .at (.dev p) _ => p == 0x100000 | _ => false)) = true := by decide +kernel

/-! ## Hypotheses of the statements about the matrix unit, issue, launches, placement and contexts -/

/-- A matrix instruction's fibre with a shape of m × n × k in v10; `aclr` of 4 rows of 4 words. -/
def matState (i : Instr) (shp : Nat) (pair : Bool) : State :=
  let s := placedWith i (regs [(10, BitVec.ofNat 32 shp), (4, 0), (6, 1024), (20, 2048), (12, 64), (13, 64)]) (fun h => { h with granules := 4, ctx := 1 }) (fun l => { l with ctx := 1 })
  { s with ctxs := [ctxOne], parts := [if pair then { partOne with cores := [0] } else partOne], boot := activeBoot }
/-- 3 × 4 × 32. -/
def shape : Nat := 3 + 4 * 2 ^ 8 + 32 * 2 ^ 16
/-- What a matrix instruction's elected fibre does. -/
def matMeets (i : Instr) (s : State) (q : Except TrapInfo (Option MatOp) → Bool) : Bool :=
  match matrixOf i, s.issue with
  | some (_, mk), some is => match s.warp? is.core is.quad is.slot with
    | some w => match w.members with
      | [k] => match s.fib? k, s.sheaf? k.sheaf with
        | some f, some h => is.upset == none && State.mayIssue { s with issue := none } i w && s.sideFits i w && decide (preCheck i f h = .run) && q (mk f h s.uid (atInstr i s w k))
        | _, _ => false
      | _ => false
    | none => false
  | _, _ => false
def isOp : Except TrapInfo (Option MatOp) → Bool | .ok (some _) => true | _ => false
def isNone : Except TrapInfo (Option MatOp) → Bool | .ok none => true | _ => false
def isTrap (c : Nat) : Except TrapInfo (Option MatOp) → Bool | .error t => t.code.toNat == c | _ => false

theorem wit_matrix_instructions :
    (∀ x ∈ [(Instr.mma 1 false (mmaOps .bf16 true), shape), (.mma 1 true (mmaOps .f16 true), shape), (.mmaBp 0 (mmaOps .s8 true), shape), (.scacc 0 false .s32 4 6 8 9 10 16 16, 3 + 4 * 2 ^ 8), (.aclr 0 4 128 4 1, 0)],
      matMeets x.1 (matState x.1 x.2 false) isOp = true)
    ∧ matMeets (.mma 0 false (mmaOps .s8 true)) (matState (.mma 0 false (mmaOps .s8 true)) (shape - 3) false) isNone = true
    ∧ matMeets (.mma 0 false (mmaOps .s8 true)) (matState (.mma 0 false (mmaOps .s8 true)) (shape + 126) false) (isTrap 0x010E) = true
    ∧ matMeets (.mma 0 true (mmaOps .s8 true)) (matState (.mma 0 true (mmaOps .s8 true)) shape true) (isTrap 0x010D) = true
    ∧ (∃ w k f h, Alone (.mprog 4) (matState (.mprog 4) shape false) w k f h ∧ ((matState (.mprog 4) shape false).matQ f.core).filter (·.sheaf == k.sheaf) = []) :=
  ⟨by decide +kernel, by decide +kernel, by decide +kernel, by decide +kernel, witness _ (by decide)⟩

/-- An operation of the placed sheaf at the head of the queue of core 0. -/
def matOne (kind : MatKind) : MatOp := { MatOp.new 9 (matState .nop 0 false) fib0 kind .s8 3 4 32 with acs := 16, sa := 32, sb := 4, a := .scratch 1024, pst := 16, counted := [(⟨0, 0⟩, [])] }
def matHeadState (o : MatOp) : State := { matState .nop 0 false with matq := [o] }
/-- 32 rows of 4 bytes, each 1, as the operand buffer. -/
def onesB : List Byte := List.replicate 128 1
theorem wit_matrix_operations :
    (∀ o ∈ [matOne .mma, { matOne .mma with pair := true }, { matOne .mma with pair := true, claimed := true }, { matOne .mma with started := true, row := 3 },
        { matOne .aclr with started := true, row := 2 }, { matOne (.scacc false) with started := true }, { matOne .mma with started := true, bbuf := some onesB }],
      ((matHeadState o).matHead 0 == some o && ((matHeadState o).sheaf? o.sheaf).isSome && ((matHeadState o).matQ 1 == [])
        && !(matHeadState o).lostFollower o && (matHeadState o).matOrdered o && !(matHeadState o).rowPoisoned o && decide (o.n ≤ 128)) = true)
    ∧ (let o := { matOne .mmaBp with ty := .s8, started := true, bbuf := some onesB }
       onesB.length = o.k * o.rb ∧ 0 < o.rb ∧ (matHeadState o).scratchBad o.sheaf (1024 + o.row * o.sa) (rowBytes o.kind o.n o.k).1 = false)
    ∧ ({ matHeadState { matOne .mma with pair := true, claimed := true } with matq := [{ matOne .mma with pair := true, claimed := true }, { matOne .mma with id := 10, core := 1 }] }).matQ 1 ≠ [] := by decide +kernel
theorem wit_matrix_operations_mem : MemInv (matHeadState (matOne .aclr)) := rfl
theorem wit_mprog : ∃ w k f h, Alone (.mprog 4) { matState (.mprog 4) 0 false with matq := [{ matOne .mma with row := 2, started := true }] } w k f h
    ∧ (State.matQ { matState (.mprog 4) 0 false with matq := [{ matOne .mma with row := 2, started := true }] } f.core).filter (·.sheaf == k.sheaf) = [{ matOne .mma with row := 2, started := true }] :=
  witness _ (by decide)

/-- Row 0 of a 3 × 4 × 32 product of ones (A is 32 bytes of 1) is 32; `mprog` reads two rows of three done. -/
def onesState : State :=
  let s : State := matHeadState { matOne .mma with ty := .s8, kind := .mmaBp, started := true, bbuf := some (List.replicate 128 1) }
  s.rawWrite (.scratch 0 false 1024) (List.replicate 32 1)
theorem test_matrix_row : (match exec (.matrixRowComplete 0 .pass) onesState with
    | .next t => (t.rawRead (.scratch 0 false 0) 16, t.matq.map (·.row))
    | _ => ([], [])) = ([32, 0, 0, 0, 32, 0, 0, 0, 32, 0, 0, 0, 32, 0, 0, 0], [1]) := by decide +kernel
theorem test_mprog : (match exec (.mprog 4) { matState (.mprog 4) 0 false with matq := [{ matOne .mma with row := 2, started := true }] } with
    | .next t => (t.fib? ⟨0, 0⟩).map (·.reg 4)
    | _ => none) = some 0x81000302 := by decide +kernel

/-! Issue cycles. -/

/-- Quadrant 0 of core 0 has one warp in its pool, at a clause boundary or not. -/
def quadMeets (s : State) (bnd ok : Bool) : Bool :=
  let s0 := ((s.liftHolds 0 0).formLockstep 0 0).formWarp 0 0
  let ready := (s0.quadWarps 0 0).filter s0.warpReady
  let pool := if ready.any (fun v => !v.skip) then ready.filter (fun v => !v.skip) else ready
  s.coreRuns 0 && pool.length == 1 && pool.all fun w => s0.atBoundary w == bnd && decide (w.passed ≤ 64) && (match s0.launch? w.launch with
    | some l => (match checkClause (s0.codeWord l) l.codeLen (s0.warpPc w) with | .ok _ => true | .error _ => false) == ok
    | none => false)
def idle (f : Fibre → Fibre) : State := { placedWith .nop f id id with issue := none, boot := activeBoot }

theorem wit_issue_cycles :
    quadMeets (idle fun f => { f with clause := none, pc := 0 }) true true = true
    ∧ quadMeets (idle fun f => { f with clause := none, pc := 4096 }) true false = true
    ∧ quadMeets (idle id) false false = true
    ∧ (let s := { idle id with cores := [{ core := 0, fenced := true, lost := false, halted := false, swap := .empty, swapCtx := none, outgoing := none }] }
       s.coreRuns 0 = false)
    ∧ (State.reset.quadWarps 0 0).filter State.reset.warpReady = [] := by decide +kernel
theorem wit_clause_cached : ((idle fun f => { f with clause := none, pc := 0 }).launches.all fun l => l.codeMap == []) = true := by decide
theorem wit_dissolution : ∀ n, let s := { idle id with quads := [{ core := 0, quad := 0, starved := n }] }
    ∃ q w, s.quads.find? (fun q => q.core == 0 && q.quad == 0) = some q ∧ q.starved = n ∧ w ∈ s.warps ∧ w.core = 0 ∧ w.quad = 0
      ∧ (∀ v ∈ s.warps, v.core = 0 → v.quad = 0 → v ≠ w → w.age < v.age ∧ v.slot ≠ w.slot) ∧ s.atBoundary w = false := by
  intro n s
  refine ⟨⟨0, 0, n⟩, _, rfl, rfl, List.mem_singleton.mpr rfl, rfl, rfl, ?_, rfl⟩
  intro v hv _ _ hne
  exact absurd (List.mem_singleton.mp hv) hne
theorem wit_dissolution_boundary : ∃ w, w ∈ (idle fun f => { f with clause := none, pc := 0 }).warps ∧ (idle fun f => { f with clause := none, pc := 0 }).atBoundary w = true :=
  ⟨_, List.mem_singleton.mpr rfl, by decide⟩

/-! Launches. -/

/-- A kernel descriptor at the start of object 1: entry 64, 4 fibres of quota 32 with 32 registers. -/
def kdesc : Nat := 64 + 4 * 2 ^ 64 + 32 * 2 ^ 76 + 32 * 2 ^ 88
/-- Handle 6 for it: a window of handle 1's first 128 bytes with every right. -/
def kwindow : Nat := 2 * 2 ^ 222 + 31 * 2 ^ 192 + 128 * 2 ^ 64 + 1
/-- A record: KIND 1, MINDIES, MAXDIES 1, PRIO, the identifier 77, one sheaf of the kernel at the window's start, arguments there too. -/
def launchRec (minDies prio : Nat) : BitVec 512 :=
  packBits 512 [(1, 256), ((mkCap 6 0).toNat, 128), ((mkCap 6 0).toNat, 64), (77, 32), (prio, 22), (1, 18), (minDies, 14), (1, 0)]
def launchState (rec : BitVec 512) : State :=
  let s := memTables { ctxState with ctxs := [] }
  { s with
    ctxs := [{ ctxOne with htbase := 0x1000, htlen := 8, mail1 := { Mailbox.fresh with h2d := [rec] } }], parts := [{ partOne with objTable := 0x4000, resident := some 1 }]
    coh := { s.coh with llc := [(0x100000, kdesc), (0x1080, kwindow * 2 ^ 512)].map (fun l =>
      { line := (devLoc l.1).line?.getD 0, data := leBytes 128 l.2, full := true, dirty := true, way := 0, age := 0, cls := 0 }) ++ s.coh.llc }
    xc := [⟨0, some 1536, 1, false, 1, 0, false, []⟩, ⟨0, some 1536, 1, true, 6, 0, false, []⟩]
    ops := [{ mo .qpush .unbacked with queue := 6, unit := rec }] }
/-- The outcome of the three stages: the status, or the entry of the accepted launch. -/
def judged (s : State) (rec : BitVec 512) : Option (Nat × Nat) :=
  match s.ctxs, s.parts with
  | [c], [p] => match s.checkRecord (State.distCore p) c p (Record.ofBits rec) .mailbox with
    | .status x => some (x.toNat, 0)
    | .ok l _ => some (0, l.desc.entry)
    | .wait _ _ => none
  | _, _ => none
theorem wit_launch_records :
    judged (launchState (launchRec 1 3)) (launchRec 1 3) = some (0, 64)
    ∧ judged (launchState (launchRec 2 0)) (launchRec 2 0) = some (2, 0)
    ∧ (let s := launchState (launchRec 1 3)
       let low : State := { s with ctxs := s.ctxs.map fun c => { c with prioCeil := 2 } }
       judged low (launchRec 1 3) = some (3, 0))
    ∧ (Record.ofBits (launchRec 1 3) = { sheafs := 1, table := 0, args := mkCap 6 0, desc := mkCap 6 0, id := 77, prio := 3, maxDies := 1, minDies := 1, bad := false })
    ∧ (let s := launchState (launchRec 1 3)
       (s.ctx? 1).isSome = true ∧ (s.part? 0).isSome = true ∧ s.launchesHeld 1 < 64
       ∧ readyOp s (fun o => s.laneTurn o && !s.ctxFrozen 1 && !s.recordBefore o && (sheaf0 s).bind o.queue == 6 && decide (o.kind = .qpush)) = true)
    ∧ 64 ≤ ({ launchState 0 with launches := List.replicate 64 { Launch.one 0 [] with ctx := 1 } } : State).launchesHeld 1 := by decide +kernel

/-! Placement, steps, retiring. -/

/-- Die 0 is active; launch 1 of context 1, two sheafs on one die, waits to start or runs. -/
def placeState (phase : LaunchPhase) (next : Nat) : State :=
  let s := { launchState 0 with fibres := [], sheafs := [], warps := [], ops := [], issue := none, uid := 5 }
  { s with
    launches := [{ Launch.one 1 [] with
      ctx := 1, minDies := 1, maxDies := 1, sheafs := 2, desc := Desc.ofNat kdesc, phase, held := if phase = .running then [0] else [], next, start := 64, step := 0 }]
    boot := { s.boot with chiplets := s.boot.chiplets.set 0 { Chiplet.reset with st := .active } } }
def placing (s : State) : Bool :=
  (s.part? 0).any fun p => p.resident == some 1 && !p.halting && !s.ctxFrozen 1 && s.refills == [] && decide ((s.endSteps 1).reschedule 0 = s)
theorem wit_placement :
    (placing (placeState .starting 0) && (((placeState .starting 0).served 1).any fun l => decide (l.phase = .starting)
      && ((placeState .starting 0).part? 0).any fun p => decide (l.minDies ≤ ((placeState .starting 0).available p).length))) = true
    ∧ (placing (placeState .running 1) && (((placeState .running 1).served 1).any fun l => decide (l.phase = .running) && !l.desc.pers && l.desc.stook == 0 && decide (l.next < l.total)
      && !(placeState .running 1).rel.qmask.getLsbD 0
      && (((placeState .running 1).part? 0).bind fun p => (placeState .running 1).bestCore l ((placeState .running 1).eligible p (l.held.getD (l.next / l.sheafs) 8))).isSome)) = true
    ∧ (let s := { placeState .starting 0 with boot := State.reset.boot }
       placing s && (s.part? 0).any fun p => decide ((s.available p).length < 1)) = true := by decide +kernel
/-- The placed sheaf with its fibre, and when its fibre has ended. -/
def retireState (gone : Bool) : State := { placed .nop with fibres := if gone then [] else (placed .nop).fibres, uid := 5 }
theorem wit_retire : ((retireState false).sheaf? 0).isSome = true ∧ (∃ f ∈ (retireState false).fibres, f.key.sheaf = 0)
    ∧ ((retireState true).sheaf? 0).isSome = true ∧ (retireState true).mayRetire 0 = true :=
  ⟨by decide, ⟨_, List.mem_singleton.mpr rfl, rfl⟩, by decide, by decide⟩

/-! Contexts. -/

/-- Partition 0 with context 1 resident, and context 2 of priority `prio` with a launch. -/
def twoState (time slice : Nat) (prio1 prio2 : Nat) (halting : Bool) : State :=
  { State.reset with
    time
    ctxs := [{ ctxOne with sliceLen := slice, prioCeil := 3, budget := 10, charge := [(0, 20)] }, { ctxOne with id := 2, slot := 1 }]
    parts := [{ partOne with resident := some 1, halting, incoming := some 2 }]
    launches := [{ Launch.one 1 [] with ctx := 1, prio := prio1 }, { Launch.one 2 [] with ctx := 2, prio := prio2 }] }
theorem wit_slices :
    (((twoState 100 0 1 1 false).ctx? 1).any (fun c => c.sliceLen == 0) && ((twoState 99 100 1 1 false).ctx? 1).any (fun c => decide (c.sliceStart + c.sliceLen = 100))) = true
    ∧ (((twoState 100 100 1 1 false).part? 0).bind (twoState 100 100 1 1 false).runHead) = some 2
    ∧ (twoState 100 100 1 1 false).ctxPrio 1 ≤ (twoState 100 100 1 1 false).ctxPrio 2
    ∧ (((twoState 100 100 1 0 false).part? 0).bind (twoState 100 100 1 0 false).runHead) = some 2
    ∧ (twoState 100 100 1 0 false).ctxPrio 2 < (twoState 100 100 1 0 false).ctxPrio 1
    ∧ ((twoState 100 100 1 0 false).ctx? 1).any (fun c => decide (c.budget ≠ 0 ∧ c.budget < c.waitCharge)) = true
    ∧ (let s := twoState 0 0 1 1 true
       ((s.part? 0).any fun p => p.halting && p.resident == some 1 && p.incoming == some 2 && p.cores.all (fun c => decide ((s.coreSt c).swap = .empty) && !s.hasImage 2 c && !(s.saveSheafs 1).hasImage 1 c))
         && s.ctxQuiet 1) = true := by decide +kernel
/-- Context 1 has a sheaf on core 0 to be saved. -/
theorem wit_halted_with_image : (let s := { twoState 0 0 1 1 true with sheafs := [{ Sheaf.one 0 0 with ctx := 1 }] }
    s.ctxQuiet 1 && (s.part? 0).any fun p => p.halting && p.resident == some 1 && p.incoming == some 2 && p.cores.contains 0
      && p.cores.all (fun c => decide ((s.coreSt c).swap = .empty) && !s.hasImage 2 c) && (s.saveSheafs 1).hasImage 1 0) = true := by decide +kernel
/-- Core 0 with its swap store in a state. -/
def swapState (swap : Swap) (outgoing : Option Nat) : State :=
  { twoState 0 0 1 1 true with cores := [{ core := 0, fenced := false, lost := false, halted := true, swap, swapCtx := some 2, outgoing }] }
theorem wit_swap_stores :
    ((swapState .exchanging (some 1)).coreSt 0).swap = .exchanging ∧ ((swapState .spilling (some 1)).coreSt 0).swap = .spilling
    ∧ ((swapState .staging none).coreSt 0).swap = .staging
    ∧ (State.partOf ((swapState .exchanging (some 1)).setCore { (swapState .exchanging (some 1)).coreSt 0 with swap := .spilling, swapCtx := none }) 0).isSome = true := by decide +kernel
theorem wit_spares : let s := { State.reset with cores := [{ core := 191, fenced := true, lost := false, halted := true, swap := .empty, swapCtx := none, outgoing := none }] }
    let e := { s with rel := { s.rel with spares := List.replicate 8 0 } }
    (s.coreSt 191).fenced = true ∧ (s.coreSt 191).lost = false ∧ (s.coreSt 191).swap ≠ .exchanging ∧ s.rel.spares[coreDie 191]? = some 7 ∧ (∀ h ∈ s.sheafs, h.core = 191 → h.saved = true)
    ∧ e.rel.spares[coreDie 191]? = some 0 := by decide

/-! ## Hypotheses of the statements about coherence, checkers and reliability -/

/-- Line 7: its directory entry, whether the slice has it, its copies in the L2s, a request and a message. -/
def copy (die : Nat) (st : LineSt) : L2Line := { die, line := 7, st, data := List.replicate 128 3, acks := [], way := 0, age := 0, cls := 0, l1 := [], iv := 0 }
def entry (st : DirSt) (owner : Nat) (sharers : List Nat) : DirEntry := { line := 7, st, owner, sharers, xlat := false, interval := 4, writer := none, shut := false }
def cohState (d : DirEntry) (llc : Bool) (l2 : List L2Line) (reqs : List CohReq) (msgs : List CohMsg) : State :=
  { State.reset with boot := activeBoot, coh := { State.reset.coh with
      dir := [d], llc := if llc then [{ line := 7, full := true, data := List.replicate 128 1, dirty := false, way := 0, age := 0, cls := 0 }] else []
      l2, reqs, msgs } }
def req (die : Nat) (kind : ReqKind) : CohReq := ⟨die, 7, kind, 0, .none⟩
/-- The slice may serve the request next, and the line is in its directory. -/
def mayServe (s : State) (r : CohReq) : Bool :=
  s.nextReq 7 == some r && s.mayOwn 7 && !s.remoteHeld 7 && !s.coh.mshr.any (·.1 == 7) && (s.dir? 7).isSome && s.coh.l2.all fun l => l.acks == []
theorem wit_directory :
    mayServe (cohState (entry .uncached 0 []) true [] [req 1 .read] []) (req 1 .read) = true
    ∧ mayServe (cohState (entry .shared 0 [2]) true [copy 2 .s] [req 1 .read] []) (req 1 .read) = true
    ∧ (mayServe (cohState (entry .exclusive 2 []) true [copy 2 .m] [req 1 .read] []) (req 1 .read) = true
        ∧ ((cohState (entry .exclusive 2 []) true [copy 2 .m] [req 1 .read] []).l2? 2 7).map (·.st) = some .m)
    ∧ mayServe (cohState (entry .shared 0 [2]) true [copy 2 .s] [req 1 .rfo] []) (req 1 .rfo) = true
    ∧ (mayServe (cohState (entry .owned 2 [3]) true [copy 2 .o, copy 3 .s] [req 1 .rfo] []) (req 1 .rfo) = true
        ∧ ((cohState (entry .owned 2 [3]) true [copy 2 .o, copy 3 .s] [req 1 .rfo] []).l2? 2 7).isSome = true)
    ∧ (mayServe (cohState (entry .owned 2 [1]) true [copy 2 .o, copy 1 .s] [req 1 .upgrade] []) (req 1 .upgrade) = true
        ∧ ((cohState (entry .owned 2 [1]) true [copy 2 .o, copy 1 .s] [req 1 .upgrade] []).l2? 1 7).isSome = true)
    ∧ (let s := cohState (entry .uncached 0 []) false [] [req 1 .read] []
       mayServe s (req 1 .read) = true ∧ s.llc? 7 = none ∧ s.fromSlice (req 1 .read) = true ∧ s.sliceMisses 7 < 64 ∧ s.olderMiss (req 1 .read) = false)
    ∧ (let s := cohState (entry .uncached 0 []) false [] [⟨2, 37, .read, 0, .none⟩, req 1 .read] []
       s.nextReq 7 = some (req 1 .read) ∧ s.fromSlice (req 1 .read) = true ∧ s.olderMiss (req 1 .read) = true)
    ∧ (let s0 := cohState (entry .uncached 0 []) false [] [] []
       let s : State := { s0 with coh := { s0.coh with
          mshr := [(7, [req 1 .rfo])], classes := State.reset.coh.classes.map fun c => { c with wpol := 2 } } }
       s.coh.mshr.find? (·.1 == 7) = some (7, [req 1 .rfo]) ∧ (s.dir? 7).map (·.st) = some .uncached ∧ s.llc? 7 = none ∧ (s.classOf 0).wpol = 2 ∧ (∀ l ∈ s.llcSetOf 7, l.line = 7)) := by decide +kernel
/-- A read of a line that no die holds is granted E. -/
theorem test_read_granted_e : (match exec (.read 1 7) (cohState (entry .uncached 0 []) true [] [req 1 .read] []) with
    | .next t => t.coh.msgs.map fun m => match m with | .data d l st bs _ acks _ _ _ => (d, l, st == .e, bs == List.replicate 128 1, acks) | _ => (9, 9, false, false, [])
    | _ => []) = [(1, 7, true, true, [])] := by decide +kernel

theorem wit_copies :
    (let m : CohMsg := .data 1 7 .e (List.replicate 128 9) 4 [] 0 .none none
     let s := cohState (entry .exclusive 1 []) true [] [] [m]
     s.firstTo 1 7 = some m ∧ (s.l2Victim 1 7 0).2.2 = none ∧ s.l2? 1 7 = none)
    ∧ (∀ st ∈ [LineSt.s, .o, .m, .e], let s := cohState (entry .shared 0 [1]) true [copy 1 st] [] [.inval 1 7 (some 3)]
       s.firstTo 1 7 = some (.inval 1 7 (some 3)) ∧ (s.l2? 1 7).map (·.st) = some st)
    ∧ (∀ st ∈ [LineSt.m, .e], let s := cohState (entry .exclusive 1 []) true [copy 1 st] [] []
       s.l2? 1 7 = some (copy 1 st) ∧ (copy 1 st).acks = [] ∧ (∀ y ∈ s.coh.l2, y.line = 7 → y = copy 1 st) ∧ (s.classOf 0).wpol = 0 ∧ (s.llc? 7).isSome = true ∧ s.lineBusy 7 = false)
    ∧ (let s := cohState (entry .exclusive 1 []) true [copy 1 .m] [] [.recall 1 7]
       s.firstTo 1 7 = some (.recall 1 7) ∧ s.l2? 1 7 = some (copy 1 .m) ∧ (s.llc? 7).isSome = true)
    ∧ (let s := cohState (entry .exclusive 1 []) true [{ copy 1 .m with acks := [3] }] [] [.ack 3 1 7]
       s.coh.msgs.find? (fun m => match m with | .ack _ d l => d == 1 && l == 7 | _ => false) = some (.ack 3 1 7) ∧ ({ copy 1 .m with acks := [3] }).acks.erase 3 = []
         ∧ (s.l2? 1 7).isSome = true) := by decide +kernel

/-- Interval 4 of line 7: die 1 is due, hash 5 expected; a record of it. -/
def ivalOne (expect : Option Dword) : Ival := { line := 7, n := 4, writer := none, readers := [1], expect, supplier := 0, due := [1], closed := none, closer := 0, violated := none, recorded := [] }
def recOne (kind : RecKind) (hash : Dword) : IRec := { hash, interval := 4, line := 7, kind, writer := false, holder := 1, hashb := 0 }
def chkState (r : IRec) : State := { State.reset with chk := { State.reset.chk with recs := [r], ivals := [ivalOne (some 5)] } }
theorem wit_checkers :
    (∀ r ∈ [recOne .open 5, recOne .open 6, recOne .overwrite 0], (chkState r).chk.recs.find? (fun x => x.line == 7 && (chkState r).recReady x) = some r
      ∧ (chkState r).ival? 7 4 = some (ivalOne (some 5)) ∧ r.holder.toNat ∈ (ivalOne (some 5)).due ∧ r.holder.toNat ∈ (ivalOne (some 5)).readers)
    ∧ (let r : IRec := { recOne .close 5 with holder := 9 }
       (chkState r).chk.recs.find? (fun x => x.line == 7 && (chkState r).recReady x) = some r ∧ r.holder.toNat ∉ (ivalOne (some 5)).readers)
    ∧ (let r := recOne .open 5
       let s : State := { State.reset with chk := { State.reset.chk with recs := [r], ivals := [{ ivalOne (some 5) with due := [] }] } }
       s.chk.recs.find? (fun x => x.line == 7 && s.recReady x) = some r ∧ (s.ival? 7 4).map (·.due) = some [] ∧ r.holder.toNat ∈ (ivalOne (some 5)).readers)
    ∧ (∀ kind ∈ [RecKind.close, .supply, .memwrite], let r : IRec := { recOne kind 5 with now := 6 }
       (chkState r).chk.recs.find? (fun x => x.line == 7 && (chkState r).recReady x) = some r ∧ r.interval ≠ r.now ∧ r.interval + 1 ≠ r.now)
    ∧ (let r : IRec := { recOne .overwrite 0 with writer := true }
       let s : State := { State.reset with chk := { State.reset.chk with recs := [r], ivals := [{ ivalOne (some 5) with writer := some 1 }] } }
       s.chk.recs.find? (fun x => x.line == 7 && s.recReady x) = some r ∧ s.ival? 7 4 = some { ivalOne (some 5) with writer := some 1 })
    ∧ (∀ t ∈ [10004, 10005], let s := { heldState .pkg (.fence .sc) [{ openStore with line := 7, interval := some 4, since := 5 }] with time := t, chk := { State.reset.chk with ivals := [ivalOne (some 5)] } }
       (s.fib? ⟨0, 0⟩).map (·.cond) = some (.held (.release .pkg (.fence .sc) 0)) ∧ (sheaf0 s).saved = false
       ∧ ((s.log.find? fun e => e.key == ⟨0, 0⟩ && !s.entryCleared e && decide (max 0 e.since + 10000 ≤ s.time)).isSome = decide (10005 ≤ t)) ∧ s.owed = [] ∧ (s.ival? 7 4).isSome = true)
    ∧ (let e : Access := { openStore with atDie := some 0 }
       e.settled = true ∧ e.checked = false ∧ e.core = 0) := by decide +kernel

/-- The monitor of die 0. -/
def mon0 : Monitor13 := Monitor13.reset 0
def monState (m : Monitor13) (time : Nat) : State := { State.reset with time, rel := { State.reset.rel with mons := [m] } }
theorem wit_reliability :
    (let m := { mon0 with domains := mon0.domains.set 1 { notches := 1, trial := some 0, errs := [], frozeAt := none } }
     (monState m 249999999).mon? 0 = some m ∧ (m.domains[1]?).map (·.trial) = some (some 0) ∧ 249999999 < 0 + 250000000)
    ∧ ((monState mon0 0).mon? 0 = some mon0 ∧ mon0.margin = [] ∧ inFilter mon0.filterA 0x123 = false ∧ inFilter mon0.filterB 0x123 = false)
    ∧ (let m := { mon0 with filterA := bloomBits 0x123 }
       inFilter m.filterA 0x123 = true ∧ m.repeats = [] ∧ 0 < m.repMax)
    ∧ mon0.lastAge < 86400000000000 / 86400000000000
    ∧ ((mon0.domains[3]?).isSome = true ∧ mon0.trialEn = true ∧ mon0.frozenDom 3 = false ∧ (mon0.domains[3]?).map (·.trial) = some none) := by decide +kernel
theorem wit_uncorrectable : ∃ f, (placed .nop).fib? ⟨0, 0⟩ = some f ∧ (∃ n, f.cond = .batched n) ∧ (placed .nop).isPriv f.key = false := ⟨_, rfl, ⟨_, rfl⟩, rfl⟩

/-! ## Hypotheses of the statements about the engines and messages -/

/-- A command unit: KIND, LEN, a completion asked for, and CTAG 9; double 3 holds `d3`, double 2 `d2`. -/
def cmdUnit (kind len : Nat) (d2 d3 : Nat) : BitVec 256 := packBits 256 [(d3, 192), (d2, 128), (len, 24), (9, 16), (1, 8), (kind, 0)]
/-- Command 20 of queue register `q` of the placed sheaf: from the object at 1 MiB to scratchpad offset 16. -/
def cmdOne (kind len : Nat) (recv : Bool) (q : Nat) : Cmd :=
  { id := 20, die := 0, recv, sheaf := 0, q, ctx := 1, unit := cmdUnit kind len 0 0, st := .queued, refs := [.mem 1 0 0 0 0 (mkCap 1 0), .scratch 16], lens := [4096, 4096],
    done := 0, chunk := [], chunkLen := 0, xl := [], srcLine := 0, last := none, noArrival := false, decremented := 0, aux := 0, ivs := [], ghash := 0, ghashNext := 0, undo := [], msg := none, since := none, cover := [], struck := 0 }
def engState (cs : List Cmd) : State := { memTables ctxState with cmds := cs, xc := [⟨0, some 1536, 1, false, 1, 0, false, []⟩] }
/-- A formed chunk. -/
def formedOk : Formed → Bool | .ok _ _ _ _ _ => true | _ => false
def formedWait : Formed → Bool | .wait _ => true | _ => false
def formedStop : Formed → Bool | .stop _ => true | _ => false
def former (c : Cmd) : Formed :=
  match c.refs with
  | src :: dst :: _ => (State.formRuns c src dst (fun b => b) (c.allBanks src) c.nextRuns (engState [c])).1
  | _ => .stop 0
def goesOn? (s : State) (kind : Nat) (c : Cmd) : Bool :=
  s.cmd? 20 == some c && uKind c.unit == kind && !c.recv && c.st == .running && c.chunk == [] && c.last.isNone && s.cmdRuns c && s.cmds.length == 1
/-- The copy of 64 bytes under way. -/
def running (kind len : Nat) : Cmd := { cmdOne kind len false 1 with st := .running }
theorem wit_engines :
    (∀ kind ∈ [1, 2, 3, 4, 5, 6, 7, 8], (engState [cmdOne kind 64 false 1]).mayStart (cmdOne kind 64 false 1) = true ∧ uKind (cmdOne kind 64 false 1).unit = kind)
    ∧ (engState [cmdOne 1 64 false 1, { cmdOne 1 64 false 1 with id := 21 }]).mayStart { cmdOne 1 64 false 1 with id := 21 } = false
    ∧ (∀ kind ∈ [1, 2, 3, 4, 5, 6, 7, 8], goesOn? (engState [running kind 64]) kind (running kind 64) = true)
    ∧ (formedOk (former (running 1 64)) = true ∧ (running 1 64).undo = [])
    ∧ formedWait (former { running 1 64 with refs := [.mem 2 0 0 0 0 (mkCap 2 0), .scratch 16] }) = true
    ∧ formedStop (former { running 1 64 with refs := [.mem 3 0 0 0 0 (mkCap 3 0), .scratch 16] }) = true
    ∧ ((running 6 64).done < uLen (running 6 64).unit ∧ uLen (running 6 0).unit ≤ (running 6 0).done ∧ (engState [running 6 0]).cmdCleared (running 6 0) = true)
    ∧ (let c := { running 1 64 with done := 64, last := some 0 }
       (engState [c]).cmdCleared c = true ∧ (engState [c]).cmdSpread c = true ∧ uBen c.unit = false ∧ uCq c.unit = true ∧ ((sheaf0 (engState [c])).queues[c.q]?).map (fun r => (r.inHeld, r.inb.length)) = some ([], 0)) := by
  decide +kernel
/-- An object with a shadow for a publish: object 1 of the tables with one at 0x8300. -/
def pubState : State :=
  let s := engState [running 7 0]
  { s with coh := { s.coh with llc := [{ line := (devLoc 0x4000).line?.getD 0, full := true, data := leBytes 128 ((0x8300 * 2 ^ 256 + 0x8000 * 2 ^ 192 + 4096 * 2 ^ 64 + 1) * 2 ^ 512), dirty := true, way := 0, age := 0, cls := 0 }] ++ s.coh.llc } }
theorem wit_publish :
    let d := ObjDesc.ofNat (pubState.newestNat (descLoc (pubState.objTable 1) 1) 64)
    let l := (descLoc (pubState.objTable 1) 1).line?
    ((running 7 0).refs.head?.bind (·.objid)) = some 1 ∧ pubState.shadowBefore (running 7 0) 1 = false ∧ pubState.stainedFor (running 7 0) 1 = false ∧ pubState.covered (running 7 0) = true ∧ pubState.cmdCleared (running 7 0) = true ∧ pubState.publishSpread (running 7 0) = true ∧ pubState.lineReady (l.getD 0) true false = true ∧ l.isSome = true
    ∧ pubState.badLine (l.getD 0) = false ∧ pubState.xlatIdle (l.getD 0) 20 = true ∧ d.gen = (1 : BitVec 64).toNat / 2 ^ 32 ∧ 1 ≤ d.kind ∧ d.kind ≤ 5 ∧ d.bad = false ∧ d.shadow ≠ 0 := by
  decide +kernel

/-- The publish waits: an interval of what it covers is not cleared. -/
theorem wit_publish_waits : let s : State := { pubState with chk := { pubState.chk with ivals := [ivalOne (some 5)] } }
    s.shadowBefore (running 7 0) 1 = false ∧ s.stainedFor (running 7 0) 1 = false ∧ s.cmdCleared { running 7 0 with ivs := [(7, 4)] } = false := by decide +kernel

/-- A formed chunk of 4 bytes for the scratchpad, and one for line 0 of device memory; its line lost or not. -/
def chunkOne (kind : Nat) (loc : Loc) : Cmd := { running kind 4 with chunk := [(loc, [1, 2, 3, 4])], chunkLen := 4 }
theorem wit_chunks :
    (let c := chunkOne 1 (.scratch 0 false 16)
     (engState [c]).cmd? 20 = some c ∧ (engState [c]).dieUp c.die = true ∧ chunkUnits 0 c.chunk ≠ []
       ∧ placeAt 0 ({ c with srcs := [(.dev 0x100000, 4)] }).srcs = some (.dev 0x100000) ∧ (engState [c]).destBad c = none ∧ (engState [c]).destWants c = [] ∧ c.struck = 0 ∧ ((engState [c]).sheaf? 0).isSome = true ∧ uBen c.unit = false ∧ chunkLines c.chunk = [])
    ∧ (let c := chunkOne 1 (.dev 0)
       (engState [c]).destBad c = none ∧ (engState [c]).destWants c = [] ∧ (chunkLines c.chunk).all (fun l => !(engState [c]).remoteHeld l.1 && !(engState [c]).xlatLine l.1) = true)
    ∧ (let c := chunkOne 1 (.dev 0)
       let s : State := { engState [c] with coh := { (engState [c]).coh with poison := [0] } }
       s.destBad c = some 0x000C)
    ∧ (let c := chunkOne 5 (.dev 0)
       let old := c.chunk.flatMap fun p => (engState [c]).holds p.1 p.2.length
       (engState [c]).destBad c = none ∧ (engState [c]).destWants c = [] ∧ uKind c.unit = 5 ∧ (reduceChunk (uEtype c.unit) (ufield c.unit 3 32 32) old [1, 2, 3, 4]).2 = true
         ∧ (reduceChunk 4 0x7FC00000 old [1, 2, 3, 4]).2 = false) := by decide +kernel
theorem wit_chunks_mem : MemInv (engState [chunkOne 1 (.scratch 0 false 16)]) := rfl

/-! Messages. -/

def msgOne (eager : Bool) (len : Nat) : Msg :=
  { id := 30, src := 0x000001, dst := 0x000002, tag := 5, len, eager, payload := List.replicate len 7, sendCmd := some 40, fromFn := 0, mtag := 0 }
/-- A posting for any message: SMASK and TMASK 0 select nothing. -/
def post : Cmd := { cmdOne 0x10 64 true 2 with refs := [.scratch 16] }
def recvState (cs : List Cmd) (g : Recv → Recv) : State := { engState cs with recv := g State.reset.recv }
/-- A frozen context with a launch that runs, or one of which nothing is left to place; a message held for it that its posting matches, or not. -/
def frozenState (running : Bool) (tag : Word) : State :=
  let m : Msg := { id := 30, src := 1, dst := 2, tag := 5, len := 8, eager := true, payload := List.replicate 8 7, sendCmd := none, fromFn := 0, mtag := 0 }
  { placed .nop with
    ctxs := [{ ctxOne with frozen := true }]
    launches := [{ Launch.one 1 [] with ctx := 1, phase := if running then .running else .starting }]
    cmds := [post]
    recv := { State.reset.recv with unexpected := [(1, m)], postings := [⟨20, 1, 0, 0, tag, 0xFFFFFFFF⟩] } }
theorem wit_release_with_launches : ∀ r ∈ [true, false], let s : State := { frozenState r 5 with recv := State.reset.recv, sheafs := [{ Sheaf.one 0 1 with launch := 1 }] }
    (s.ctx? 1).map (fun c => (c.frozen, c.discarded)) = some (true, []) ∧ (∀ u ∈ s.recv.unexpected, u.1 ≠ 1) ∧ (∃ l ∈ s.launches, l.ctx = 1)
      ∧ ∀ l ∈ s.launches, l.ctx = 1 → l.phase ≠ .running ∨ l.next < l.total ∨ ∃ h ∈ s.sheafs, h.launch = l.uid := by decide
theorem wit_release_with_messages : ∀ x ∈ [((5 : Word), true), (6, false)], let s := frozenState true x.1
    ∃ m p, s.recv.unexpected.find? (·.1 == 1) = some (1, m) ∧ m.eager = true ∧ s.recv.postings = [p] ∧ p.ctx = 1 ∧ p.matches m = x.2
      ∧ (s.cmd? p.cmd).isSome = true := by
  simp only [List.mem_cons, List.not_mem_nil, or_false, forall_eq_or_imp, forall_eq]
  exact ⟨⟨_, _, rfl, rfl, rfl, rfl, by decide, rfl⟩, ⟨_, _, rfl, rfl, rfl, rfl, by decide, rfl⟩⟩

theorem wit_postings :
    ((recvState [post] id).recvHead post 0x10 = true)
    ∧ ((postingOf post).matches (msgOne true 8) = true ∧ ({ postingOf post with tag := 1, tmask := 0xFFFFFFFF }).matches (msgOne true 8) = false)
    ∧ (let s := recvState [post] fun r => { r with unexpected := [(1, msgOne true 8)] }
       s.recv.unexpected.find? (fun x => x.1 == post.ctx && (postingOf post).matches x.2) = some (post.ctx, msgOne true 8) ∧ (msgOne true 8).eager = true) := by decide +kernel
theorem wit_arrivals :
    (let s := recvState [{ post with st := .running }] fun r => { r with postings := [postingOf post], arriving := [(1, msgOne true 8)] }
     s.recv.arriving.find? (·.1 == 1) = some (1, msgOne true 8) ∧ (s.ctx? 1).map (·.frozen) = some false ∧ (msgOne true 8).sendCmd = some 40
       ∧ s.recv.postings.find? (fun p => p.ctx == 1 && p.matches (msgOne true 8)) = some (postingOf post) ∧ (s.cmd? (postingOf post).cmd).isSome = true)
    ∧ (let s := recvState [] fun r => { r with arriving := [(1, msgOne true 8)] }
       s.recv.postings = [] ∧ s.unexpectedRoom 1 (msgOne true 8) = true)
    ∧ (let s := recvState [] fun r => { r with arriving := [(1, msgOne true 8)], unexpected := List.replicate 1024 (1, msgOne false 0) }
       s.unexpectedRoom 1 (msgOne true 8) = false) := by decide +kernel
def sendOne (len : Nat) : Cmd := { cmdOne 0x11 len true 2 with unit := cmdUnit 0x11 len 0 (2 * 2 ^ 40), refs := [.mem 1 0 0 0 0 (mkCap 1 0)] }
theorem wit_sends :
    (let s := recvState [sendOne 8193] fun r => { r with endpoints := [(0x000001, 0, 1), (0x000002, 0, 1)] }
     s.recvHead (sendOne 8193) 0x11 = true ∧ s.sendBefore (sendOne 8193) false = false ∧ s.sendTags.length < 2 ^ 16 ∧ s.endpointOf 1 = some 0x000001 ∧ sendDest (sendOne 8193) = 0x000002
       ∧ s.endpointAt (sendDest (sendOne 8193)) = some (s.fab.self.toNat, 1) ∧ (s.ctx? 1).isSome = true ∧ 8192 < uLen (sendOne 8193).unit)
    ∧ (∀ x ∈ [(8192, (0 : BitVec 16)), (8193, 0x0011), (8193, 0)], let s := recvState [{ sendOne x.1 with st := .running }] fun r => { r with reports := [(20, x.2)] }
       s.recv.reports.find? (·.1 == 20) = some (20, x.2) ∧ (s.cmd? 20).map (fun c => decide (8192 < uLen c.unit)) = some (decide (8192 < x.1)))
    ∧ (let c := { cmdOne 0x12 0 true 2 with id := 21 }
       (recvState [c] id).recvHead c 0x12 = true
       ∧ (let s := recvState [{ post with st := .running }, c] fun r => { r with postings := [postingOf post] }
          s.recvHead c 0x12 = true ∧ uCtag post.unit = uCtag c.unit ∧ post.sheaf = c.sheaf ∧ post.id ≠ 21 ∧ (∀ q ∈ s.recv.postings, q.cmd ≠ 21)))
    ∧ (let c := { sendOne 8 with st := .landing }
       let s := recvState [c] fun r => { r with pulls := [(20, 8, 0, 3, 2)] }
       s.recv.pulls.find? (·.1 == 20) = some (20, 8, s.fab.self.toNat, 3, 2) ∧ s.ctxFrozen 1 = false
         ∧ (match s.readSource c (.mem 1 0 0 0 0 (mkCap 1 0)) 0 8 (decide (62 * 4096 < 8)) with | (.ok [] bs _ _ _, _) => bs.length == 8 | _ => false) = true) := by decide +kernel
theorem wit_landings :
    (∀ x ∈ [(0, none, 0), (8, none, 0), (8, some (0 : BitVec 16), 8)], let c := { post with st := .running, last := x.2.1, done := x.2.2 }
     let s := recvState [c] fun r => { r with landing := [(20, msgOne true x.1, true)] }
     s.recv.landing.find? (fun l => l.2.1.id == 30) = some (20, msgOne true x.1, true) ∧ s.landingTurn c = true ∧ s.cmdCleared c = true ∧ s.cmdSpread c = true ∧ s.dieUp c.die = true ∧ s.ctxFrozen 1 = false
       ∧ (x.1 = 0 → min (msgOne true x.1).len (uLen c.unit) = 0) ∧ (x.2.1 = none → x.1 = 8 → 0 < min (msgOne true x.1).len (uLen c.unit) - c.done ∧ s.cmdTargets c = [0] ∧ c.struck < 2 ∧ c.refs.length = 1 ∧ uBen c.unit = false)) := by
  decide +kernel

/-! ## Hypotheses of the statements about the fabric -/

/-- Ports 3 and 11 up, packages 5 and 6 reached by them. -/
def fabState (f : Fab → Fab) : State :=
  { State.reset with fab := f { State.reset.fab with
      self := 1, ports := (State.reset.fab.ports.set 3 { Port.reset with up := true }).set 11 { Port.reset with up := true }, routes := [(5, 0x0808)] } }
def packet (op : BitVec 8) (dseq : BitVec 16) : Packet := { addr := 7, op, dseq, dctx := 2, cls := 1, src := 5, dst := 1, mtag := 0, payload := List.replicate 128 0 }
theorem wit_packets :
    ((fabState id).fab.ports[3]?).map (·.up) = some true
    ∧ (List.replicate 256 (0 : Byte)).length = 256
    ∧ PacketProper (packet 1 0) ∧ (packet 1 0).dst = (fabState id).fab.self ∧ (packet 1 0).bytes.length ≤ 236
    ∧ (packet 1 0xFFFF).op ≠ 0x0D ∧ 2 ^ 15 ≤ ((packet 1 0xFFFF).dseq - ((fabState id).rxCtx (packet 1 0xFFFF)).rxNext).toNat := by
  unfold PacketProper; decide +kernel
/-- A flit that arrives as it was sent, of any type; and a packet held for its turn, of which another copy arrives. -/
theorem wit_flits : ∀ bytes : List Byte, bytes.length = 248 → (bytes ++ fecParity bytes).length = 256 ∧ fecCorrect (bytes ++ fecParity bytes) = some (bytes ++ fecParity bytes) :=
  fun bytes h => ⟨by simp [fecParity, h], fecCorrect_sent h⟩
theorem wit_early_copy : let s := fabState fun f => { f with dctxs := [{ fn := 5, cls := 1, num := 2, tx := false, txNext := 0, unacked := [], lastSent := 0, rxNext := 0, early := [packet 1 3] }] }
    ((packet 1 3).dseq - (s.rxCtx (packet 1 3)).rxNext).toNat < 2 ^ 15 ∧ ∃ e ∈ (s.rxCtx (packet 1 3)).early, e.dseq = (packet 1 3).dseq := by decide +kernel
/-- Header fields of a flit: a payload flit, one that asks for replay, one of an unknown type. -/
theorem wit_flit_fields : [0x10000000, 0x30050000, 0x400000AF].map (fun n => (flitType (leBytes 256 n), flitSeq (leBytes 256 n), flitAck (leBytes 256 n)))
    = [(1, 0, 0), (3, 5, 0), (4, 0, 10)] := by decide +kernel
/-- Package 5 is reached by port 3 alone. -/
def oneRoute : State := fabState fun f => { f with routes := [(5, 8)] }
theorem one_route : oneRoute.routePorts 5 = [3] := by decide +kernel
theorem wit_retries :
    (∀ x ∈ [(15, true), (16, false)], let q := { Port.reset with up := true, failSeq := 9, fails := x.1, replay := [(8, [0, 0, 8, 16]), (9, [0, 0, 9, 16])] }
       let n := if q.failSeq = 9 then q.fails + 1 else 1
       decide (n ≤ 16) = x.2 ∧ q.replay.length ≤ 256)
    ∧ ((fabState id).fab.routes = [(5, 0x0808)] ∧ (0x0808 : BitVec 16).getLsbD 3 = true ∧ (fabState id).routePorts 5 ≠ [3] ∧ (fabState id).routePorts 5 ≠ [])
    ∧ (oneRoute.routePorts 5 = [3] ∧ oneRoute.fab.routes = [(5, 8)])
    ∧ (((fabState id).fab.ports[4]?).map (·.up) = some false) :=
  ⟨by decide, ⟨rfl, by decide +kernel⟩, ⟨one_route, rfl⟩, by decide +kernel⟩
/-- A sender's context with one unacknowledged packet, sent at instant 0 by port 3. -/
def dctx (tries : Nat) : DCtx := { fn := 5, cls := 1, num := 2, tx := true, txNext := 1, unacked := [(packet 1 0, 0, tries, [3])], lastSent := 0, rxNext := 0, early := [] }
theorem wit_retransmission :
    (∀ x ∈ [(3999, 0), (4000, 8), (4000, 7)], let s := { fabState (fun f => { f with dctxs := [dctx x.2] }) with time := x.1 }
       s.txCtx 5 1 = some (dctx x.2) ∧ (dctx x.2).unacked = [(packet 1 0, 0, x.2, [3])])
    ∧ (11 ∈ (fabState id).routePorts 5 ∧ 11 ∉ [3] ∧ (∀ i ∈ (fabState id).routePorts 5, i ∉ [3] → 11 ≤ i) ∧ ((fabState id).fab.ports[11]?).isSome = true)
    ∧ (∀ w ∈ [[], [packet 1 0]], let s := { fabState (fun f => { f with dctxs := [{ dctx 0 with unacked := [] }], waitq := w }) with time := 20000 }
       (∃ d ∈ s.fab.dctxs, (d.fn == 5 && d.cls == 1 && d.unacked == [] && d.early == [] && d.lastSent + 20000 ≤ s.time) = true) ∧ s.fab.waitq = w)
    ∧ (∀ d ∈ (fabState fun f => { f with dctxs := [dctx 0] }).fab.dctxs, (d.unacked == []) = false) := by decide +kernel
/-- Lines homed at node 5, in a range of package 5, and at package 5, and one that is not. -/
theorem wit_losses : (let l (sp : Nat) : Nat := sp * 2 ^ 50 + 5 * 2 ^ 38
    (List.range 3).map (fun sp => (homedAt 2 5 (l sp), homedAt 1 5 (l sp)))) = [(false, false), (false, true), (true, false)]
    ∧ (let r := (5, 9, true)
       let s : State := { fabState id with coh := { State.reset.coh with remSh := [r] } }
       r ∈ s.coh.remSh ∧ r.1 = 5 ∧ ∀ o ∈ s.coh.remSh, o.2.1 = r.2.1 → o.1 = 5)
    ∧ (let f : Fetch := ⟨2 ^ 51 + 5 * 2 ^ 38, 1, 0, none, none, none, none⟩
       inRange 5 0 9 f.line = true ∧ f.op ≠ 4 ∧ f.used = none ∧ f.answer = none)
    ∧ (fabState id).coh.remote = [] ∧ (fabState id).cmds = [] ∧ (fabState id).recv.landing = [] ∧ (fabState id).coh.pend = [] := by decide +kernel

/-! ## Hypotheses of the statements about the host -/

def hostState (h : HostSt → HostSt) : State := { ctxState with host := h { State.reset.host with active := 0 }, boot := { activeBoot with stage := 8, pcieUp := [true, true] } }
def page (wr : Bool) : PageReq := { pasid := 3, page := 0x40, wr, sent := true, waiters := [(1, 1)] }
theorem wit_translations :
    (∀ wr ∈ [true, false], let s := hostState fun h => { h with ats := [page wr] }
      s.host.ats.find? (fun q => q.pasid == 3 && q.page == 0x40000 / 4096) = some (page wr) ∧ (∀ q ∈ s.host.pri, q.sent = true)
      ∧ (let g : AtsGrant := ⟨0x40000, 4096, 0x70000, true, wr⟩
         g.base ≤ (page wr).page * 4096 ∧ (page wr).page * 4096 < g.base + g.size ∧ ((page wr).wr = true → g.write = true) ∧ ((page wr).wr = false → g.read = true)))
    ∧ (let s := hostState fun h => { h with pri := [page false] }
       s.host.pri.find? (fun q => q.sent && q.pasid == 3 && q.page == 0x40) = some (page false) ∧ (∀ q ∈ s.host.pri, q.sent = true) ∧ (page false).waiters ≠ []
       ∧ (s.ctx? 1).map (·.gen) = some 1)
    ∧ (let s : State := { hostState (fun h => { h with pri := [page false] }) with fibres := ctxState.fibres.map fun f => { f with cond := .waiting (.fault (.page 3 0x40) 0) } }
       s.fibres.length = 1 ∧ s.fibres.all (fun f => s.ctxOf f.key == 1) = true ∧ s.ops = [] ∧ s.side = [] ∧ s.matq = [] ∧ s.cmds = [] ∧ s.recv.pulls = [] ∧ s.ctxs.all (fun c => c.mail1.h2d == []) = true) := by
  decide +kernel
theorem wit_translation_generation : let s := hostState fun h => { h with pri := [{ page false with waiters := [(1, 9)] }] }
    ∀ w ∈ ({ page false with waiters := [(1, 9)] }).waiters, (s.ctx? w.1).map (·.gen) ≠ some w.2 := by decide +kernel
/-- The Page Requests that the host's allocation admits are all outstanding, whatever it is. -/
theorem wit_allocation : Config.priAllocation ≤ (hostState fun h => { h with pri := List.replicate Config.priAllocation (page false) }).host.pri.length := by
  simp [hostState]
theorem wit_invalidations :
    (let a : Atc := ⟨3, 0x40000, 4096, 0x70000, true, false⟩
     let s : State := { hostState (fun h => { h with atc := [a] }) with ops := [mo .ld (.hostPa 0x70008)] }
     a ∈ s.host.atc ∧ a.base < 0x40FFF + 1 ∧ 0x40FFF < a.base + a.size ∧ a.host ≤ 0x70008 ∧ 0x70008 < a.host + a.size ∧ (∀ o ∈ s.ops, o.released = true))
    ∧ (∀ ops ∈ [[], [mo .ld (.hostPa 0x70008)]], let s : State := { hostState (fun h => { h with invals := [(3, 0x40000, 4096, [7])] }) with ops }
       s.host.invals = [(3, 0x40000, 4096, [7])] ∧ s.ops = ops) := by decide +kernel

def rid : ReqId := ⟨0, 1, some 4, true⟩
def tdiState (tdi : Tdi) (bound : Bool) : State :=
  hostState fun h => { h with fns := [{ port := 0, fn := 1, tdi, frozen := false, rejected := [] }], ides := if bound then [{ port := 0, stream := 4, tdi := some 1 }] else [] }
/-- Chiplet 20 is quarantined after ready. -/
def crippledState : State := { hostState id with boot := { (hostState id).boot with chiplets := activeBoot.chiplets.set 20 { Chiplet.reset with st := .quarantined } } }
/-- Function 1's TDI runs; the context of partition 0 is its, with a receive area at 1 MiB. -/
def ownedState : State := { tdiState .run true with ctxs := [{ ctxOne with recvBase := 2 ^ 20 }] }
theorem owned_state : ownedState.partOwns 0 (2 ^ 20) = true := by
  rw [State.partOwns, Bool.or_eq_true]
  exact .inr (by decide +kernel)
theorem wit_barred : (∃ f ∈ ownedState.host.fns, f.fn ≠ 0 ∧ f.tdi = .run ∧ 0 ∈ ownedState.fnParts f.port f.fn)
    ∧ ownedState.barred ⟨1, 2, none, false⟩ (2 ^ 20) 1 = true ∧ ownedState.barred rid (2 ^ 20) 1 = false ∧ (hostState id).barred rid 64 8 = false := by
  refine ⟨by decide, ?_, by decide, by decide⟩
  have f : ownedState.fnParts 0 1 = [0] ∧ ownedState.fnParts 1 2 = [] := by decide
  rw [State.barred, show (ownedState.host.fns.filter fun f => f.fn != 0 && (f.tdi == .locked || f.tdi == .run))
    = [{ port := 0, fn := 1, tdi := .run, frozen := false, rejected := [] }] from rfl]
  simp [f.1, f.2, show List.range 1 = [0] from rfl]
  exact owned_state
theorem wit_host_requests :
    (Accepted (hostState id) rid ∧ (hostState id).coh.pend = [] ∧ (hostState id).coh.remote = [])
    ∧ Late (hostState fun h => { h with late := [0] }) rid
    ∧ (Rejected (tdiState .error true) rid ∧ Rejected (tdiState .run false) rid ∧ Accepted (tdiState .run true) rid)
    ∧ (State.reset.portUp 0 = false)
    ∧ (Refused crippledState rid ∧ crippledState.crippled = true)
    ∧ (∀ tdi ∈ [Tdi.unlocked, .locked, .run, .error], ((tdiState tdi true).fnSt 0 1).tdi = tdi ∧ (tdiState tdi true).isLate 0 1 = false) := by
  refine ⟨⟨⟨by decide, by decide⟩, by decide, by decide⟩, ⟨by decide, by decide⟩, ⟨⟨by decide, by decide⟩, ⟨by decide, by decide⟩, ⟨by decide, by decide⟩⟩, by decide, ⟨⟨by decide, by decide, by decide⟩, by decide⟩, by decide⟩
/-- Places of a host access: device memory, beyond it, and the register window. -/
theorem wit_host_places :
    (∀ j < 8, devLoc (64 + j) ≠ .unbacked) ∧ (devLoc (3 * 2 ^ 40)).line? = none ∧ (match devLoc (3 * 2 ^ 40) with | .regs _ => true | _ => false) = true
    ∧ devLoc (2 ^ 40 - 1) = .unbacked
    ∧ ((devLoc 64).line? = some 0 ∧ (∀ j < 8, (devLoc (64 + j)).line? = some 0) ∧ (hostState id).poisoned 0 = false) := by decide +kernel
theorem wit_host_atomics : ∀ v ∈ [0, 1], let s1 := (((hostState id).recallAll 0).ensureDir 0).homeTouch 0 0
    (s1.homeRmw 0 0 (some fun d => overlay d 64 (leBytes 8 v)) true).xlatLine 0 = false := by decide +kernel
/-- A host write to translation line 0 finds nothing in flight through it, or an access. -/
theorem wit_host_writes : ∀ x ∈ [([], true), ([{ mo .ld (.dev 512) with xl := [0] }], false)], let s : State := { homeState (mo .ld (.dev 512)) none true with ops := x.1 }
    s.xlatLine 0 = true ∧ s.xlatIdle 0 s.uid = x.2 ∧ s.lineTaken 0 = false ∧ HostAcc.lines ⟨0, 64, .write [1]⟩ = [0] := by decide +kernel
/-- An earlier posted write of the port waits, or of the other port. -/
theorem wit_host_pending : ∀ x ∈ [(0, true), (1, false)], let s : State := { hostState id with coh := { State.reset.coh with pend := [⟨x.1, 64, .write [1]⟩] } }
    (s.coh.pend.any fun b => b.port == 0) = x.2 := by decide

/-- The context of function 1 at slot 0, with a mailbox pair in a state. -/
def boxState (m : Mailbox) (h : HostSt → HostSt) : State := { hostState h with ctxs := [{ ctxOne with mail0 := m }] }
def box (ring : Option Nat) (produced consumed : Nat) (d2h h2d : List (BitVec 512)) : Mailbox := { Mailbox.fresh with ring, status := 0x9000, produced, consumed, d2h, h2d }
theorem wit_mailboxes :
    (Accepted (boxState (box none 0 0 [] []) id) rid ∧ ((boxState (box none 0 0 [] []) id).windowCtx rid 0).map (·.id) = some 1
      ∧ (boxState (box none 0 0 [] []) id).windowCtx rid 1 = none)
    ∧ ((List.replicate 64 (0 : BitVec 512)).length = 64 ∧ (List.replicate 64 (0 : Byte)).length = 64)
    ∧ (∀ x ∈ [((64 : Nat), (0 : Word), true), (65, 0, false), (5, 6, false), (2 ^ 32 + 3, 0xFFFFFFFE, true)], let m := box none x.1 0 [] []
       let behind := (BitVec.ofNat 32 m.produced - x.2.1).toNat
       decide (behind ≤ 64 ∧ behind ≤ m.produced) = x.2.2)
    ∧ (∀ x ∈ [box (some 0x8000) 63 0 [7] [], box (some 0x8000) 64 0 [7] [], box none 0 0 [7] []], ((boxState x id).ctx? 1).map (·.mail 0) = some x)
    ∧ (boxState (box (some 0x8000) 63 0 [7] []) id).host.expired = false := by
  refine ⟨⟨⟨by decide, by decide⟩, by decide, by decide⟩, by decide +kernel, by decide +kernel, by decide +kernel, by decide +kernel⟩
theorem wit_mailboxes_mem : MemInv (boxState (box (some 0x8000) 63 0 [7] []) id) := rfl

theorem wit_lease :
    ((hostState id).portUp 0 = true ∧ (hostState id).isLate 0 0 = false ∧ (hostState id).host.active = 0 ∧ (hostState id).leaseOver = false)
    ∧ (State.leaseOver { hostState id with time := 50000000 }) = true ∧ (State.leaseOver { hostState id with time := 49999999 }) = false
    ∧ (let s := hostState fun h => { h with expired := true, late := [0] }
       s.portUp 1 = true ∧ 1 ≠ s.host.active ∧ s.host.expired = true ∧ s.isLate 1 0 = false ∧ (s.fnSt 1 0).frozen = false ∧ s.isLate 0 0 = true ∧ s.claimable 0 = false ∧ s.host.notices.length < 1024)
    ∧ ((1 : Dword) <<< 32).getLsbD 0 = false ∧ bitsOf ((1000 : Dword) <<< 32 ||| 1) 32 16 = 1000 ∧ bitsOf (1001 : Dword) 32 16 = 0
    ∧ ((hostState id).crippled = false
        ∧ (State.crippled { hostState id with boot := { (hostState id).boot with chiplets := activeBoot.chiplets.set 20 { Chiplet.reset with st := .quarantined } } }) = true)
    ∧ (bitsOf (1500 : Dword) 0 16 = 1500 ∧ bitsOf (3000 : Dword) 0 16 = 3000 ∧ bitsOf (3001 : Dword) 0 16 = 3001) := by decide +kernel
/-- Management units: MOP `n` with doubles 1–3. -/
def mopBits (n d1 d2 d3 : Nat) : BitVec 256 := packBits 256 [(d3, 192), (d2, 128), (d1, 64), (n, 0)]
def mgmt (n d1 d2 d3 : Nat) : MqEntry := { unit := mopBits n d1 d2 d3, port := 0, back := none, map := none }
def mqState (l : List MqEntry) (s : State) : State := { s with host := { s.host with mq := l } }
theorem wit_management_queue :
    ((hostState id).hostWaiting < 64 ∧ 64 ≤ (mqState (List.replicate 64 (mgmt 6 0 0 0)) (hostState id)).hostWaiting)
    ∧ ((hostState id).takesMop (uMop (mopBits 6 0 0 0)) = true ∧ mopFieldsOk (mopBits 6 0 0 0) = true ∧ mopFieldsOk (mopBits 6 0 1 0) = false)
    ∧ ctxState.takesMop (uMop (mopBits 6 0 0 0)) = false
    ∧ (mopFieldsOk (mopBits 0xB (1 + 2 ^ 32) 8 0) = true ∧ mopAligned (mopBits 0xB (1 + 2 ^ 32) 8 0) = false ∧ mopAligned (mopBits 0xB (1 + 2 ^ 32) 16 0) = true)
    ∧ (crippledState.takesMop 4 = true ∧ crippledState.takesMop 6 = false)
    ∧ (let s := hostState fun h => { h with completions := [5], mcrbase := 0x5000, notices := [6], noticeRing := some 0x6000 }
       s.host.expired = false ∧ s.host.mcrbase ≠ 0 ∧ s.host.mcrprod - s.host.mcrcons ≠ 64)
    ∧ (let s := hostState fun h => { h with completions := [5], mcrbase := 0x5000, mcrprod := 3, mcrcons := 0xFFFFFFC3 }
       s.host.mcrprod - s.host.mcrcons = 64) := by decide +kernel
theorem wit_management_mem : MemInv (hostState fun h => { h with completions := [5], mcrbase := 0x5000, notices := [6], noticeRing := some 0x6000 }) := rfl

theorem wit_tdis :
    (∀ tdi ∈ [Tdi.unlocked, .locked, .run, .error], ((tdiState tdi true).fnSt 0 1).tdi = tdi)
    ∧ (let s := hostState fun h => { h with ides := [{ port := 0, stream := 4, tdi := some 0 }] }
       s.host.ides.filter (fun i => i.port == 0 && i.stream == 4) = [{ port := 0, stream := 4, tdi := some 0 }])
    ∧ ((tdiState .run true).host.ides.filter (fun i => i.port == 0 && i.stream == 4)) = [{ port := 0, stream := 4, tdi := some 1 }]
    ∧ (∀ n ∈ [256, 257], let f : Fn := { port := 0, fn := 1, tdi := .run, frozen := false, rejected := List.replicate n 5 }
       (hostState fun h => { h with fns := [f] }).fnSt 0 1 = f ∧ (f.rejected.filter fun t => decide (1000004 < t + 1000000)).length = n)
    ∧ (let s := hostState fun h => { h with ides := (List.range 16).map fun i => { port := 0, stream := i, tdi := some 1 } }
       16 ≤ ((s.host.ides.filter fun i => !(i.port == 0 && i.stream == 16)).filter fun i => i.port == 0 && i.tdi.isSome).length) := by decide +kernel

/-! Management commands: each at the head of the queue, with the operands of its clauses. -/

/-- The command at the head of the queue is `i`'s, and `q` holds of its operands in the state without it. -/
def heads? (i : Instr) (e : MqEntry) (s : State) (q : MqEntry → State → Bool) : Bool :=
  mopOf i == some (uMop e.unit) && !s.crippled && e.back.isNone && mopFieldsOk e.unit && q e s
theorem heads_of {i : Instr} {e : MqEntry} {s : State} {q : MqEntry → State → Bool} (h : heads? i e s q = true) (hm : s.host.mq = []) :
    Heads i e (mqState [e] s) s ∧ q e s = true := by
  simp only [heads?, Bool.and_eq_true, beq_iff_eq] at h
  have n : s.crippled = false := by simpa using h.1.1.1.2
  refine ⟨⟨h.1.1.1.1, fun c => ?_, [], rfl, by cases s; simp only [mqState] at *; rw [← hm]⟩, h.2⟩
  rw [show (mqState [e] s).crippled = s.crippled from rfl, n] at c
  exact absurd c (by decide)
/-- Killing a function is carried out after a quarantine outside the compute dies, another command is not. -/
theorem wit_crippled_commands : (∃ s, Heads .killContext (mgmt 4 0 0 0) (mqState [mgmt 4 0 0 0] crippledState) s)
    ∧ mopOf .createContext = some (uMop (mgmt 3 0 0 0).unit) ∧ crippledState.crippled = true :=
  ⟨⟨_, by decide, fun _ => .inl (by decide), [], rfl, rfl⟩, by decide, by decide⟩
/-- Context 1 of function 1 in partition 0. -/
def mgState : State := hostState id
theorem wit_management_state : mgState.host.mq = [] ∧ (mgState.part? 0).isSome = true ∧ (mgState.part? 1).isNone = true ∧ (mgState.ctx? 1).isSome = true ∧ (mgState.ctx? 2).isNone = true := by decide +kernel
theorem wit_partition_commands :
    heads? .createPartition (mgmt 1 2 0x8000 0) mgState (fun e s => e.f 1 8 1 == 0 && (match s.askedCores e with
      | some cores => (s.parts.all fun p => cores.all fun c => !p.cores.contains c) && s.parts.all (·.num != 1) && s.parts.any (·.num == 0)
      | none => false)) = true
    ∧ heads? .createPartition (mgmt 1 1 0x8000 0) mgState (fun e s => match s.askedCores e with | some cores => s.parts.any fun p => cores.any p.cores.contains | none => false) = true
    ∧ heads? .createPartition (mgmt 1 0 0x8000 0) mgState (fun e s => (s.askedCores e).isNone) = true
    ∧ heads? .destroyPartition (mgmt 2 1 0 0) mgState (fun e s => (s.part? (e.f 1 0 8)).isNone) = true
    ∧ heads? .destroyPartition (mgmt 2 0 0 0) mgState (fun e s => (s.part? (e.f 1 0 8)).isSome && s.ctxs.any (·.part == 0)) = true
    ∧ heads? .destroyPartition (mgmt 2 0 0 0) { mgState with ctxs := [] } (fun e s => (s.part? (e.f 1 0 8)).isSome && s.ctxs.all (·.part != 0)) = true
    ∧ heads? .setWithholdMask (mgmt 0x16 0 3 0) mgState (fun e s => (s.part? (e.f 1 0 8)).isSome) = true
    ∧ heads? .requestPreemption (mgmt 6 0 0 0) mgState (fun e s => (s.part? (e.f 1 0 8)).isSome) = true
    ∧ heads? .requestPreemption (mgmt 6 1 0 0) mgState (fun e s => (s.part? (e.f 1 0 8)).isNone) = true := by decide +kernel
theorem wit_context_commands :
    heads? .createContext (mgmt 3 (16 * 2 ^ 16) 0x1000 (2 ^ 24)) mgState (fun e s => (s.part? (e.f 1 0 8)).isSome && e.f 1 16 5 == 16 && e.d 2 % 32 == 0 && e.f 3 0 25 == 2 ^ 24
      && decide (s.lastCtx < 0xFFFFFE) && (s.ctx? (s.lastCtx + 1)).isSome) = true
    ∧ heads? .createContext (mgmt 3 (16 * 2 ^ 16) 0x1000 (2 ^ 24)) { mgState with lastCtx := 1 } (fun _ s => (s.ctx? (s.lastCtx + 1)).isNone && decide (s.lastCtx < 0xFFFFFE)) = true
    ∧ (mopOf .createContext = some (uMop (mgmt 3 (17 * 2 ^ 16) 0x1000 0).unit) ∧ (mgmt 3 (17 * 2 ^ 16) 0x1000 0).f 1 16 5 = 17)
    ∧ heads? .createContext (mgmt 3 0 0x1000 (2 ^ 24 + 1)) mgState (fun e _ => e.f 3 0 25 == 2 ^ 24 + 1) = true
    ∧ (∀ x ∈ [(Instr.killContext, 4), (.releaseFrozenMaster, 5)],
        heads? x.1 (mgmt x.2 1 0 0) mgState (fun e s => e.f 1 63 1 == 0 && (s.ctx? (e.f 1 0 24)).isSome) = true
        ∧ heads? x.1 (mgmt x.2 0xFFFFFF 0 0) mgState (fun e _ => e.f 1 63 1 == 0 && e.f 1 0 24 == 0xFFFFFF) = true
        ∧ heads? x.1 (mgmt x.2 (2 ^ 63 + 16) 0 0) mgState (fun e _ => e.f 1 63 1 == 1 && e.f 1 0 5 == 16) = true
        ∧ heads? x.1 (mgmt x.2 (2 ^ 63 + 17) 0 0) mgState (fun e _ => e.f 1 63 1 == 1 && e.f 1 0 5 == 17) = true)
    ∧ (∀ x ∈ [(0x82, 32), (0x84, 2 ^ 24), (0x85, 2 ^ 32 - 1), (0x86, 2 ^ 32), (0x87, 1), (0x8D, 0), (0x8E, 1), (0x80, 0)],
        heads? .setContextRegisters (mgmt 7 1 x.1 x.2) mgState (fun e s => (s.ctx? (e.f 1 0 24)).isSome && e.f 2 0 8 == x.1 && e.d 3 == x.2) = true)
    ∧ (∀ x ∈ [(Instr.setSaveFaultReceiveAreas, mgmt 8 1 0x10000 0x20000), (.setMailboxRings, mgmt 9 (1 + 2 ^ 24) 0x8000 0x9000)],
        heads? x.1 x.2 mgState (fun e s => (s.ctx? (e.f 1 0 24)).isSome) = true) := by decide +kernel
theorem wit_key_slots :
    heads? .writeKeySlot (mgmt 0xB 1 0 0) mgState (fun e s => (s.ctx? (e.f 1 0 24)).isSome && e.f 1 32 1 == 0) = true
    ∧ heads? .writeKeySlot (mgmt 0xB (1 + 2 ^ 32 + 5 * 2 ^ 24) 0x100 0) mgState (fun e s => e.f 1 32 1 == 1 && e.d 2 % 16 == 0 && decide (e.d 2 < 3 * 2 ^ 40)
        && (List.range 36).all fun j => match ((devLoc (e.d 2)).add j).line? with | some l => !s.poisoned l | none => false) = true
    ∧ heads? .writeKeySlot (mgmt 0xB (1 + 2 ^ 32) 0x108 0) mgState (fun e _ => e.d 2 % 16 != 0) = true
    ∧ heads? .writeKeySlot (mgmt 0xB (1 + 2 ^ 32) (3 * 2 ^ 40) 0) mgState (fun e _ => e.d 2 % 16 == 0 && (List.range 36).any fun j => ((devLoc (e.d 2)).add j).line?.isNone) = true
    ∧ heads? .setEndpoint (mgmt 0xC (2 ^ 40) 0 0) mgState (fun e s => BitVec.ofNat 12 (e.f 1 24 12) == s.fab.self && (s.ctx? (e.f 1 40 24)).isSome) = true
    ∧ heads? .setEndpoint (mgmt 0xC (2 * 2 ^ 40) 0 0) mgState (fun e s => BitVec.ofNat 12 (e.f 1 24 12) == s.fab.self && (s.ctx? (e.f 1 40 24)).isNone) = true := by decide +kernel
theorem wit_package_commands :
    (∀ x ∈ [0xFFFF0000 + 0x300, 0x300, 0x1FFFF], heads? .writeReplacementClass (mgmt 0xA 7 x 0) mgState (fun _ _ => true) = true)
    ∧ heads? .writeRouteEntry (mgmt 0xD (5 + 0x0808 * 2 ^ 16) 0 0) mgState (fun e _ => e.f 1 16 16 == 0x0808) = true
    ∧ heads? .writeRouteEntry (mgmt 0xD 5 0 0) { mgState with fab := (fabState id).fab } (fun e s => e.f 1 16 16 == 0 && s.routeMask (e.f 1 0 12) != 0) = true
    ∧ heads? .writeMonitorRegister (mgmt 0xE 32 0x030805FF 0) mgState (fun e s => (s.mon? (e.f 1 0 8)).isSome) = true
    ∧ heads? .writeMonitorRegister (mgmt 0xE 13 0 0) mgState (fun e s => (s.mon? (e.f 1 0 8)).isNone) = true
    ∧ heads? .clearPoisonedLine (mgmt 0xF (2 ^ 51 + 9) 0 0) mgState (fun e _ => e.f 1 50 2 == 2) = true
    ∧ heads? .clearOrphanedPackage (mgmt 0x10 5 0 0) mgState (fun e _ => e.f 1 0 12 == 5) = true
    ∧ heads? .setNoticeRing (mgmt 0x11 0x7000 0 0) mgState (fun e _ => e.d 1 == 0x7000) = true
    ∧ heads? .resetComputeDie (mgmt 0x12 0 0 0) { mgState with boot := { mgState.boot with chiplets := State.reset.boot.chiplets } } (fun e s => decide ((s.chiplet (e.f 1 0 3)).st ≠ .active)) = true
    ∧ (∀ f ∈ [0, 2 ^ 8], heads? .resetComputeDie (mgmt 0x12 (f + 1) 0 0) { mgState with boot := { mgState.boot with chiplets := activeBoot.chiplets } }
        (fun e s => decide ((s.chiplet (e.f 1 0 3)).st = .active) && s.boot.resets == []) = true)
    ∧ heads? .restartServiceCore (mgmt 0x13 7 0 0) mgState (fun _ _ => true) = true
    ∧ heads? .stageFirmwareImage (mgmt 0x14 0x1000 4095 0) mgState (fun e _ => decide (e.d 2 < 4096)) = true
    ∧ heads? .commitStagedFirmware (mgmt 0x15 0 0 0) mgState (fun _ s => s.boot.staged.bytes == []) = true
    ∧ heads? .commitStagedFirmware (mgmt 0x15 0 0 0) { mgState with boot := { mgState.boot with staged := ⟨[1]⟩ } } (fun _ s => s.boot.staged.bytes != []) = true := by decide +kernel
/-- Staging an image of 4 KiB of zeros, which no check passes. -/
theorem wit_staging : heads? .stageFirmwareImage (mgmt 0x14 0x1000 4096 0) mgState (fun e _ => e.d 2 == 4096) = true ∧ (Image.mk []).ok 0 = false := ⟨by decide +kernel, by rfl⟩

/-! ## Hypotheses of the statements about bring-up -/

def bootState (stage : Nat) (st : Att) : State :=
  { State.reset with boot := { State.reset.boot with stage, chiplets := List.replicate 33 { Chiplet.reset with st, serial := some 100 } } }
theorem wit_stages :
    (State.reset.boot.stage = 1 ∧ State.reset.boot.fail = false ∧ State.reset.boot.chiplets.length = 33)
    ∧ ((∀ i < 32, ((bootState 2 .verified).chiplet i).st ∈ [Att.verified, .keyed, .active]) ∧ ∃ i < 32, ((bootState 2 .off).chiplet i).st ∉ [Att.verified, .keyed, .active] ∧ 8 ≤ i)
    ∧ (∀ i < 32, ((bootState 3 .active).chiplet i).st = .active)
    ∧ (((0xFF7 : BitVec 12).getLsbD 3 = false) ∧ ∀ j < 3, (0xFF7 : BitVec 12).getLsbD j = true)
    ∧ ((bootState 5 .active).boot.stage = 5 ∧ (bootState 6 .active).boot.stage = 6 ∧ (bootState 7 .active).ctx? 0xFFFFFF = none)
    ∧ ((State.ctx? { bootState 7 .active with ctxs := [{ ctxOne with id := 0xFFFFFF }] } 0xFFFFFF).isSome = true)
    ∧ (∀ x ∈ [(1, 1999999999, false), (1, 2000000000, true), (2, 4000000000, true), (3, 1000000000, true), (4, 3000000000, true), (5, 1000000000, true), (6, 2000000000, true), (7, 1000000000, true)],
        decide (0 + stageLimit x.1 ≤ x.2.1) = x.2.2)
    ∧ ((0x41A : BitVec 16).toNat = 1050 ∧ State.reset.boot.railsOff = false) := by decide +kernel
theorem wit_image : State.reset.boot.current.ok State.reset.boot.svn = false := by rfl

/-- Chiplet 2's service sheaf has started, or no die's has; a stage at its limit. -/
theorem wit_late_stages : (∀ x ∈ [(2, 4000000000), (7, 1000000000)], let s : State := { bootState x.1 .active with time := x.2 }
      s.boot.stageSince + stageLimit s.boot.stage ≤ s.time)
    ∧ (let s := bootState 7 .active
       s.time < s.boot.stageSince + stageLimit 7 ∧ s.sheafs = [] ∧ s.dieInService 2 = true) := by decide +kernel
/-- A response within 100 ms, and one after. -/
theorem wit_challenges : ∀ x ∈ [(99999999, false), (100000000, true)], let s : State := { bootState 3 .challenging with time := x.1 }
    decide ((s.chiplet 9).challengedAt + 100000000 ≤ s.time) = x.2 := by decide
def verdict : SpdmVerdict := { serial := 8, chain := true, ed25519 := true, mldsa := true, measurement := true, revoked := false }
theorem wit_attestation :
    (∀ st ∈ [Att.off, .unverified, .challenging, .verified, .keyed, .active], Attested (bootState 3 st) 9 ∧ ((bootState 3 st).chiplet 9).st = st)
    ∧ (∀ v ∈ [(verdict, (0 : BitVec 4)), ({ verdict with chain := false }, 1), ({ verdict with ed25519 := false }, 2), ({ verdict with mldsa := false }, 3), ({ verdict with measurement := false }, 4), ({ verdict with revoked := true }, 7), ({ verdict with serial := 100 }, 6)],
        (if v.1.chain = false then 1 else if v.1.ed25519 = false then 2 else if v.1.mldsa = false then 3 else if v.1.measurement = false then 4
         else if (List.range 33).any (fun j => j != 9 && (bootState 3 .challenging).certSerial j == v.1.serial) then 6 else if v.1.revoked = true then 7 else 0) = v.2)
    ∧ (let s : State := { bootState 3 .active with boot := { (bootState 3 .active).boot with resets := [⟨2, false⟩] } }
       (∃ r ∈ s.boot.resets, r.die = 2) ∧ s.dieFree 2 = true ∧ s.coh.msgs = [] ∧ (∀ l ∈ s.coh.l2, l.die ≠ 2))
    ∧ (let s : State := { bootState 3 .keyed with boot := { (bootState 3 .keyed).boot with chiplets := List.replicate 33 { Chiplet.reset with st := .keyed, again := true }, resets := [⟨2, true⟩] } }
       (s.chiplet 2).again = true ∧ ⟨2, true⟩ ∈ s.boot.resets) := by
  refine ⟨?_, by decide +kernel, by decide +kernel, by decide +kernel⟩
  intro st _
  exact ⟨⟨by decide, by simp [bootState], by simp [bootState], by simp [bootState], rfl⟩, by simp [bootState, State.chiplet]⟩
theorem wit_links :
    (bootState 8 .active).linkUp 2 32 = true ∧ (bootState 8 .active).linkUp 2 2 = false
    ∧ (∀ x ∈ [Roll.idle, .sentReceiver, .sentTransmitter, .switched, .acknowledged], let s : State := { bootState 8 .active with boot := { (bootState 8 .active).boot with links := [⟨2, 32, 0, x, [0, 1]⟩] } }
        (s.link 2 32).roll = x ∧ ((s.link 2 32).fails.filter fun t => decide (s.time < t + 1000000)).length = 2) := by decide +kernel

/-! ## Hypotheses of the statement about the forms that complete -/

/-- Context 1's row pointers 0 and 2 stand at the start of object 1; a gather of one row of two values of 4 bytes. -/
def csrCmd : Cmd :=
  { running 3 64 with
    unit := packBits 256 [(0x200 * 2 ^ 19 + 0x100, 192), (1, 48), (1, 40), (8, 24), (3, 0)]
    refs := [.mem 1 0 0 0 0 (mkCap 1 0), .mem 1 0 0 0 0 (mkCap 1 0), .mem 1 0 0 0 0 (mkCap 1 0)], lens := [4096, 4096, 4096] }
def csrState : State :=
  let s : State := engState [csrCmd]
  { s with coh := { s.coh with llc := { line := (devLoc 0x100000).line?.getD 0, full := true, data := leBytes 128 (2 * 2 ^ 32), dirty := true, way := 0, age := 0, cls := 0 } :: s.coh.llc } }
/-- Its next step's elements, which both objects hold. -/
def csrElems : List (Nat × Nat) := takeElems (min (csrStep 4) 8) (dropElems 0 (csrSegs [0, 2]))
theorem wit_csr : goesOn? csrState 3 csrCmd = true ∧ uFirst csrCmd.unit + uNrows csrCmd.unit + 1 ≤ 4096 / 4 ∧ csrElems = [(0, 2)]
    ∧ clipElems (min (4096 / 4) (4096 / 4)) csrElems = csrElems
    ∧ (match csrState.readSource csrCmd (.mem 1 0 0 0 0 (mkCap 1 0)) 0 8 false with
        | (.ok [] bs _ _ _, s1) => leNat bs == 2 * 2 ^ 32 && (match State.readElems csrCmd (.mem 1 0 0 0 0 (mkCap 1 0)) 4 csrElems s1 with
          | (.ok [] _ _ _ _, s2) => (match State.readElems csrCmd (.mem 1 0 0 0 0 (mkCap 1 0)) 4 csrElems s2 with | (.ok [] _ _ _ _, _) => true | _ => false)
          | _ => false)
        | _ => false) = true := by decide +kernel
theorem wit_retry : let s : State := { ctxState with fibres := ctxState.fibres.map fun (f : Fibre) => { f with cond := .waiting (.fault (.extent 2 0 0x8080) 0) } }
    (s.fib? ⟨0, 0⟩).map (·.cond) = some (.waiting (.fault (.extent 2 0 0x8080) 0)) ∧ XWait.names 2 0 (.extent 2 0 0x8080) = true
      ∧ s.answered (.extent 2 0 0x8080) = true := by decide +kernel
/-- A decrypt of 64 bytes with its key slot written. -/
def keyState : State := let s : State := engState [running 6 64]; { s with ctxs := s.ctxs.map fun c => { c with keys := [⟨0, 0, 0, 0⟩] } }
theorem wit_decrypt : (keyState.keySlot (running 6 64)).isSome = true ∧ goesOn? keyState 6 (running 6 64) = true ∧ (running 6 64).done < uLen (running 6 64).unit
    ∧ (match (running 6 64).refs with
        | src :: dst :: _ => formedOk (State.formRuns (running 6 64) src dst (gcmCrypt 0 [] 0) false (running 6 64).nextRuns keyState).1
        | _ => false) = true := by decide +kernel

end Sys2Proof.Tests
end

section
/-! PROOF. `nop` and words of zeros (R48, R51, R55, R74). -/

namespace Sys2Proof.Proofs

open Sys2Proof.Machine Sys2Proof.Safety Sys2Proof.Laws

/-! ## The word of `nop` -/

/-- A word whose length code is 1 is decoded from its 64 bits alone (R48). -/
theorem decodeWord_eq_of_lc_one {lo : Dword} (h : (Fields.ofWord lo).lc = 1) (hi : Dword) :
    decodeWord lo hi = decodeWord lo 0 := by
  simp only [decodeWord, h, beq_self_eq_true, if_true]

theorem decodeWord_nop (hi : Dword) : decodeWord 0x301 hi = .ok .nop :=
  calc decodeWord 0x301 hi = decodeWord 0x301 0 := decodeWord_eq_of_lc_one (by decide) hi
    _ = .ok .nop := by decide

theorem encodeWord_nop : encodeWord .nop = some (0x301, 0) := by decide

/-! ## What `nop` does -/

theorem exec_nop (s : State) : exec .nop s = warpExec .nop (fun _ s => .next s) s := rfl

theorem nop_executes_goesOn {s : State} {w : Warp} {k : FKey} {f : Fibre} {sh : Sheaf} (h : Alone .nop s w k f sh) :
    Executes .nop s (goesOn .nop s w k id) := by
  unfold Executes
  rw [exec_nop]
  exact alone_next h rfl

/-! ## A clause header with LEN 0 -/

/-- R51 requires a LEN of 1 to 15. -/
theorem clauseHdr_ofWord_eq_none_of_len_zero {w : Dword} (h : w.extractLsb' 22 4 = 0) : ClauseHdr.ofWord w = none := by
  simp [ClauseHdr.ofWord, h]

/-- Such a clause has no instruction that could leave the code object, so no bounds trap comes before the illegal-instruction
trap (R75). -/
theorem checkClause_eq_illegal_of_len_zero {word : Nat → Dword} {len pc : Nat} (h : (word pc).extractLsb' 22 4 = 0)
    (hin : pc + 8 ≤ len) : checkClause word len pc = .error ⟨cIllegal, pc⟩ := by
  have hb : clauseBounds word len ((word pc).extractLsb' 22 4).toNat (pc + 8) = none := by rw [h]; rfl
  unfold checkClause
  rw [if_neg (Nat.not_lt.mpr hin), clauseHdr_ofWord_eq_none_of_len_zero h]
  split
  · rfl
  · simp only [hb, ite_self, Option.getD_none]

theorem checkClause_eq_illegal_of_word_zero {word : Nat → Dword} {len pc : Nat} (h : word pc = 0) (hin : pc + 8 ≤ len) :
    checkClause word len pc = .error ⟨0x0100, pc⟩ :=
  checkClause_eq_illegal_of_len_zero (by rw [h]; decide) hin

theorem trapWarp_illegal (s : State) (w : Warp) (pc : Nat) :
    s.trapWarp w ⟨0x0100, pc⟩ = w.members.foldl (fun s k => s.takeTrap k ⟨0x0100, 0, 0⟩ (BitVec.ofNat 64 pc)) s := rfl

/-- Settles O22: the two encodings by evaluation, `nop` by the rule of a member that goes on, and a word of zeros as a header
with LEN 0. -/
theorem nopAndZeroWords : Obligations.NopAndZeroWords :=
  ⟨decodeWord_nop, encodeWord_nop, fun _ _ _ _ _ => nop_executes_goesOn,
    fun _ _ _ => checkClause_eq_illegal_of_word_zero, trapWarp_illegal⟩

end Sys2Proof.Proofs
end

section
/-! PROOF. The trap of a fibre in the privileged view (R232). -/

namespace Sys2Proof.Proofs

open Sys2Proof.Machine Sys2Proof.Safety Sys2Proof.Claims Sys2Proof.Laws

/-! ## The word of ks.ecause -/

/-- sr.slot fits the eleven bits that ks.ecause has for it (R39, R42). -/
theorem slot_lt {f : Fibre} (h : f.depth < 16) : f.slot < 2 ^ 11 := by
  unfold Fibre.slot FKey.quad FKey.lane
  omega

/-- ks.ecause as a trap writes it: the code below the slot (R42). -/
def causeWord (code : Code) (slot : Nat) : Word := BitVec.ofNat 32 (code.toNat + 2 ^ 16 * slot)

theorem causeWord_toNat (code : Code) {slot : Nat} (h : slot < 2 ^ 11) :
    (causeWord code slot).toNat = code.toNat + 2 ^ 16 * slot := by
  have hc := code.isLt
  rw [causeWord, BitVec.toNat_ofNat]
  omega

theorem causeWord_code (code : Code) {slot : Nat} (h : slot < 2 ^ 11) : (causeWord code slot).extractLsb' 0 16 = code := by
  apply BitVec.eq_of_toNat_eq
  have hc := code.isLt
  rw [BitVec.extractLsb'_toNat, causeWord_toNat code h, Nat.shiftRight_zero]
  omega

theorem causeWord_slot (code : Code) {slot : Nat} (h : slot < 2 ^ 11) :
    ((causeWord code slot).extractLsb' 16 11).toNat = slot := by
  have hc := code.isLt
  rw [BitVec.extractLsb'_toNat, causeWord_toNat code h, Nat.shiftRight_eq_div_pow]
  omega

theorem causeWord_reserved (code : Code) {slot : Nat} (h : slot < 2 ^ 11) : (causeWord code slot).extractLsb' 27 5 = 0 := by
  apply BitVec.eq_of_toNat_eq
  have hc := code.isLt
  rw [BitVec.extractLsb'_toNat, causeWord_toNat code h, Nat.shiftRight_eq_div_pow]
  change _ = 0
  omega

/-! ## The trap -/

/-- The fibre after its privileged trap (R232). -/
def atVector (t : TrapInfo) (pc : Dword) (f : Fibre) : Fibre :=
  { f with ksEpc := pc, ksEcause := causeWord t.code f.slot, pc := f.ksTrapvec, clause := none, cond := .unbatched }

/-- All that a privileged trap does: no record and no hold. -/
theorem takeTrap_privileged {s : State} {k : FKey} {f : Fibre} (t : TrapInfo) (pc : Dword) (hf : s.fib? k = some f)
    (hp : s.isPriv k = true) : s.takeTrap k t pc = (s.modFib k (atVector t pc)).leaveWarp k := by
  simp only [State.takeTrap, hf, hp, if_true]
  rfl

theorem leaveWarp_not_member (s : State) (k : FKey) : ∀ w ∈ (s.leaveWarp k).warps, k ∉ w.members := by
  intro w hw hk
  obtain ⟨v, _, hv⟩ := mem_leaveWarp hw
  rw [hv] at hk
  simpa using (List.mem_filter.mp hk).2

theorem takeTrap_privileged_fib {s : State} {k : FKey} {f : Fibre} (t : TrapInfo) (pc : Dword) (hf : s.fib? k = some f)
    (hp : s.isPriv k = true) : (s.takeTrap k t pc).fib? k = some (atVector t pc f) := by
  rw [takeTrap_privileged t pc hf hp]
  exact fib_modFib_same hf fun _ hk => hk

theorem takeTrap_othersKept (s : State) (k : FKey) (t : TrapInfo) (pc : Dword) : OthersKept [k] s (s.takeTrap k t pc) := by
  intro j f hj hf
  obtain ⟨g, hg, hsame⟩ := (takeTrap_around s k t pc).other j f (List.ne_of_not_mem_cons hj) hf
  exact ⟨g.cond, g.monitor, hg.trans (congrArg some hsame)⟩

/-- Bytes are held in no fibre, no warp and no service queue. -/
theorem takeTrap_memKept (s : State) (k : FKey) (t : TrapInfo) (pc : Dword) : MemKept s (s.takeTrap k t pc) := by
  intro l n
  rw [(takeTrap_around s k t pc).rest]
  rfl

/-- Settles O17: the trap is one update of the fibre, which then leaves its warp, and ks.ecause reads back field by field. -/
theorem aPrivilegedTrapGoesToItsVector : Obligations.APrivilegedTrapGoesToItsVector := by
  intro s k f t pc hf hp hd
  have hslot := slot_lt hd
  refine ⟨causeWord t.code f.slot, f.faultCode, f.faultOpnd, f.faultValid, causeWord_code _ hslot, causeWord_slot _ hslot,
    causeWord_reserved _ hslot, takeTrap_privileged_fib t pc hf hp, ?_, takeTrap_othersKept s k t pc,
    takeTrap_memKept s k t pc, ?_⟩
  · rw [takeTrap_privileged t pc hf hp]
    exact leaveWarp_not_member _ k
  · rw [takeTrap_privileged t pc hf hp]
    rfl

end Sys2Proof.Proofs
end
